-- ==== Sys2Proof/Word.lean ====
section
/-! DEFINITION. The words of the block: 32-bit registers, 8-bit bytes, and the 128-bit code value. -/

namespace Sys2Proof

/-- A register or bus word, 32 bits (`u32` of R11). -/
abbrev Word := BitVec 32

/-- A byte (`u8` of R11). -/
abbrev Byte := BitVec 8

/-- A stored code, right-aligned in 128 bits (R50, R109). -/
abbrev Code := BitVec 128

end Sys2Proof
end

