-- ==== Sys2Proof/Syntax.lean ====
section
/-! DEFINITION. The commands: one constructor for each row of the opcode table (R95). -/

namespace Sys2Proof

/-- A command, with the operand its word carries. Only WBIT and WBYTE use IMM8 (R92); WINT32 and PQ_PUSH read ARG and
ARG2, which are state (R94). -/
inductive Instr where
  /-- WBIT: write one bit, `imm8[0]` (R128). R92 allows `imm8` only 0 and 1: see `Instr.wellFormed`. -/
  | wbit (imm8 : Byte)
  /-- WBYTE: write the byte `imm8` (R129). -/
  | wbyte (imm8 : Byte)
  /-- WINT32: write ARG as 32 bits (R130). -/
  | wint32
  /-- WFLUSH: pad and append the pending partial byte (R131). -/
  | wflush
  /-- WCLOSE: flush, then signal the sink close (R132). -/
  | wclose
  /-- RBIT: read one bit (R133). -/
  | rbit
  /-- RBYTE: read 8 bits (R134). -/
  | rbyte
  /-- RINT32: read 32 bits (R135). -/
  | rint32
  /-- RCLOSE: discard buffered bits and signal the source close (R136). -/
  | rclose
  /-- PQ_PUSH: insert the entry of ARG and ARG2 (R158). -/
  | pqPush
  /-- PQ_POP: remove the root (R159). -/
  | pqPop
  /-- PQ_TOP: read the root (R160). -/
  | pqTop
  /-- PQ_SIZE: report the entry count (R161). -/
  | pqSize
  /-- PQ_CLEAR: empty the queue (R162). -/
  | pqClear
  /-- COMPRESS: encode the source stream into the sink (R181). -/
  | compress
  /-- DECOMPRESS: decode one artifact from the source into the sink (R200). -/
  | decompress
  deriving DecidableEq, Repr

end Sys2Proof
end

