-- ==== Sys2Proof/WellFormed.lean ====
section
/-! DEFINITION. Which command terms the command word can carry. -/

namespace Sys2Proof

/-- R92: WBIT's IMM8[7:1] must be 0; WBYTE takes every IMM8; every other command carries no operand in its word. -/
def Instr.wellFormed : Instr → Bool
  | .wbit imm8 => imm8.extractLsb' 1 7 == 0#7
  | .wbyte _ => true
  | .wint32 => true
  | .wflush => true
  | .wclose => true
  | .rbit => true
  | .rbyte => true
  | .rint32 => true
  | .rclose => true
  | .pqPush => true
  | .pqPop => true
  | .pqTop => true
  | .pqSize => true
  | .pqClear => true
  | .compress => true
  | .decompress => true

end Sys2Proof
end

