-- ==== Sys2Proof/Decode.lean ====
section
/-! DEFINITION. From a command word to a command, total, refusing by name (R90 to R98), and back. -/

namespace Sys2Proof

/-- OPCODE, bits [7:0] of the command word (R90, R91). -/
def opcodeField (w : Word) : Byte := w.extractLsb' 0 8

/-- IMM8, bits [15:8] of the command word (R90, R92). -/
def imm8Field (w : Word) : Byte := w.extractLsb' 8 8

/-- RSVD, bits [31:16] of the command word (R90, R93). -/
def rsvdField (w : Word) : BitVec 16 := w.extractLsb' 16 16

/-- The three tests of R96, by name. -/
inductive DecodeError where
  /-- Test (a): the OPCODE is not in the table of R95. -/
  | unknownOpcode
  /-- Test (b): RSVD is not 0. -/
  | reservedBits
  /-- Test (c): IMM8 does not meet R92 for the OPCODE. -/
  | badImmediate
  deriving DecidableEq, Repr

/-- The opcode table of R95: the command an OPCODE selects, with IMM8 as its operand where it has one. -/
def ofOpcode (opcode imm8 : Byte) : Option Instr :=
  match opcode.toNat with
  | 0x01 => some (.wbit imm8)
  | 0x02 => some (.wbyte imm8)
  | 0x03 => some .wint32
  | 0x04 => some .wflush
  | 0x05 => some .wclose
  | 0x11 => some .rbit
  | 0x12 => some .rbyte
  | 0x13 => some .rint32
  | 0x14 => some .rclose
  | 0x21 => some .pqPush
  | 0x22 => some .pqPop
  | 0x23 => some .pqTop
  | 0x24 => some .pqSize
  | 0x25 => some .pqClear
  | 0x31 => some .compress
  | 0x32 => some .decompress
  | _ => none

/-- The OPCODE of a command (R95). -/
def Instr.opcode : Instr → Byte
  | .wbit _ => 0x01#8
  | .wbyte _ => 0x02#8
  | .wint32 => 0x03#8
  | .wflush => 0x04#8
  | .wclose => 0x05#8
  | .rbit => 0x11#8
  | .rbyte => 0x12#8
  | .rint32 => 0x13#8
  | .rclose => 0x14#8
  | .pqPush => 0x21#8
  | .pqPop => 0x22#8
  | .pqTop => 0x23#8
  | .pqSize => 0x24#8
  | .pqClear => 0x25#8
  | .compress => 0x31#8
  | .decompress => 0x32#8

/-- The IMM8 field a command's word carries (R92, R95): 0x00 for every command but WBIT and WBYTE. -/
def Instr.imm8 : Instr → Byte
  | .wbit imm8 => imm8
  | .wbyte imm8 => imm8
  | .wint32 => 0#8
  | .wflush => 0#8
  | .wclose => 0#8
  | .rbit => 0#8
  | .rbyte => 0#8
  | .rint32 => 0#8
  | .rclose => 0#8
  | .pqPush => 0#8
  | .pqPop => 0#8
  | .pqTop => 0#8
  | .pqSize => 0#8
  | .pqClear => 0#8
  | .compress => 0#8
  | .decompress => 0#8

/-- R98: the decoder reads OPCODE, checks RSVD and IMM8, and depends on nothing but the word. R93 and R92 give the checks:
the operand-free commands need IMM8 = 0x00, WBIT needs IMM8[7:1] = 0. -/
def decode (w : Word) : Except DecodeError Instr :=
  match ofOpcode (opcodeField w) (imm8Field w) with
  | none => .error .unknownOpcode
  | some i =>
    if rsvdField w = 0#16 then
      if i.imm8 = imm8Field w ∧ i.wellFormed = true then .ok i else .error .badImmediate
    else .error .reservedBits

/-- The command word of a command: RSVD = 0, IMM8, OPCODE (R90, R95). -/
def encode (i : Instr) : Word := 0#16 ++ i.imm8 ++ i.opcode

/-- The decoder on a word numbered as the opcode table numbers it; the bits at `nbits` and above are 0. -/
def decodeTableWord (nbits w : Nat) : Option Instr :=
  match decode (BitVec.ofNat 32 (w % 2 ^ nbits)) with
  | .ok i => some i
  | .error _ => none

end Sys2Proof
end

