-- ==== Sys2Proof/Config.lean ====
section
/-! DEFINITION. What is fixed for one instance of the block: its parameters, its constants, and the one value the
spec leaves unspecified. -/

namespace Sys2Proof

/-- The parameters that R7 and `93_implementation_defined.md` U18 to U21 mark OPEN. One value of this type is one
instance of the block; State carries it as a constant field, so a claim about every state is a claim about every instance. -/
structure Params where
  /-- PQ_CAP, 128 to 65535 (R7, U18). -/
  pqCap : Nat
  /-- INBUF_CAP, 1 to 2^31 - 1 bytes (R7, U19). -/
  inbufCap : Nat
  /-- HC_BASE, the window's base address on the host bus (R60, U20). -/
  hcBase : Nat
  /-- HC_RST_POLARITY: whether a high level asserts HC_RST (R260, U21). -/
  hcRstActiveHigh : Bool
  deriving DecidableEq, Repr

/-- The ranges R7 gives the parameters. -/
abbrev Params.legal (p : Params) : Prop :=
  128 ≤ p.pqCap ∧ p.pqCap ≤ 65535 ∧ 1 ≤ p.inbufCap ∧ p.inbufCap ≤ 2147483647

/-- The instance `State.reset` stands for. DESIGN CHOICE (log 1), unsafe: the spec leaves all four values open. -/
def Params.default : Params where
  pqCap := 128
  inbufCap := 65536
  hcBase := 0
  hcRstActiveHigh := true

namespace Config

/-- ALPHABET: the 128 symbols 0x00 to 0x7F (R7). -/
def alphabet : Nat := 128

/-- NODE_CAP: entries of the node arena (R7, R51). -/
def nodeCap : Nat := 255

/-- STACK_DEPTH: entries of the traversal stack (R7, R53). -/
def stackDepth : Nat := 255

/-- The size of the register window in bytes (R7, R22). -/
def windowBytes : Nat := 4096

/-- The constant of the ID register, ASCII "HUFF" (R24). -/
def idValue : Word := 0x48554646#32

/-- The constant of the VERSION register: major 1, minor 0 (R25). -/
def versionValue : Word := 0x00010000#32

/-- What a read of a FREQ, CODE_LEN or CODE_BITS window word returns while BUSY = 1: "an unspecified value (any value)"
(R77, U1). A free value: it depends on the offset read and on the number of such reads before it (log 6). -/
opaque windowWhileBusy : Nat → Nat → Word

end Config

end Sys2Proof
end

