-- ==== Sys2Proof/Machine/State.lean ====
section
/-! DEFINITION. The state of the block as plain data: the register file of R22, the internal memories of R48 to R53, the
hidden state of R54 to R56, and the devices and inputs around the block. -/

namespace Sys2Proof.Machine

/-! ## Values with names -/

/-- The queue's ordering, CTRL.PQ_MODE (R28, R151). -/
inductive Mode where
  /-- 0: the smallest (key, tie) first. -/
  | min
  /-- 1: the largest (key, tie) first. -/
  | max
  deriving DecidableEq, Repr

/-- The phases of R111. The codes 13 to 15 are never shown and have no constructor (U11). -/
inductive Phase where
  | idle
  | prim
  | cScan
  | cLeaves
  | cBuild
  | cSerial
  | cCount
  | cPayload
  | cClose
  | dTree
  | dCount
  | dDecode
  | dClose
  deriving DecidableEq, Repr

/-- The error codes of R231. The reserved codes 0x0B to 0xFF are never reported and have no constructor. -/
inductive ErrCode where
  | none
  | illegal
  | eos
  | underflow
  | overflow
  | symbol
  | tooLong
  | treeOverflow
  | badCount
  | ioSrc
  | ioSnk
  deriving DecidableEq, Repr

/-! ## Registers with fields -/

/-- The ERR register (R30). -/
structure ErrReg where
  code : ErrCode
  opcode : Byte
  phase : Phase
  deriving DecidableEq, Repr

/-- The fields of ARG2 and RESULT2: TIE [7:0] and TAG [15:8] (R32, R34). -/
structure TieTag where
  tie : Byte
  tag : Byte
  deriving DecidableEq, Repr

/-- A bit cursor: the one-byte buffer and the 4-bit count (R54, R55). -/
structure Cursor where
  buf : Byte
  cnt : BitVec 4
  deriving DecidableEq, Repr

/-! ## Internal memories -/

/-- INBUF: a byte memory as (address, byte) pairs with addresses strictly rising; an address not listed holds no value
(R48, U2; log 7). -/
abbrev Memory := List Host.Cell

/-- A queue entry (R107). -/
structure Entry where
  key : Word
  tie : Byte
  tag : Byte
  deriving DecidableEq, Repr

/-- A node of the arena (R15, R51, R108). -/
inductive Node where
  | leaf (sym : Byte) (freq : Word)
  | internal (freq : Word) (left right : Byte)
  deriving DecidableEq, Repr

/-- A pending internal node on the traversal stack (R53) and which of its subtrees is under way: the left one, or the right. -/
structure Frame where
  node : Byte
  right : Bool
  deriving DecidableEq, Repr

/-- The frequency table (R49) and the code table (R50), one entry for each of the 128 symbols. -/
structure Tables where
  freq : Vector Word 128
  codeLen : Vector Byte 128
  codeBits : Vector Code 128
  deriving DecidableEq, Repr

/-! ## The SEQUENCER -/

/-- The latched command state of R56. -/
structure Latch where
  opcode : Byte
  imm8 : Byte
  arg : Word
  arg2 : TieTag
  /-- The effective comparator mode: CTRL.PQ_MODE for host queue commands, MIN during COMPRESS. -/
  mode : Mode
  deriving DecidableEq, Repr

/-- What follows when the sink answers IoErr to an append. -/
inductive SinkFail where
  /-- E_IO_SNK at once (R120, R123, R206). -/
  | raise
  /-- E_IO_SNK after the close event (WCLOSE, R132). -/
  | afterClose
  /-- Nothing: the first error is kept (cleanup, R235). -/
  | ignore
  deriving DecidableEq, Repr

/-- The primitive steps of the SEQUENCER (R9): what the pseudocode of the commands is made of. The SEQUENCER's position
inside a command (R21) is the list of those still to run. -/
inductive Micro where
  /-- `WriteBit(b)` (R120). -/
  | writeBit (b : Bool)
  /-- `SnkWrite(b)` of a byte already taken out of the cursor (R120, R123), or of a decoded symbol (R206). -/
  | append (b : Byte) (onFail : SinkFail)
  /-- WBIT's operand: IMM8[0] (R128). -/
  | writeImmBit
  /-- WBYTE's operand: IMM8, MSB first (R129). -/
  | writeImmByte
  /-- WINT32's operand: the latched ARG, MSB first (R130). -/
  | writeArg
  /-- `Flush()` (R123). -/
  | flush (onFail : SinkFail)
  /-- `SnkClose()` (R68). -/
  | snkClose
  /-- `SrcClose()` (R68). -/
  | srcClose
  /-- `v <- 0` of a multi-bit read (R125, R126). -/
  | clearValue
  /-- `v <- v : ReadBit()` (R124). -/
  | readBit
  /-- `RBUF <- 0 ; RCNT <- 0` (R136, R210, R235). -/
  | dropReader
  /-- `x[RESULT] <- v` (R133 to R135). -/
  | resultValue
  /-- `Push(e)` of the latched operands (R158). -/
  | pqPush
  /-- PQ_POP's effect (R159). -/
  | pqPop
  /-- PQ_TOP's effect (R160). -/
  | pqTop
  /-- PQ_SIZE's effect (R161). -/
  | pqSize
  /-- PQ_CLEAR's effect (R162). -/
  | pqClear
  /-- `PHASE <- p`. -/
  | enterPhase (p : Phase)
  /-- `CInit` (R182). -/
  | cInit
  /-- The loop of `Scan`, one source byte a turn (R183). -/
  | scan
  /-- `MakeLeaves` (R184). -/
  | makeLeaves
  /-- `Build` (R186). -/
  | build
  /-- `Ser(ROOT, [])` (R190). -/
  | serialize
  /-- `Ser(n, path)`, the path being the traversal stack (R190). -/
  | serNode (n : Byte)
  /-- `RecordCode(s, path)` (R191). -/
  | recordCode (sym : Byte)
  /-- Return from a finished subtree to the pending node above it (R190). -/
  | serReturn
  /-- `WriteInt32(INLEN)` (R192). -/
  | writeCount
  /-- The loop of `EmitPayload`, from input position `i` on (R193). -/
  | payload (i : Nat)
  /-- `NODE_COUNT <- 0`: release the tree (R194, R210, R235). -/
  | release
  /-- `DInit` (R201). -/
  | dInit
  /-- `ReadTree()` after its tag bit has been read (R202, R203). -/
  | treeToken
  /-- `Alloc(Leaf(s, 0))` after the symbol's 8 bits have been read (R202). -/
  | treeLeaf
  /-- Return of node `n` from `ReadTree()` to the pending node above it (R202). -/
  | treeReturn (n : Byte)
  /-- The end of `ReadCount()`, after the 32 bits have been read (R205). -/
  | takeCount
  /-- The loop of `Decode`, with `k` positions still to decode (R206). -/
  | decode (k : Nat)
  /-- The walk of one position at node `n`, with `k` positions to decode after it (R206). -/
  | walk (n : Byte) (k : Nat)
  /-- One walk step out of internal node `n`, after its bit has been read (R206). -/
  | branch (n : Byte) (k : Nat)
  /-- `raise E_X`. -/
  | raise (e : ErrCode)
  /-- Step 4 of R234, with what step 1 latched. -/
  | fail (e : ErrCode) (opcode : Byte) (phase : Phase)
  /-- Completion without error (R240). -/
  | done
  deriving DecidableEq, Repr

/-- The SEQUENCER (R8, R21): the phase, the steps still to run, the traversal stack, the value a multi-bit read is
assembling, and the latched command. -/
structure Sequencer where
  phase : Phase
  todo : List Micro
  stack : List Frame
  value : Word
  latch : Option Latch
  deriving DecidableEq, Repr

/-- No command running (R58, R261). -/
def Sequencer.idle : Sequencer where
  phase := .idle
  todo := []
  stack := []
  value := 0#32
  latch := none

/-! ## The ports and the devices on them -/

/-- An answer of the SOURCE (R66). -/
inductive SrcAnswer where
  | byte (b : Byte)
  | ended
  | ioErr
  deriving DecidableEq, Repr

/-- An answer of the SINK (R67). -/
inductive SnkAnswer where
  | ok
  | ioErr
  deriving DecidableEq, Repr

/-- What an open source stream still has to answer before its end: bytes, and IoErr answers where the draw `SRC_IOERR_AT`
puts them (R66, U13). -/
inductive SrcItem where
  | byte (b : Byte)
  | ioErr
  deriving DecidableEq, Repr

/-- One source stream: its items, and what comes after them. `ended`: End forever (R66). Not `ended`: no answer yet; more
items may come later (U14). -/
structure SrcStream where
  items : List SrcItem
  ended : Bool
  deriving DecidableEq, Repr

/-- The SOURCE (R66, R68; log 3). -/
structure Source where
  /-- False after a reset abandoned a command, until the platform attaches a stream again (R278, U15). -/
  known : Bool
  /-- The open stream; none after a SrcClose, until the next transaction begins a new one. -/
  current : Option SrcStream
  /-- The streams attached and not yet begun, in order. With none open or attached the source answers End: an empty stream
  (log 4). -/
  attached : List SrcStream
  deriving DecidableEq, Repr

/-- The SINK (R67; log 5): the answers the draw `SNK_IOERR_AT` gives its next transactions, and what comes after them: Ok
forever, or no answer yet. -/
structure Sink where
  known : Bool
  answers : List SnkAnswer
  thenOk : Bool
  deriving DecidableEq, Repr

/-- One event on the ports (R82). -/
inductive PortEvent where
  | srcByte (b : Byte)
  | srcEnd
  | srcIoErr
  | snkOk (b : Byte)
  | snkIoErr (b : Byte)
  | srcClose
  | snkClose
  deriving DecidableEq, Repr

/-- The two ports: the devices on them, and the total order of port events so far (R82), newest first. -/
structure Ports where
  src : Source
  snk : Sink
  trace : List PortEvent
  deriving DecidableEq, Repr

/-! ## The host bus and the other inputs -/

/-- A host access: its bus address, how many bytes it moves, and the data of a write (none for a read) (R60, R61). -/
structure Access where
  addr : Nat
  bytes : Nat
  write : Option Word
  deriving DecidableEq, Repr

/-- What the block answers to a host access (R61): nothing yet, read data, an acknowledged write, a bus error. -/
inductive BusReply where
  | none
  | data (w : Word)
  | ack
  | busError
  deriving DecidableEq, Repr

/-- What the outside world does to the block or its devices (R8, R260, R264, R278). -/
inductive Event where
  /-- A host access. -/
  | access (a : Access)
  /-- The level of the HC_RST pin. -/
  | hcRst (level : Bool)
  /-- The platform attaches a source stream, to begin after those attached before it. -/
  | attachSource (st : SrcStream)
  /-- The source stream that the next transaction meets gets more items, and may end after them. -/
  | sourceAnswers (items : List SrcItem) (ended : Bool)
  /-- The platform attaches a sink, which takes over at once, without a SnkClose. DESIGN CHOICE (log 26): R68 leaves open when. -/
  | attachSink (answers : List SnkAnswer) (thenOk : Bool)
  /-- The sink's next answers. -/
  | sinkAnswers (answers : List SnkAnswer) (thenOk : Bool)
  deriving DecidableEq, Repr

/-! ## The state -/

/-- The machine. A comment gives the rule of each field. -/
structure State where
  /-- The instance's parameters, constant (R7, R26). -/
  params : Params
  /-- CTRL.PQ_MODE (R28). -/
  pqMode : Mode
  /-- STATUS.BUSY (R29). -/
  busy : Bool
  /-- STATUS.ERR (R29). -/
  err : Bool
  /-- STATUS.OVR (R29). -/
  ovr : Bool
  /-- ERR (R30). -/
  errReg : ErrReg
  /-- ARG (R31). -/
  arg : Word
  /-- ARG2 (R32). -/
  arg2 : TieTag
  /-- RESULT (R33). -/
  result : Word
  /-- RESULT2 (R34). -/
  result2 : TieTag
  /-- HEAP[0..size-1] in array order; PQ_SIZE is its length (R35, R52). -/
  heap : List Entry
  /-- The writer cursor WBUF, WCNT (R36, R54). -/
  wr : Cursor
  /-- The reader cursor RBUF, RCNT (R37, R55). -/
  rd : Cursor
  /-- SYMCOUNT (R38). -/
  symcount : Word
  /-- SRC_COUNT (R39). -/
  srcCount : Word
  /-- SNK_COUNT (R40). -/
  snkCount : Word
  /-- TREE_NODES (R41). -/
  treeNodes : Word
  /-- INT_PENDING.DONE (R42). -/
  intDone : Bool
  /-- INT_PENDING.ERROR (R42). -/
  intError : Bool
  /-- INT_ENABLE.DONE_IE (R43). -/
  doneIe : Bool
  /-- INT_ENABLE.ERROR_IE (R43). -/
  errorIe : Bool
  /-- FREQ, CODE_LEN, CODE_BITS (R49, R50). -/
  tables : Tables
  /-- INBUF (R48). -/
  inbuf : Memory
  /-- INLEN (R48). -/
  inlen : Word
  /-- NODE[0..NODE_COUNT-1] in order of allocation; NODE_COUNT is its length (R51). -/
  nodes : List Node
  /-- ROOT (R51). -/
  root : Byte
  /-- PHASE, the position in the running command, the traversal stack, the latched command (R21, R29, R53, R56). -/
  seq : Sequencer
  /-- The source and sink ports (R66 to R68, R82). -/
  ports : Ports
  /-- Whether HC_RST is asserted (R260). -/
  inReset : Bool
  /-- The answer to the last host access (R61). -/
  reply : BusReply
  /-- The inputs still to come, in order. -/
  events : List Event
  /-- The model's own: how many unspecified window reads there have been (U1, log 6). -/
  draws : Nat
  deriving DecidableEq, Repr

/-- The devices right after power-on: nothing attached, the source answers End, the sink answers Ok. DESIGN CHOICE
(log 4), unsafe: R261 gives the devices no row. -/
def Ports.reset : Ports where
  src := { known := true, current := none, attached := [] }
  snk := { known := true, answers := [], thenOk := true }
  trace := []

/-- The reset state of R261 for an instance of the block. -/
def State.resetOf (p : Params) : State where
  params := p
  pqMode := .min
  busy := false
  err := false
  ovr := false
  errReg := ⟨.none, 0#8, .idle⟩
  arg := 0#32
  arg2 := ⟨0#8, 0#8⟩
  result := 0#32
  result2 := ⟨0#8, 0#8⟩
  heap := []
  wr := ⟨0#8, 0#4⟩
  rd := ⟨0#8, 0#4⟩
  symcount := 0#32
  srcCount := 0#32
  snkCount := 0#32
  treeNodes := 0#32
  intDone := false
  intError := false
  doneIe := false
  errorIe := false
  tables := ⟨.replicate 128 0#32, .replicate 128 0#8, .replicate 128 0#128⟩
  inbuf := []
  inlen := 0#32
  nodes := []
  root := 0#8
  seq := .idle
  ports := .reset
  inReset := false
  reply := .none
  events := []
  draws := 0

/-- The machine right after reset (R261, R262), of the default instance (log 1). -/
def State.reset : State := .resetOf .default

/-! ## The ways a step can stop -/

/-- Why the machine stops with a fault. -/
inductive Fault where
  /-- `EmitPayload` meets an INBUF byte that was never written. Raised by `payload` only; R261 says it is never read. Safe:
  the machine stops where the hardware would read an unspecified byte. -/
  | inbufUnwritten
  /-- A tree walk meets an arena entry at or above NODE_COUNT. Raised by `serNode`, `serReturn`, `treeReturn`, `walk` and
  `branch` only; R261 says it is never read. Safe, for the same reason. -/
  | nodeUnallocated
  deriving DecidableEq, Repr

/-- Why a step is refused. -/
inductive Refusal where
  /-- An instruction that has no meaning yet. Raised by no arm of `exec`. Safe. -/
  | notModelled (mnemonic : String)
  /-- A port transaction on a stream whose state is the platform's, after a reset abandoned a command (R278, U15).
  Raised by `srcRead` and `snkWrite`. Safe: the spec says nothing of what follows. -/
  | streamsUnattached
  /-- The source has answered End and, before the next SrcClose, would answer something else (R66, U12). Raised by the input
  event `sourceAnswers` only, in no other case. Safe: a precondition of every claim. -/
  | sourceDuty
  deriving DecidableEq, Repr

end Sys2Proof.Machine
end

