-- ==== Sys2Proof/Machine/Operands.lean ====
section
/-! DEFINITION. The operand and field forms: bit orders, packed registers, and the codes of phases and errors. -/

namespace Sys2Proof.Machine

/-! ## Bits and their order -/

/-- The bits of a value, most-significant first: the order in which a multi-bit field is written (R70, R121, R122). -/
def msbFirst {n : Nat} (v : BitVec n) : List Bool :=
  (List.range n).map fun i => v.getLsbD (n - 1 - i)

/-- A bit as a number of width `n`. -/
def bitVal (n : Nat) (b : Bool) : BitVec n := if b then 1#n else 0#n

/-- `v[n-2:0] : b`: shift a bit in at bit 0 (R120, R125, R126). -/
def shiftIn {n : Nat} (v : BitVec n) (b : Bool) : BitVec n := (v <<< 1) ||| bitVal n b

/-- The code value of a path, `path[0]` at bit L-1 (R109, R191). -/
def codeOfPath (path : List Bool) : Code := path.foldl shiftIn 0#128

/-- The bits of a stored code of length `len`, `CODE_BITS[len-1]` first (R193). -/
def codePath (len : Byte) (bits : Code) : List Bool :=
  (List.range len.toNat).map fun i => bits.getLsbD (len.toNat - 1 - i)

/-! ## Packed registers -/

/-- TIE in [7:0], TAG in [15:8], the rest 0: ARG2 and RESULT2 (R32, R34). -/
def TieTag.toWord (x : TieTag) : Word := 0#16 ++ x.tag ++ x.tie

/-- The writable fields of a host write to ARG2 (R32). -/
def TieTag.ofWord (v : Word) : TieTag := ⟨v.extractLsb' 0 8, v.extractLsb' 8 8⟩

/-- buf in [7:0], cnt in [11:8], the rest 0: WSTATE and RSTATE (R36, R37). -/
def Cursor.toWord (c : Cursor) : Word := 0#20 ++ c.cnt ++ c.buf

/-- The empty cursor (R54, R55). -/
def Cursor.empty : Cursor := ⟨0#8, 0#4⟩

/-- STATUS.PHASE and ERR.PHASE (R111). -/
def Phase.code : Phase → BitVec 4
  | .idle => 0#4
  | .prim => 1#4
  | .cScan => 2#4
  | .cLeaves => 3#4
  | .cBuild => 4#4
  | .cSerial => 5#4
  | .cCount => 6#4
  | .cPayload => 7#4
  | .cClose => 8#4
  | .dTree => 9#4
  | .dCount => 10#4
  | .dDecode => 11#4
  | .dClose => 12#4

/-- ERR.CODE (R231). -/
def ErrCode.code : ErrCode → Byte
  | .none => 0x00#8
  | .illegal => 0x01#8
  | .eos => 0x02#8
  | .underflow => 0x03#8
  | .overflow => 0x04#8
  | .symbol => 0x05#8
  | .tooLong => 0x06#8
  | .treeOverflow => 0x07#8
  | .badCount => 0x08#8
  | .ioSrc => 0x09#8
  | .ioSnk => 0x0A#8

/-- CODE in [7:0], OPCODE in [15:8], PHASE in [19:16], the rest 0 (R30). -/
def ErrReg.toWord (e : ErrReg) : Word := 0#12 ++ e.phase.code ++ e.opcode ++ e.code.code

/-- The value of ERR when no error is recorded (R30). -/
def ErrReg.clear : ErrReg := ⟨.none, 0#8, .idle⟩

/-- CTRL.PQ_MODE as a bit (R28). -/
def Mode.toBit : Mode → Bool
  | .min => false
  | .max => true

/-- The mode a bit selects: 0 is MIN, 1 is MAX (R28). -/
def Mode.ofBit (b : Bool) : Mode := if b then .max else .min

/-! ## The operands of a command -/

/-- The latched command (R56); an idle SEQUENCER holds none and shows zeros to no one (log 14). -/
def State.latched (s : State) : Latch :=
  s.seq.latch.getD ⟨0#8, 0#8, 0#32, ⟨0#8, 0#8⟩, .min⟩

/-- PQ_PUSH's entry: key = ARG, tie = ARG2.TIE, tag = ARG2.TAG, as latched (R94, R107, R158). -/
def Latch.entry (l : Latch) : Entry := ⟨l.arg, l.arg2.tie, l.arg2.tag⟩

end Sys2Proof.Machine
end

