-- ==== Sys2Proof/Machine/Ops.lean ====
section
/-! DEFINITION. The named operations over the memories, the ports, the cursors, the queue and the arena, and taking an
error and returning from one. -/

namespace Sys2Proof.Machine

/-! ## INBUF -/

/-- The byte at an address; none where nothing was written (R48, U2). -/
def Memory.read : Memory → Nat → Option Byte
  | [], _ => none
  | (k, b) :: m, a => if k = a then some b else Memory.read m a

/-- Store a byte, keeping the addresses strictly rising. -/
def Memory.write : Memory → Nat → Byte → Memory
  | [], a, v => [(a, v)]
  | (k, b) :: m, a, v =>
    if k < a then (k, b) :: Memory.write m a v
    else if k = a then (a, v) :: m
    else (a, v) :: (k, b) :: m

/-- The canonical form: addresses strictly rising. An unlisted address holds no value, so every entry is one an unlisted
address does not read as. -/
abbrev Memory.wf (m : Memory) : Prop := m.Pairwise fun x y => x.1 < y.1

/-! ## The outcome of one primitive step -/

/-- What a primitive step of the SEQUENCER comes to. -/
inductive Move where
  /-- The step is done. -/
  | go (s : State)
  /-- `raise E_X`, with the state at the raise (R13, R234). -/
  | raise (e : ErrCode) (s : State)
  /-- The step waits for a port that has not answered (R9, R66, R67). -/
  | wait
  /-- The machine stops with a fault. -/
  | stop (f : Fault)
  /-- The step is refused. -/
  | refuse (r : Refusal)
  deriving DecidableEq, Repr

/-- Go on with `f` where a step is done. -/
def Move.andThen (m : Move) (f : State → Move) : Move :=
  match m with
  | .go s => f s
  | .raise e s => .raise e s
  | .wait => .wait
  | .stop x => .stop x
  | .refuse r => .refuse r

/-- Put steps in front of those still to run. -/
def State.before (s : State) (ops : List Micro) : State :=
  { s with seq := { s.seq with todo := ops ++ s.seq.todo } }

/-- `PHASE <- p`. -/
def State.enter (s : State) (p : Phase) : State := { s with seq := { s.seq with phase := p } }

/-! ## Port transactions -/

/-- What a port transaction comes to: an answer, with the state after it; no answer yet; a refusal. -/
inductive Reply (α : Type) where
  | answer (a : α) (s : State)
  | wait
  | refuse (r : Refusal)
  deriving DecidableEq, Repr

/-- Go on with `f` where the device has answered. -/
def Reply.andThen {α : Type} (r : Reply α) (f : α → State → Move) : Move :=
  match r with
  | .answer a s => f a s
  | .wait => .wait
  | .refuse x => .refuse x

/-- The stream the next source transaction meets, and the streams attached after it: the open one, else the next one attached
("a new stream begins at the device after a close", R68), else an empty one (log 4). -/
def Source.next (src : Source) : SrcStream × List SrcStream :=
  match src.current, src.attached with
  | some st, attached => (st, attached)
  | none, st :: rest => (st, rest)
  | none, [] => (⟨[], true⟩, [])

/-- The source after an answer: the stream it met is open, with this left of it. -/
def Source.leaving (src : Source) (items : List SrcItem) (ended : Bool) : Source :=
  { src with current := some ⟨items, ended⟩, attached := src.next.2 }

/-- Note a port event (R82). -/
def Ports.note (p : Ports) (e : PortEvent) : Ports := { p with trace := e :: p.trace }

/-- `SrcRead()` (R66): a byte adds 1 to SRC_COUNT (R39). End is permanent until the next SrcClose. -/
def srcRead (s : State) : Reply SrcAnswer :=
  let answered (items : List SrcItem) (e : PortEvent) : Ports :=
    { s.ports with src := s.ports.src.leaving items s.ports.src.next.1.ended }.note e
  if s.ports.src.known then
    match s.ports.src.next.1.items with
    | .byte b :: items => .answer (.byte b) { s with srcCount := s.srcCount + 1, ports := answered items (.srcByte b) }
    | .ioErr :: items => .answer .ioErr { s with ports := answered items .srcIoErr }
    | [] => if s.ports.src.next.1.ended then .answer .ended { s with ports := answered [] .srcEnd } else .wait
  else .refuse .streamsUnattached

/-- `SnkWrite(b)` (R67): an Ok adds 1 to SNK_COUNT (R40). -/
def snkWrite (b : Byte) (s : State) : Reply SnkAnswer :=
  if s.ports.snk.known then
    match s.ports.snk.answers with
    | .ok :: answers =>
      .answer .ok
        { s with
          snkCount := s.snkCount + 1
          ports := { s.ports with snk := { s.ports.snk with answers := answers } }.note (.snkOk b) }
    | .ioErr :: answers =>
      .answer .ioErr { s with ports := { s.ports with snk := { s.ports.snk with answers := answers } }.note (.snkIoErr b) }
    | [] =>
      if s.ports.snk.thenOk then
        .answer .ok { s with snkCount := s.snkCount + 1, ports := s.ports.note (.snkOk b) }
      else .wait
  else .refuse .streamsUnattached

/-- `SrcClose()` (R68): a one-way event; the open stream is closed, and a close of a closed stream is a no-op at the device. -/
def srcClose (s : State) : State :=
  { s with ports := { s.ports with src := { s.ports.src with current := none } }.note .srcClose }

/-- `SnkClose()` (R68): a one-way event. -/
def snkClose (s : State) : State := { s with ports := s.ports.note .snkClose }

/-! ## The bit writer and the bit reader -/

/-- `WriteBit(b)` (R120): the eighth bit empties the cursor and appends the byte. -/
def writeBit (b : Bool) (s : State) : State :=
  let buf := shiftIn s.wr.buf b
  let cnt := s.wr.cnt + 1#4
  if cnt = 8#4 then { s with wr := .empty }.before [.append buf .raise]
  else { s with wr := ⟨buf, cnt⟩ }

/-- `Flush()` (R123): 1 to 7 pending bits are shifted to the top of a byte, the cursor is emptied, the byte is appended. -/
def flush (onFail : SinkFail) (s : State) : State :=
  if 1 ≤ s.wr.cnt.toNat ∧ s.wr.cnt.toNat ≤ 7 then
    { s with wr := .empty }.before [.append (s.wr.buf <<< (8 - s.wr.cnt.toNat)) onFail]
  else s

/-- The append of R120, R123 and R206, and what an IoErr answer does there. -/
def appendByte (b : Byte) (onFail : SinkFail) (s : State) : Move :=
  (snkWrite b s).andThen fun ans s =>
    match ans, onFail with
    | .ok, _ => .go s
    | .ioErr, .raise => .raise .ioSnk s
    | .ioErr, .afterClose => .go { s with seq := { s.seq with todo := [.snkClose, .raise .ioSnk] } }
    | .ioErr, .ignore => .go s

/-- Take the next buffered bit, RBUF[RCNT-1], into the value being read (R124 to R126). -/
def takeBit (s : State) : State :=
  let cnt := s.rd.cnt - 1#4
  { s with
    rd := ⟨s.rd.buf, cnt⟩
    seq := { s.seq with value := shiftIn s.seq.value (s.rd.buf.getLsbD cnt.toNat) } }

/-- `ReadBit()` (R124): a byte is fetched only when no bit is buffered; End and IoErr leave the cursor unchanged. -/
def readBit (s : State) : Move :=
  if s.rd.cnt = 0#4 then
    (srcRead s).andThen fun ans s =>
      match ans with
      | .byte b => .go (takeBit { s with rd := ⟨b, 8#4⟩ })
      | .ended => .raise .eos s
      | .ioErr => .raise .ioSrc s
  else .go (takeBit s)

/-- The steps that read `n` bits, most-significant first, into the value (R125, R126). -/
def readBits (n : Nat) : List Micro := .clearValue :: List.replicate n .readBit

/-! ## The queue -/

/-- `before(a, b)` (R151): keys and ties compare as unsigned, the tag is never compared. -/
def entryBefore (m : Mode) (a b : Entry) : Bool :=
  match m with
  | .min => a.key.ult b.key || (a.key == b.key && a.tie.ult b.tie)
  | .max => b.key.ult a.key || (a.key == b.key && b.tie.ult a.tie)

/-- Does HEAP[i] come before HEAP[j]? -/
def heapBefore (m : Mode) (h : List Entry) (i j : Nat) : Bool :=
  match h[i]?, h[j]? with
  | some a, some b => entryBefore m a b
  | _, _ => false

/-- `swap HEAP[i], HEAP[j]`. -/
def heapSwap (h : List Entry) (i j : Nat) : List Entry :=
  match h[i]?, h[j]? with
  | some a, some b => (h.set i b).set j a
  | _, _ => h

/-- `PercolateUp(i)` (R152, R153). The first argument bounds the climb; `i` turns are always enough. -/
def percolateUp (m : Mode) : Nat → Nat → List Entry → List Entry
  | 0, _, h => h
  | turns + 1, i, h =>
    if 0 < i ∧ heapBefore m h i ((i - 1) / 2) = true then
      percolateUp m turns ((i - 1) / 2) (heapSwap h i ((i - 1) / 2))
    else h

/-- The child `PercolateDown` looks at: the first, unless the second comes strictly before it (R154). -/
def childOf (m : Mode) (h : List Entry) (i : Nat) : Nat :=
  if heapBefore m h (2 * i + 2) (2 * i + 1) then 2 * i + 2 else 2 * i + 1

/-- `PercolateDown(i)` (R154). The first argument bounds the descent; `size` turns are always enough. -/
def percolateDown (m : Mode) : Nat → Nat → List Entry → List Entry
  | 0, _, h => h
  | turns + 1, i, h =>
    if heapBefore m h (childOf m h i) i then
      percolateDown m turns (childOf m h i) (heapSwap h i (childOf m h i))
    else h

/-- HEAP after `Push(e)` on a queue that is not full (R155). -/
def heapPush (m : Mode) (e : Entry) (h : List Entry) : List Entry :=
  percolateUp m h.length h.length (h ++ [e])

/-- HEAP after `Pop()` on a queue that is not empty (R156): the last entry overwrites the root, the queue shrinks by one,
and the new root percolates down. -/
def heapPop (m : Mode) (h : List Entry) : List Entry :=
  match h.getLast? with
  | none => []
  | some last =>
    let h' := (h.set 0 last).dropLast
    percolateDown m h'.length 0 h'

/-- `Push(e)` (R155) under the effective mode (R150). A full queue raises E_OVERFLOW and is unchanged. -/
def push (e : Entry) (s : State) : Move :=
  if s.params.pqCap ≤ s.heap.length then .raise .overflow s
  else .go { s with heap := heapPush s.latched.mode e s.heap }

/-- `Top()` (R157), the root given to `f`. An empty queue raises E_UNDERFLOW. -/
def withTop (s : State) (f : Entry → State → Move) : Move :=
  match s.heap with
  | [] => .raise .underflow s
  | r :: _ => f r s

/-- `Pop()` (R156), the removed root given to `f`. An empty queue raises E_UNDERFLOW. -/
def withPop (s : State) (f : Entry → State → Move) : Move :=
  withTop s fun r s => f r { s with heap := heapPop s.latched.mode s.heap }

/-! ## The node arena -/

/-- `Alloc(entry)` of `42_codec.md`, the index of the new node given to `f`. A full arena raises E_TREE_OVERFLOW. -/
def withAlloc (n : Node) (s : State) (f : Byte → State → Move) : Move :=
  if Config.nodeCap ≤ s.nodes.length then .raise .treeOverflow s
  else
    f (BitVec.ofNat 8 s.nodes.length)
      { s with nodes := s.nodes ++ [n], treeNodes := BitVec.ofNat 32 (s.nodes.length + 1) }

/-- NODE[n], given to `f`; an entry at or above NODE_COUNT holds no value (U3). -/
def withNode (n : Byte) (s : State) (f : Node → Move) : Move :=
  match s.nodes[n.toNat]? with
  | none => .stop .nodeUnallocated
  | some x => f x

/-! ## Taking an error, and returning from one -/

/-- COMPRESS and DECOMPRESS: family 0x3 (R91, R95). -/
def isCodec (opcode : Byte) : Bool := opcode.extractLsb' 4 4 == 0x3#4

/-- The cleanup of a failed codec command (R235). -/
def cleanup : List Micro := [.flush .ignore, .dropReader, .srcClose, .snkClose, .release]

/-- Error entry during a command (R234). Step 1: the error, the latched OPCODE and the current PHASE are latched. Step 2: no
further step of the command runs. Step 3: for COMPRESS and DECOMPRESS only, the cleanup runs, with PHASE unchanged. Step 4,
`failCommand`, comes last. Every state change made before the raise is kept (R238). -/
def raiseError (e : ErrCode) (s : State) : State :=
  let last : Micro := .fail e s.latched.opcode s.seq.phase
  { s with seq := { s.seq with todo := if isCodec s.latched.opcode then cleanup ++ [last] else [last] } }

/-- Step 4 of R234: ERR, STATUS.ERR, INT_PENDING.ERROR, PHASE and BUSY, in one step. The traversal stack is empty between
commands (R53, R58). -/
def failCommand (e : ErrCode) (opcode : Byte) (phase : Phase) (s : State) : State :=
  { s with errReg := ⟨e, opcode, phase⟩, err := true, intError := true, busy := false, seq := .idle }

/-- R233: the immediate error of an illegal word; BUSY never becomes 1. -/
def illegalWord (opcode : Byte) (s : State) : State :=
  { s with errReg := ⟨.illegal, opcode, .idle⟩, err := true, intError := true }

/-- The return from an error (R243): the host's write of 1 to STATUS.ERR while BUSY = 0 clears STATUS.ERR and ERR. -/
def returnFromError (s : State) : State := { s with err := false, errReg := .clear }

/-! ## Reset -/

/-- Both streams' state is the platform's (R278, U15). -/
def Ports.abandoned (p : Ports) : Ports :=
  { p with
    src := { p.src with known := false, current := none, attached := [] }
    snk := { p.snk with known := false, answers := [] } }

/-- The reset state of R261 on the running machine (R260, R263). The devices are not the block's: they stay, but for a
command abandoned in the middle, which leaves the streams to the platform (R278). No close event, no interrupt (R262, R263). -/
def resetBlock (s : State) : State :=
  { State.resetOf s.params with
    ports := if s.busy then s.ports.abandoned else s.ports
    reply := s.reply
    events := s.events
    draws := s.draws }

end Sys2Proof.Machine
end

