-- ==== Sys2Proof/Machine/CodecSteps.lean ====
section
/-! DEFINITION. The primitive steps of COMPRESS (R182 to R194) and DECOMPRESS (R201 to R210). -/

namespace Sys2Proof.Machine

/-! ## The tables -/

/-- FREQ[s]; 0 beyond the alphabet. -/
def Tables.freqAt (t : Tables) (sym : Byte) : Word := t.freq[sym.toNat]?.getD 0#32

/-- CODE_LEN[s]; 0 beyond the alphabet. -/
def Tables.lenAt (t : Tables) (sym : Byte) : Byte := t.codeLen[sym.toNat]?.getD 0#8

/-- CODE_BITS[s]; 0 beyond the alphabet. -/
def Tables.bitsAt (t : Tables) (sym : Byte) : Code := t.codeBits[sym.toNat]?.getD 0#128

/-- Every table entry 0 (R182, R261). -/
def Tables.zero : Tables := ⟨.replicate 128 0#32, .replicate 128 0#8, .replicate 128 0#128⟩

/-- `FREQ[s] <- FREQ[s] + 1` (R183). -/
def Tables.count (t : Tables) (sym : Byte) : Tables :=
  { t with freq := t.freq.setIfInBounds sym.toNat (t.freqAt sym + 1) }

/-- `CODE_LEN[s] <- len(path)` and CODE_BITS[s] the path, `path[0]` at bit L-1 (R191). -/
def Tables.record (t : Tables) (sym : Byte) (path : List Bool) : Tables :=
  { t with
    codeLen := t.codeLen.setIfInBounds sym.toNat (BitVec.ofNat 8 path.length)
    codeBits := t.codeBits.setIfInBounds sym.toNat (codeOfPath path) }

/-! ## The start of a codec command -/

/-- The effective comparator mode of the running command becomes MIN (R56, R182). -/
def State.useMin (s : State) : State :=
  { s with seq := { s.seq with latch := s.seq.latch.map fun l => { l with mode := .min } } }

/-- Fresh streams, counters and arena: what CInit and DInit have in common (R182, R201). -/
def freshStreams (s : State) : State :=
  { s with
    wr := .empty
    rd := .empty
    srcCount := 0#32
    snkCount := 0#32
    nodes := []
    root := 0#8
    treeNodes := 0#32 }

/-- `CInit` (R182). CTRL.PQ_MODE is not changed. -/
def cInit (s : State) : State :=
  { (freshStreams s).useMin.enter .cScan with heap := [], inlen := 0#32, tables := .zero }

/-- `DInit` (R201). The queue, FREQ, CODE, INBUF and INLEN are not touched. -/
def dInit (s : State) : State := (freshStreams s).enter .dTree

/-! ## COMPRESS -/

/-- One turn of `Scan` (R183): End ends the loop and writes SYMCOUNT; IoErr, then a byte outside the alphabet, then a full
INBUF raise, in this order (R239). The byte that raises is consumed and not counted. -/
def scanStep (s : State) : Move :=
  (srcRead s).andThen fun ans s =>
    match ans with
    | .ended => .go { s with symcount := s.inlen }
    | .ioErr => .raise .ioSrc s
    | .byte b =>
      if Config.alphabet ≤ b.toNat then .raise .symbol s
      else if s.params.inbufCap ≤ s.inlen.toNat then .raise .tooLong s
      else
        .go <| State.before
          { s with
            inbuf := s.inbuf.write s.inlen.toNat b
            tables := s.tables.count b
            inlen := s.inlen + 1 } [.scan]

/-- The body of `MakeLeaves` for one symbol (R184). -/
def makeLeaf (sym : Byte) (s : State) : Move :=
  if s.tables.freqAt sym = 0#32 then .go s
  else
    withAlloc (.leaf sym (s.tables.freqAt sym)) s fun n s =>
      push ⟨s.tables.freqAt sym, sym, n⟩ s

/-- `MakeLeaves` over a list of symbols (R184). -/
def makeLeavesOf : List Byte → State → Move
  | [], s => .go s
  | sym :: rest, s => (makeLeaf sym s).andThen (makeLeavesOf rest)

/-- The alphabet in ascending order (R184). -/
def symbols : List Byte := (List.range Config.alphabet).map (BitVec.ofNat 8)

/-- The smaller of two tie keys (R185). -/
def minTie (a b : Byte) : Byte := if a.ult b then a else b

/-- One merge of `Build` (R186): the first entry popped becomes the left child, the second the right (R187); the new entry's
tie is the smaller of theirs (R185). -/
def mergeStep (s : State) : Move :=
  withPop s fun a s =>
    withPop s fun b s =>
      withAlloc (.internal (a.key + b.key) a.tag b.tag) s fun n s =>
        push ⟨a.key + b.key, minTie a.tie b.tie, n⟩ s

/-- The loop of `Build`: while size > 1 (R186). The first argument bounds the turns; `size` is always enough, since each
turn makes the queue one shorter. -/
def mergeLoop : Nat → State → Move
  | 0, s => .go s
  | turns + 1, s => if 1 < s.heap.length then (mergeStep s).andThen (mergeLoop turns) else .go s

/-- `Build` (R186): for an empty queue the placeholder leaf (R188), else the merges, and ROOT is the last entry's node. -/
def buildTree (s : State) : Move :=
  match s.heap with
  | [] => withAlloc (.leaf 0x00#8 0#32) s fun n s => .go { s with root := n }
  | _ :: _ =>
    (mergeLoop s.heap.length s).andThen fun s => withPop s fun e s => .go { s with root := e.tag }

/-- The path from the root to the node under way: one bit for each pending node, the root's first (R190). -/
def State.path (s : State) : List Bool := (s.seq.stack.map Frame.right).reverse

/-- `Ser(n, path)` (R190): a leaf's 9 bits, then its code, then back to the pending node; an internal node's bit, then its
left subtree, the node pending. -/
def serNode (n : Byte) (s : State) : Move :=
  withNode n s fun
    | .leaf sym _ =>
      .go <| s.before <| .writeBit true :: (msbFirst sym).map .writeBit ++ [.recordCode sym, .serReturn]
    | .internal _ left _ =>
      .go <| State.before { s with seq := { s.seq with stack := ⟨n, false⟩ :: s.seq.stack } } [.writeBit false, .serNode left]

/-- After a subtree: from a left subtree to the right one; from a right subtree up; from the root's, the end (R190). -/
def serReturn (s : State) : Move :=
  match s.seq.stack with
  | [] => .go s
  | ⟨n, false⟩ :: rest =>
    withNode n s fun
      | .leaf _ _ => .stop .nodeUnallocated
      | .internal _ _ right =>
        .go <| State.before { s with seq := { s.seq with stack := ⟨n, true⟩ :: rest } } [.serNode right]
  | ⟨_, true⟩ :: rest => .go <| State.before { s with seq := { s.seq with stack := rest } } [.serReturn]

/-- One turn of `EmitPayload` (R193): the code of INBUF[i], the first path bit first. -/
def payloadStep (i : Nat) (s : State) : Move :=
  if i < s.inlen.toNat then
    match s.inbuf.read i with
    | none => .stop .inbufUnwritten
    | some sym =>
      .go <| s.before <|
        (codePath (s.tables.lenAt sym) (s.tables.bitsAt sym)).map .writeBit ++ [.payload (i + 1)]
  else .go s

/-! ## DECOMPRESS -/

/-- The steps of `ReadTree()` up to its tag bit (R202). -/
def readToken : List Micro := readBits 1 ++ [.treeToken]

/-- `ReadTree()` after its tag bit (R202): the arena bound first (R203); then a leaf's symbol is read, or an internal node is
allocated and its left subtree read, the node pending. -/
def treeToken (s : State) : Move :=
  if Config.nodeCap ≤ s.nodes.length then .raise .treeOverflow s
  else if s.seq.value.getLsbD 0 then .go (s.before (readBits 8 ++ [.treeLeaf]))
  else
    withAlloc (.internal 0#32 0#8 0#8) s fun n s =>
      .go <| State.before { s with seq := { s.seq with stack := ⟨n, false⟩ :: s.seq.stack } } readToken

/-- The leaf of the symbol just read; its freq is 0 (R108, R202, R204). -/
def treeLeaf (s : State) : Move :=
  withAlloc (.leaf (s.seq.value.setWidth 8) 0#32) s fun n s => .go (s.before [.treeReturn n])

/-- `NODE[p].left <- n` or `NODE[p].right <- n` (R202). -/
def Node.withChild (x : Node) (right : Bool) (n : Byte) : Node :=
  match x with
  | .leaf sym freq => .leaf sym freq
  | .internal freq l r => if right then .internal freq l n else .internal freq n r

/-- Node `n` is complete (R202): it becomes the child of the pending node above it, whose right subtree is read next or which
is complete too; with none pending it is ROOT (R200). -/
def treeReturn (n : Byte) (s : State) : Move :=
  match s.seq.stack with
  | [] => .go { s with root := n }
  | ⟨p, right⟩ :: rest =>
    withNode p s fun x =>
      let s := { s with nodes := s.nodes.set p.toNat (x.withChild right n) }
      if right then .go <| State.before { s with seq := { s.seq with stack := rest } } [.treeReturn p]
      else .go <| State.before { s with seq := { s.seq with stack := ⟨p, true⟩ :: rest } } readToken

/-- The end of `ReadCount()` (R205): SYMCOUNT is written even if the count is then refused as negative; the count starts
`Decode`. -/
def takeCount (s : State) : Move :=
  let s' := { s with symcount := s.seq.value }
  if s.seq.value.msb then .raise .badCount s'
  else .go (s'.before [.enterPhase .dDecode, .decode s.seq.value.toNat])

/-- The loop of `Decode` (R206). -/
def decodeStep (k : Nat) (s : State) : State :=
  match k with
  | 0 => s
  | k + 1 => s.before [.walk s.root k]

/-- The walk at node `n` (R206): a leaf's symbol goes to the sink as a whole byte, and the next position starts at the root;
an internal node reads a bit. -/
def walkStep (n : Byte) (k : Nat) (s : State) : Move :=
  withNode n s fun
    | .leaf sym _ => .go (s.before [.append sym .raise, .decode k])
    | .internal _ _ _ => .go (s.before (readBits 1 ++ [.branch n k]))

/-- Out of internal node `n`: left on 0, right on 1 (R206). -/
def branchStep (n : Byte) (k : Nat) (s : State) : Move :=
  withNode n s fun
    | .leaf _ _ => .stop .nodeUnallocated
    | .internal _ left right => .go (s.before [.walk (if s.seq.value.getLsbD 0 then right else left) k])

end Sys2Proof.Machine
end

