-- ==== Sys2Proof/Machine/Flags.lean ====
section
/-! DEFINITION. The five status flags of R57 (BUSY, ERR, OVR, INT_PENDING.DONE, INT_PENDING.ERROR): what sets each, what
clears each, and the interrupt line. No command computes a condition code. -/

namespace Sys2Proof.Machine

/-- STATUS as the host reads it: BUSY [0], ERR [1], OVR [2], PHASE [11:8] (R29). -/
def State.statusWord (s : State) : Word :=
  0#20 ++ s.seq.phase.code ++ 0#5 ++ bitVal 1 s.ovr ++ bitVal 1 s.err ++ bitVal 1 s.busy

/-- INT_PENDING as the host reads it: DONE [0], ERROR [1] (R42). -/
def State.intPendingWord (s : State) : Word := 0#30 ++ bitVal 1 s.intError ++ bitVal 1 s.intDone

/-- INT_ENABLE as the host reads it: DONE_IE [0], ERROR_IE [1] (R43). -/
def State.intEnableWord (s : State) : Word := 0#30 ++ bitVal 1 s.errorIe ++ bitVal 1 s.doneIe

/-- The interrupt line (R241). -/
def State.irq (s : State) : Bool := (s.intDone && s.doneIe) || (s.intError && s.errorIe)

/-- A dropped CMD write sets OVR; nothing else changes (R232). -/
def dropCommand (s : State) : State := { s with ovr := true }

/-- Completion: DONE is set in the same step as BUSY is cleared, and PHASE is IDLE (R29, R58, R240). -/
def completeCommand (s : State) : State :=
  { s with intDone := true, busy := false, seq := .idle }

/-- A host write to STATUS: W1C of ERR, which clears the ERR register with it and is ignored while BUSY = 1, and W1C of OVR
(R29, R243). The first is the return from an error (R243). -/
def writeStatus (v : Word) (s : State) : State :=
  let s := if v.getLsbD 1 && !s.busy then returnFromError s else s
  { s with ovr := s.ovr && !v.getLsbD 2 }

/-- A host write to INT_PENDING: W1C of DONE and of ERROR (R42, R242). -/
def writeIntPending (v : Word) (s : State) : State :=
  { s with intDone := s.intDone && !v.getLsbD 0, intError := s.intError && !v.getLsbD 1 }

/-- A host write to INT_ENABLE (R43). -/
def writeIntEnable (v : Word) (s : State) : State :=
  { s with doneIe := v.getLsbD 0, errorIe := v.getLsbD 1 }

end Sys2Proof.Machine
end

