-- ==== Sys2Proof/Machine/Sequencer.lean ====
section
/-! DEFINITION. The SEQUENCER: what each primitive step does, running a command, and accepting one. -/

namespace Sys2Proof.Machine

/-! ## One primitive step -/

/-- PQ_POP and PQ_TOP return the entry's key in RESULT, its tie and tag in RESULT2 (R159, R160). -/
def returnEntry (e : Entry) (s : State) : State := { s with result := e.key, result2 := ⟨e.tie, e.tag⟩ }

/-- `RBUF <- 0 ; RCNT <- 0`. -/
def dropReader (s : State) : State := { s with rd := .empty }

/-- The effect of one primitive step, already taken off the list of steps to run. -/
def microStep (m : Micro) (s : State) : Move :=
  match m with
  | .writeBit b => .go (writeBit b s)
  | .append b onFail => appendByte b onFail s
  | .writeImmBit => .go (s.before [.writeBit (s.latched.imm8.getLsbD 0)])
  | .writeImmByte => .go (s.before ((msbFirst s.latched.imm8).map .writeBit))
  | .writeArg => .go (s.before ((msbFirst s.latched.arg).map .writeBit))
  | .flush onFail => .go (flush onFail s)
  | .snkClose => .go (snkClose s)
  | .srcClose => .go (srcClose s)
  | .clearValue => .go { s with seq := { s.seq with value := 0#32 } }
  | .readBit => readBit s
  | .dropReader => .go (dropReader s)
  | .resultValue => .go { s with result := s.seq.value }
  | .pqPush => push s.latched.entry s
  | .pqPop => withPop s fun e s => .go (returnEntry e s)
  | .pqTop => withTop s fun e s => .go (returnEntry e s)
  | .pqSize => .go { s with result := BitVec.ofNat 32 s.heap.length }
  | .pqClear => .go { s with heap := [] }
  | .enterPhase p => .go (s.enter p)
  | .cInit => .go (cInit s)
  | .scan => scanStep s
  | .makeLeaves => makeLeavesOf symbols s
  | .build => buildTree s
  | .serialize => .go (s.before [.serNode s.root])
  | .serNode n => serNode n s
  | .recordCode sym => .go { s with tables := s.tables.record sym s.path }
  | .serReturn => serReturn s
  | .writeCount => .go (s.before ((msbFirst s.inlen).map .writeBit))
  | .payload i => payloadStep i s
  | .release => .go { s with nodes := [] }
  | .dInit => .go (dInit s)
  | .treeToken => treeToken s
  | .treeLeaf => treeLeaf s
  | .treeReturn n => treeReturn n s
  | .takeCount => takeCount s
  | .decode k => .go (decodeStep k s)
  | .walk n k => walkStep n k s
  | .branch n k => branchStep n k s
  | .raise e => .raise e s
  | .fail e opcode phase => .go (failCommand e opcode phase s)
  | .done => .go (completeCommand s)

/-! ## Running -/

/-- Run the SEQUENCER for at most `turns` primitive steps: until no step is left (R10), or a port does not answer (R9), with
the state as it stood before the step that waits. -/
def run : Nat → State → Host.Outcome State Fault Refusal
  | 0, s => .next s
  | turns + 1, s =>
    match s.seq.todo with
    | [] => .next s
    | m :: rest =>
      match microStep m { s with seq := { s.seq with todo := rest } } with
      | .go s' => run turns s'
      | .raise e s' => run turns (raiseError e s')
      | .wait => .next s
      | .stop f => .fault f
      | .refuse r => .refused r

/-- How many primitive steps one step of the machine may run: more than any command takes (log 12). Were a command longer,
the next step would go on with it. -/
def seqTurns : Nat := 1152921504606846976

/-- Let the SEQUENCER run as far as it can; it has nothing to run while BUSY = 0 (R10, R252). -/
def settle (s : State) : Host.Outcome State Fault Refusal := if s.busy then run seqTurns s else .next s

/-! ## Accepting a command -/

/-- Acceptance (R56, R232): the command word's fields, ARG, ARG2 and the mode are latched, BUSY is set, and PHASE is PRIM but
for the codec commands, which set their own. -/
def accept (i : Instr) (steps : List Micro) (s : State) : State :=
  { s with
    busy := true
    seq :=
      { phase := if isCodec i.opcode then .idle else .prim
        todo := steps
        stack := []
        value := 0#32
        latch := some ⟨i.opcode, i.imm8, s.arg, s.arg2, s.pqMode⟩ } }

/-- The host writes the command's word to CMD (R232): dropped while BUSY = 1 or STATUS.ERR = 1; an illegal word raises
E_ILLEGAL at once (R233); else the command is accepted and its steps run. -/
def command (i : Instr) (steps : List Micro) (s : State) : Host.Outcome State Fault Refusal :=
  if s.busy || s.err then settle (dropCommand s)
  else if i.wellFormed then settle (accept i steps s)
  else settle (illegalWord i.opcode s)

/-- The host writes an illegal word to CMD (R96, R232, R233). -/
def illegalCommand (opcode : Byte) (s : State) : Host.Outcome State Fault Refusal :=
  if s.busy || s.err then settle (dropCommand s) else settle (illegalWord opcode s)

end Sys2Proof.Machine
end

