-- ==== Sys2Proof/Machine/BitReader.lean ====
section
/-! DEFINITION. The bit reader commands (R133 to R136). -/

namespace Sys2Proof.Machine

/-- RBIT (R133): `RESULT <- ReadBit()`. -/
def execRbit (s : State) : Host.Outcome State Fault Refusal :=
  command .rbit (readBits 1 ++ [.resultValue, .done]) s

/-- RBYTE (R134): `RESULT <- ReadByte()`. -/
def execRbyte (s : State) : Host.Outcome State Fault Refusal :=
  command .rbyte (readBits 8 ++ [.resultValue, .done]) s

/-- RINT32 (R135): `RESULT <- ReadInt32()`. -/
def execRint32 (s : State) : Host.Outcome State Fault Refusal :=
  command .rint32 (readBits 32 ++ [.resultValue, .done]) s

/-- RCLOSE (R136): the cursor is emptied, then `SrcClose()`. -/
def execRclose (s : State) : Host.Outcome State Fault Refusal :=
  command .rclose [.dropReader, .srcClose, .done] s

end Sys2Proof.Machine
end

