-- ==== Sys2Proof/Machine/BitWriter.lean ====
section
/-! DEFINITION. The bit writer commands (R128 to R132). -/

namespace Sys2Proof.Machine

/-- WBIT (R128): `WriteBit(IMM8[0])`. -/
def execWbit (imm8 : Byte) (s : State) : Host.Outcome State Fault Refusal :=
  command (.wbit imm8) [.writeImmBit, .done] s

/-- WBYTE (R129): `WriteByte(IMM8)`. -/
def execWbyte (imm8 : Byte) (s : State) : Host.Outcome State Fault Refusal :=
  command (.wbyte imm8) [.writeImmByte, .done] s

/-- WINT32 (R130): `WriteInt32(ARG)`. -/
def execWint32 (s : State) : Host.Outcome State Fault Refusal :=
  command .wint32 [.writeArg, .done] s

/-- WFLUSH (R131): `Flush()`. -/
def execWflush (s : State) : Host.Outcome State Fault Refusal :=
  command .wflush [.flush .raise, .done] s

/-- WCLOSE (R132): `Flush()`, `SnkClose()`, then E_IO_SNK if the flush failed. -/
def execWclose (s : State) : Host.Outcome State Fault Refusal :=
  command .wclose [.flush .afterClose, .snkClose, .done] s

end Sys2Proof.Machine
end

