-- ==== Sys2Proof/Machine/Codec.lean ====
section
/-! DEFINITION. The codec commands (R181, R200). -/

namespace Sys2Proof.Machine

/-- The phases of COMPRESS, in order (R181 to R194). -/
def compressSteps : List Micro :=
  [.cInit, .scan,
   .enterPhase .cLeaves, .makeLeaves,
   .enterPhase .cBuild, .build,
   .enterPhase .cSerial, .serialize,
   .enterPhase .cCount, .writeCount,
   .enterPhase .cPayload, .payload 0,
   .enterPhase .cClose, .flush .raise, .srcClose, .snkClose, .release, .done]

/-- The phases of DECOMPRESS, in order (R200 to R210). The decoded count starts `Decode` (R205, R206). -/
def decompressSteps : List Micro :=
  [.dInit] ++ readToken ++ [.enterPhase .dCount] ++ readBits 32 ++
    [.takeCount, .enterPhase .dClose, .dropReader, .srcClose, .snkClose, .release, .done]

/-- COMPRESS (R181). -/
def execCompress (s : State) : Host.Outcome State Fault Refusal :=
  command .compress compressSteps s

/-- DECOMPRESS (R200). -/
def execDecompress (s : State) : Host.Outcome State Fault Refusal :=
  command .decompress decompressSteps s

end Sys2Proof.Machine
end

