-- ==== Sys2Proof/Machine/Queue.lean ====
section
/-! DEFINITION. The priority queue commands (R158 to R162). -/

namespace Sys2Proof.Machine

/-- PQ_PUSH (R158): `Push` of the entry in ARG and ARG2. -/
def execPqPush (s : State) : Host.Outcome State Fault Refusal :=
  command .pqPush [.pqPush, .done] s

/-- PQ_POP (R159): the removed root in RESULT and RESULT2. -/
def execPqPop (s : State) : Host.Outcome State Fault Refusal :=
  command .pqPop [.pqPop, .done] s

/-- PQ_TOP (R160): the root in RESULT and RESULT2. -/
def execPqTop (s : State) : Host.Outcome State Fault Refusal :=
  command .pqTop [.pqTop, .done] s

/-- PQ_SIZE (R161): the entry count in RESULT. -/
def execPqSize (s : State) : Host.Outcome State Fault Refusal :=
  command .pqSize [.pqSize, .done] s

/-- PQ_CLEAR (R162): the queue becomes empty. -/
def execPqClear (s : State) : Host.Outcome State Fault Refusal :=
  command .pqClear [.pqClear, .done] s

end Sys2Proof.Machine
end

