-- ==== Sys2Proof/Machine/Dispatch.lean ====
section
/-! DEFINITION. One arm for each command: writing its word to CMD (R27, R95, R232). -/

namespace Sys2Proof.Machine

def exec (i : Instr) (s : State) : Host.Outcome State Fault Refusal :=
  match i with
  | .wbit imm8 => Sys2Proof.Machine.execWbit imm8 s
  | .wbyte imm8 => Sys2Proof.Machine.execWbyte imm8 s
  | .wint32 => Sys2Proof.Machine.execWint32 s
  | .wflush => Sys2Proof.Machine.execWflush s
  | .wclose => Sys2Proof.Machine.execWclose s
  | .rbit => Sys2Proof.Machine.execRbit s
  | .rbyte => Sys2Proof.Machine.execRbyte s
  | .rint32 => Sys2Proof.Machine.execRint32 s
  | .rclose => Sys2Proof.Machine.execRclose s
  | .pqPush => Sys2Proof.Machine.execPqPush s
  | .pqPop => Sys2Proof.Machine.execPqPop s
  | .pqTop => Sys2Proof.Machine.execPqTop s
  | .pqSize => Sys2Proof.Machine.execPqSize s
  | .pqClear => Sys2Proof.Machine.execPqClear s
  | .compress => Sys2Proof.Machine.execCompress s
  | .decompress => Sys2Proof.Machine.execDecompress s

end Sys2Proof.Machine
end

