-- ==== Sys2Proof/Machine/Registers.lean ====
section
/-! DEFINITION. The register window (R22): what a host read of each offset gives, and what a host write to each does. -/

namespace Sys2Proof.Machine

/-- The offset of CMD (R27). -/
def cmdOffset : Nat := 0x01C

/-- Does an offset name a word of the FREQ, CODE_LEN or CODE_BITS windows (R22, R45 to R47)? -/
def isTableWord (off : Nat) : Bool := 0x400 ≤ off && off < Config.windowBytes

/-- A word of the table windows: FREQ at 0x400 + 4s (R45), CODE_LEN at 0x600 + 4s (R46), word k of CODE_BITS at
0x800 + 16s + 4k (R47, R109). -/
def tableWord (t : Tables) (off : Nat) : Word :=
  if off < 0x600 then t.freqAt (BitVec.ofNat 8 ((off - 0x400) / 4))
  else if off < 0x800 then (t.lenAt (BitVec.ofNat 8 ((off - 0x600) / 4))).setWidth 32
  else (t.bitsAt (BitVec.ofNat 8 ((off - 0x800) / 16))).extractLsb' (32 * ((off - 0x800) % 16 / 4)) 32

/-- What the register at an offset below 0x400 reads (R22, R24 to R43); an offset with no register reads 0 (R44, R62). -/
def registerValue (s : State) (off : Nat) : Word :=
  match off with
  | 0x000 => Config.idValue
  | 0x004 => Config.versionValue
  | 0x008 => BitVec.ofNat 32 s.params.pqCap
  | 0x00C => BitVec.ofNat 32 s.params.inbufCap
  | 0x010 => bitVal 32 s.pqMode.toBit
  | 0x014 => s.statusWord
  | 0x018 => s.errReg.toWord
  | 0x01C => 0#32
  | 0x020 => s.arg
  | 0x024 => s.arg2.toWord
  | 0x028 => s.result
  | 0x02C => s.result2.toWord
  | 0x030 => BitVec.ofNat 32 s.heap.length
  | 0x034 => s.wr.toWord
  | 0x038 => s.rd.toWord
  | 0x03C => s.symcount
  | 0x040 => s.srcCount
  | 0x044 => s.snkCount
  | 0x048 => s.treeNodes
  | 0x04C => s.intPendingWord
  | 0x050 => s.intEnableWord
  | _ => 0#32

/-- A host read of the word at an offset (R63, R75). While BUSY = 1 a table word reads an unspecified value, a fresh one each
time (R77, U1); a read changes no state of the block. -/
def hostRead (off : Nat) (s : State) : State :=
  if isTableWord off then
    if s.busy then { s with reply := .data (Config.windowWhileBusy off s.draws), draws := s.draws + 1 }
    else { s with reply := .data (tableWord s.tables off) }
  else { s with reply := .data (registerValue s off) }

/-- A host write to CTRL (R28, R163, R263): SOFT_RESET resets the block, the other bits ignored; else PQ_MODE is written when
BUSY = 0 and the queue is empty, and keeps its value otherwise. -/
def writeCtrl (v : Word) (s : State) : State :=
  if v.getLsbD 1 then resetBlock s
  else if !s.busy && s.heap.isEmpty then { s with pqMode := .ofBit (v.getLsbD 0) }
  else s

/-- A host write to the register at an offset, CMD apart. A write to a RO register, a table word or an offset with no register
has no effect (R23, R44, R62). -/
def writeRegister (off : Nat) (v : Word) (s : State) : State :=
  match off with
  | 0x010 => writeCtrl v s
  | 0x014 => writeStatus v s
  | 0x020 => { s with arg := v }
  | 0x024 => { s with arg2 := .ofWord v }
  | 0x04C => writeIntPending v s
  | 0x050 => writeIntEnable v s
  | _ => s

end Sys2Proof.Machine
end

