-- ==== Sys2Proof/Machine/Agents.lean ====
section
/-! DEFINITION. What the other agents do to the block (R8): the host's accesses, the reset input, and the devices. -/

namespace Sys2Proof.Machine

/-- A host write of a word to CMD (R27, R232): its command, or E_ILLEGAL (R96, R233). -/
def writeCmd (w : Word) (s : State) : Host.Outcome State Fault Refusal :=
  match decode w with
  | .ok i => exec i s
  | .error _ => illegalCommand (opcodeField w) s

/-- Is the address inside the window (R22, R60)? -/
def selected (p : Params) (addr : Nat) : Bool :=
  p.hcBase ≤ addr && addr < p.hcBase + Config.windowBytes

/-- Is the access one aligned 32-bit word (R61)? -/
def isWordAccess (off bytes : Nat) : Bool := bytes == 4 && off % 4 == 0

/-- A host access (R60 to R64). Anything but an aligned 32-bit word has no effect and answers a bus error (R61). While HC_RST
is asserted the block holds the reset state, so a write changes nothing (R260, log 9). An address outside the window is no
access to the block (log 10). -/
def hostAccess (a : Access) (s : State) : Host.Outcome State Fault Refusal :=
  let off := a.addr - s.params.hcBase
  if selected s.params a.addr then
    if isWordAccess off a.bytes then
      match a.write with
      | none => settle (hostRead off s)
      | some v =>
        if s.inReset then settle { s with reply := .ack }
        else if off = cmdOffset then writeCmd v { s with reply := .ack }
        else settle (writeRegister off v { s with reply := .ack })
    else settle { s with reply := .busError }
  else settle s

/-- The level of the HC_RST pin (R260): asserted, it puts the block into the reset state and holds it there; released, the
block is idle. -/
def hcRst (level : Bool) (s : State) : State :=
  if level = s.params.hcRstActiveHigh then { resetBlock s with inReset := true } else { s with inReset := false }

/-- The platform attaches a source stream (R68, R264, R278): it begins after those attached before it. -/
def attachSource (st : SrcStream) (src : Source) : Source :=
  if src.known then { src with attached := src.attached ++ [st] }
  else { src with known := true, current := none, attached := [st] }

/-- Is the event an answer of the source, or its close? -/
def PortEvent.ofSource : PortEvent → Bool
  | .srcByte _ | .srcEnd | .srcIoErr | .srcClose => true
  | .snkOk _ | .snkIoErr _ | .snkClose => false

/-- Has the open source stream answered End (R66)? A stream is open from its first answer to its close, so the newest event of
the source is its own. -/
def Ports.endAnswered (p : Ports) : Bool :=
  p.src.current.isSome && p.trace.find? PortEvent.ofSource == some .srcEnd

/-- The source's further answers (R66): they belong to the stream that the next transaction meets, begun or not, or waited
for. Where the streams are the platform's (U15) there is none, until one is attached. -/
def Source.extend (src : Source) (items : List SrcItem) (ended : Bool) : Source :=
  let st : SrcStream := ⟨src.next.1.items ++ items, ended⟩
  match src.known, src.current with
  | false, _ => src
  | true, some _ => { src with current := some st }
  | true, none => { src with attached := st :: src.next.2 }

/-- Late answers of the source (R66), which end a wait (R9, R252, R280). Once the source has answered End it answers End until the
next SrcClose: more of the same changes nothing, any other answer breaks its duty (U12). -/
def sourceAnswers (items : List SrcItem) (ended : Bool) (s : State) : Host.Outcome State Fault Refusal :=
  if s.ports.endAnswered then
    if items.isEmpty then settle s else .refused .sourceDuty
  else settle { s with ports := { s.ports with src := s.ports.src.extend items ended } }

/-- One input. After it the SEQUENCER runs as far as it can: a port answer lets it take its next step (R280).
A sink that is attached replaces the earlier one and its answers at once, without a SnkClose: DESIGN CHOICE (log 26), since R68, R264 and
R278 leave open when it takes over. Later answers of a sink: log 5. -/
def handleEvent (e : Event) (s : State) : Host.Outcome State Fault Refusal :=
  match e with
  | .access a => hostAccess a s
  | .hcRst level => settle (hcRst level s)
  | .attachSource st => settle { s with ports := { s.ports with src := attachSource st s.ports.src } }
  | .sourceAnswers items ended => sourceAnswers items ended s
  | .attachSink answers thenOk =>
    settle { s with ports := { s.ports with snk := ⟨true, answers, thenOk⟩ } }
  | .sinkAnswers answers thenOk =>
    settle { s with
      ports := { s.ports with snk := { s.ports.snk with answers := s.ports.snk.answers ++ answers, thenOk := thenOk } } }

/-- The host access that writes a word to CMD. -/
def cmdAccess (p : Params) (w : Word) : Access := ⟨p.hcBase + cmdOffset, 4, some w⟩

end Sys2Proof.Machine
end

