-- ==== Sys2Proof/Machine/Step.lean ====
section
/-! DEFINITION. One step of the machine. -/

namespace Sys2Proof.Machine

/-- One step: the next input of the outside world is served, in order (R75), and the SEQUENCER runs as far as it can. With no
input left the SEQUENCER goes on alone; an idle or waiting block holds its state (R252; log 11). -/
def step (s : State) : Host.Outcome State Fault Refusal :=
  match s.events with
  | [] => settle s
  | e :: rest => handleEvent e { s with events := rest }

/-- The block fetches no instruction: the host writes each command word to CMD (R21, R27, R80). So the word is placed as the
next input, a host write of it to CMD, with HC_RST released. -/
def State.withFetchWord (s : State) (nbits w : Nat) : State :=
  { s with
    inReset := false
    events := .access (cmdAccess s.params (BitVec.ofNat 32 (w % 2 ^ nbits))) :: s.events }

end Sys2Proof.Machine
end

