-- ==== Sys2Proof/Safety.lean ====
section
/-! DEFINITION. The terms claims are stated in: what the host and the sink see, what the devices offer, the invariants of
R58, and the artifact of R100 as plain functions on trees and bit lists. -/

namespace Sys2Proof.Machine

/-! ## What is seen from outside -/

/-- The bytes the SINK has accepted, oldest first (R67). -/
def Ports.sunk (p : Ports) : List Byte :=
  p.trace.reverse.filterMap fun
    | .snkOk b => some b
    | _ => none

/-- The next CMD write is accepted (R232, R270). -/
def State.ready (s : State) : Prop := s.busy = false ∧ s.err = false

/-- The next input is a host write of a word to CMD, with HC_RST released. -/
def State.writesCmd (s : State) (w : Word) (rest : List Event) : Prop :=
  s.inReset = false ∧ s.events = .access (cmdAccess s.params w) :: rest

/-- The next input is a host write of `v` to the register at an offset of the window. -/
def State.writes (s : State) (off : Nat) (v : Word) (rest : List Event) : Prop :=
  s.inReset = false ∧ off % 4 = 0 ∧ off < Config.windowBytes ∧
    s.events = .access ⟨s.params.hcBase + off, 4, some v⟩ :: rest

/-- The next input is a host read of the word at an offset of the window. -/
def State.reads (s : State) (off : Nat) (rest : List Event) : Prop :=
  off % 4 = 0 ∧ off < Config.windowBytes ∧ s.events = .access ⟨s.params.hcBase + off, 4, none⟩ :: rest

/-! ## What the devices offer -/

/-- The sink answers Ok to its next `n` transactions. -/
def Sink.accepts (k : Sink) (n : Nat) : Prop :=
  k.known = true ∧ (∀ a ∈ k.answers.take n, a = .ok) ∧ (n ≤ k.answers.length ∨ k.thenOk = true)

/-- The sink answers IoErr to its next transaction. -/
def Sink.refuses (k : Sink) : Prop := k.known = true ∧ k.answers.head? = some .ioErr

/-- The sink after `n` transactions. -/
def Sink.after (k : Sink) (n : Nat) : Sink := { k with answers := k.answers.drop n }

/-- The ports after the sink has accepted the bytes. -/
def Ports.taking (p : Ports) (bs : List Byte) : Ports :=
  { p with
    snk := { p.snk with answers := p.snk.answers.drop bs.length }
    trace := (bs.map .snkOk).reverse ++ p.trace }

/-- The stream the next source transaction meets has these items left, and then ends or not. -/
def Source.holds (src : Source) (items : List SrcItem) (ended : Bool) : Prop :=
  src.known = true ∧ src.next.1 = ⟨items, ended⟩

/-- The ports after the source has answered the bytes, the first ones of the stream it meets; `items` are those left. -/
def Ports.giving (p : Ports) (bs : List Byte) (items : List SrcItem) (ended : Bool) : Ports :=
  { p with src := p.src.leaving items ended, trace := (bs.map .srcByte).reverse ++ p.trace }

/-- The ports after the source has answered the bytes and then an answer that is no byte, with what is left of the stream. -/
def Ports.givingThen (p : Ports) (bs : List Byte) (last : PortEvent) (items : List SrcItem) (ended : Bool) : Ports :=
  (p.giving bs items ended).note last

/-! ## What a command leaves alone -/

/-- The registers the host alone writes, the results, OVR, and all that is not the SEQUENCER's to change (R8, R31 to R34). -/
structure State.keepsHostSide (s t : State) : Prop where
  params : t.params = s.params
  pqMode : t.pqMode = s.pqMode
  ovr : t.ovr = s.ovr
  arg : t.arg = s.arg
  arg2 : t.arg2 = s.arg2
  result : t.result = s.result
  result2 : t.result2 = s.result2
  doneIe : t.doneIe = s.doneIe
  errorIe : t.errorIe = s.errorIe
  inReset : t.inReset = s.inReset
  reply : t.reply = s.reply
  events : t.events = s.events
  draws : t.draws = s.draws

/-- A codec command is over without error (R194, R210, R240): idle, DONE set, the cursors empty, the arena released. -/
structure State.completedCodec (s t : State) : Prop where
  busy : t.busy = false
  seq : t.seq = .idle
  err : t.err = false
  errReg : t.errReg = s.errReg
  intDone : t.intDone = true
  intError : t.intError = s.intError
  wr : t.wr = .empty
  rd : t.rd = .empty
  nodes : t.nodes = []
  host : s.keepsHostSide t

/-- A codec command is over with an error (R234 to R236): idle, ERR and ERROR set, the cursors empty, the arena released. -/
structure State.failedCodec (s t : State) (e : ErrCode) (opcode : Byte) (phase : Phase) : Prop where
  busy : t.busy = false
  seq : t.seq = .idle
  err : t.err = true
  errReg : t.errReg = ⟨e, opcode, phase⟩
  intDone : t.intDone = s.intDone
  intError : t.intError = true
  wr : t.wr = .empty
  rd : t.rd = .empty
  nodes : t.nodes = []
  host : s.keepsHostSide t

/-! ## The invariants -/

/-- The heap property (R164): no entry comes before its parent. -/
def heapOrdered (m : Mode) (h : List Entry) : Prop :=
  ∀ i, 0 < i → heapBefore m h i ((i - 1) / 2) = false

/-- An error that may be raised carries a code of R231 other than E_NONE. -/
def Micro.namesError : Micro → Prop
  | .raise e => e ≠ .none
  | .fail e _ _ => e ≠ .none
  | _ => True

/-- Steps of the host queue commands. -/
def Micro.isHostQueue : Micro → Bool
  | .pqPush | .pqPop | .pqTop | .pqSize | .pqClear => true
  | _ => false

/-- Steps of COMPRESS that use the queue. -/
def Micro.isTreeBuilding : Micro → Bool
  | .cInit | .makeLeaves | .build => true
  | _ => false

/-- R58 (d) while a command runs: the queue is ordered under the effective mode until the command ends. COMPRESS empties the
queue first, fills it from the leaves and empties it while building the tree. -/
def State.queueInv (s : State) : Prop :=
  if s.busy then
    ∃ l, s.seq.latch = some l ∧
      if l.opcode = 0x31#8 then
        (∀ m ∈ s.seq.todo, m.isHostQueue = false) ∧
          ((s.seq.todo = compressSteps ∧ heapOrdered s.pqMode s.heap) ∨
            ((s.seq.todo = compressSteps.drop 1 ∨ s.seq.todo = compressSteps.drop 2 ∨ s.seq.todo = compressSteps.drop 3) ∧
              l.mode = .min ∧ s.heap = [] ∧ s.nodes = []) ∨
            ((s.seq.todo = compressSteps.drop 4 ∨ s.seq.todo = compressSteps.drop 5) ∧
              l.mode = .min ∧ heapOrdered .min s.heap ∧ s.heap.length ≤ 128 ∧ s.nodes.length = s.heap.length) ∨
            ((∀ m ∈ s.seq.todo, m.isTreeBuilding = false) ∧ s.heap = []))
      else
        (∀ m ∈ s.seq.todo, m.isTreeBuilding = false) ∧ l.mode = s.pqMode ∧ heapOrdered s.pqMode s.heap
  else heapOrdered s.pqMode s.heap

/-! ### What is left of a running command -/

/-- The commands, by opcode, that a primitive step is part of (R128 to R136, R158 to R162, R181, R200, R234, R235). -/
def Micro.belongsTo (op : Byte) : Micro → Bool
  | .writeImmBit => op == 0x01#8
  | .writeImmByte => op == 0x02#8
  | .writeArg => op == 0x03#8
  | .writeBit _ => op == 0x01#8 || op == 0x02#8 || op == 0x03#8 || op == 0x31#8
  | .append _ .raise => op == 0x01#8 || op == 0x02#8 || op == 0x03#8 || op == 0x04#8 || op == 0x31#8 || op == 0x32#8
  | .flush .raise => op == 0x04#8 || op == 0x31#8
  | .append _ .afterClose | .flush .afterClose | .raise _ => op == 0x05#8
  | .append _ .ignore | .flush .ignore => op == 0x31#8 || op == 0x32#8
  | .snkClose => op == 0x05#8 || op == 0x31#8 || op == 0x32#8
  | .srcClose | .dropReader => op == 0x14#8 || op == 0x31#8 || op == 0x32#8
  | .clearValue | .readBit => op == 0x11#8 || op == 0x12#8 || op == 0x13#8 || op == 0x32#8
  | .resultValue => op == 0x11#8 || op == 0x12#8 || op == 0x13#8
  | .pqPush => op == 0x21#8
  | .pqPop => op == 0x22#8
  | .pqTop => op == 0x23#8
  | .pqSize => op == 0x24#8
  | .pqClear => op == 0x25#8
  | .enterPhase _ | .release => op == 0x31#8 || op == 0x32#8
  | .cInit | .scan | .makeLeaves | .build | .serialize | .serNode _ | .recordCode _ | .serReturn | .writeCount | .payload _ =>
    op == 0x31#8
  | .dInit | .treeToken | .treeLeaf | .treeReturn _ | .takeCount | .decode _ | .walk _ _ | .branch _ _ => op == 0x32#8
  | .fail _ opcode _ => opcode == op
  | .done => true

/-- Steps that write RESULT or RESULT2 (R33, R34). -/
def Micro.givesResult : Micro → Bool
  | .resultValue | .pqPop | .pqTop | .pqSize => true
  | _ => false

/-- Steps that end the command. -/
def Micro.endsCommand : Micro → Bool
  | .fail _ _ _ | .done => true
  | _ => false

/-- Steps that fill the writer cursor, themselves or through the steps they lead to. -/
def Micro.writes : Micro → Bool
  | .writeBit _ | .writeImmBit | .writeImmByte | .writeArg | .serialize | .serNode _ | .serReturn | .writeCount | .payload _ => true
  | _ => false

/-- Steps that fill the reader cursor, themselves or through the steps they lead to. -/
def Micro.reads : Micro → Bool
  | .readBit | .treeToken | .treeLeaf | .treeReturn _ | .takeCount | .decode _ | .walk _ _ | .branch _ _ => true
  | _ => false

/-- Steps that use a port otherwise than to close it, themselves or through the steps they lead to. -/
def Micro.transfers (m : Micro) : Bool :=
  m.writes || m.reads ||
    match m with
    | .scan | .flush _ | .append _ _ => true
    | _ => false

/-- Steps that empty the writer cursor (R123, R182, R201). -/
def Micro.emptiesWriter (m : Micro) : Bool := m matches .flush _ | .cInit | .dInit

/-- Steps that empty the reader cursor (R136, R182, R201, R210, R235). -/
def Micro.emptiesReader (m : Micro) : Bool := m matches .dropReader | .cInit | .dInit

/-- Steps that build a tree in the arena, themselves or through the steps they lead to. -/
def Micro.builds (m : Micro) : Bool := m.reads || m == .makeLeaves || m == .build

/-- Is something empty at the end of a list of steps, given whether it is now? The last step that fills or empties it decides. -/
def endsEmpty (fills empties : Micro → Bool) : Bool → List Micro → Bool
  | now, [] => now
  | now, m :: rest =>
    if m.endsCommand then now
    else endsEmpty fills empties (if empties m then true else if fills m then false else now) rest

/-- How far the newest port events have come in closing both streams, the source first (R68): 0, 1, or 2 for both. -/
def closing : List PortEvent → Nat
  | .snkClose :: .srcClose :: _ => 2
  | .srcClose :: _ => 1
  | _ => 0

/-- The same after one step. -/
def Micro.closingAfter (m : Micro) (now : Nat) : Nat :=
  if m = .srcClose then 1
  else if m = .snkClose then if now = 1 then 2 else 0
  else if m.transfers then 0
  else now

/-- The same at the end of a list of steps, given how far it is now. -/
def endsClosing : Nat → List Micro → Nat
  | now, [] => now
  | now, m :: rest => if m.endsCommand then now else endsClosing (m.closingAfter now) rest

/-- What is left of a codec command closes both streams, empties both cursors and releases the arena (R194, R210, R235). -/
structure State.winding (s : State) : Prop where
  closes : endsClosing (closing s.ports.trace) s.seq.todo = 2
  writer : endsEmpty Micro.writes Micro.emptiesWriter (s.wr == .empty) s.seq.todo = true
  reader : endsEmpty Micro.reads Micro.emptiesReader (s.rd == .empty) s.seq.todo = true
  arena : endsEmpty Micro.builds (· == .release) s.nodes.isEmpty s.seq.todo = true

/-- What is left of the running command is that command's. -/
structure State.commandInv (s : State) : Prop where
  /-- Its steps, and no other command's. -/
  steps : ∀ m ∈ s.seq.todo, m.belongsTo s.latched.opcode = true
  /-- A result is written by the last step before completion, with nothing but bits to read before it (R33). -/
  results : ∀ m ∈ s.seq.todo, m.givesResult = true → ∃ reading : List Micro, s.seq.todo = reading ++ [m, .done] ∧
    reading.length ≤ 33 ∧ ∀ x ∈ reading, x = .clearValue ∨ x = .readBit
  /-- A codec command is on its way to its close. -/
  codec : isCodec s.latched.opcode = true → s.winding

/-- What holds of the block between any two steps: R58, and the bounds of R48, R51 and R52. -/
structure State.BlockInv (s : State) : Prop where
  /-- R7: the parameters are in their ranges. -/
  params : s.params.legal
  /-- R58 (a), (f), R261: an idle block has PHASE 0, an empty traversal stack and no command latched. -/
  idle : s.busy = false → s.seq = .idle
  /-- R243: STATUS.ERR is 0 whenever a command runs. -/
  running : s.busy = true → s.err = false
  /-- R58 (b). -/
  writer : s.wr.cnt.toNat ≤ 7 ∧ s.wr.buf.toNat < 2 ^ s.wr.cnt.toNat
  /-- R58 (c). -/
  reader : s.rd.cnt.toNat ≤ 7
  /-- R58 (d), R52: the size. -/
  queueSize : s.heap.length ≤ s.params.pqCap
  /-- R58 (d), R164: the order. -/
  queueOrder : s.queueInv
  /-- R58 (e), R30. -/
  errors : s.err = false ↔ s.errReg = .clear
  /-- Errors still to be recorded have a code. -/
  pending : ∀ m ∈ s.seq.todo, m.namesError
  /-- R51: at most 255 nodes. -/
  arena : s.nodes.length ≤ Config.nodeCap
  /-- R48: INLEN is at most INBUF_CAP. -/
  inputLength : s.inlen.toNat ≤ s.params.inbufCap
  /-- R48: INBUF keeps its canonical form, inside its capacity, and every byte below INLEN is held. -/
  input : s.inbuf.wf ∧ (∀ c ∈ s.inbuf, c.1 < s.params.inbufCap) ∧ ∀ i < s.inlen.toNat, (s.inbuf.read i).isSome
  /-- R260: while HC_RST is asserted the block is idle. -/
  held : s.inReset = true → s.busy = false

/-- What holds of the machine between any two steps: of the block, and of what is left of the running command. -/
structure State.Inv (s : State) : Prop extends s.BlockInv where
  /-- R10, R33, R68, R235: the running command ends as its rules say. -/
  command : s.busy = true → s.commandInv

/-- The next input is a reset: HC_RST asserted (R260), or SOFT_RESET (R263). -/
def State.resets (s : State) : Prop :=
  (∃ rest, s.events = .hcRst s.params.hcRstActiveHigh :: rest) ∨ ∃ v rest, s.writes 0x010 v rest ∧ v.getLsbD 1 = true

/-! ## The arena is read only where it is allocated (R261) -/

/-- Steps of DECOMPRESS that build the tree. -/
def Micro.isTreeReading : Micro → Bool
  | .treeToken | .treeLeaf | .treeReturn _ => true
  | _ => false

/-- Steps of DECOMPRESS that use the finished tree. -/
def Micro.isTreeWalking : Micro → Bool
  | .takeCount | .decode _ | .walk _ _ | .branch _ _ => true
  | _ => false

/-- Steps that use the traversal stack. -/
def Micro.usesStack : Micro → Bool
  | .serialize | .serNode _ | .serReturn => true
  | .treeToken | .treeLeaf | .treeReturn _ => true
  | _ => false

/-- Steps that use the arena, ROOT or the traversal stack. -/
def Micro.usesArena (m : Micro) : Bool :=
  m.usesStack || m.isTreeWalking || (m == .makeLeaves || m == .build)

/-- NODE[n] is an internal node. -/
def State.isInternal (s : State) (n : Byte) : Prop :=
  ∃ freq left right, s.nodes[n.toNat]? = some (.internal freq left right)

/-- A node's children are allocated. -/
def Node.below : Node → Nat → Prop
  | .leaf _ _, _ => True
  | .internal _ left right, n => left.toNat < n ∧ right.toNat < n

/-- The node a step names is allocated; the one a walk step leaves is internal. -/
def Micro.namesNode (s : State) : Micro → Prop
  | .serNode n => n.toNat < s.nodes.length
  | .treeReturn n => n.toNat < s.nodes.length
  | .walk n _ => n.toNat < s.nodes.length
  | .branch n _ => s.isInternal n
  | _ => True

/-- What makes every arena read one of an allocated entry. -/
structure State.ArenaInv (s : State) : Prop where
  /-- R51: left and right are indices below NODE_COUNT. -/
  children : ∀ x ∈ s.nodes, x.below s.nodes.length
  /-- A codec command that has not started has all its steps to run. -/
  start : (Micro.cInit ∈ s.seq.todo → s.seq.todo = compressSteps ∧ s.seq.stack = []) ∧
    (Micro.dInit ∈ s.seq.todo → s.seq.todo = decompressSteps ∧ s.seq.stack = [])
  /-- No step uses the arena after its release, and the tree is read before it is walked. -/
  order : s.seq.todo.Pairwise fun a b =>
    (a = .release → b.usesArena = false) ∧ (a.isTreeWalking = true → b.isTreeReading = false)
  /-- The nodes the steps name. -/
  named : ∀ m ∈ s.seq.todo, m.namesNode s
  /-- The pending nodes, while a step may still use them. -/
  frames : (∃ m ∈ s.seq.todo, m.usesStack = true) → ∀ f ∈ s.seq.stack, s.isInternal f.node
  /-- ROOT, once the tree is built. -/
  rootBuilt : Micro.serialize ∈ s.seq.todo → Micro.build ∉ s.seq.todo → s.root.toNat < s.nodes.length
  /-- ROOT, once the tree is read. -/
  rootRead : (∃ m ∈ s.seq.todo, m.isTreeWalking = true) → (∀ m ∈ s.seq.todo, m.isTreeReading = false) →
    s.root.toNat < s.nodes.length
  /-- The queue's tags, while COMPRESS builds the tree. -/
  tags : Micro.build ∈ s.seq.todo → Micro.makeLeaves ∉ s.seq.todo → ∀ e ∈ s.heap, e.tag.toNat < s.nodes.length

end Sys2Proof.Machine

/-! ## The artifact, as plain functions (R100 to R106, R184 to R193) -/

namespace Sys2Proof.Artifact

open Sys2Proof.Machine

/-- A code tree (R15). -/
inductive Tree where
  | leaf (sym : Byte)
  | node (left right : Tree)
  deriving DecidableEq, Repr

namespace Tree

/-- The number of nodes. -/
def size : Tree → Nat
  | leaf _ => 1
  | node l r => l.size + r.size + 1

/-- The pre-order token sequence (R101). -/
def bits : Tree → List Bool
  | leaf sym => true :: msbFirst sym
  | node l r => false :: (l.bits ++ r.bits)

/-- The symbols of the leaves, left to right. -/
def leaves : Tree → List Byte
  | leaf sym => [sym]
  | node l r => l.leaves ++ r.leaves

/-- The bit-path from the root to the leaf of a symbol, left 0, right 1 (R106). -/
def codeOf : Tree → Byte → Option (List Bool)
  | leaf sym, x => if sym = x then some [] else none
  | node l r, x =>
    match l.codeOf x with
    | some p => some (false :: p)
    | none => (r.codeOf x).map (true :: ·)

/-- The leaf a bit-path leads to, when the path ends there (R206). -/
def walk : Tree → List Bool → Option Byte
  | leaf sym, [] => some sym
  | leaf _, _ :: _ => none
  | node _ _, [] => none
  | node l r, b :: p => if b then r.walk p else l.walk p

end Tree

/-- How often a symbol occurs (R49). -/
def occurrences (xs : List Byte) (sym : Byte) : Nat := xs.count sym

/-- A tree waiting to be merged, with its frequency and its tie key (R107, R185). -/
structure Item where
  freq : Nat
  tie : Nat
  tree : Tree

/-- `before_MIN` (R151). -/
def Item.before (a b : Item) : Bool := a.freq < b.freq || (a.freq == b.freq && a.tie < b.tie)

/-- The item that comes first, and the others. -/
def takeFirst : List Item → Option (Item × List Item)
  | [] => none
  | x :: xs =>
    match takeFirst xs with
    | none => some (x, [])
    | some (y, ys) => if y.before x then some (y, x :: ys) else some (x, xs)

/-- The merges (R186): the first item taken becomes the left subtree, the second the right (R187), the tie is the smaller
of the two (R185). The first argument bounds the turns. -/
def mergeAll : Nat → List Item → List Item
  | 0, items => items
  | turns + 1, items =>
    match takeFirst items with
    | none => []
    | some (a, rest) =>
      match takeFirst rest with
      | none => [a]
      | some (b, rest') => mergeAll turns (⟨a.freq + b.freq, min a.tie b.tie, .node a.tree b.tree⟩ :: rest')

/-- The leaves of an input, in ascending order of symbol (R184). -/
def leafItems (xs : List Byte) : List Item :=
  (symbols.filter fun sym => occurrences xs sym != 0).map fun sym => ⟨occurrences xs sym, sym.toNat, .leaf sym⟩

/-- The tree of an input (R186); the placeholder leaf for an empty one (R188). -/
def treeOf (xs : List Byte) : Tree :=
  match mergeAll (leafItems xs).length (leafItems xs) with
  | [] => .leaf 0x00#8
  | item :: _ => item.tree

/-- The code of a symbol in a tree; the empty sequence for a symbol without a leaf. -/
def code (t : Tree) (sym : Byte) : List Bool := (t.codeOf sym).getD []

/-- Parts (1) to (3) of the artifact (R100): the tree, the count, the payload (R103, R104). -/
def artifactBits (xs : List Byte) : List Bool :=
  (treeOf xs).bits ++ msbFirst (BitVec.ofNat 32 xs.length) ++ xs.flatMap (code (treeOf xs))

/-- Up to 8 bits as a byte, the first bit highest, the low bits zero-padded (R69, R105). -/
def byteOf (bits : List Bool) : Byte :=
  (List.range 8).foldl (fun v i => shiftIn v (bits[i]?.getD false)) 0#8

/-- How many bytes hold `n` bits. -/
def bytesFor (n : Nat) : Nat := (n + 7) / 8

/-- Parts (1) to (3) of an artifact (R100) that need not come from COMPRESS: any tree, and for each position a path to a leaf
with the symbol it leads to (R213). -/
def streamBits (t : Tree) (ps : List (List Bool × Byte)) : List Bool :=
  t.bits ++ msbFirst (BitVec.ofNat 32 ps.length) ++ ps.flatMap Prod.fst

/-- A token of the tree encoding (R101): `none` is internal, `some` a leaf's symbol. -/
abbrev Token := Option Byte

/-- A token's bits (R101, R102). -/
def Token.bits : Token → List Bool
  | none => [false]
  | some sym => true :: msbFirst sym

/-- The count of R102: subtrees still needed after the tokens, from `need`; none where the tree closed before the last one. -/
def openAfter : Nat → List Token → Option Nat
  | need, [] => some need
  | 0, _ :: _ => none
  | need + 1, none :: rest => openAfter (need + 2) rest
  | need + 1, some _ :: rest => openAfter need rest

/-- Bits packed into bytes MSB first, the last byte zero-padded (R69, R105). -/
def pack (bits : List Bool) : List Byte :=
  (List.range (bytesFor bits.length)).map fun i => byteOf ((bits.drop (8 * i)).take 8)

/-- The bits of bytes in stream order (R69). -/
def unpack (bs : List Byte) : List Bool := bs.flatMap msbFirst

/-- The artifact of an input (R100, R195). -/
def artifact (xs : List Byte) : List Byte := pack (artifactBits xs)

end Sys2Proof.Artifact
end

