-- ==== Sys2Proof/Certificates/Slice0/Obligations.lean ====
section
/-! DEFINITION. The statements for the provers, in the order of OBLIGATIONS.json. -/

open Sys2Proof Sys2Proof.Machine Sys2Proof.Artifact

/-! ## Encoding -/

/-- The opcode map of R95, row by row, on words written out from the table's bit patterns. -/
def Obligations.TableWordsDecode : Prop :=
  decode 0b00000000000000000000000000000001#32 = .ok (.wbit 0#8) ∧
  decode 0b00000000000000000000000100000001#32 = .ok (.wbit 1#8) ∧
  decode 0b00000000000000001010010100000010#32 = .ok (.wbyte 0xA5#8) ∧
  decode 0b00000000000000000000000000000011#32 = .ok .wint32 ∧
  decode 0b00000000000000000000000000000100#32 = .ok .wflush ∧
  decode 0b00000000000000000000000000000101#32 = .ok .wclose ∧
  decode 0b00000000000000000000000000010001#32 = .ok .rbit ∧
  decode 0b00000000000000000000000000010010#32 = .ok .rbyte ∧
  decode 0b00000000000000000000000000010011#32 = .ok .rint32 ∧
  decode 0b00000000000000000000000000010100#32 = .ok .rclose ∧
  decode 0b00000000000000000000000000100001#32 = .ok .pqPush ∧
  decode 0b00000000000000000000000000100010#32 = .ok .pqPop ∧
  decode 0b00000000000000000000000000100011#32 = .ok .pqTop ∧
  decode 0b00000000000000000000000000100100#32 = .ok .pqSize ∧
  decode 0b00000000000000000000000000100101#32 = .ok .pqClear ∧
  decode 0b00000000000000000000000000110001#32 = .ok .compress ∧
  decode 0b00000000000000000000000000110010#32 = .ok .decompress

/-- Decoding the word of any well-formed command gives the command back, with every operand (R90 to R95). -/
def Obligations.DecodeInvertsEncode : Prop :=
  ∀ i : Instr, i.wellFormed = true → decode (encode i) = .ok i

/-- A word that decodes is the word of its command: no two words mean the same (R97, R98). -/
def Obligations.EncodeInvertsDecode : Prop :=
  ∀ (w : Word) (i : Instr), decode w = .ok i → i.wellFormed = true ∧ encode i = w

/-- R96: a word is illegal if and only if it fails one of the three tests, on the word's own bits: (a) the opcode is not
one of the 16, (b) RSVD is not 0, (c) IMM8 breaks R92. -/
def Obligations.IllegalWordsFailATest : Prop :=
  ∀ w : Word,
    (∃ e, decode w = .error e) ↔
      (w.toNat % 256 ∉ [0x01, 0x02, 0x03, 0x04, 0x05, 0x11, 0x12, 0x13, 0x14, 0x21, 0x22, 0x23, 0x24, 0x25, 0x31, 0x32] ∨
        w.toNat / 65536 ≠ 0 ∨
        (w.toNat % 256 = 0x01 ∧ 2 ≤ w.toNat / 256 % 256) ∨
        (w.toNat % 256 ≠ 0x01 ∧ w.toNat % 256 ≠ 0x02 ∧ w.toNat / 256 % 256 ≠ 0))

/-! ## Steps -/

/-- A step whose next input is a host write of a decodable word to CMD is `exec` of that command, on the state with the input
taken and the write acknowledged (R27, R80); the same for a word placed by `withFetchWord`. -/
def Obligations.StepRunsDecodedCommand : Prop :=
  (∀ (s : State) (w : Word) (i : Instr) (rest : List Event), s.writesCmd w rest → decode w = .ok i →
    step s = exec i { s with events := rest, reply := .ack }) ∧
  (∀ (s : State) (w : Word) (i : Instr), decode w = .ok i →
    step (s.withFetchWord 32 w.toNat) = exec i { s with inReset := false, reply := .ack })

/-- R233: an illegal word that reaches acceptance changes ERR, STATUS.ERR and INT_PENDING.ERROR and nothing else; ERR then
reads code 0x01, the word's low byte as opcode, phase 0. -/
def Obligations.IllegalWordRaisesAtOnce : Prop :=
  ∀ (s : State) (w : Word) (e : DecodeError) (rest : List Event), s.writesCmd w rest → s.ready → decode w = .error e →
    step s = .next
        { s with
          events := rest
          reply := .ack
          errReg := ⟨.illegal, w.extractLsb' 0 8, .idle⟩
          err := true
          intError := true } ∧
      ErrReg.toWord ⟨.illegal, w.extractLsb' 0 8, .idle⟩ = 0#16 ++ w.extractLsb' 0 8 ++ 0x01#8

/-- R232: a word written to CMD while BUSY = 1 or STATUS.ERR = 1 is dropped: OVR is set, and nothing else changes but what
a running command goes on to do. -/
def Obligations.BusyOrErrDropsTheWord : Prop :=
  (∀ (s : State) (w : Word) (rest : List Event), s.writesCmd w rest → (s.busy = true ∨ s.err = true) →
    step s = settle { s with events := rest, reply := .ack, ovr := true }) ∧
  (∀ (s : State) (i : Instr), (s.busy = true ∨ s.err = true) → exec i s = settle { s with ovr := true }) ∧
  (∀ s : State, s.busy = false → settle s = .next s)

/-- R252: with no input left, an idle block holds its state. -/
def Obligations.IdleBlockHoldsItsState : Prop :=
  ∀ s : State, s.events = [] → s.busy = false → step s = .next s

/-! ## Registers -/

/-- Reset (R22, R261, R262): what every register reads for any instance of the block, the tables, the interrupt line, and the
hidden state. -/
def Obligations.ResetLeavesTheTableOfValues : Prop :=
  ∀ p : Params,
    let s := State.resetOf p
    (∀ off ∈ [0x010, 0x014, 0x018, 0x01C, 0x020, 0x024, 0x028, 0x02C, 0x030, 0x034, 0x038, 0x03C, 0x040, 0x044, 0x048, 0x04C,
      0x050], registerValue s off = 0#32) ∧
    registerValue s 0x000 = 0x48554646#32 ∧
    registerValue s 0x004 = 0x00010000#32 ∧
    registerValue s 0x008 = BitVec.ofNat 32 p.pqCap ∧
    registerValue s 0x00C = BitVec.ofNat 32 p.inbufCap ∧
    (∀ off, isTableWord off = true → tableWord s.tables off = 0#32) ∧
    s.irq = false ∧ s.seq.phase = .idle ∧ s.seq.stack = [] ∧ s.seq.latch = none ∧
    s.inlen = 0#32 ∧ s.nodes = [] ∧ s.root = 0#8 ∧ s.heap = [] ∧ s.ports.trace = []

/-- R63: a host read changes no state of the block: nothing but the bus answer and the model's own counter of unspecified
values. -/
def Obligations.ReadsChangeNoState : Prop :=
  ∀ (s : State) (off : Nat) (rest : List Event), s.reads off rest →
    ∃ (v : Word) (draws : Nat), step s = settle { s with events := rest, reply := .data v, draws := draws }

/-- What a host read of every register answers, field by field, in every state, idle or busy (R77): ID and VERSION (R24, R25), the
parameters (R26), CMD (R27), CTRL (R28), STATUS (R29), ERR (R30), ARG (R31), ARG2 (R32), RESULT (R33), RESULT2 (R34), PQ_SIZE (R35),
WSTATE (R36), RSTATE (R37), SYMCOUNT (R38), SRC_COUNT (R39), SNK_COUNT (R40), TREE_NODES (R41), INT_PENDING (R42), INT_ENABLE
(R43). The value is the one before the SEQUENCER goes on; an idle block does nothing more. -/
def Obligations.RegistersReadTheirFields : Prop :=
  ∀ (s : State) (rest : List Event),
    let answers (off : Nat) (v : Nat) : Prop :=
      s.reads off rest →
        let t : State := { s with events := rest, reply := .data (BitVec.ofNat 32 v) }
        step s = settle t ∧ (s.busy = false → step s = .next t)
    answers 0x000 0x48554646 ∧
    answers 0x004 0x00010000 ∧
    answers 0x008 s.params.pqCap ∧
    answers 0x00C s.params.inbufCap ∧
    answers 0x010 (if s.pqMode = .max then 1 else 0) ∧
    answers 0x014 (s.busy.toNat + s.err.toNat * 2 + s.ovr.toNat * 4 + s.seq.phase.code.toNat * 256) ∧
    answers 0x018 (s.errReg.code.code.toNat + s.errReg.opcode.toNat * 256 + s.errReg.phase.code.toNat * 65536) ∧
    answers 0x01C 0 ∧
    answers 0x020 s.arg.toNat ∧
    answers 0x024 (s.arg2.tie.toNat + s.arg2.tag.toNat * 256) ∧
    answers 0x028 s.result.toNat ∧
    answers 0x02C (s.result2.tie.toNat + s.result2.tag.toNat * 256) ∧
    answers 0x030 s.heap.length ∧
    answers 0x034 (s.wr.buf.toNat + s.wr.cnt.toNat * 256) ∧
    answers 0x038 (s.rd.buf.toNat + s.rd.cnt.toNat * 256) ∧
    answers 0x03C s.symcount.toNat ∧
    answers 0x040 s.srcCount.toNat ∧
    answers 0x044 s.snkCount.toNat ∧
    answers 0x048 s.treeNodes.toNat ∧
    answers 0x04C (s.intDone.toNat + s.intError.toNat * 2) ∧
    answers 0x050 (s.doneIe.toNat + s.errorIe.toNat * 2)

/-- R45 to R47: the table windows, while the block is idle: FREQ at 0x400 + 4s, CODE_LEN at 0x600 + 4s, bits 32k+31..32k of
CODE_BITS at 0x800 + 16s + 4k. -/
def Obligations.WindowsReadTheTables : Prop :=
  ∀ (s : State) (rest : List Event) (sym k : Nat) (h : sym < 128), k < 4 → s.busy = false →
    (s.reads (0x400 + 4 * sym) rest →
      step s = .next { s with events := rest, reply := .data s.tables.freq[sym] }) ∧
    (s.reads (0x600 + 4 * sym) rest →
      step s = .next { s with events := rest, reply := .data (s.tables.codeLen[sym].setWidth 32) }) ∧
    (s.reads (0x800 + 16 * sym + 4 * k) rest →
      step s = .next
        { s with events := rest, reply := .data (BitVec.ofNat 32 (s.tables.codeBits[sym].toNat / 2 ^ (32 * k))) })

/-- R44: the offsets 0x054 to 0x3FC read 0 and ignore writes, idle or busy. -/
def Obligations.ReservedOffsetsAreRazWi : Prop :=
  ∀ (s : State) (off : Nat) (v : Word) (rest : List Event), 0x054 ≤ off → off ≤ 0x3FC →
    (s.reads off rest → step s = settle { s with events := rest, reply := .data 0#32 }) ∧
    (s.writes off v rest → step s = settle { s with events := rest, reply := .ack })

/-- R23: a host write to a read-only register or a table word has no effect, idle or busy. -/
def Obligations.ReadOnlyRegistersIgnoreWrites : Prop :=
  ∀ (s : State) (off : Nat) (v : Word) (rest : List Event), s.writes off v rest →
    (off ∈ [0x000, 0x004, 0x008, 0x00C, 0x018, 0x028, 0x02C, 0x030, 0x034, 0x038, 0x03C, 0x040, 0x044, 0x048] ∨ 0x400 ≤ off) →
    step s = settle { s with events := rest, reply := .ack }

/-- R61: a sub-word, misaligned or burst access to the window has no effect on any state and answers a bus error, without
data, idle or busy. -/
def Obligations.BadAccessAnswersBusError : Prop :=
  ∀ (s : State) (a : Access) (rest : List Event), s.events = .access a :: rest →
    s.params.hcBase ≤ a.addr → a.addr < s.params.hcBase + 4096 →
    (a.bytes ≠ 4 ∨ (a.addr - s.params.hcBase) % 4 ≠ 0) →
    step s = settle { s with events := rest, reply := .busError }

/-- R163: a host write to CTRL without SOFT_RESET changes PQ_MODE only when BUSY = 0 and the queue is empty; otherwise the
old value is kept. -/
def Obligations.ModeChangesOnlyWhenIdleAndEmpty : Prop :=
  ∀ (s : State) (v : Word) (rest : List Event), s.writes 0x010 v rest → v.getLsbD 1 = false →
    (s.busy = false → s.heap = [] →
      step s = .next { s with events := rest, reply := .ack, pqMode := if v.getLsbD 0 then .max else .min }) ∧
    ((s.busy = true ∨ s.heap ≠ []) → step s = settle { s with events := rest, reply := .ack })

/-- R263: SOFT_RESET, in every state: the reset state of R261 whatever else the write holds; the sink keeps its bytes, no
close event and no interrupt. That a reset of an idle block leaves the devices' streams as they are is the model's reading (log 23). -/
def Obligations.SoftResetReachesTheResetState : Prop :=
  ∀ (s : State) (v : Word) (rest : List Event), s.writes 0x010 v rest → v.getLsbD 1 = true →
    ∃ ports : Ports, ports.trace = s.ports.trace ∧ (s.busy = false → ports = s.ports) ∧
      step s = .next
        { State.resetOf s.params with ports := ports, events := rest, reply := .ack, draws := s.draws }

/-- R260: HC_RST asserted puts the block into the reset state in every state, and while it is asserted no host write
changes it; released, the block is idle. That writes are ignored meanwhile is the model's reading (log 9). -/
def Obligations.HardwareResetHoldsTheResetState : Prop :=
  (∀ (s : State) (rest : List Event), s.events = .hcRst s.params.hcRstActiveHigh :: rest →
    ∃ ports : Ports, ports.trace = s.ports.trace ∧
      step s = .next
        { State.resetOf s.params with
          ports := ports, events := rest, reply := s.reply, draws := s.draws, inReset := true }) ∧
  (∀ (s : State) (off : Nat) (v : Word) (rest : List Event), s.inReset = true → s.busy = false →
    off % 4 = 0 → off < 4096 → s.events = .access ⟨s.params.hcBase + off, 4, some v⟩ :: rest →
    step s = .next { s with events := rest, reply := .ack }) ∧
  (∀ (s : State) (rest : List Event), s.events = .hcRst (!s.params.hcRstActiveHigh) :: rest → s.busy = false →
    step s = .next { s with events := rest, inReset := false })

/-- R243, R245: a host write to STATUS: 1 to bit 1 while BUSY = 0 clears STATUS.ERR and ERR, while BUSY = 1 it has no effect;
1 to bit 2 clears OVR; INT_PENDING is left alone. -/
def Obligations.StatusWriteReturnsFromError : Prop :=
  ∀ (s : State) (v : Word) (rest : List Event), s.writes 0x014 v rest →
    (s.busy = false →
      step s = .next
        { s with
          events := rest
          reply := .ack
          err := if v.getLsbD 1 then false else s.err
          errReg := if v.getLsbD 1 then ⟨.none, 0#8, .idle⟩ else s.errReg
          ovr := if v.getLsbD 2 then false else s.ovr }) ∧
    (s.busy = true →
      step s = settle { s with events := rest, reply := .ack, ovr := if v.getLsbD 2 then false else s.ovr })

/-- R242, R241: a host write to INT_PENDING, idle or busy, clears DONE and ERROR where it has a 1 and leaves STATUS.ERR alone, and the
line is what the bits left pending and their enables make it; an idle block does nothing more. -/
def Obligations.PendingBitsClearOnWriteOne : Prop :=
  ∀ (s : State) (v : Word) (rest : List Event), s.writes 0x04C v rest →
    let t : State :=
      { s with
        events := rest
        reply := .ack
        intDone := if v.getLsbD 0 then false else s.intDone
        intError := if v.getLsbD 1 then false else s.intError }
    step s = settle t ∧ (s.busy = false → step s = .next t) ∧
      (t.irq = true ↔
        (s.intDone = true ∧ v.getLsbD 0 = false ∧ s.doneIe = true) ∨
          (s.intError = true ∧ v.getLsbD 1 = false ∧ s.errorIe = true))

/-- R31, R32, R43: a host write to ARG, ARG2 or INT_ENABLE stores all its writable fields at once, and no other state, idle or
busy. -/
def Obligations.OperandRegistersHoldTheWrite : Prop :=
  ∀ (s : State) (v : Word) (rest : List Event),
    (s.writes 0x020 v rest → step s = settle { s with events := rest, reply := .ack, arg := v }) ∧
    (s.writes 0x024 v rest →
      step s = settle
        { s with events := rest, reply := .ack, arg2 := ⟨BitVec.ofNat 8 v.toNat, BitVec.ofNat 8 (v.toNat / 256)⟩ }) ∧
    (s.writes 0x050 v rest →
      step s = settle { s with events := rest, reply := .ack, doneIe := v.getLsbD 0, errorIe := v.getLsbD 1 })

/-! ## The bit writer -/

/-- WBIT is WriteBit (R120): below seven pending bits the bit is shifted in with no sink traffic; the eighth bit empties the
cursor and appends the byte; where the sink answers IoErr the byte is lost, the cursor is empty, and E_IO_SNK is recorded.
Nothing else changes. -/
def Obligations.WbitWritesOneBit : Prop :=
  ∀ (s : State) (b : Bool), s.ready → s.wr.cnt.toNat ≤ 7 →
    let buf := (s.wr.buf <<< 1) ||| (if b then 1#8 else 0#8)
    let i := Instr.wbit (if b then 1#8 else 0#8)
    (s.wr.cnt.toNat < 7 →
      exec i s = .next { s with wr := ⟨buf, s.wr.cnt + 1#4⟩, intDone := true, seq := .idle }) ∧
    (s.wr.cnt.toNat = 7 → s.ports.snk.accepts 1 →
      exec i s = .next
        { s with
          wr := ⟨0#8, 0#4⟩, snkCount := s.snkCount + 1#32, ports := s.ports.taking [buf]
          intDone := true, seq := .idle }) ∧
    (s.wr.cnt.toNat = 7 → s.ports.snk.refuses →
      ∃ ports : Ports, ports.trace = .snkIoErr buf :: s.ports.trace ∧ ports.src = s.ports.src ∧
        exec i s = .next
          { s with
            wr := ⟨0#8, 0#4⟩, ports := ports
            errReg := ⟨.ioSnk, 0x01#8, .prim⟩, err := true, intError := true, seq := .idle })

/-- WBYTE with w = WCNT pending bits (R121, R129): one byte, the pending bits then v's first 8 - w, is appended, and v's last
w bits stay pending. Where the sink answers IoErr, the bits of v after the byte boundary are not written. -/
def Obligations.WbyteWritesEightBits : Prop :=
  ∀ (s : State) (v : Byte), s.ready → s.wr.cnt.toNat ≤ 7 →
    let w := s.wr.cnt.toNat
    let byte := (s.wr.buf <<< (8 - w)) ||| (v >>> w)
    (s.ports.snk.accepts 1 →
      exec (.wbyte v) s = .next
        { s with
          wr := ⟨BitVec.ofNat 8 (v.toNat % 2 ^ w), s.wr.cnt⟩, snkCount := s.snkCount + 1#32
          ports := s.ports.taking [byte], intDone := true, seq := .idle }) ∧
    (s.ports.snk.refuses →
      ∃ ports : Ports, ports.trace = .snkIoErr byte :: s.ports.trace ∧ ports.src = s.ports.src ∧
        exec (.wbyte v) s = .next
          { s with
            wr := ⟨0#8, 0#4⟩, ports := ports
            errReg := ⟨.ioSnk, 0x02#8, .prim⟩, err := true, intError := true, seq := .idle })

/-- WINT32 with w = WCNT pending bits (R122, R130): four bytes, the pending bits then ARG's first 32 - w, most-significant
first, are appended, and ARG's last w bits stay pending. ARG is any value, negative ones too. Where the sink answers IoErr to one
of the four, that byte is lost, the bits after it are not written, and E_IO_SNK is recorded. -/
def Obligations.Wint32WritesArg : Prop :=
  ∀ s : State, s.ready → s.wr.cnt.toNat ≤ 7 →
    let w := s.wr.cnt.toNat
    let x := (s.wr.buf.setWidth 32 <<< (32 - w)) ||| (s.arg >>> w)
    let bytes : List Byte := [x.extractLsb' 24 8, x.extractLsb' 16 8, x.extractLsb' 8 8, x.extractLsb' 0 8]
    (s.ports.snk.accepts 4 →
      exec .wint32 s = .next
        { s with
          wr := ⟨BitVec.ofNat 8 (s.arg.toNat % 2 ^ w), s.wr.cnt⟩, snkCount := s.snkCount + 4#32
          ports := s.ports.taking bytes, intDone := true, seq := .idle }) ∧
    (∀ (k : Nat) (byte : Byte), bytes[k]? = some byte → s.ports.snk.accepts k →
      (s.ports.taking (bytes.take k)).snk.refuses →
      ∃ ports : Ports, ports.trace = .snkIoErr byte :: (s.ports.taking (bytes.take k)).trace ∧ ports.src = s.ports.src ∧
        exec .wint32 s = .next
          { s with
            wr := ⟨0#8, 0#4⟩, snkCount := s.snkCount + BitVec.ofNat 32 k, ports := ports
            errReg := ⟨.ioSnk, 0x03#8, .prim⟩, err := true, intError := true, seq := .idle })

/-- WFLUSH is Flush (R123): with 1 to 7 pending bits they go to the top of a byte, the low bits zero, the cursor is emptied
and the byte appended; with none nothing happens; where the sink answers IoErr the byte is lost, the cursor is empty, and
E_IO_SNK is recorded. -/
def Obligations.WflushPadsThePartialByte : Prop :=
  ∀ s : State, s.ready →
    let byte := s.wr.buf <<< (8 - s.wr.cnt.toNat)
    (s.wr.cnt = 0#4 → exec .wflush s = .next { s with intDone := true, seq := .idle }) ∧
    (1 ≤ s.wr.cnt.toNat → s.wr.cnt.toNat ≤ 7 → s.ports.snk.accepts 1 →
      exec .wflush s = .next
        { s with
          wr := ⟨0#8, 0#4⟩, snkCount := s.snkCount + 1#32, ports := s.ports.taking [byte]
          intDone := true, seq := .idle }) ∧
    (1 ≤ s.wr.cnt.toNat → s.wr.cnt.toNat ≤ 7 → s.ports.snk.refuses →
      ∃ ports : Ports, ports.trace = .snkIoErr byte :: s.ports.trace ∧ ports.src = s.ports.src ∧
        exec .wflush s = .next
          { s with
            wr := ⟨0#8, 0#4⟩, ports := ports
            errReg := ⟨.ioSnk, 0x04#8, .prim⟩, err := true, intError := true, seq := .idle })

/-- WCLOSE (R132): flush, then the SnkClose event, also where the flush fails, and only then E_IO_SNK. -/
def Obligations.WcloseFlushesThenCloses : Prop :=
  ∀ s : State, s.ready →
    let byte := s.wr.buf <<< (8 - s.wr.cnt.toNat)
    (s.wr.cnt = 0#4 →
      exec .wclose s = .next { s with ports := s.ports.note .snkClose, intDone := true, seq := .idle }) ∧
    (1 ≤ s.wr.cnt.toNat → s.wr.cnt.toNat ≤ 7 → s.ports.snk.accepts 1 →
      exec .wclose s = .next
        { s with
          wr := ⟨0#8, 0#4⟩, snkCount := s.snkCount + 1#32, ports := (s.ports.taking [byte]).note .snkClose
          intDone := true, seq := .idle }) ∧
    (1 ≤ s.wr.cnt.toNat → s.wr.cnt.toNat ≤ 7 → s.ports.snk.refuses →
      ∃ ports : Ports, ports.trace = .snkClose :: .snkIoErr byte :: s.ports.trace ∧ ports.src = s.ports.src ∧
        exec .wclose s = .next
          { s with
            wr := ⟨0#8, 0#4⟩, ports := ports
            errReg := ⟨.ioSnk, 0x05#8, .prim⟩, err := true, intError := true, seq := .idle })

/-! ## The bit reader -/

/-- RBIT is ReadBit (R124): with a bit buffered, RESULT is the next one and the source is not asked; with none, one byte is
fetched and RESULT is its bit 7; where the source answers End or IoErr, E_EOS or E_IO_SRC is recorded and RESULT and the cursor
are unchanged. -/
def Obligations.RbitReadsOneBit : Prop :=
  ∀ s : State, s.ready →
    (1 ≤ s.rd.cnt.toNat → s.rd.cnt.toNat ≤ 7 →
      exec .rbit s = .next
        { s with
          result := if s.rd.buf.getLsbD (s.rd.cnt.toNat - 1) then 1#32 else 0#32, rd := ⟨s.rd.buf, s.rd.cnt - 1#4⟩
          intDone := true, seq := .idle }) ∧
    (s.rd.cnt = 0#4 → ∀ (b : Byte) (items : List SrcItem) (ended : Bool), s.ports.src.holds (.byte b :: items) ended →
      exec .rbit s = .next
        { s with
          result := if b.getLsbD 7 then 1#32 else 0#32, rd := ⟨b, 7#4⟩, srcCount := s.srcCount + 1#32
          ports := s.ports.giving [b] items ended, intDone := true, seq := .idle }) ∧
    (s.rd.cnt = 0#4 → s.ports.src.holds [] true →
      exec .rbit s = .next
        { s with
          ports := s.ports.givingThen [] .srcEnd [] true
          errReg := ⟨.eos, 0x11#8, .prim⟩, err := true, intError := true, seq := .idle }) ∧
    (s.rd.cnt = 0#4 → ∀ (items : List SrcItem) (ended : Bool), s.ports.src.holds (.ioErr :: items) ended →
      exec .rbit s = .next
        { s with
          ports := s.ports.givingThen [] .srcIoErr items ended
          errReg := ⟨.ioSrc, 0x11#8, .prim⟩, err := true, intError := true, seq := .idle })

/-- RBYTE with r = RCNT buffered bits (R125, R134): one byte is fetched; RESULT is the r buffered bits then the new byte's first
8 - r; the byte's other r bits stay buffered. Where the source answers End or IoErr instead, the buffered bits are consumed, RESULT
is unchanged, and E_EOS or E_IO_SRC is recorded. -/
def Obligations.RbyteReadsEightBits : Prop :=
  ∀ s : State, s.ready → s.rd.cnt.toNat ≤ 7 →
    let r := s.rd.cnt.toNat
    (∀ (b : Byte) (items : List SrcItem) (ended : Bool), s.ports.src.holds (.byte b :: items) ended →
      exec .rbyte s = .next
        { s with
          result := ((s.rd.buf <<< (8 - r)) ||| (b >>> r)).setWidth 32, rd := ⟨b, s.rd.cnt⟩
          srcCount := s.srcCount + 1#32, ports := s.ports.giving [b] items ended
          intDone := true, seq := .idle }) ∧
    (s.ports.src.holds [] true →
      exec .rbyte s = .next
        { s with
          rd := ⟨s.rd.buf, 0#4⟩, ports := s.ports.givingThen [] .srcEnd [] true
          errReg := ⟨.eos, 0x12#8, .prim⟩, err := true, intError := true, seq := .idle }) ∧
    (∀ (items : List SrcItem) (ended : Bool), s.ports.src.holds (.ioErr :: items) ended →
      exec .rbyte s = .next
        { s with
          rd := ⟨s.rd.buf, 0#4⟩, ports := s.ports.givingThen [] .srcIoErr items ended
          errReg := ⟨.ioSrc, 0x12#8, .prim⟩, err := true, intError := true, seq := .idle })

/-- RINT32 with r = RCNT buffered bits (R126, R135): four bytes are fetched; RESULT is the r buffered bits then the new bytes'
first 32 - r, most-significant first; the last byte's other r bits stay buffered. -/
def Obligations.Rint32ReadsThirtyTwoBits : Prop :=
  ∀ (s : State) (b₀ b₁ b₂ b₃ : Byte) (items : List SrcItem) (ended : Bool), s.ready → s.rd.cnt.toNat ≤ 7 →
    s.ports.src.holds (.byte b₀ :: .byte b₁ :: .byte b₂ :: .byte b₃ :: items) ended →
    let r := s.rd.cnt.toNat
    let x : Word := b₀ ++ b₁ ++ b₂ ++ b₃
    exec .rint32 s = .next
      { s with
        result := (s.rd.buf.setWidth 32 <<< (32 - r)) ||| (x >>> r), rd := ⟨b₃, s.rd.cnt⟩
        srcCount := s.srcCount + 4#32, ports := s.ports.giving [b₀, b₁, b₂, b₃] items ended
        intDone := true, seq := .idle }

/-- RINT32 on a stream with fewer than 32 bits left before its End or an IoErr (R126, R135): every bit that remained is
consumed, RESULT is unchanged, and E_EOS or E_IO_SRC is recorded. -/
def Obligations.Rint32ConsumesATruncatedStream : Prop :=
  ∀ (s : State) (bs : List Byte), s.ready → s.rd.cnt.toNat ≤ 7 → s.rd.cnt.toNat + 8 * bs.length < 32 →
    (s.ports.src.holds (bs.map .byte) true →
      exec .rint32 s = .next
        { s with
          rd := ⟨bs.getLastD s.rd.buf, 0#4⟩, srcCount := s.srcCount + BitVec.ofNat 32 bs.length
          ports := s.ports.givingThen bs .srcEnd [] true
          errReg := ⟨.eos, 0x13#8, .prim⟩, err := true, intError := true, seq := .idle }) ∧
    (∀ (items : List SrcItem) (ended : Bool), s.ports.src.holds (bs.map .byte ++ .ioErr :: items) ended →
      exec .rint32 s = .next
        { s with
          rd := ⟨bs.getLastD s.rd.buf, 0#4⟩, srcCount := s.srcCount + BitVec.ofNat 32 bs.length
          ports := s.ports.givingThen bs .srcIoErr items ended
          errReg := ⟨.ioSrc, 0x13#8, .prim⟩, err := true, intError := true, seq := .idle })

/-- RCLOSE (R136): the reader cursor is emptied and one SrcClose event is emitted; nothing else changes but DONE. -/
def Obligations.RcloseEmptiesTheReader : Prop :=
  ∀ s : State, s.ready →
    exec .rclose s = .next
      { s with
        rd := ⟨0#8, 0#4⟩
        ports := { s.ports with src := { s.ports.src with current := none }, trace := .srcClose :: s.ports.trace }
        intDone := true, seq := .idle }

/-! ## The queue -/

/-- PQ_PUSH (R155, R158): the entry of ARG and ARG2 joins the queue, which keeps the heap property; a full queue is unchanged
and E_OVERFLOW is recorded. Nothing else changes. -/
def Obligations.PqPushInsertsTheEntry : Prop :=
  ∀ s : State, s.ready →
    (s.heap.length < s.params.pqCap → heapOrdered s.pqMode s.heap →
      ∃ heap : List Entry,
        exec .pqPush s = .next { s with heap := heap, intDone := true, seq := .idle } ∧
          heap.Perm (⟨s.arg, s.arg2.tie, s.arg2.tag⟩ :: s.heap) ∧ heapOrdered s.pqMode heap) ∧
    (s.heap.length = s.params.pqCap →
      exec .pqPush s = .next
        { s with errReg := ⟨.overflow, 0x21#8, .prim⟩, err := true, intError := true, seq := .idle })

/-- PQ_POP (R156, R159): the root leaves the queue and comes back in RESULT and RESULT2; no entry came before it; the others
keep the heap property. An empty queue records E_UNDERFLOW and changes nothing else. -/
def Obligations.PqPopRemovesTheRoot : Prop :=
  ∀ s : State, s.ready →
    (∀ (root : Entry) (others : List Entry), s.heap = root :: others → heapOrdered s.pqMode s.heap →
      ∃ heap : List Entry,
        exec .pqPop s = .next
            { s with
              heap := heap, result := root.key, result2 := ⟨root.tie, root.tag⟩, intDone := true, seq := .idle } ∧
          heap.Perm others ∧ heapOrdered s.pqMode heap ∧ ∀ e ∈ s.heap, entryBefore s.pqMode e root = false) ∧
    (s.heap = [] →
      exec .pqPop s = .next
        { s with errReg := ⟨.underflow, 0x22#8, .prim⟩, err := true, intError := true, seq := .idle })

/-- PQ_TOP (R157, R160): the root in RESULT and RESULT2, the queue unchanged; an empty queue records E_UNDERFLOW. -/
def Obligations.PqTopReadsTheRoot : Prop :=
  ∀ s : State, s.ready →
    (∀ (root : Entry) (others : List Entry), s.heap = root :: others →
      exec .pqTop s = .next
        { s with result := root.key, result2 := ⟨root.tie, root.tag⟩, intDone := true, seq := .idle }) ∧
    (s.heap = [] →
      exec .pqTop s = .next
        { s with errReg := ⟨.underflow, 0x23#8, .prim⟩, err := true, intError := true, seq := .idle })

/-- PQ_SIZE (R161) and PQ_CLEAR (R162). -/
def Obligations.PqSizeAndPqClear : Prop :=
  ∀ s : State, s.ready →
    exec .pqSize s = .next { s with result := BitVec.ofNat 32 s.heap.length, intDone := true, seq := .idle } ∧
    exec .pqClear s = .next { s with heap := [], intDone := true, seq := .idle }

/-- R151: the ordering relation, ascending by (key, tie) in MIN mode and its mirror in MAX mode, both compared as unsigned and
the tag never, is a strict order, total on entries with distinct (key, tie). -/
def Obligations.EntryOrderIsStrictAndTotal : Prop :=
  ∀ (m : Mode) (a b c : Entry),
    (entryBefore .min a b = true ↔
      a.key.toNat < b.key.toNat ∨ (a.key = b.key ∧ a.tie.toNat < b.tie.toNat)) ∧
    (entryBefore .max a b = true ↔
      b.key.toNat < a.key.toNat ∨ (a.key = b.key ∧ b.tie.toNat < a.tie.toNat)) ∧
    entryBefore m a a = false ∧
    (entryBefore m a b = true → entryBefore m b a = false) ∧
    (entryBefore m a b = true → entryBefore m b c = true → entryBefore m a c = true) ∧
    ((a.key, a.tie) ≠ (b.key, b.tie) → entryBefore m a b = true ∨ entryBefore m b a = true)

/-! ## The codec -/

/-- R182: CInit, seen on a COMPRESS whose source does not answer: BUSY = 1, phase C_SCAN, both cursors, the counters, the queue,
the arena, INLEN and the tables cleared, the mode MIN, CTRL.PQ_MODE unchanged, and nothing else. -/
def Obligations.CompressStartsFresh : Prop :=
  ∀ s : State, s.ready → s.ports.src.holds [] false →
    exec .compress s = .next
      { s with
        busy := true
        wr := ⟨0#8, 0#4⟩, rd := ⟨0#8, 0#4⟩, srcCount := 0#32, snkCount := 0#32
        heap := [], nodes := [], root := 0#8, treeNodes := 0#32, inlen := 0#32
        tables := ⟨.replicate 128 0#32, .replicate 128 0#8, .replicate 128 0#128⟩
        seq :=
          { phase := .cScan, todo := compressSteps.drop 1, stack := [], value := 0#32
            latch := some ⟨0x31#8, 0#8, s.arg, s.arg2, .min⟩ } }

/-- R201: what DInit does before the first source read, seen on a DECOMPRESS whose source does not answer: BUSY = 1, phase D_TREE,
both cursors, the counters and the arena cleared, and nothing else; the first tag bit is waited for, the whole command still to do. -/
def Obligations.DecompressStartsFresh : Prop :=
  ∀ s : State, s.ready → s.ports.src.holds [] false →
    exec .decompress s = .next
      { s with
        busy := true
        wr := ⟨0#8, 0#4⟩, rd := ⟨0#8, 0#4⟩, srcCount := 0#32, snkCount := 0#32
        nodes := [], root := 0#8, treeNodes := 0#32
        seq :=
          { phase := .dTree, todo := decompressSteps.drop 2, stack := [], value := 0#32
            latch := some ⟨0x32#8, 0#8, s.arg, s.arg2, s.pqMode⟩ } }

/-- R195: COMPRESS of an input in the alphabet and within INBUF_CAP completes and appends exactly the artifact: the tree of
the greedy merges, the count, the codes, zero-padded. SNK_COUNT, SRC_COUNT, SYMCOUNT, TREE_NODES, PQ_SIZE and the cursors are as
the rule says; FREQ is the input's, and the code table holds its tree's codes, at most 127 bits long, right-aligned with every bit above
the code 0 (R50, R109); INBUF holds the input from address 0 on and is unchanged above it;
both closes come last; the host's side is unchanged. -/
def Obligations.CompressAppendsTheArtifact : Prop :=
  ∀ (s : State) (xs : List Byte), s.ready → s.params.legal →
    s.ports.src.holds (xs.map .byte) true → s.ports.snk.accepts (artifact xs).length →
    (∀ x ∈ xs, x.toNat < 128) → xs.length ≤ s.params.inbufCap →
    ∃ t, exec .compress s = .next t ∧
      t.ports.sunk = s.ports.sunk ++ artifact xs ∧
      t.ports.trace.take 2 = [.snkClose, .srcClose] ∧
      t.snkCount = BitVec.ofNat 32 (artifact xs).length ∧
      t.srcCount = BitVec.ofNat 32 xs.length ∧
      t.symcount = BitVec.ofNat 32 xs.length ∧
      t.treeNodes = BitVec.ofNat 32 (treeOf xs).size ∧
      t.heap = [] ∧
      (∀ sym : Byte, sym.toNat < 128 →
        t.tables.freqAt sym = BitVec.ofNat 32 (occurrences xs sym) ∧
        (code (treeOf xs) sym).length ≤ 127 ∧
        t.tables.lenAt sym = BitVec.ofNat 8 (code (treeOf xs) sym).length ∧
        t.tables.bitsAt sym = codeOfPath (code (treeOf xs) sym)) ∧
      t.inlen = BitVec.ofNat 32 xs.length ∧
      (∀ a, t.inbuf.read a = if a < xs.length then xs[a]? else s.inbuf.read a) ∧
      s.completedCodec t

/-- R196, on the codes that COMPRESS leaves in the code table (CompressAppendsTheArtifact): no code of a symbol that occurs is the
beginning of another's. -/
def Obligations.CodesArePrefixFree : Prop :=
  ∀ (xs : List Byte) (a b : Byte), (∀ x ∈ xs, x.toNat < 128) → a ∈ xs → b ∈ xs → a ≠ b →
    ¬ code (treeOf xs) a <+: code (treeOf xs) b

/-- R183, R239: the scan's errors, in order: IoErr, a byte outside the alphabet, a byte beyond INBUF_CAP. The byte that raises is
consumed and not counted; FREQ holds the bytes before it; SYMCOUNT is not written; the cleanup of R235 closes both streams and
appends nothing. -/
def Obligations.CompressScanErrors : Prop :=
  ∀ (s : State) (xs : List Byte) (items : List SrcItem) (ended : Bool), s.ready → s.params.legal →
    (∀ x ∈ xs, x.toNat < 128) → xs.length ≤ s.params.inbufCap →
    let stops (e : ErrCode) (n : Nat) : Prop :=
      ∃ t, exec .compress s = .next t ∧ s.failedCodec t e 0x31#8 .cScan ∧
        t.ports.sunk = s.ports.sunk ∧ t.ports.trace.take 2 = [.snkClose, .srcClose] ∧
        t.srcCount = BitVec.ofNat 32 n ∧ t.snkCount = 0#32 ∧ t.symcount = s.symcount ∧ t.treeNodes = 0#32 ∧ t.heap = [] ∧
        ∀ sym : Byte, sym.toNat < 128 → t.tables.freqAt sym = BitVec.ofNat 32 (occurrences xs sym)
    (s.ports.src.holds (xs.map .byte ++ .ioErr :: items) ended → stops .ioSrc xs.length) ∧
    (∀ b : Byte, 128 ≤ b.toNat → s.ports.src.holds (xs.map .byte ++ .byte b :: items) ended →
      stops .symbol (xs.length + 1)) ∧
    (∀ b : Byte, b.toNat < 128 → xs.length = s.params.inbufCap →
      s.ports.src.holds (xs.map .byte ++ .byte b :: items) ended → stops .tooLong (xs.length + 1))

/-- R181, R120, R234 to R236, V-C12: COMPRESS to a sink that takes k bytes of the artifact and refuses the next: E_IO_SNK in the phase
that completes this byte, C_SERIAL, C_COUNT, C_PAYLOAD or, for the padded last byte, C_CLOSE. The k bytes stay in the sink and
nothing comes after them but the closes; the input has been read whole. SYMCOUNT, TREE_NODES and FREQ are written, and the code table
too once the tree is out. -/
def Obligations.CompressReportsASinkFailure : Prop :=
  ∀ (s : State) (xs : List Byte) (k : Nat), s.ready → s.params.legal →
    s.ports.src.holds (xs.map .byte) true → s.ports.snk.accepts k → (s.ports.snk.after k).refuses → k < (artifact xs).length →
    (∀ x ∈ xs, x.toNat < 128) → xs.length ≤ s.params.inbufCap →
    let last := 8 * k + 7
    let phase : Phase :=
      if last < (treeOf xs).bits.length then .cSerial
      else if last < (treeOf xs).bits.length + 32 then .cCount
      else if last < (artifactBits xs).length then .cPayload
      else .cClose
    ∃ t, exec .compress s = .next t ∧ s.failedCodec t .ioSnk 0x31#8 phase ∧
      t.ports.sunk = s.ports.sunk ++ (artifact xs).take k ∧
      t.ports.trace.take 2 = [.snkClose, .srcClose] ∧
      t.snkCount = BitVec.ofNat 32 k ∧ t.srcCount = BitVec.ofNat 32 xs.length ∧ t.symcount = BitVec.ofNat 32 xs.length ∧
      t.treeNodes = BitVec.ofNat 32 (treeOf xs).size ∧ t.heap = [] ∧
      ∀ sym : Byte, sym.toNat < 128 →
        t.tables.freqAt sym = BitVec.ofNat 32 (occurrences xs sym) ∧
        (phase ≠ .cSerial →
          t.tables.lenAt sym = BitVec.ofNat 8 (code (treeOf xs) sym).length ∧
          t.tables.bitsAt sym = codeOfPath (code (treeOf xs) sym))

/-- R202 to R211: DECOMPRESS of any tree of at most 255 nodes, a count, and that many paths to leaves, in any stream that
begins with their bits, appends the leaves' symbols, reads no source byte beyond the one that holds the last bit, and completes;
the queue, FREQ, CODE, INBUF and INLEN are untouched. -/
def Obligations.DecompressFollowsThePaths : Prop :=
  ∀ (s : State) (tree : Tree) (ps : List (List Bool × Byte)) (bs : List Byte) (items : List SrcItem) (ended : Bool),
    s.ready → tree.size ≤ 255 → (∀ p ∈ ps, tree.walk p.1 = some p.2) → ps.length < 2147483648 →
    bs.length = bytesFor (streamBits tree ps).length → streamBits tree ps <+: unpack bs →
    s.ports.src.holds (bs.map .byte ++ items) ended → s.ports.snk.accepts ps.length →
    ∃ t, exec .decompress s = .next t ∧
      t.ports.sunk = s.ports.sunk ++ ps.map Prod.snd ∧
      t.ports.trace.take 2 = [.snkClose, .srcClose] ∧
      t.srcCount = BitVec.ofNat 32 bs.length ∧
      t.snkCount = BitVec.ofNat 32 ps.length ∧
      t.symcount = BitVec.ofNat 32 ps.length ∧
      t.treeNodes = BitVec.ofNat 32 tree.size ∧
      t.heap = s.heap ∧ t.tables = s.tables ∧ t.inbuf = s.inbuf ∧ t.inlen = s.inlen ∧
      s.completedCodec t

/-- R212: the round-trip law. What COMPRESS of an input appended, DECOMPRESS of it, on any ready state of any instance, turns
back into exactly the input, and completes. -/
def Obligations.DecompressInvertsCompress : Prop :=
  ∀ (s : State) (xs : List Byte), s.ready → s.params.legal →
    s.ports.src.holds (xs.map .byte) true → s.ports.snk.accepts (artifact xs).length →
    (∀ x ∈ xs, x.toNat < 128) → xs.length ≤ s.params.inbufCap →
    ∃ (t : State) (bs : List Byte), exec .compress s = .next t ∧ t.ports.sunk = s.ports.sunk ++ bs ∧
      ∀ s' : State, s'.ready → s'.ports.src.holds (bs.map .byte) true → s'.ports.snk.accepts xs.length →
        ∃ t', exec .decompress s' = .next t' ∧ t'.err = false ∧ t'.intDone = true ∧
          t'.ports.sunk = s'.ports.sunk ++ xs

/-- R203: a token stream that is still open after 255 tokens raises E_TREE_OVERFLOW when the next tag bit has been read. -/
def Obligations.DecompressBoundsTheArena : Prop :=
  ∀ (s : State) (tokens : List Token) (need : Nat) (tag : Bool) (bs : List Byte) (ended : Bool), s.ready →
    tokens.length = 255 → openAfter 1 tokens = some (need + 1) →
    tokens.flatMap Token.bits ++ [tag] <+: unpack bs → s.ports.src.holds (bs.map .byte) ended →
    ∃ t, exec .decompress s = .next t ∧ s.failedCodec t .treeOverflow 0x32#8 .dTree ∧
      t.treeNodes = 255#32 ∧ t.snkCount = 0#32 ∧ t.symcount = s.symcount ∧
      t.ports.sunk = s.ports.sunk ∧ t.ports.trace.take 2 = [.snkClose, .srcClose]

/-- R205: a negative count is written to SYMCOUNT and refused with E_BAD_COUNT, in phase D_COUNT. -/
def Obligations.DecompressRefusesANegativeCount : Prop :=
  ∀ (s : State) (tree : Tree) (count : Word) (bs : List Byte) (ended : Bool), s.ready → tree.size ≤ 255 →
    count.msb = true → tree.bits ++ msbFirst count <+: unpack bs → s.ports.src.holds (bs.map .byte) ended →
    ∃ t, exec .decompress s = .next t ∧ s.failedCodec t .badCount 0x32#8 .dCount ∧
      t.symcount = count ∧ t.treeNodes = BitVec.ofNat 32 tree.size ∧
      t.ports.sunk = s.ports.sunk ∧ t.ports.trace.take 2 = [.snkClose, .srcClose]

/-- R209, R200, R236: a stream that ends, or answers IoErr, before the tree, the count and the paths are complete raises E_EOS, or
E_IO_SRC, in the phase that asked for more: D_TREE, D_COUNT or D_DECODE. The symbols whose paths lie whole inside the stream stay in
the sink, and no others; every byte has been read; SYMCOUNT is written once the count is complete; both streams are closed. -/
def Obligations.DecompressReportsTruncation : Prop :=
  ∀ (s : State) (tree : Tree) (ps : List (List Bool × Byte)) (bs : List Byte), s.ready → tree.size ≤ 255 →
    (∀ p ∈ ps, tree.walk p.1 = some p.2) → ps.length < 2147483648 →
    unpack bs <+: streamBits tree ps → (unpack bs).length < (streamBits tree ps).length →
    s.ports.snk.accepts ps.length →
    let given := (unpack bs).length
    let phase : Phase :=
      if given < tree.bits.length then .dTree else if given < tree.bits.length + 32 then .dCount else .dDecode
    let stops (e : ErrCode) : Prop :=
      ∃ (t : State) (n : Nat), exec .decompress s = .next t ∧ s.failedCodec t e 0x32#8 phase ∧
        (if phase = .dDecode then
          tree.bits.length + 32 + ((ps.take n).flatMap Prod.fst).length ≤ given ∧
            given < tree.bits.length + 32 + ((ps.take (n + 1)).flatMap Prod.fst).length
        else n = 0) ∧
        t.ports.sunk = s.ports.sunk ++ (ps.take n).map Prod.snd ∧
        t.snkCount = BitVec.ofNat 32 n ∧
        t.srcCount = BitVec.ofNat 32 bs.length ∧
        t.symcount = (if phase = .dDecode then BitVec.ofNat 32 ps.length else s.symcount) ∧
        t.ports.trace.take 2 = [.snkClose, .srcClose]
    (s.ports.src.holds (bs.map .byte) true → stops .eos) ∧
    (∀ (items : List SrcItem) (ended : Bool), s.ports.src.holds (bs.map .byte ++ .ioErr :: items) ended → stops .ioSrc)

/-- R206, R200, R234 to R236: DECOMPRESS to a sink that takes the first k symbols and refuses the next: E_IO_SNK in D_DECODE; the k
symbols stay in the sink, and no source byte is read beyond the one that holds the last bit of the refused symbol's path. -/
def Obligations.DecompressReportsASinkFailure : Prop :=
  ∀ (s : State) (tree : Tree) (ps : List (List Bool × Byte)) (k : Nat) (bs : List Byte) (items : List SrcItem) (ended : Bool),
    s.ready → tree.size ≤ 255 → (∀ p ∈ ps, tree.walk p.1 = some p.2) → ps.length < 2147483648 → k < ps.length →
    let read := tree.bits ++ msbFirst (BitVec.ofNat 32 ps.length) ++ (ps.take (k + 1)).flatMap Prod.fst
    bs.length = bytesFor read.length → read <+: unpack bs →
    s.ports.src.holds (bs.map .byte ++ items) ended → s.ports.snk.accepts k → (s.ports.snk.after k).refuses →
    ∃ t, exec .decompress s = .next t ∧ s.failedCodec t .ioSnk 0x32#8 .dDecode ∧
      t.ports.sunk = s.ports.sunk ++ (ps.take k).map Prod.snd ∧
      t.ports.trace.take 2 = [.snkClose, .srcClose] ∧
      t.snkCount = BitVec.ofNat 32 k ∧ t.srcCount = BitVec.ofNat 32 bs.length ∧ t.symcount = BitVec.ofNat 32 ps.length ∧
      t.treeNodes = BitVec.ofNat 32 tree.size ∧ t.heap = s.heap ∧ t.tables = s.tables

/-! ## The whole machine -/

/-- The invariant of R58, with the bounds of R48, R51 and R52, and the arena invariant hold after reset, for every legal instance. -/
def Obligations.InvariantHoldsAtReset : Prop :=
  ∀ p : Params, p.legal → (State.resetOf p).Inv ∧ (State.resetOf p).ArenaInv

/-- Every step keeps the invariant, whatever the host, the devices and the platform do: R58, with the bounds on the arena, INLEN and
INBUF (R51, R48), and that what is left of a running command is that command's and winds it up (R10, R68, R235). -/
def Obligations.StepKeepsTheInvariant : Prop :=
  ∀ s t : State, s.Inv → step s = .next t → t.Inv

/-- Every step keeps the arena invariant: children are allocated (R51), ROOT, the pending nodes and the queue's tags are too while
a step may still use them, and the tree is not used after its release (R53, R194, R202). -/
def Obligations.StepKeepsTheArenaInvariant : Prop :=
  ∀ s t : State, s.Inv → s.ArenaInv → step s = .next t → t.ArenaInv

/-- R261: INBUF is read only below INLEN and NODE only below NODE_COUNT, so that no step from a state of the invariants
faults. -/
def Obligations.UnspecifiedMemoryIsNeverRead : Prop :=
  ∀ (s : State) (f : Fault), s.Inv → s.ArenaInv → step s ≠ .fault f

/-- R237: the first error wins. While STATUS.ERR = 1, nothing but a write of 1 to STATUS.ERR, a SOFT_RESET or HC_RST changes
ERR. -/
def Obligations.FirstErrorWins : Prop :=
  ∀ s t : State, s.Inv → s.err = true → step s = .next t →
    (∀ v rest, s.writes 0x014 v rest → v.getLsbD 1 = false) →
    (∀ v rest, s.writes 0x010 v rest → v.getLsbD 1 = false) →
    (∀ rest, s.events ≠ .hcRst s.params.hcRstActiveHigh :: rest) →
    t.err = true ∧ t.errReg = s.errReg

/-- R31, R32: no command, completed, failed or waiting, writes ARG, ARG2, CTRL.PQ_MODE, INT_ENABLE or the parameters, nor does it
when it goes on after a wait. -/
def Obligations.CommandsNeverWriteHostRegisters : Prop :=
  let same (s t : State) : Prop :=
    t.arg = s.arg ∧ t.arg2 = s.arg2 ∧ t.pqMode = s.pqMode ∧ t.doneIe = s.doneIe ∧ t.errorIe = s.errorIe ∧ t.params = s.params
  (∀ (i : Instr) (s t : State), exec i s = .next t → same s t) ∧
  (∀ s t : State, settle s = .next t → same s t)

/-- R49, R50, R48: only COMPRESS writes FREQ, the code table, INBUF and INLEN: on an idle block no other command does, and while one
waits for a port (R9) or goes on after it, no step does but a reset. -/
def Obligations.OnlyCompressWritesTheTables : Prop :=
  let same (s t : State) : Prop := t.tables = s.tables ∧ t.inbuf = s.inbuf ∧ t.inlen = s.inlen
  (∀ (i : Instr) (s t : State), s.busy = false → i ≠ .compress → exec i s = .next t → same s t) ∧
  (∀ s t : State, s.Inv → s.busy = true → ¬ s.resets → s.latched.opcode ≠ 0x31#8 → step s = .next t → same s t)

/-- R33: RESULT is written only by RBIT, RBYTE, RINT32, PQ_POP, PQ_TOP and PQ_SIZE, and only when they complete without error;
RESULT2 (R34) only by PQ_POP and PQ_TOP. The same of a command that has waited for a port (R9) and ends in a later step. -/
def Obligations.ResultIsWrittenOnlyOnSuccess : Prop :=
  let written (opcode : Byte) (s t : State) : Prop :=
    (t.result ≠ s.result → t.busy = false ∧ t.err = false ∧ t.intDone = true ∧
      opcode ∈ [0x11#8, 0x12#8, 0x13#8, 0x22#8, 0x23#8, 0x24#8]) ∧
    (t.result2 ≠ s.result2 → t.busy = false ∧ t.err = false ∧ t.intDone = true ∧ opcode ∈ [0x22#8, 0x23#8])
  (∀ (i : Instr) (s t : State), s.busy = false → exec i s = .next t → written i.opcode s t) ∧
  (∀ s t : State, s.Inv → s.busy = true → ¬ s.resets → step s = .next t → written s.latched.opcode s t)

/-- R137, R275: only PQ_PUSH, PQ_POP, PQ_CLEAR and COMPRESS change the queue, and the queue commands touch neither cursor nor port nor
counter nor table: on an idle block, and in a step of a command that has waited for a port (R9), no reset. -/
def Obligations.QueueAndStreamsAreSeparate : Prop :=
  let apart (opcode : Byte) (s t : State) : Prop :=
    (opcode ∉ [0x21#8, 0x22#8, 0x25#8, 0x31#8] → t.heap = s.heap) ∧
    (opcode ∈ [0x21#8, 0x22#8, 0x23#8, 0x24#8, 0x25#8] →
      t.wr = s.wr ∧ t.rd = s.rd ∧ t.ports.trace = s.ports.trace ∧ t.srcCount = s.srcCount ∧ t.snkCount = s.snkCount ∧
        t.symcount = s.symcount ∧ t.treeNodes = s.treeNodes ∧ t.tables = s.tables)
  (∀ (i : Instr) (s t : State), s.busy = false → exec i s = .next t →
    apart i.opcode s t ∧ (i ∈ [.pqPush, .pqPop, .pqTop, .pqSize, .pqClear] → t.ports = s.ports)) ∧
  (∀ s t : State, s.Inv → s.busy = true → ¬ s.resets → step s = .next t → apart s.latched.opcode s t)

/-- R68, R235: on every exit path COMPRESS and DECOMPRESS emit SrcClose and then SnkClose as their last port events, and leave the
arena released and both cursors empty: where they end at once, and where they have waited for a port (R9) and end in a later
step. -/
def Obligations.CodecClosesBothStreams : Prop :=
  let closed (t : State) : Prop :=
    t.ports.trace.take 2 = [.snkClose, .srcClose] ∧ t.nodes = [] ∧ t.wr = .empty ∧ t.rd = .empty
  (∀ (i : Instr) (s t : State), s.ready → (i = .compress ∨ i = .decompress) → exec i s = .next t → t.busy = false →
    closed t) ∧
  (∀ s t : State, s.Inv → s.busy = true → ¬ s.resets → (s.latched.opcode = 0x31#8 ∨ s.latched.opcode = 0x32#8) →
    step s = .next t → t.busy = false → closed t)

/-- R240, R29: an accepted command that is over has set exactly one of the outcomes: DONE without an error, or ERROR with
STATUS.ERR; and the block is idle again. The same of a command that has waited for a port (R9) and ends in a later step: that
step sets the one and never the other. -/
def Obligations.EveryEndSetsItsInterrupt : Prop :=
  (∀ (i : Instr) (s t : State), s.ready → s.errReg = .clear → i.wellFormed = true → exec i s = .next t → t.busy = false →
    t.seq = .idle ∧
      ((t.err = false ∧ t.errReg = .clear ∧ t.intDone = true ∧ t.intError = s.intError) ∨
        (t.err = true ∧ t.errReg.code ≠ .none ∧ t.errReg.opcode = i.opcode ∧ t.intError = true ∧ t.intDone = s.intDone))) ∧
  (∀ s t : State, s.Inv → s.busy = true → ¬ s.resets → step s = .next t → t.busy = false →
    t.seq = .idle ∧
      ((t.err = false ∧ t.errReg = .clear ∧ t.intDone = true ∧ (t.intError = true → s.intError = true)) ∨
        (t.err = true ∧ t.errReg.code ≠ .none ∧ t.errReg.opcode = s.latched.opcode ∧ t.intError = true ∧
          (t.intDone = true → s.intDone = true))))

/-- Where late answers of a device go, so that they can end a wait. R9, R66, R67, R252 and R280 say only that a port transaction waits
until its device answers. That a source's answers come after what the stream that the next transaction meets still holds, begun or
only attached, is the model's choice (log 3, DESIGN CHOICE); that they do so also where an End was announced and not yet answered is
its deduction (log 24, DEDUCED); that a sink's come after those it still has to give, in place of what was announced after them, is its
choice (log 5, DESIGN CHOICE). The SEQUENCER goes on with them. -/
def Obligations.LateAnswersEndAWait : Prop :=
  (∀ (s : State) (held more : List SrcItem) (now ended : Bool) (rest : List Event),
    s.events = .sourceAnswers more ended :: rest → s.ports.src.holds held now → s.ports.endAnswered = false →
    ∃ src : Source, src.holds (held ++ more) ended ∧
      step s = settle { s with events := rest, ports := { s.ports with src := src } }) ∧
  (∀ (s : State) (more : List SnkAnswer) (thenOk : Bool) (rest : List Event), s.events = .sinkAnswers more thenOk :: rest →
    step s = settle
      { s with
        events := rest
        ports := { s.ports with snk := ⟨s.ports.snk.known, s.ports.snk.answers ++ more, thenOk⟩ } })
end

