-- ==== Sys2Proof/Laws/Queue.lean ====
section
/-! SUPPORT. The queue: the ordering relation is a strict order, and push and pop keep the entries and the heap property. -/

namespace Sys2Proof.Machine

/-! ## The ordering relation -/

theorem entryBefore_asymm {m : Mode} {a b : Entry} (h : entryBefore m a b = true) : entryBefore m b a = false := by
  cases m <;> simp [entryBefore, BitVec.ult, Bool.or_eq_true, Bool.and_eq_true, ← BitVec.toNat_inj] at * <;> omega

theorem entryBefore_trans {m : Mode} {a b c : Entry} (h : entryBefore m a b = true) (h' : entryBefore m b c = true) :
    entryBefore m a c = true := by
  cases m <;> simp [entryBefore, BitVec.ult, ← BitVec.toNat_inj] at * <;> omega

/-- "Not before" is transitive: equal (key, tie) pairs are alike. -/
theorem entryBefore_not_trans {m : Mode} {a b c : Entry} (h : entryBefore m b a = false) (h' : entryBefore m c b = false) :
    entryBefore m c a = false := by
  cases m <;> simp [entryBefore, BitVec.ult, ← BitVec.toNat_inj] at * <;> omega

theorem heapBefore_asymm {m : Mode} {h : List Entry} {i j : Nat} (hb : heapBefore m h i j = true) :
    heapBefore m h j i = false := by
  unfold heapBefore at *
  split at hb
  · next a b ha hb' => rw [ha, hb']; exact entryBefore_asymm hb
  · cases hb

theorem heapBefore_trans {m : Mode} {h : List Entry} {i j k : Nat} (hb : heapBefore m h i j = true)
    (hb' : heapBefore m h j k = true) : heapBefore m h i k = true := by
  unfold heapBefore at *
  cases hi : h[i]? <;> cases hj : h[j]? <;> cases hk : h[k]? <;> simp only [hi, hj, hk] at * <;>
    first | exact entryBefore_trans hb hb' | cases hb | cases hb'

theorem heapBefore_not_trans {m : Mode} {h : List Entry} {i j k : Nat} (hj : j < h.length)
    (hb : heapBefore m h j i = false) (hb' : heapBefore m h k j = false) : heapBefore m h k i = false := by
  unfold heapBefore at *
  rw [List.getElem?_eq_getElem hj] at *
  cases hi : h[i]? <;> cases hk : h[k]? <;> simp only [hi, hk] at * <;> exact entryBefore_not_trans hb hb'

theorem heapBefore_lt {m : Mode} {h : List Entry} {i j : Nat} (hb : heapBefore m h i j = true) : i < h.length ∧ j < h.length := by
  unfold heapBefore at hb
  split at hb
  · next a b ha hb' => exact ⟨(List.getElem?_eq_some_iff.1 ha).1, (List.getElem?_eq_some_iff.1 hb').1⟩
  · cases hb

theorem heapBefore_big {m : Mode} {h : List Entry} {i j : Nat} (hi : h.length ≤ i) : heapBefore m h i j = false := by
  simp [heapBefore, List.getElem?_eq_none hi]

/-! ## Swaps -/

theorem heapSwap_get {h : List Entry} {i j : Nat} (hi : i < h.length) (hj : j < h.length) (k : Nat) :
    (heapSwap h i j)[k]? = h[Equiv.swap i j k]? := by
  unfold heapSwap
  rw [List.getElem?_eq_getElem hi, List.getElem?_eq_getElem hj]
  simp only [List.getElem?_set, List.length_set]
  by_cases hkj : j = k
  · subst hkj; simp [hj, hi]
  · by_cases hki : i = k
    · subst hki; simp [hkj, hi, hj]
    · rw [Equiv.swap_apply_of_ne_of_ne (Ne.symm hki) (Ne.symm hkj)]; simp [hki, hkj]

theorem heapSwap_before {m : Mode} {h : List Entry} {i j : Nat} (hi : i < h.length) (hj : j < h.length) (a b : Nat) :
    heapBefore m (heapSwap h i j) a b = heapBefore m h (Equiv.swap i j a) (Equiv.swap i j b) := by
  unfold heapBefore; rw [heapSwap_get hi hj, heapSwap_get hi hj]

@[simp] theorem heapSwap_length (h : List Entry) (i j : Nat) : (heapSwap h i j).length = h.length := by
  unfold heapSwap; split <;> simp

theorem heapSwap_perm (h : List Entry) (i j : Nat) : (heapSwap h i j).Perm h := by
  unfold heapSwap
  split
  · next a b ha hb =>
    obtain ⟨hi, rfl⟩ := List.getElem?_eq_some_iff.1 ha
    obtain ⟨hj, rfl⟩ := List.getElem?_eq_some_iff.1 hb
    exact List.set_set_perm hi hj
  · exact .refl h

/-! ## Percolation -/

theorem percolateUp_perm (m : Mode) (turns i : Nat) (h : List Entry) : (percolateUp m turns i h).Perm h := by
  induction turns generalizing i h with
  | zero => exact .refl h
  | succ turns ih =>
    rw [percolateUp]
    split
    · exact (ih _ _).trans (heapSwap_perm _ _ _)
    · exact .refl h

theorem percolateDown_perm (m : Mode) (turns i : Nat) (h : List Entry) : (percolateDown m turns i h).Perm h := by
  induction turns generalizing i h with
  | zero => exact .refl h
  | succ turns ih =>
    rw [percolateDown]
    split
    · exact (ih _ _).trans (heapSwap_perm _ _ _)
    · exact .refl h

/-- Ordered but for entry `i` and its parent; the children of `i` do not come before the parent of `i`. -/
theorem percolateUp_ordered {m : Mode} {turns i : Nat} {h : List Entry} (bound : i ≤ turns)
    (others : ∀ j, 0 < j → j ≠ i → heapBefore m h j ((j - 1) / 2) = false)
    (across : ∀ j, 0 < j → (j - 1) / 2 = i → 0 < i → heapBefore m h j ((i - 1) / 2) = false) :
    heapOrdered m (percolateUp m turns i h) := by
  induction turns generalizing i h with
  | zero => intro j hj; exact others j hj (by omega)
  | succ turns ih =>
    rw [percolateUp]
    split
    · next hc =>
      obtain ⟨hi, hb⟩ := hc
      obtain ⟨hil, hpl⟩ := heapBefore_lt hb
      refine ih (by omega) (fun j hj hne => ?_) (fun j hj hpj hp => ?_)
      · rw [heapSwap_before hil hpl]
        by_cases hji : j = i
        · subst hji; rw [Equiv.swap_apply_left, Equiv.swap_apply_right]; exact heapBefore_asymm hb
        · rw [Equiv.swap_apply_of_ne_of_ne hji hne]
          by_cases hpi : (j - 1) / 2 = i
          · rw [hpi, Equiv.swap_apply_left]; exact across j hj hpi hi
          · by_cases hpp : (j - 1) / 2 = (i - 1) / 2
            · rw [hpp, Equiv.swap_apply_right]
              have h1 := others j hj hji
              rw [hpp] at h1
              cases h2 : heapBefore m h j i with
              | false => rfl
              | true => exact absurd (heapBefore_trans h2 hb) (by simp [h1])
            · rw [Equiv.swap_apply_of_ne_of_ne hpi hpp]; exact others j hj hji
      · have hne : ((i - 1) / 2 - 1) / 2 ≠ (i - 1) / 2 := by omega
        have hne' : ((i - 1) / 2 - 1) / 2 ≠ i := by omega
        rw [heapSwap_before hil hpl, Equiv.swap_apply_of_ne_of_ne hne' hne]
        have hgp := others ((i - 1) / 2) hp (by omega)
        by_cases hji : j = i
        · subst hji; rw [Equiv.swap_apply_left]; exact hgp
        · have hjp : j ≠ (i - 1) / 2 := by omega
          rw [Equiv.swap_apply_of_ne_of_ne hji hjp]
          have h1 := others j hj hji
          rw [hpj] at h1
          exact heapBefore_not_trans hpl hgp h1
    · next hc =>
      intro j hj
      by_cases hji : j = i
      · subst hji
        cases hb : heapBefore m h j ((j - 1) / 2) with
        | false => rfl
        | true => exact absurd ⟨hj, hb⟩ hc
      · exact others j hj hji

theorem childOf_cases (m : Mode) (h : List Entry) (i : Nat) :
    (childOf m h i = 2 * i + 1 ∧ heapBefore m h (2 * i + 2) (2 * i + 1) = false) ∨
      (childOf m h i = 2 * i + 2 ∧ heapBefore m h (2 * i + 2) (2 * i + 1) = true) := by
  unfold childOf
  split
  · next h => exact .inr ⟨rfl, h⟩
  · next h => exact .inl ⟨rfl, by simpa using h⟩

/-- No child of `i` comes before the one chosen. -/
theorem childOf_first {m : Mode} {h : List Entry} {i j : Nat} (hj : 0 < j) (hp : (j - 1) / 2 = i) :
    heapBefore m h j (childOf m h i) = false := by
  have : j = 2 * i + 1 ∨ j = 2 * i + 2 := by omega
  rcases childOf_cases m h i with ⟨hc, hb⟩ | ⟨hc, hb⟩ <;> rcases this with rfl | rfl <;> rw [hc]
  · cases hx : heapBefore m h (2 * i + 1) (2 * i + 1) with
    | false => rfl
    | true => exact absurd (heapBefore_asymm hx) (by simp [hx])
  · exact hb
  · exact heapBefore_asymm hb
  · cases hx : heapBefore m h (2 * i + 2) (2 * i + 2) with
    | false => rfl
    | true => exact absurd (heapBefore_asymm hx) (by simp [hx])

/-- Ordered but for entry `i` and its children, which do not come before the parent of `i`. -/
theorem percolateDown_ordered {m : Mode} {turns i : Nat} {h : List Entry} (bound : h.length ≤ turns + i)
    (others : ∀ j, 0 < j → (j - 1) / 2 ≠ i → heapBefore m h j ((j - 1) / 2) = false)
    (across : ∀ j, 0 < j → (j - 1) / 2 = i → 0 < i → heapBefore m h j ((i - 1) / 2) = false) :
    heapOrdered m (percolateDown m turns i h) := by
  induction turns generalizing i h with
  | zero =>
    intro j hj
    rw [percolateDown]
    by_cases hp : (j - 1) / 2 = i
    · exact heapBefore_big (by omega)
    · exact others j hj hp
  | succ turns ih =>
    rw [percolateDown]
    have hc : childOf m h i = 2 * i + 1 ∨ childOf m h i = 2 * i + 2 := (childOf_cases m h i).imp (·.1) (·.1)
    have hpc : (childOf m h i - 1) / 2 = i := by omega
    have hci : childOf m h i ≠ i := by omega
    split
    · next hb =>
      obtain ⟨hcl, hil⟩ := heapBefore_lt hb
      refine ih (by rw [heapSwap_length]; omega) (fun j hj hne => ?_) (fun j hj hpj hc0 => ?_)
      · rw [heapSwap_before hil hcl]
        by_cases hjc : j = childOf m h i
        · rw [hjc, hpc, Equiv.swap_apply_right, Equiv.swap_apply_left]; exact heapBefore_asymm hb
        · by_cases hji : j = i
          · subst hji
            rw [Equiv.swap_apply_left, Equiv.swap_apply_of_ne_of_ne (by omega) hne]
            exact across _ (by omega) hpc hj
          · rw [Equiv.swap_apply_of_ne_of_ne hji hjc]
            by_cases hpi : (j - 1) / 2 = i
            · rw [hpi, Equiv.swap_apply_left]; exact childOf_first hj hpi
            · rw [Equiv.swap_apply_of_ne_of_ne hpi hne]; exact others j hj hpi
      · rw [hpc, heapSwap_before hil hcl, Equiv.swap_apply_left, Equiv.swap_apply_of_ne_of_ne (by omega) (by omega)]
        have := others j hj (by omega)
        rwa [hpj] at this
    · next hb =>
      intro j hj
      by_cases hp : (j - 1) / 2 = i
      · rw [hp]
        by_cases hcl : childOf m h i < h.length
        · exact heapBefore_not_trans hcl (by simpa using hb) (childOf_first hj hp)
        · rcases childOf_cases m h i with ⟨hc, _⟩ | ⟨hc, hb'⟩
          · exact heapBefore_big (by omega)
          · exact absurd (heapBefore_lt hb').1 (by omega)
      · exact others j hj hp

/-! ## Push and pop -/

theorem heapPush_perm (m : Mode) (e : Entry) (h : List Entry) : (heapPush m e h).Perm (e :: h) :=
  (percolateUp_perm _ _ _ _).trans (List.perm_append_singleton e h)

@[simp] theorem heapPush_length (m : Mode) (e : Entry) (h : List Entry) : (heapPush m e h).length = h.length + 1 :=
  (heapPush_perm m e h).length_eq

theorem heapBefore_append {m : Mode} {h : List Entry} (e : Entry) {i j : Nat} (hi : i < h.length) (hj : j < h.length) :
    heapBefore m (h ++ [e]) i j = heapBefore m h i j := by
  unfold heapBefore; rw [List.getElem?_append_left hi, List.getElem?_append_left hj]

/-- R155, R164: a push keeps the heap property. -/
theorem heapPush_ordered {m : Mode} {h : List Entry} (ordered : heapOrdered m h) (e : Entry) : heapOrdered m (heapPush m e h) := by
  refine percolateUp_ordered (Nat.le_refl _) (fun j hj hne => ?_) (fun j hj hp hl => ?_)
  · by_cases hjl : j < h.length
    · rw [heapBefore_append e hjl (by omega)]; exact ordered j hj
    · exact heapBefore_big (by simp; omega)
  · exact heapBefore_big (by simp; omega)

theorem heapPop_perm (m : Mode) (r : Entry) (rest : List Entry) : (heapPop m (r :: rest)).Perm rest := by
  unfold heapPop
  rw [List.getLast?_eq_some_getLast (by simp)]
  refine (percolateDown_perm _ _ _ _).trans ?_
  rcases List.eq_nil_or_concat rest with rfl | ⟨front, last, rfl⟩
  · simp
  · simp only [List.concat_eq_append, ← List.cons_append, List.getLast_append_singleton]
    simp only [List.cons_append, List.set_cons_zero]
    rw [← List.cons_append, List.dropLast_concat]
    exact (List.perm_append_singleton last front).symm

@[simp] theorem heapPop_length (m : Mode) (r : Entry) (rest : List Entry) : (heapPop m (r :: rest)).length = rest.length :=
  (heapPop_perm m r rest).length_eq

/-- R156, R164: a pop keeps the heap property. -/
theorem heapPop_ordered {m : Mode} {h : List Entry} (ordered : heapOrdered m h) : heapOrdered m (heapPop m h) := by
  unfold heapPop
  split
  · intro i hi; simp [heapBefore]
  · next last hlast =>
    refine percolateDown_ordered (by omega) (fun j hj hp => ?_) (fun j _ _ h0 => absurd h0 (by omega))
    have hget : ∀ k, 0 < k → ((h.set 0 last).dropLast)[k]? = if k < h.length - 1 then h[k]? else none := by
      intro k hk
      rw [List.getElem?_dropLast]
      simp [Nat.ne_of_lt hk]
    by_cases hjl : j < h.length - 1
    · have : (j - 1) / 2 < h.length - 1 := by omega
      have h0 := ordered j hj
      unfold heapBefore at *
      rw [hget j hj, hget _ (by omega), if_pos hjl, if_pos this]; exact h0
    · exact heapBefore_big (by simp; omega)

/-- R164: no entry comes before the root. -/
theorem root_first {m : Mode} {h : List Entry} (ordered : heapOrdered m h) (i : Nat) : heapBefore m h i 0 = false := by
  induction i using Nat.strong_induction_on with
  | _ i ih =>
    rcases Nat.eq_zero_or_pos i with rfl | hi
    · cases hx : heapBefore m h 0 0 with
      | false => rfl
      | true => exact absurd (heapBefore_asymm hx) (by simp [hx])
    · by_cases hil : i < h.length
      · exact heapBefore_not_trans (j := (i - 1) / 2) (by omega) (ih _ (by omega)) (ordered i hi)
      · exact heapBefore_big (by omega)

end Sys2Proof.Machine
end

