-- ==== Sys2Proof/Laws/State.lean ====
section
/-! SUPPORT. For each named update of State, one lemma per field. -/

namespace Sys2Proof.Machine

/-! Steps put in front of those to run: only the SEQUENCER changes. -/

@[simp] theorem State.before_params (s : State) (ops : List Micro) : (s.before ops).params = s.params := rfl
@[simp] theorem State.before_pqMode (s : State) (ops : List Micro) : (s.before ops).pqMode = s.pqMode := rfl
@[simp] theorem State.before_busy (s : State) (ops : List Micro) : (s.before ops).busy = s.busy := rfl
@[simp] theorem State.before_err (s : State) (ops : List Micro) : (s.before ops).err = s.err := rfl
@[simp] theorem State.before_ovr (s : State) (ops : List Micro) : (s.before ops).ovr = s.ovr := rfl
@[simp] theorem State.before_errReg (s : State) (ops : List Micro) : (s.before ops).errReg = s.errReg := rfl
@[simp] theorem State.before_arg (s : State) (ops : List Micro) : (s.before ops).arg = s.arg := rfl
@[simp] theorem State.before_arg2 (s : State) (ops : List Micro) : (s.before ops).arg2 = s.arg2 := rfl
@[simp] theorem State.before_result (s : State) (ops : List Micro) : (s.before ops).result = s.result := rfl
@[simp] theorem State.before_result2 (s : State) (ops : List Micro) : (s.before ops).result2 = s.result2 := rfl
@[simp] theorem State.before_heap (s : State) (ops : List Micro) : (s.before ops).heap = s.heap := rfl
@[simp] theorem State.before_wr (s : State) (ops : List Micro) : (s.before ops).wr = s.wr := rfl
@[simp] theorem State.before_rd (s : State) (ops : List Micro) : (s.before ops).rd = s.rd := rfl
@[simp] theorem State.before_symcount (s : State) (ops : List Micro) : (s.before ops).symcount = s.symcount := rfl
@[simp] theorem State.before_srcCount (s : State) (ops : List Micro) : (s.before ops).srcCount = s.srcCount := rfl
@[simp] theorem State.before_snkCount (s : State) (ops : List Micro) : (s.before ops).snkCount = s.snkCount := rfl
@[simp] theorem State.before_treeNodes (s : State) (ops : List Micro) : (s.before ops).treeNodes = s.treeNodes := rfl
@[simp] theorem State.before_intDone (s : State) (ops : List Micro) : (s.before ops).intDone = s.intDone := rfl
@[simp] theorem State.before_intError (s : State) (ops : List Micro) : (s.before ops).intError = s.intError := rfl
@[simp] theorem State.before_doneIe (s : State) (ops : List Micro) : (s.before ops).doneIe = s.doneIe := rfl
@[simp] theorem State.before_errorIe (s : State) (ops : List Micro) : (s.before ops).errorIe = s.errorIe := rfl
@[simp] theorem State.before_tables (s : State) (ops : List Micro) : (s.before ops).tables = s.tables := rfl
@[simp] theorem State.before_inbuf (s : State) (ops : List Micro) : (s.before ops).inbuf = s.inbuf := rfl
@[simp] theorem State.before_inlen (s : State) (ops : List Micro) : (s.before ops).inlen = s.inlen := rfl
@[simp] theorem State.before_nodes (s : State) (ops : List Micro) : (s.before ops).nodes = s.nodes := rfl
@[simp] theorem State.before_root (s : State) (ops : List Micro) : (s.before ops).root = s.root := rfl
@[simp] theorem State.before_seq (s : State) (ops : List Micro) : (s.before ops).seq = { s.seq with todo := ops ++ s.seq.todo } := rfl
@[simp] theorem State.before_ports (s : State) (ops : List Micro) : (s.before ops).ports = s.ports := rfl
@[simp] theorem State.before_inReset (s : State) (ops : List Micro) : (s.before ops).inReset = s.inReset := rfl
@[simp] theorem State.before_reply (s : State) (ops : List Micro) : (s.before ops).reply = s.reply := rfl
@[simp] theorem State.before_events (s : State) (ops : List Micro) : (s.before ops).events = s.events := rfl
@[simp] theorem State.before_draws (s : State) (ops : List Micro) : (s.before ops).draws = s.draws := rfl

/-! A new phase: only the SEQUENCER changes. -/

@[simp] theorem State.enter_params (s : State) (p : Phase) : (s.enter p).params = s.params := rfl
@[simp] theorem State.enter_pqMode (s : State) (p : Phase) : (s.enter p).pqMode = s.pqMode := rfl
@[simp] theorem State.enter_busy (s : State) (p : Phase) : (s.enter p).busy = s.busy := rfl
@[simp] theorem State.enter_err (s : State) (p : Phase) : (s.enter p).err = s.err := rfl
@[simp] theorem State.enter_ovr (s : State) (p : Phase) : (s.enter p).ovr = s.ovr := rfl
@[simp] theorem State.enter_errReg (s : State) (p : Phase) : (s.enter p).errReg = s.errReg := rfl
@[simp] theorem State.enter_arg (s : State) (p : Phase) : (s.enter p).arg = s.arg := rfl
@[simp] theorem State.enter_arg2 (s : State) (p : Phase) : (s.enter p).arg2 = s.arg2 := rfl
@[simp] theorem State.enter_result (s : State) (p : Phase) : (s.enter p).result = s.result := rfl
@[simp] theorem State.enter_result2 (s : State) (p : Phase) : (s.enter p).result2 = s.result2 := rfl
@[simp] theorem State.enter_heap (s : State) (p : Phase) : (s.enter p).heap = s.heap := rfl
@[simp] theorem State.enter_wr (s : State) (p : Phase) : (s.enter p).wr = s.wr := rfl
@[simp] theorem State.enter_rd (s : State) (p : Phase) : (s.enter p).rd = s.rd := rfl
@[simp] theorem State.enter_symcount (s : State) (p : Phase) : (s.enter p).symcount = s.symcount := rfl
@[simp] theorem State.enter_srcCount (s : State) (p : Phase) : (s.enter p).srcCount = s.srcCount := rfl
@[simp] theorem State.enter_snkCount (s : State) (p : Phase) : (s.enter p).snkCount = s.snkCount := rfl
@[simp] theorem State.enter_treeNodes (s : State) (p : Phase) : (s.enter p).treeNodes = s.treeNodes := rfl
@[simp] theorem State.enter_intDone (s : State) (p : Phase) : (s.enter p).intDone = s.intDone := rfl
@[simp] theorem State.enter_intError (s : State) (p : Phase) : (s.enter p).intError = s.intError := rfl
@[simp] theorem State.enter_doneIe (s : State) (p : Phase) : (s.enter p).doneIe = s.doneIe := rfl
@[simp] theorem State.enter_errorIe (s : State) (p : Phase) : (s.enter p).errorIe = s.errorIe := rfl
@[simp] theorem State.enter_tables (s : State) (p : Phase) : (s.enter p).tables = s.tables := rfl
@[simp] theorem State.enter_inbuf (s : State) (p : Phase) : (s.enter p).inbuf = s.inbuf := rfl
@[simp] theorem State.enter_inlen (s : State) (p : Phase) : (s.enter p).inlen = s.inlen := rfl
@[simp] theorem State.enter_nodes (s : State) (p : Phase) : (s.enter p).nodes = s.nodes := rfl
@[simp] theorem State.enter_root (s : State) (p : Phase) : (s.enter p).root = s.root := rfl
@[simp] theorem State.enter_seq (s : State) (p : Phase) : (s.enter p).seq = { s.seq with phase := p } := rfl
@[simp] theorem State.enter_ports (s : State) (p : Phase) : (s.enter p).ports = s.ports := rfl
@[simp] theorem State.enter_inReset (s : State) (p : Phase) : (s.enter p).inReset = s.inReset := rfl
@[simp] theorem State.enter_reply (s : State) (p : Phase) : (s.enter p).reply = s.reply := rfl
@[simp] theorem State.enter_events (s : State) (p : Phase) : (s.enter p).events = s.events := rfl
@[simp] theorem State.enter_draws (s : State) (p : Phase) : (s.enter p).draws = s.draws := rfl

/-! Raising an error (R234): only the SEQUENCER changes. -/

@[simp] theorem raiseError_params (e : ErrCode) (s : State) : (raiseError e s).params = s.params := rfl
@[simp] theorem raiseError_pqMode (e : ErrCode) (s : State) : (raiseError e s).pqMode = s.pqMode := rfl
@[simp] theorem raiseError_busy (e : ErrCode) (s : State) : (raiseError e s).busy = s.busy := rfl
@[simp] theorem raiseError_err (e : ErrCode) (s : State) : (raiseError e s).err = s.err := rfl
@[simp] theorem raiseError_ovr (e : ErrCode) (s : State) : (raiseError e s).ovr = s.ovr := rfl
@[simp] theorem raiseError_errReg (e : ErrCode) (s : State) : (raiseError e s).errReg = s.errReg := rfl
@[simp] theorem raiseError_arg (e : ErrCode) (s : State) : (raiseError e s).arg = s.arg := rfl
@[simp] theorem raiseError_arg2 (e : ErrCode) (s : State) : (raiseError e s).arg2 = s.arg2 := rfl
@[simp] theorem raiseError_result (e : ErrCode) (s : State) : (raiseError e s).result = s.result := rfl
@[simp] theorem raiseError_result2 (e : ErrCode) (s : State) : (raiseError e s).result2 = s.result2 := rfl
@[simp] theorem raiseError_heap (e : ErrCode) (s : State) : (raiseError e s).heap = s.heap := rfl
@[simp] theorem raiseError_wr (e : ErrCode) (s : State) : (raiseError e s).wr = s.wr := rfl
@[simp] theorem raiseError_rd (e : ErrCode) (s : State) : (raiseError e s).rd = s.rd := rfl
@[simp] theorem raiseError_symcount (e : ErrCode) (s : State) : (raiseError e s).symcount = s.symcount := rfl
@[simp] theorem raiseError_srcCount (e : ErrCode) (s : State) : (raiseError e s).srcCount = s.srcCount := rfl
@[simp] theorem raiseError_snkCount (e : ErrCode) (s : State) : (raiseError e s).snkCount = s.snkCount := rfl
@[simp] theorem raiseError_treeNodes (e : ErrCode) (s : State) : (raiseError e s).treeNodes = s.treeNodes := rfl
@[simp] theorem raiseError_intDone (e : ErrCode) (s : State) : (raiseError e s).intDone = s.intDone := rfl
@[simp] theorem raiseError_intError (e : ErrCode) (s : State) : (raiseError e s).intError = s.intError := rfl
@[simp] theorem raiseError_doneIe (e : ErrCode) (s : State) : (raiseError e s).doneIe = s.doneIe := rfl
@[simp] theorem raiseError_errorIe (e : ErrCode) (s : State) : (raiseError e s).errorIe = s.errorIe := rfl
@[simp] theorem raiseError_tables (e : ErrCode) (s : State) : (raiseError e s).tables = s.tables := rfl
@[simp] theorem raiseError_inbuf (e : ErrCode) (s : State) : (raiseError e s).inbuf = s.inbuf := rfl
@[simp] theorem raiseError_inlen (e : ErrCode) (s : State) : (raiseError e s).inlen = s.inlen := rfl
@[simp] theorem raiseError_nodes (e : ErrCode) (s : State) : (raiseError e s).nodes = s.nodes := rfl
@[simp] theorem raiseError_root (e : ErrCode) (s : State) : (raiseError e s).root = s.root := rfl
@[simp] theorem raiseError_ports (e : ErrCode) (s : State) : (raiseError e s).ports = s.ports := rfl
@[simp] theorem raiseError_inReset (e : ErrCode) (s : State) : (raiseError e s).inReset = s.inReset := rfl
@[simp] theorem raiseError_reply (e : ErrCode) (s : State) : (raiseError e s).reply = s.reply := rfl
@[simp] theorem raiseError_events (e : ErrCode) (s : State) : (raiseError e s).events = s.events := rfl
@[simp] theorem raiseError_draws (e : ErrCode) (s : State) : (raiseError e s).draws = s.draws := rfl

/-! The end of a failed command (R234). -/

@[simp] theorem failCommand_params (e : ErrCode) (o : Byte) (p : Phase) (s : State) : (failCommand e o p s).params = s.params := rfl
@[simp] theorem failCommand_pqMode (e : ErrCode) (o : Byte) (p : Phase) (s : State) : (failCommand e o p s).pqMode = s.pqMode := rfl
@[simp] theorem failCommand_busy (e : ErrCode) (o : Byte) (p : Phase) (s : State) : (failCommand e o p s).busy = false := rfl
@[simp] theorem failCommand_err (e : ErrCode) (o : Byte) (p : Phase) (s : State) : (failCommand e o p s).err = true := rfl
@[simp] theorem failCommand_ovr (e : ErrCode) (o : Byte) (p : Phase) (s : State) : (failCommand e o p s).ovr = s.ovr := rfl
@[simp] theorem failCommand_errReg (e : ErrCode) (o : Byte) (p : Phase) (s : State) : (failCommand e o p s).errReg = ⟨e, o, p⟩ := rfl
@[simp] theorem failCommand_arg (e : ErrCode) (o : Byte) (p : Phase) (s : State) : (failCommand e o p s).arg = s.arg := rfl
@[simp] theorem failCommand_arg2 (e : ErrCode) (o : Byte) (p : Phase) (s : State) : (failCommand e o p s).arg2 = s.arg2 := rfl
@[simp] theorem failCommand_result (e : ErrCode) (o : Byte) (p : Phase) (s : State) : (failCommand e o p s).result = s.result := rfl
@[simp] theorem failCommand_result2 (e : ErrCode) (o : Byte) (p : Phase) (s : State) : (failCommand e o p s).result2 = s.result2 := rfl
@[simp] theorem failCommand_heap (e : ErrCode) (o : Byte) (p : Phase) (s : State) : (failCommand e o p s).heap = s.heap := rfl
@[simp] theorem failCommand_wr (e : ErrCode) (o : Byte) (p : Phase) (s : State) : (failCommand e o p s).wr = s.wr := rfl
@[simp] theorem failCommand_rd (e : ErrCode) (o : Byte) (p : Phase) (s : State) : (failCommand e o p s).rd = s.rd := rfl
@[simp] theorem failCommand_symcount (e : ErrCode) (o : Byte) (p : Phase) (s : State) : (failCommand e o p s).symcount = s.symcount := rfl
@[simp] theorem failCommand_srcCount (e : ErrCode) (o : Byte) (p : Phase) (s : State) : (failCommand e o p s).srcCount = s.srcCount := rfl
@[simp] theorem failCommand_snkCount (e : ErrCode) (o : Byte) (p : Phase) (s : State) : (failCommand e o p s).snkCount = s.snkCount := rfl
@[simp] theorem failCommand_treeNodes (e : ErrCode) (o : Byte) (p : Phase) (s : State) : (failCommand e o p s).treeNodes = s.treeNodes := rfl
@[simp] theorem failCommand_intDone (e : ErrCode) (o : Byte) (p : Phase) (s : State) : (failCommand e o p s).intDone = s.intDone := rfl
@[simp] theorem failCommand_intError (e : ErrCode) (o : Byte) (p : Phase) (s : State) : (failCommand e o p s).intError = true := rfl
@[simp] theorem failCommand_doneIe (e : ErrCode) (o : Byte) (p : Phase) (s : State) : (failCommand e o p s).doneIe = s.doneIe := rfl
@[simp] theorem failCommand_errorIe (e : ErrCode) (o : Byte) (p : Phase) (s : State) : (failCommand e o p s).errorIe = s.errorIe := rfl
@[simp] theorem failCommand_tables (e : ErrCode) (o : Byte) (p : Phase) (s : State) : (failCommand e o p s).tables = s.tables := rfl
@[simp] theorem failCommand_inbuf (e : ErrCode) (o : Byte) (p : Phase) (s : State) : (failCommand e o p s).inbuf = s.inbuf := rfl
@[simp] theorem failCommand_inlen (e : ErrCode) (o : Byte) (p : Phase) (s : State) : (failCommand e o p s).inlen = s.inlen := rfl
@[simp] theorem failCommand_nodes (e : ErrCode) (o : Byte) (p : Phase) (s : State) : (failCommand e o p s).nodes = s.nodes := rfl
@[simp] theorem failCommand_root (e : ErrCode) (o : Byte) (p : Phase) (s : State) : (failCommand e o p s).root = s.root := rfl
@[simp] theorem failCommand_seq (e : ErrCode) (o : Byte) (p : Phase) (s : State) : (failCommand e o p s).seq = .idle := rfl
@[simp] theorem failCommand_ports (e : ErrCode) (o : Byte) (p : Phase) (s : State) : (failCommand e o p s).ports = s.ports := rfl
@[simp] theorem failCommand_inReset (e : ErrCode) (o : Byte) (p : Phase) (s : State) : (failCommand e o p s).inReset = s.inReset := rfl
@[simp] theorem failCommand_reply (e : ErrCode) (o : Byte) (p : Phase) (s : State) : (failCommand e o p s).reply = s.reply := rfl
@[simp] theorem failCommand_events (e : ErrCode) (o : Byte) (p : Phase) (s : State) : (failCommand e o p s).events = s.events := rfl
@[simp] theorem failCommand_draws (e : ErrCode) (o : Byte) (p : Phase) (s : State) : (failCommand e o p s).draws = s.draws := rfl

/-! The end of a completed command (R240). -/

@[simp] theorem completeCommand_params (s : State) : (completeCommand s).params = s.params := rfl
@[simp] theorem completeCommand_pqMode (s : State) : (completeCommand s).pqMode = s.pqMode := rfl
@[simp] theorem completeCommand_busy (s : State) : (completeCommand s).busy = false := rfl
@[simp] theorem completeCommand_err (s : State) : (completeCommand s).err = s.err := rfl
@[simp] theorem completeCommand_ovr (s : State) : (completeCommand s).ovr = s.ovr := rfl
@[simp] theorem completeCommand_errReg (s : State) : (completeCommand s).errReg = s.errReg := rfl
@[simp] theorem completeCommand_arg (s : State) : (completeCommand s).arg = s.arg := rfl
@[simp] theorem completeCommand_arg2 (s : State) : (completeCommand s).arg2 = s.arg2 := rfl
@[simp] theorem completeCommand_result (s : State) : (completeCommand s).result = s.result := rfl
@[simp] theorem completeCommand_result2 (s : State) : (completeCommand s).result2 = s.result2 := rfl
@[simp] theorem completeCommand_heap (s : State) : (completeCommand s).heap = s.heap := rfl
@[simp] theorem completeCommand_wr (s : State) : (completeCommand s).wr = s.wr := rfl
@[simp] theorem completeCommand_rd (s : State) : (completeCommand s).rd = s.rd := rfl
@[simp] theorem completeCommand_symcount (s : State) : (completeCommand s).symcount = s.symcount := rfl
@[simp] theorem completeCommand_srcCount (s : State) : (completeCommand s).srcCount = s.srcCount := rfl
@[simp] theorem completeCommand_snkCount (s : State) : (completeCommand s).snkCount = s.snkCount := rfl
@[simp] theorem completeCommand_treeNodes (s : State) : (completeCommand s).treeNodes = s.treeNodes := rfl
@[simp] theorem completeCommand_intDone (s : State) : (completeCommand s).intDone = true := rfl
@[simp] theorem completeCommand_intError (s : State) : (completeCommand s).intError = s.intError := rfl
@[simp] theorem completeCommand_doneIe (s : State) : (completeCommand s).doneIe = s.doneIe := rfl
@[simp] theorem completeCommand_errorIe (s : State) : (completeCommand s).errorIe = s.errorIe := rfl
@[simp] theorem completeCommand_tables (s : State) : (completeCommand s).tables = s.tables := rfl
@[simp] theorem completeCommand_inbuf (s : State) : (completeCommand s).inbuf = s.inbuf := rfl
@[simp] theorem completeCommand_inlen (s : State) : (completeCommand s).inlen = s.inlen := rfl
@[simp] theorem completeCommand_nodes (s : State) : (completeCommand s).nodes = s.nodes := rfl
@[simp] theorem completeCommand_root (s : State) : (completeCommand s).root = s.root := rfl
@[simp] theorem completeCommand_seq (s : State) : (completeCommand s).seq = .idle := rfl
@[simp] theorem completeCommand_ports (s : State) : (completeCommand s).ports = s.ports := rfl
@[simp] theorem completeCommand_inReset (s : State) : (completeCommand s).inReset = s.inReset := rfl
@[simp] theorem completeCommand_reply (s : State) : (completeCommand s).reply = s.reply := rfl
@[simp] theorem completeCommand_events (s : State) : (completeCommand s).events = s.events := rfl
@[simp] theorem completeCommand_draws (s : State) : (completeCommand s).draws = s.draws := rfl

/-! The immediate error (R233). -/

@[simp] theorem illegalWord_params (o : Byte) (s : State) : (illegalWord o s).params = s.params := rfl
@[simp] theorem illegalWord_pqMode (o : Byte) (s : State) : (illegalWord o s).pqMode = s.pqMode := rfl
@[simp] theorem illegalWord_busy (o : Byte) (s : State) : (illegalWord o s).busy = s.busy := rfl
@[simp] theorem illegalWord_err (o : Byte) (s : State) : (illegalWord o s).err = true := rfl
@[simp] theorem illegalWord_ovr (o : Byte) (s : State) : (illegalWord o s).ovr = s.ovr := rfl
@[simp] theorem illegalWord_errReg (o : Byte) (s : State) : (illegalWord o s).errReg = ⟨.illegal, o, .idle⟩ := rfl
@[simp] theorem illegalWord_arg (o : Byte) (s : State) : (illegalWord o s).arg = s.arg := rfl
@[simp] theorem illegalWord_arg2 (o : Byte) (s : State) : (illegalWord o s).arg2 = s.arg2 := rfl
@[simp] theorem illegalWord_result (o : Byte) (s : State) : (illegalWord o s).result = s.result := rfl
@[simp] theorem illegalWord_result2 (o : Byte) (s : State) : (illegalWord o s).result2 = s.result2 := rfl
@[simp] theorem illegalWord_heap (o : Byte) (s : State) : (illegalWord o s).heap = s.heap := rfl
@[simp] theorem illegalWord_wr (o : Byte) (s : State) : (illegalWord o s).wr = s.wr := rfl
@[simp] theorem illegalWord_rd (o : Byte) (s : State) : (illegalWord o s).rd = s.rd := rfl
@[simp] theorem illegalWord_symcount (o : Byte) (s : State) : (illegalWord o s).symcount = s.symcount := rfl
@[simp] theorem illegalWord_srcCount (o : Byte) (s : State) : (illegalWord o s).srcCount = s.srcCount := rfl
@[simp] theorem illegalWord_snkCount (o : Byte) (s : State) : (illegalWord o s).snkCount = s.snkCount := rfl
@[simp] theorem illegalWord_treeNodes (o : Byte) (s : State) : (illegalWord o s).treeNodes = s.treeNodes := rfl
@[simp] theorem illegalWord_intDone (o : Byte) (s : State) : (illegalWord o s).intDone = s.intDone := rfl
@[simp] theorem illegalWord_intError (o : Byte) (s : State) : (illegalWord o s).intError = true := rfl
@[simp] theorem illegalWord_doneIe (o : Byte) (s : State) : (illegalWord o s).doneIe = s.doneIe := rfl
@[simp] theorem illegalWord_errorIe (o : Byte) (s : State) : (illegalWord o s).errorIe = s.errorIe := rfl
@[simp] theorem illegalWord_tables (o : Byte) (s : State) : (illegalWord o s).tables = s.tables := rfl
@[simp] theorem illegalWord_inbuf (o : Byte) (s : State) : (illegalWord o s).inbuf = s.inbuf := rfl
@[simp] theorem illegalWord_inlen (o : Byte) (s : State) : (illegalWord o s).inlen = s.inlen := rfl
@[simp] theorem illegalWord_nodes (o : Byte) (s : State) : (illegalWord o s).nodes = s.nodes := rfl
@[simp] theorem illegalWord_root (o : Byte) (s : State) : (illegalWord o s).root = s.root := rfl
@[simp] theorem illegalWord_seq (o : Byte) (s : State) : (illegalWord o s).seq = s.seq := rfl
@[simp] theorem illegalWord_ports (o : Byte) (s : State) : (illegalWord o s).ports = s.ports := rfl
@[simp] theorem illegalWord_inReset (o : Byte) (s : State) : (illegalWord o s).inReset = s.inReset := rfl
@[simp] theorem illegalWord_reply (o : Byte) (s : State) : (illegalWord o s).reply = s.reply := rfl
@[simp] theorem illegalWord_events (o : Byte) (s : State) : (illegalWord o s).events = s.events := rfl
@[simp] theorem illegalWord_draws (o : Byte) (s : State) : (illegalWord o s).draws = s.draws := rfl

/-! A dropped CMD write (R232). -/

@[simp] theorem dropCommand_params (s : State) : (dropCommand s).params = s.params := rfl
@[simp] theorem dropCommand_pqMode (s : State) : (dropCommand s).pqMode = s.pqMode := rfl
@[simp] theorem dropCommand_busy (s : State) : (dropCommand s).busy = s.busy := rfl
@[simp] theorem dropCommand_err (s : State) : (dropCommand s).err = s.err := rfl
@[simp] theorem dropCommand_ovr (s : State) : (dropCommand s).ovr = true := rfl
@[simp] theorem dropCommand_errReg (s : State) : (dropCommand s).errReg = s.errReg := rfl
@[simp] theorem dropCommand_arg (s : State) : (dropCommand s).arg = s.arg := rfl
@[simp] theorem dropCommand_arg2 (s : State) : (dropCommand s).arg2 = s.arg2 := rfl
@[simp] theorem dropCommand_result (s : State) : (dropCommand s).result = s.result := rfl
@[simp] theorem dropCommand_result2 (s : State) : (dropCommand s).result2 = s.result2 := rfl
@[simp] theorem dropCommand_heap (s : State) : (dropCommand s).heap = s.heap := rfl
@[simp] theorem dropCommand_wr (s : State) : (dropCommand s).wr = s.wr := rfl
@[simp] theorem dropCommand_rd (s : State) : (dropCommand s).rd = s.rd := rfl
@[simp] theorem dropCommand_symcount (s : State) : (dropCommand s).symcount = s.symcount := rfl
@[simp] theorem dropCommand_srcCount (s : State) : (dropCommand s).srcCount = s.srcCount := rfl
@[simp] theorem dropCommand_snkCount (s : State) : (dropCommand s).snkCount = s.snkCount := rfl
@[simp] theorem dropCommand_treeNodes (s : State) : (dropCommand s).treeNodes = s.treeNodes := rfl
@[simp] theorem dropCommand_intDone (s : State) : (dropCommand s).intDone = s.intDone := rfl
@[simp] theorem dropCommand_intError (s : State) : (dropCommand s).intError = s.intError := rfl
@[simp] theorem dropCommand_doneIe (s : State) : (dropCommand s).doneIe = s.doneIe := rfl
@[simp] theorem dropCommand_errorIe (s : State) : (dropCommand s).errorIe = s.errorIe := rfl
@[simp] theorem dropCommand_tables (s : State) : (dropCommand s).tables = s.tables := rfl
@[simp] theorem dropCommand_inbuf (s : State) : (dropCommand s).inbuf = s.inbuf := rfl
@[simp] theorem dropCommand_inlen (s : State) : (dropCommand s).inlen = s.inlen := rfl
@[simp] theorem dropCommand_nodes (s : State) : (dropCommand s).nodes = s.nodes := rfl
@[simp] theorem dropCommand_root (s : State) : (dropCommand s).root = s.root := rfl
@[simp] theorem dropCommand_seq (s : State) : (dropCommand s).seq = s.seq := rfl
@[simp] theorem dropCommand_ports (s : State) : (dropCommand s).ports = s.ports := rfl
@[simp] theorem dropCommand_inReset (s : State) : (dropCommand s).inReset = s.inReset := rfl
@[simp] theorem dropCommand_reply (s : State) : (dropCommand s).reply = s.reply := rfl
@[simp] theorem dropCommand_events (s : State) : (dropCommand s).events = s.events := rfl
@[simp] theorem dropCommand_draws (s : State) : (dropCommand s).draws = s.draws := rfl

/-! The return from an error (R243). -/

@[simp] theorem returnFromError_params (s : State) : (returnFromError s).params = s.params := rfl
@[simp] theorem returnFromError_pqMode (s : State) : (returnFromError s).pqMode = s.pqMode := rfl
@[simp] theorem returnFromError_busy (s : State) : (returnFromError s).busy = s.busy := rfl
@[simp] theorem returnFromError_err (s : State) : (returnFromError s).err = false := rfl
@[simp] theorem returnFromError_ovr (s : State) : (returnFromError s).ovr = s.ovr := rfl
@[simp] theorem returnFromError_errReg (s : State) : (returnFromError s).errReg = .clear := rfl
@[simp] theorem returnFromError_arg (s : State) : (returnFromError s).arg = s.arg := rfl
@[simp] theorem returnFromError_arg2 (s : State) : (returnFromError s).arg2 = s.arg2 := rfl
@[simp] theorem returnFromError_result (s : State) : (returnFromError s).result = s.result := rfl
@[simp] theorem returnFromError_result2 (s : State) : (returnFromError s).result2 = s.result2 := rfl
@[simp] theorem returnFromError_heap (s : State) : (returnFromError s).heap = s.heap := rfl
@[simp] theorem returnFromError_wr (s : State) : (returnFromError s).wr = s.wr := rfl
@[simp] theorem returnFromError_rd (s : State) : (returnFromError s).rd = s.rd := rfl
@[simp] theorem returnFromError_symcount (s : State) : (returnFromError s).symcount = s.symcount := rfl
@[simp] theorem returnFromError_srcCount (s : State) : (returnFromError s).srcCount = s.srcCount := rfl
@[simp] theorem returnFromError_snkCount (s : State) : (returnFromError s).snkCount = s.snkCount := rfl
@[simp] theorem returnFromError_treeNodes (s : State) : (returnFromError s).treeNodes = s.treeNodes := rfl
@[simp] theorem returnFromError_intDone (s : State) : (returnFromError s).intDone = s.intDone := rfl
@[simp] theorem returnFromError_intError (s : State) : (returnFromError s).intError = s.intError := rfl
@[simp] theorem returnFromError_doneIe (s : State) : (returnFromError s).doneIe = s.doneIe := rfl
@[simp] theorem returnFromError_errorIe (s : State) : (returnFromError s).errorIe = s.errorIe := rfl
@[simp] theorem returnFromError_tables (s : State) : (returnFromError s).tables = s.tables := rfl
@[simp] theorem returnFromError_inbuf (s : State) : (returnFromError s).inbuf = s.inbuf := rfl
@[simp] theorem returnFromError_inlen (s : State) : (returnFromError s).inlen = s.inlen := rfl
@[simp] theorem returnFromError_nodes (s : State) : (returnFromError s).nodes = s.nodes := rfl
@[simp] theorem returnFromError_root (s : State) : (returnFromError s).root = s.root := rfl
@[simp] theorem returnFromError_seq (s : State) : (returnFromError s).seq = s.seq := rfl
@[simp] theorem returnFromError_ports (s : State) : (returnFromError s).ports = s.ports := rfl
@[simp] theorem returnFromError_inReset (s : State) : (returnFromError s).inReset = s.inReset := rfl
@[simp] theorem returnFromError_reply (s : State) : (returnFromError s).reply = s.reply := rfl
@[simp] theorem returnFromError_events (s : State) : (returnFromError s).events = s.events := rfl
@[simp] theorem returnFromError_draws (s : State) : (returnFromError s).draws = s.draws := rfl

/-! SrcClose (R68): only the ports change. -/

@[simp] theorem srcClose_params (s : State) : (srcClose s).params = s.params := rfl
@[simp] theorem srcClose_pqMode (s : State) : (srcClose s).pqMode = s.pqMode := rfl
@[simp] theorem srcClose_busy (s : State) : (srcClose s).busy = s.busy := rfl
@[simp] theorem srcClose_err (s : State) : (srcClose s).err = s.err := rfl
@[simp] theorem srcClose_ovr (s : State) : (srcClose s).ovr = s.ovr := rfl
@[simp] theorem srcClose_errReg (s : State) : (srcClose s).errReg = s.errReg := rfl
@[simp] theorem srcClose_arg (s : State) : (srcClose s).arg = s.arg := rfl
@[simp] theorem srcClose_arg2 (s : State) : (srcClose s).arg2 = s.arg2 := rfl
@[simp] theorem srcClose_result (s : State) : (srcClose s).result = s.result := rfl
@[simp] theorem srcClose_result2 (s : State) : (srcClose s).result2 = s.result2 := rfl
@[simp] theorem srcClose_heap (s : State) : (srcClose s).heap = s.heap := rfl
@[simp] theorem srcClose_wr (s : State) : (srcClose s).wr = s.wr := rfl
@[simp] theorem srcClose_rd (s : State) : (srcClose s).rd = s.rd := rfl
@[simp] theorem srcClose_symcount (s : State) : (srcClose s).symcount = s.symcount := rfl
@[simp] theorem srcClose_srcCount (s : State) : (srcClose s).srcCount = s.srcCount := rfl
@[simp] theorem srcClose_snkCount (s : State) : (srcClose s).snkCount = s.snkCount := rfl
@[simp] theorem srcClose_treeNodes (s : State) : (srcClose s).treeNodes = s.treeNodes := rfl
@[simp] theorem srcClose_intDone (s : State) : (srcClose s).intDone = s.intDone := rfl
@[simp] theorem srcClose_intError (s : State) : (srcClose s).intError = s.intError := rfl
@[simp] theorem srcClose_doneIe (s : State) : (srcClose s).doneIe = s.doneIe := rfl
@[simp] theorem srcClose_errorIe (s : State) : (srcClose s).errorIe = s.errorIe := rfl
@[simp] theorem srcClose_tables (s : State) : (srcClose s).tables = s.tables := rfl
@[simp] theorem srcClose_inbuf (s : State) : (srcClose s).inbuf = s.inbuf := rfl
@[simp] theorem srcClose_inlen (s : State) : (srcClose s).inlen = s.inlen := rfl
@[simp] theorem srcClose_nodes (s : State) : (srcClose s).nodes = s.nodes := rfl
@[simp] theorem srcClose_root (s : State) : (srcClose s).root = s.root := rfl
@[simp] theorem srcClose_seq (s : State) : (srcClose s).seq = s.seq := rfl
@[simp] theorem srcClose_inReset (s : State) : (srcClose s).inReset = s.inReset := rfl
@[simp] theorem srcClose_reply (s : State) : (srcClose s).reply = s.reply := rfl
@[simp] theorem srcClose_events (s : State) : (srcClose s).events = s.events := rfl
@[simp] theorem srcClose_draws (s : State) : (srcClose s).draws = s.draws := rfl

/-! SnkClose (R68): only the ports change. -/

@[simp] theorem snkClose_params (s : State) : (snkClose s).params = s.params := rfl
@[simp] theorem snkClose_pqMode (s : State) : (snkClose s).pqMode = s.pqMode := rfl
@[simp] theorem snkClose_busy (s : State) : (snkClose s).busy = s.busy := rfl
@[simp] theorem snkClose_err (s : State) : (snkClose s).err = s.err := rfl
@[simp] theorem snkClose_ovr (s : State) : (snkClose s).ovr = s.ovr := rfl
@[simp] theorem snkClose_errReg (s : State) : (snkClose s).errReg = s.errReg := rfl
@[simp] theorem snkClose_arg (s : State) : (snkClose s).arg = s.arg := rfl
@[simp] theorem snkClose_arg2 (s : State) : (snkClose s).arg2 = s.arg2 := rfl
@[simp] theorem snkClose_result (s : State) : (snkClose s).result = s.result := rfl
@[simp] theorem snkClose_result2 (s : State) : (snkClose s).result2 = s.result2 := rfl
@[simp] theorem snkClose_heap (s : State) : (snkClose s).heap = s.heap := rfl
@[simp] theorem snkClose_wr (s : State) : (snkClose s).wr = s.wr := rfl
@[simp] theorem snkClose_rd (s : State) : (snkClose s).rd = s.rd := rfl
@[simp] theorem snkClose_symcount (s : State) : (snkClose s).symcount = s.symcount := rfl
@[simp] theorem snkClose_srcCount (s : State) : (snkClose s).srcCount = s.srcCount := rfl
@[simp] theorem snkClose_snkCount (s : State) : (snkClose s).snkCount = s.snkCount := rfl
@[simp] theorem snkClose_treeNodes (s : State) : (snkClose s).treeNodes = s.treeNodes := rfl
@[simp] theorem snkClose_intDone (s : State) : (snkClose s).intDone = s.intDone := rfl
@[simp] theorem snkClose_intError (s : State) : (snkClose s).intError = s.intError := rfl
@[simp] theorem snkClose_doneIe (s : State) : (snkClose s).doneIe = s.doneIe := rfl
@[simp] theorem snkClose_errorIe (s : State) : (snkClose s).errorIe = s.errorIe := rfl
@[simp] theorem snkClose_tables (s : State) : (snkClose s).tables = s.tables := rfl
@[simp] theorem snkClose_inbuf (s : State) : (snkClose s).inbuf = s.inbuf := rfl
@[simp] theorem snkClose_inlen (s : State) : (snkClose s).inlen = s.inlen := rfl
@[simp] theorem snkClose_nodes (s : State) : (snkClose s).nodes = s.nodes := rfl
@[simp] theorem snkClose_root (s : State) : (snkClose s).root = s.root := rfl
@[simp] theorem snkClose_seq (s : State) : (snkClose s).seq = s.seq := rfl
@[simp] theorem snkClose_inReset (s : State) : (snkClose s).inReset = s.inReset := rfl
@[simp] theorem snkClose_reply (s : State) : (snkClose s).reply = s.reply := rfl
@[simp] theorem snkClose_events (s : State) : (snkClose s).events = s.events := rfl
@[simp] theorem snkClose_draws (s : State) : (snkClose s).draws = s.draws := rfl

/-! The reader emptied (R136). -/

@[simp] theorem dropReader_params (s : State) : (dropReader s).params = s.params := rfl
@[simp] theorem dropReader_pqMode (s : State) : (dropReader s).pqMode = s.pqMode := rfl
@[simp] theorem dropReader_busy (s : State) : (dropReader s).busy = s.busy := rfl
@[simp] theorem dropReader_err (s : State) : (dropReader s).err = s.err := rfl
@[simp] theorem dropReader_ovr (s : State) : (dropReader s).ovr = s.ovr := rfl
@[simp] theorem dropReader_errReg (s : State) : (dropReader s).errReg = s.errReg := rfl
@[simp] theorem dropReader_arg (s : State) : (dropReader s).arg = s.arg := rfl
@[simp] theorem dropReader_arg2 (s : State) : (dropReader s).arg2 = s.arg2 := rfl
@[simp] theorem dropReader_result (s : State) : (dropReader s).result = s.result := rfl
@[simp] theorem dropReader_result2 (s : State) : (dropReader s).result2 = s.result2 := rfl
@[simp] theorem dropReader_heap (s : State) : (dropReader s).heap = s.heap := rfl
@[simp] theorem dropReader_wr (s : State) : (dropReader s).wr = s.wr := rfl
@[simp] theorem dropReader_rd (s : State) : (dropReader s).rd = .empty := rfl
@[simp] theorem dropReader_symcount (s : State) : (dropReader s).symcount = s.symcount := rfl
@[simp] theorem dropReader_srcCount (s : State) : (dropReader s).srcCount = s.srcCount := rfl
@[simp] theorem dropReader_snkCount (s : State) : (dropReader s).snkCount = s.snkCount := rfl
@[simp] theorem dropReader_treeNodes (s : State) : (dropReader s).treeNodes = s.treeNodes := rfl
@[simp] theorem dropReader_intDone (s : State) : (dropReader s).intDone = s.intDone := rfl
@[simp] theorem dropReader_intError (s : State) : (dropReader s).intError = s.intError := rfl
@[simp] theorem dropReader_doneIe (s : State) : (dropReader s).doneIe = s.doneIe := rfl
@[simp] theorem dropReader_errorIe (s : State) : (dropReader s).errorIe = s.errorIe := rfl
@[simp] theorem dropReader_tables (s : State) : (dropReader s).tables = s.tables := rfl
@[simp] theorem dropReader_inbuf (s : State) : (dropReader s).inbuf = s.inbuf := rfl
@[simp] theorem dropReader_inlen (s : State) : (dropReader s).inlen = s.inlen := rfl
@[simp] theorem dropReader_nodes (s : State) : (dropReader s).nodes = s.nodes := rfl
@[simp] theorem dropReader_root (s : State) : (dropReader s).root = s.root := rfl
@[simp] theorem dropReader_seq (s : State) : (dropReader s).seq = s.seq := rfl
@[simp] theorem dropReader_ports (s : State) : (dropReader s).ports = s.ports := rfl
@[simp] theorem dropReader_inReset (s : State) : (dropReader s).inReset = s.inReset := rfl
@[simp] theorem dropReader_reply (s : State) : (dropReader s).reply = s.reply := rfl
@[simp] theorem dropReader_events (s : State) : (dropReader s).events = s.events := rfl
@[simp] theorem dropReader_draws (s : State) : (dropReader s).draws = s.draws := rfl

/-! Acceptance (R232). -/

@[simp] theorem accept_params (i : Instr) (steps : List Micro) (s : State) : (accept i steps s).params = s.params := rfl
@[simp] theorem accept_pqMode (i : Instr) (steps : List Micro) (s : State) : (accept i steps s).pqMode = s.pqMode := rfl
@[simp] theorem accept_busy (i : Instr) (steps : List Micro) (s : State) : (accept i steps s).busy = true := rfl
@[simp] theorem accept_err (i : Instr) (steps : List Micro) (s : State) : (accept i steps s).err = s.err := rfl
@[simp] theorem accept_ovr (i : Instr) (steps : List Micro) (s : State) : (accept i steps s).ovr = s.ovr := rfl
@[simp] theorem accept_errReg (i : Instr) (steps : List Micro) (s : State) : (accept i steps s).errReg = s.errReg := rfl
@[simp] theorem accept_arg (i : Instr) (steps : List Micro) (s : State) : (accept i steps s).arg = s.arg := rfl
@[simp] theorem accept_arg2 (i : Instr) (steps : List Micro) (s : State) : (accept i steps s).arg2 = s.arg2 := rfl
@[simp] theorem accept_result (i : Instr) (steps : List Micro) (s : State) : (accept i steps s).result = s.result := rfl
@[simp] theorem accept_result2 (i : Instr) (steps : List Micro) (s : State) : (accept i steps s).result2 = s.result2 := rfl
@[simp] theorem accept_heap (i : Instr) (steps : List Micro) (s : State) : (accept i steps s).heap = s.heap := rfl
@[simp] theorem accept_wr (i : Instr) (steps : List Micro) (s : State) : (accept i steps s).wr = s.wr := rfl
@[simp] theorem accept_rd (i : Instr) (steps : List Micro) (s : State) : (accept i steps s).rd = s.rd := rfl
@[simp] theorem accept_symcount (i : Instr) (steps : List Micro) (s : State) : (accept i steps s).symcount = s.symcount := rfl
@[simp] theorem accept_srcCount (i : Instr) (steps : List Micro) (s : State) : (accept i steps s).srcCount = s.srcCount := rfl
@[simp] theorem accept_snkCount (i : Instr) (steps : List Micro) (s : State) : (accept i steps s).snkCount = s.snkCount := rfl
@[simp] theorem accept_treeNodes (i : Instr) (steps : List Micro) (s : State) : (accept i steps s).treeNodes = s.treeNodes := rfl
@[simp] theorem accept_intDone (i : Instr) (steps : List Micro) (s : State) : (accept i steps s).intDone = s.intDone := rfl
@[simp] theorem accept_intError (i : Instr) (steps : List Micro) (s : State) : (accept i steps s).intError = s.intError := rfl
@[simp] theorem accept_doneIe (i : Instr) (steps : List Micro) (s : State) : (accept i steps s).doneIe = s.doneIe := rfl
@[simp] theorem accept_errorIe (i : Instr) (steps : List Micro) (s : State) : (accept i steps s).errorIe = s.errorIe := rfl
@[simp] theorem accept_tables (i : Instr) (steps : List Micro) (s : State) : (accept i steps s).tables = s.tables := rfl
@[simp] theorem accept_inbuf (i : Instr) (steps : List Micro) (s : State) : (accept i steps s).inbuf = s.inbuf := rfl
@[simp] theorem accept_inlen (i : Instr) (steps : List Micro) (s : State) : (accept i steps s).inlen = s.inlen := rfl
@[simp] theorem accept_nodes (i : Instr) (steps : List Micro) (s : State) : (accept i steps s).nodes = s.nodes := rfl
@[simp] theorem accept_root (i : Instr) (steps : List Micro) (s : State) : (accept i steps s).root = s.root := rfl
@[simp] theorem accept_ports (i : Instr) (steps : List Micro) (s : State) : (accept i steps s).ports = s.ports := rfl
@[simp] theorem accept_inReset (i : Instr) (steps : List Micro) (s : State) : (accept i steps s).inReset = s.inReset := rfl
@[simp] theorem accept_reply (i : Instr) (steps : List Micro) (s : State) : (accept i steps s).reply = s.reply := rfl
@[simp] theorem accept_events (i : Instr) (steps : List Micro) (s : State) : (accept i steps s).events = s.events := rfl
@[simp] theorem accept_draws (i : Instr) (steps : List Micro) (s : State) : (accept i steps s).draws = s.draws := rfl

end Sys2Proof.Machine
end

