-- ==== Sys2Proof/Laws/Run.lean ====
section
/-! SUPPORT. What running the SEQUENCER comes to, so that no proof unfolds `run`: a chain of primitive steps, and the two ways it
ends. -/

namespace Sys2Proof.Machine

/-- The state with the first step taken off the list. -/
def State.next (s : State) (rest : List Micro) : State := { s with seq := { s.seq with todo := rest } }

@[simp] theorem State.next_seq (s : State) (rest : List Micro) : (s.next rest).seq = { s.seq with todo := rest } := rfl

/-- `n` primitive steps lead from one state to another. -/
inductive Reaches : Nat → State → State → Prop where
  | refl (s : State) : Reaches 0 s s
  | go {n : Nat} {s s' t : State} {m : Micro} {rest : List Micro} (todo : s.seq.todo = m :: rest)
      (step : microStep m (s.next rest) = .go s') (more : Reaches n s' t) : Reaches (n + 1) s t
  | raise {n : Nat} {s s' t : State} {m : Micro} {rest : List Micro} {e : ErrCode} (todo : s.seq.todo = m :: rest)
      (step : microStep m (s.next rest) = .raise e s') (more : Reaches n (raiseError e s') t) : Reaches (n + 1) s t

theorem Reaches.trans {n k : Nat} {s t u : State} (h : Reaches n s t) (h' : Reaches k t u) : Reaches (n + k) s u := by
  induction h with
  | refl s => simpa using h'
  | go todo step _ ih => rw [Nat.add_right_comm]; exact .go todo step (ih h')
  | raise todo step _ ih => rw [Nat.add_right_comm]; exact .raise todo step (ih h')

/-- One step that goes on. -/
theorem Reaches.one {s s' : State} {m : Micro} {rest : List Micro} (todo : s.seq.todo = m :: rest)
    (step : microStep m (s.next rest) = .go s') : Reaches 1 s s' := .go todo step (.refl s')

/-- One step that raises. -/
theorem Reaches.oneRaise {s s' : State} {m : Micro} {rest : List Micro} {e : ErrCode} (todo : s.seq.todo = m :: rest)
    (step : microStep m (s.next rest) = .raise e s') : Reaches 1 s (raiseError e s') := .raise todo step (.refl _)

/-- `run` follows the chain. -/
theorem run_of_reaches {n : Nat} {s t : State} (h : Reaches n s t) (k : Nat) : run (n + k) s = run k t := by
  induction h with
  | refl s => simp
  | @go n s s' t m rest todo step _ ih =>
    rw [Nat.add_right_comm, run, todo]
    simp only [State.next] at step
    simp only [step, ih]
  | @raise n s s' t m rest e todo step _ ih =>
    rw [Nat.add_right_comm, run, todo]
    simp only [State.next] at step
    simp only [step, ih]

/-- A chain that ends with no step left: the block settles there. -/
theorem settle_of_reaches {n : Nat} {s t : State} (busy : s.busy = true) (h : Reaches n s t) (bound : n ≤ seqTurns)
    (ends : t.seq.todo = []) : settle s = .next t := by
  obtain ⟨k, hk⟩ := Nat.exists_eq_add_of_le bound
  rw [settle, if_pos busy, hk, run_of_reaches h]
  cases k with
  | zero => rfl
  | succ k => rw [run, ends]

/-- A chain that ends at a port that does not answer: the block waits there. -/
theorem settle_of_waits {n : Nat} {s t : State} {m : Micro} {rest : List Micro} (busy : s.busy = true) (h : Reaches n s t)
    (bound : n ≤ seqTurns) (todo : t.seq.todo = m :: rest) (waits : microStep m (t.next rest) = .wait) :
    settle s = .next t := by
  obtain ⟨k, hk⟩ := Nat.exists_eq_add_of_le bound
  rw [settle, if_pos busy, hk, run_of_reaches h]
  cases k with
  | zero => rfl
  | succ k =>
    rw [run, todo]
    simp only [State.next] at waits
    simp only [waits]

/-- An idle block settles where it is. -/
theorem settle_idle {s : State} (h : s.busy = false) : settle s = .next s := by simp [settle, h]

/-- What `run` can come to, in one induction: a property of every primitive step, and of raising, holds of the state it ends in. -/
theorem run_induction {P : State → Prop}
    (hgo : ∀ s m rest s', P s → s.seq.todo = m :: rest → microStep m (s.next rest) = .go s' → P s')
    (hraise : ∀ s m rest e s', P s → s.seq.todo = m :: rest → microStep m (s.next rest) = .raise e s' → P (raiseError e s'))
    {n : Nat} {s t : State} (hs : P s) (h : run n s = .next t) : P t := by
  induction n generalizing s with
  | zero => simp only [run, Host.Outcome.next.injEq] at h; exact h ▸ hs
  | succ n ih =>
    rw [run] at h
    split at h
    · simp only [Host.Outcome.next.injEq] at h; exact h ▸ hs
    · next m rest todo =>
      split at h
      · next s' step => exact ih (hgo s m rest s' hs todo step) h
      · next e s' step => exact ih (hraise s m rest e s' hs todo step) h
      · simp only [Host.Outcome.next.injEq] at h; exact h ▸ hs
      · cases h
      · cases h

/-- The same for `settle`. -/
theorem settle_induction {P : State → Prop}
    (hgo : ∀ s m rest s', P s → s.seq.todo = m :: rest → microStep m (s.next rest) = .go s' → P s')
    (hraise : ∀ s m rest e s', P s → s.seq.todo = m :: rest → microStep m (s.next rest) = .raise e s' → P (raiseError e s'))
    {s t : State} (hs : P s) (h : settle s = .next t) : P t := by
  rw [settle] at h
  split at h
  · exact run_induction hgo hraise hs h
  · simp only [Host.Outcome.next.injEq] at h; exact h ▸ hs

/-- No fault where no primitive step from a state of the property faults. -/
theorem run_no_fault {P : State → Prop}
    (hgo : ∀ s m rest s', P s → s.seq.todo = m :: rest → microStep m (s.next rest) = .go s' → P s')
    (hraise : ∀ s m rest e s', P s → s.seq.todo = m :: rest → microStep m (s.next rest) = .raise e s' → P (raiseError e s'))
    (hstop : ∀ s m rest f, P s → s.seq.todo = m :: rest → microStep m (s.next rest) ≠ .stop f)
    {n : Nat} {s : State} (hs : P s) (f : Fault) : run n s ≠ .fault f := by
  induction n generalizing s with
  | zero => simp [run]
  | succ n ih =>
    rw [run]
    split
    · simp
    · next m rest todo =>
      split
      · next s' step => exact ih (hgo s m rest s' hs todo step)
      · next e s' step => exact ih (hraise s m rest e s' hs todo step)
      · simp
      · next g step => exact absurd step (hstop s m rest g hs todo)
      · simp

/-- An accepted command runs its steps from the accepted state (R232). -/
theorem command_ready {i : Instr} {steps : List Micro} {s : State} (h : s.ready) (wf : i.wellFormed = true) :
    command i steps s = settle (accept i steps s) := by
  simp [command, h.1, h.2, wf]

end Sys2Proof.Machine
end

