-- ==== Sys2Proof/Laws/Ports.lean ====
section
/-! SUPPORT. The port transactions: everything one can do, and what it does where the device's answer is known. -/

namespace Sys2Proof.Machine

/-! ## The sink -/

/-- Everything an answered append can do: only SNK_COUNT and the ports change. -/
theorem snkWrite_cases {b : Byte} {s t : State} {a : SnkAnswer} (h : snkWrite b s = .answer a t) :
    ∃ snk : Sink,
      (a = .ok ∧ t = { s with snkCount := s.snkCount + 1, ports := ⟨s.ports.src, snk, .snkOk b :: s.ports.trace⟩ }) ∨
      (a = .ioErr ∧ t = { s with ports := ⟨s.ports.src, snk, .snkIoErr b :: s.ports.trace⟩ }) := by
  unfold snkWrite at h
  split at h
  · split at h
    · cases h; exact ⟨_, .inl ⟨rfl, rfl⟩⟩
    · cases h; exact ⟨_, .inr ⟨rfl, rfl⟩⟩
    · split at h
      · cases h; exact ⟨s.ports.snk, .inl ⟨rfl, rfl⟩⟩
      · cases h
  · cases h

/-- An append the sink accepts. -/
theorem snkWrite_accepts {b : Byte} {s : State} {n : Nat} (h : s.ports.snk.accepts (n + 1)) :
    snkWrite b s = .answer .ok { s with snkCount := s.snkCount + 1, ports := s.ports.taking [b] } := by
  obtain ⟨hk, ha, ht⟩ := h
  unfold snkWrite
  rw [if_pos hk]
  split
  · next answers heq => simp [Ports.taking, Ports.note, heq]
  · next answers heq => exact absurd (ha .ioErr (by simp [heq])) (by simp)
  · next heq =>
    have ok : s.ports.snk.thenOk = true := by simpa [heq] using ht
    have : s.ports.note (.snkOk b) = s.ports.taking [b] := by
      unfold Ports.taking Ports.note
      revert heq
      rcases s.ports with ⟨_, ⟨_, _, _⟩, _⟩
      rintro rfl; rfl
    simp only [ok, if_true, this]

/-- After it the sink accepts one byte fewer. -/
theorem accepts_taking {p : Ports} {n : Nat} (bs : List Byte) (h : p.snk.accepts (bs.length + n)) :
    (p.taking bs).snk.accepts n := by
  obtain ⟨hk, ha, ht⟩ := h
  refine ⟨hk, ?_, ?_⟩
  · intro a ha'
    refine ha a ?_
    rw [List.take_add]
    exact List.mem_append_right _ ha'
  · rcases ht with ht | ht
    · left; simp only [Ports.taking, List.length_drop]; omega
    · right; exact ht

theorem Sink.accepts_mono {k : Sink} {n m : Nat} (h : k.accepts n) (hm : m ≤ n) : k.accepts m := by
  obtain ⟨hk, ha, ht⟩ := h
  refine ⟨hk, fun a ha' => ha a ?_, ?_⟩
  · exact (List.take_sublist_take_left hm).mem ha'
  · rcases ht with ht | ht
    · left; omega
    · right; exact ht

@[simp] theorem Ports.taking_nil (p : Ports) : p.taking [] = p := by simp [Ports.taking]

theorem Ports.taking_taking (p : Ports) (as bs : List Byte) : (p.taking as).taking bs = p.taking (as ++ bs) := by
  simp [Ports.taking, List.drop_drop]

@[simp] theorem Ports.taking_src (p : Ports) (bs : List Byte) : (p.taking bs).src = p.src := rfl

/-- An append the sink answers with IoErr. -/
theorem snkWrite_refuses {b : Byte} {s : State} (h : s.ports.snk.refuses) :
    ∃ snk : Sink, snkWrite b s = .answer .ioErr { s with ports := ⟨s.ports.src, snk, .snkIoErr b :: s.ports.trace⟩ } := by
  obtain ⟨hk, ha⟩ := h
  obtain ⟨answers, heq⟩ : ∃ answers, s.ports.snk.answers = .ioErr :: answers := by
    cases hs : s.ports.snk.answers with
    | nil => simp [hs] at ha
    | cons a as => simp only [hs, List.head?_cons, Option.some.injEq] at ha; exact ⟨as, by rw [ha]⟩
  exact ⟨_, by unfold snkWrite; rw [if_pos hk, heq]; rfl⟩

/-! ## The source -/

/-- Everything an answered source read can do: only SRC_COUNT and the ports change. -/
theorem srcRead_cases {s t : State} {a : SrcAnswer} (h : srcRead s = .answer a t) :
    ∃ src : Source,
      (∃ b, a = .byte b ∧
        t = { s with srcCount := s.srcCount + 1, ports := ⟨src, s.ports.snk, .srcByte b :: s.ports.trace⟩ }) ∨
      (a = .ended ∧ t = { s with ports := ⟨src, s.ports.snk, .srcEnd :: s.ports.trace⟩ }) ∨
      (a = .ioErr ∧ t = { s with ports := ⟨src, s.ports.snk, .srcIoErr :: s.ports.trace⟩ }) := by
  unfold srcRead at h
  split at h
  · split at h
    · cases h; exact ⟨_, .inl ⟨_, rfl, rfl⟩⟩
    · cases h; exact ⟨_, .inr (.inr ⟨rfl, rfl⟩)⟩
    · split at h
      · cases h; exact ⟨_, .inr (.inl ⟨rfl, rfl⟩)⟩
      · cases h
  · cases h

/-! ### The stream that is met -/

@[simp] theorem Source.leaving_next (src : Source) (items : List SrcItem) (ended : Bool) :
    (src.leaving items ended).next = (⟨items, ended⟩, src.next.2) := rfl

@[simp] theorem Source.leaving_known (src : Source) (items : List SrcItem) (ended : Bool) :
    (src.leaving items ended).known = src.known := rfl

@[simp] theorem Source.leaving_leaving (src : Source) (items items' : List SrcItem) (ended ended' : Bool) :
    (src.leaving items ended).leaving items' ended' = src.leaving items' ended' := rfl

/-- Further answers come after what the stream that is met still holds. -/
theorem Source.holds_extend {src : Source} {items more : List SrcItem} {ended : Bool} (ended' : Bool) (h : src.holds items ended) :
    (src.extend more ended').holds (items ++ more) ended' := by
  obtain ⟨hk, hn⟩ := h
  unfold Source.extend
  rw [hk, hn]
  cases hc : src.current with
  | none => exact ⟨rfl, by simp [Source.next]⟩
  | some st => exact ⟨rfl, by simp [Source.next]⟩

theorem srcRead_byte {s : State} {b : Byte} {items : List SrcItem} {ended : Bool}
    (h : s.ports.src.holds (.byte b :: items) ended) :
    srcRead s = .answer (.byte b) { s with srcCount := s.srcCount + 1, ports := s.ports.giving [b] items ended } := by
  obtain ⟨hk, hn⟩ := h
  simp [srcRead, hk, hn, Ports.giving, Ports.note]

theorem srcRead_ended {s : State} (h : s.ports.src.holds [] true) :
    srcRead s = .answer .ended { s with ports := s.ports.givingThen [] .srcEnd [] true } := by
  obtain ⟨hk, hn⟩ := h
  simp [srcRead, hk, hn, Ports.givingThen, Ports.giving, Ports.note]

theorem srcRead_ioErr {s : State} {items : List SrcItem} {ended : Bool} (h : s.ports.src.holds (.ioErr :: items) ended) :
    srcRead s = .answer .ioErr { s with ports := s.ports.givingThen [] .srcIoErr items ended } := by
  obtain ⟨hk, hn⟩ := h
  simp [srcRead, hk, hn, Ports.givingThen, Ports.giving, Ports.note]

theorem srcRead_waits {s : State} (h : s.ports.src.holds [] false) : srcRead s = .wait := by
  obtain ⟨hk, hn⟩ := h
  simp [srcRead, hk, hn]

/-- What is left of the stream after its first bytes. -/
theorem holds_giving {p : Ports} {bs : List Byte} {items items' : List SrcItem} {ended ended' : Bool}
    (h : p.src.holds items' ended') : (p.giving bs items ended).src.holds items ended := ⟨h.1, rfl⟩

theorem giving_giving {p : Ports} {as bs : List Byte} {items items' : List SrcItem} {ended ended' : Bool} :
    (p.giving as items' ended').giving bs items ended = p.giving (as ++ bs) items ended := by
  simp [Ports.giving]

@[simp] theorem giving_snk {p : Ports} {bs : List Byte} {items : List SrcItem} {ended : Bool} :
    (p.giving bs items ended).snk = p.snk := rfl

end Sys2Proof.Machine
end

