-- ==== Sys2Proof/Laws/Meets.lean ====
section
/-! SUPPORT. What a primitive step comes to, said once for each shared operation as a condition on the operands and the state
before it: no later proof unfolds these operations. -/

namespace Sys2Proof.Machine

/-- The step ends in a state of `go`, raises into a state of `raises`, or stops only where `stops`. -/
def Move.Meets (go : State → Prop) (raises : ErrCode → State → Prop) (stops : Prop) : Move → Prop
  | .go s => go s
  | .raise e s => raises e s
  | .stop _ => stops
  | .wait => True
  | .refuse _ => True

variable {go : State → Prop} {raises : ErrCode → State → Prop} {stops : Prop}

@[simp] theorem Move.meets_go (s : State) : (Move.go s).Meets go raises stops ↔ go s := Iff.rfl
@[simp] theorem Move.meets_raise (e : ErrCode) (s : State) : (Move.raise e s).Meets go raises stops ↔ raises e s := Iff.rfl
@[simp] theorem Move.meets_stop (f : Fault) : (Move.stop f).Meets go raises stops ↔ stops := Iff.rfl
@[simp] theorem Move.meets_wait : Move.wait.Meets go raises stops := trivial
@[simp] theorem Move.meets_refuse (r : Refusal) : (Move.refuse r).Meets go raises stops := trivial

theorem Move.Meets.mono {go' : State → Prop} {raises' : ErrCode → State → Prop} {stops' : Prop} {m : Move}
    (h : m.Meets go raises stops) (hg : ∀ s, go s → go' s) (hr : ∀ e s, raises e s → raises' e s) (hs : stops → stops') :
    m.Meets go' raises' stops' := by
  cases m
  · exact hg _ h
  · exact hr _ _ h
  · trivial
  · exact hs h
  · trivial

theorem Move.Meets.and {go' : State → Prop} {raises' : ErrCode → State → Prop} {m : Move} (h : m.Meets go raises stops)
    (h' : m.Meets go' raises' stops) : m.Meets (fun s => go s ∧ go' s) (fun e s => raises e s ∧ raises' e s) stops := by
  cases m
  · exact ⟨h, h'⟩
  · exact ⟨h, h'⟩
  · trivial
  · exact h
  · trivial

theorem Move.meets_andThen (m : Move) (f : State → Move) :
    (m.andThen f).Meets go raises stops ↔ m.Meets (fun s => (f s).Meets go raises stops) raises stops := by
  cases m <;> rfl

theorem Move.Meets.andThen {mid : State → Prop} {m : Move} {f : State → Move} (h : m.Meets mid raises stops)
    (hf : ∀ s, mid s → (f s).Meets go raises stops) : (m.andThen f).Meets go raises stops :=
  (Move.meets_andThen m f).2 (h.mono hf (fun _ _ h => h) id)

theorem Move.Meets.of_go {m : Move} {s : State} (h : m.Meets go raises stops) (e : m = .go s) : go s := by rw [e] at h; exact h

theorem Move.Meets.of_raise {m : Move} {e : ErrCode} {s : State} (h : m.Meets go raises stops) (eq : m = .raise e s) :
    raises e s := by rw [eq] at h; exact h

theorem Move.Meets.no_stop {m : Move} {f : Fault} (h : m.Meets go raises False) : m ≠ .stop f := by
  rintro rfl; exact h

/-! ## The queue and the arena -/

theorem push_meets {e : Entry} {s : State} :
    (push e s).Meets go raises stops ↔
      if s.params.pqCap ≤ s.heap.length then raises .overflow s else go { s with heap := heapPush s.latched.mode e s.heap } := by
  unfold push; split <;> rfl

theorem withTop_meets {s : State} {f : Entry → State → Move} :
    (withTop s f).Meets go raises stops ↔
      (s.heap = [] → raises .underflow s) ∧ ∀ r rest, s.heap = r :: rest → (f r s).Meets go raises stops := by
  unfold withTop
  split
  · next h => simp [h]
  · next r rest h => simp only [h]; constructor
                     · exact fun hf => ⟨by simp, by rintro _ _ ⟨⟩; exact hf⟩
                     · exact fun hf => hf.2 _ _ rfl

theorem withPop_meets {s : State} {f : Entry → State → Move} :
    (withPop s f).Meets go raises stops ↔
      (s.heap = [] → raises .underflow s) ∧
        ∀ r rest, s.heap = r :: rest → (f r { s with heap := heapPop s.latched.mode s.heap }).Meets go raises stops :=
  withTop_meets

theorem withAlloc_meets {n : Node} {s : State} {f : Byte → State → Move} :
    (withAlloc n s f).Meets go raises stops ↔
      if Config.nodeCap ≤ s.nodes.length then raises .treeOverflow s
      else
        (f (BitVec.ofNat 8 s.nodes.length)
          { s with nodes := s.nodes ++ [n], treeNodes := BitVec.ofNat 32 (s.nodes.length + 1) }).Meets go raises stops := by
  unfold withAlloc; split <;> rfl

theorem withNode_meets {n : Byte} {s : State} {f : Node → Move} :
    (withNode n s f).Meets go raises stops ↔
      (s.nodes[n.toNat]? = none → stops) ∧ ∀ x, s.nodes[n.toNat]? = some x → (f x).Meets go raises stops := by
  unfold withNode
  split
  · next h => simp [h]
  · next x h => simp [h]

theorem push_room {e : Entry} {s : State} (h : s.heap.length < s.params.pqCap) :
    push e s = .go { s with heap := heapPush s.latched.mode e s.heap } := if_neg (Nat.not_le.2 h)

theorem withTop_cons {s : State} {r : Entry} {rest : List Entry} (h : s.heap = r :: rest) (f : Entry → State → Move) :
    withTop s f = f r s := by unfold withTop; rw [h]

theorem withPop_cons {s : State} {r : Entry} {rest : List Entry} (h : s.heap = r :: rest) (f : Entry → State → Move) :
    withPop s f = f r { s with heap := heapPop s.latched.mode s.heap } := withTop_cons h _

theorem withAlloc_room {s : State} (h : s.nodes.length < Config.nodeCap) (n : Node) (f : Byte → State → Move) :
    withAlloc n s f = f (BitVec.ofNat 8 s.nodes.length)
      { s with nodes := s.nodes ++ [n], treeNodes := BitVec.ofNat 32 (s.nodes.length + 1) } := if_neg (Nat.not_le.2 h)

/-! ## The ports and the cursors -/

/-- `SrcRead()`: enough that the continuation does what is wanted after each answer. -/
theorem srcRead_meets {s : State} {f : SrcAnswer → State → Move}
    (byte : ∀ b src, (f (.byte b) { s with
      srcCount := s.srcCount + 1, ports := ⟨src, s.ports.snk, .srcByte b :: s.ports.trace⟩ }).Meets go raises stops)
    (ended : ∀ src, (f .ended { s with ports := ⟨src, s.ports.snk, .srcEnd :: s.ports.trace⟩ }).Meets go raises stops)
    (ioErr : ∀ src, (f .ioErr { s with ports := ⟨src, s.ports.snk, .srcIoErr :: s.ports.trace⟩ }).Meets go raises stops) :
    ((srcRead s).andThen f).Meets go raises stops := by
  cases h : srcRead s with
  | answer a t =>
    obtain ⟨src, ⟨b, rfl, rfl⟩ | ⟨rfl, rfl⟩ | ⟨rfl, rfl⟩⟩ := srcRead_cases h
    · exact byte b src
    · exact ended src
    · exact ioErr src
  | wait => trivial
  | refuse r => trivial

/-- `SnkWrite(b)`: the same. -/
theorem appendByte_meets {b : Byte} {onFail : SinkFail} {s : State}
    (ok : ∀ snk : Sink, go { s with snkCount := s.snkCount + 1, ports := ⟨s.ports.src, snk, .snkOk b :: s.ports.trace⟩ })
    (ioErr : ∀ (snk : Sink) (t : State), t = { s with ports := ⟨s.ports.src, snk, .snkIoErr b :: s.ports.trace⟩ } →
      match onFail with
      | .raise => raises .ioSnk t
      | .afterClose => go { t with seq := { t.seq with todo := [.snkClose, .raise .ioSnk] } }
      | .ignore => go t) :
    (appendByte b onFail s).Meets go raises stops := by
  unfold appendByte
  cases h : snkWrite b s with
  | answer a t =>
    obtain ⟨snk, ⟨rfl, rfl⟩ | ⟨rfl, ht⟩⟩ := snkWrite_cases h
    · exact ok snk
    · have := ioErr snk t ht
      cases onFail <;> exact this
  | wait => trivial
  | refuse r => trivial

theorem readBit_meets {s : State}
    (buffered : s.rd.cnt ≠ 0#4 → go (takeBit s))
    (byte : s.rd.cnt = 0#4 → ∀ b src, go (takeBit { s with
      rd := ⟨b, 8#4⟩, srcCount := s.srcCount + 1, ports := ⟨src, s.ports.snk, .srcByte b :: s.ports.trace⟩ }))
    (ended : s.rd.cnt = 0#4 → ∀ src, raises .eos { s with ports := ⟨src, s.ports.snk, .srcEnd :: s.ports.trace⟩ })
    (ioErr : s.rd.cnt = 0#4 → ∀ src, raises .ioSrc { s with ports := ⟨src, s.ports.snk, .srcIoErr :: s.ports.trace⟩ }) :
    (readBit s).Meets go raises stops := by
  unfold readBit
  split
  · next h => exact srcRead_meets (fun b src => byte h b src) (fun src => ended h src) (fun src => ioErr h src)
  · next h => exact buffered h

end Sys2Proof.Machine
end

