-- ==== Sys2Proof/Laws/Frame.lean ====
section
/-! SUPPORT. What no primitive step of the SEQUENCER touches: the host's registers, the inputs, and, but for the last step of a
command, BUSY and the error. -/

namespace Sys2Proof.Machine

/-- The parts of the state that a primitive step other than the last may change. -/
inductive Part where
  | result | result2 | heap | wr | rd | symcount | srcCount | snkCount | treeNodes | tables | inbuf | nodes | root | ports
  deriving DecidableEq, Repr

/-- Which of them each step changes. -/
def Micro.touches : Micro → List Part
  | .writeBit _ | .flush _ => [.wr]
  | .append _ _ => [.snkCount, .ports]
  | .snkClose | .srcClose => [.ports]
  | .readBit => [.rd, .srcCount, .ports]
  | .dropReader => [.rd]
  | .resultValue | .pqSize => [.result]
  | .pqPush | .pqClear => [.heap]
  | .pqPop => [.heap, .result, .result2]
  | .pqTop => [.result, .result2]
  | .cInit => [.heap, .wr, .rd, .srcCount, .snkCount, .treeNodes, .tables, .inbuf, .nodes, .root]
  | .dInit => [.wr, .rd, .srcCount, .snkCount, .treeNodes, .nodes, .root]
  | .scan => [.srcCount, .ports, .symcount, .tables, .inbuf]
  | .makeLeaves => [.heap, .nodes, .treeNodes]
  | .build => [.heap, .nodes, .treeNodes, .root]
  | .recordCode _ => [.tables]
  | .release => [.nodes]
  | .treeToken | .treeLeaf => [.nodes, .treeNodes]
  | .treeReturn _ => [.nodes, .root]
  | .takeCount => [.symcount]
  | _ => []

/-- All but the parts named is as before. -/
structure State.Same (ps : List Part) (s t : State) : Prop where
  params : t.params = s.params
  pqMode : t.pqMode = s.pqMode
  busy : t.busy = s.busy
  err : t.err = s.err
  ovr : t.ovr = s.ovr
  errReg : t.errReg = s.errReg
  arg : t.arg = s.arg
  arg2 : t.arg2 = s.arg2
  result : ps.contains .result = false → t.result = s.result
  result2 : ps.contains .result2 = false → t.result2 = s.result2
  heap : ps.contains .heap = false → t.heap = s.heap
  wr : ps.contains .wr = false → t.wr = s.wr
  rd : ps.contains .rd = false → t.rd = s.rd
  symcount : ps.contains .symcount = false → t.symcount = s.symcount
  srcCount : ps.contains .srcCount = false → t.srcCount = s.srcCount
  snkCount : ps.contains .snkCount = false → t.snkCount = s.snkCount
  treeNodes : ps.contains .treeNodes = false → t.treeNodes = s.treeNodes
  intDone : t.intDone = s.intDone
  intError : t.intError = s.intError
  doneIe : t.doneIe = s.doneIe
  errorIe : t.errorIe = s.errorIe
  tables : ps.contains .tables = false → t.tables = s.tables
  inbuf : ps.contains .inbuf = false → t.inbuf = s.inbuf ∧ t.inlen = s.inlen
  nodes : ps.contains .nodes = false → t.nodes = s.nodes
  root : ps.contains .root = false → t.root = s.root
  ports : ps.contains .ports = false → t.ports = s.ports
  inReset : t.inReset = s.inReset
  reply : t.reply = s.reply
  events : t.events = s.events
  draws : t.draws = s.draws

/-- Only the SEQUENCER has changed. -/
theorem State.Same.seqOnly (s : State) (ps : List Part) (q : Sequencer) : s.Same ps { s with seq := q } := by
  constructor <;> first | exact fun _ => rfl | exact fun _ => ⟨rfl, rfl⟩ | exact rfl

/-- R182 in full. -/
theorem cInit_eq (s : State) :
    cInit s = { s with
      wr := ⟨0#8, 0#4⟩, rd := ⟨0#8, 0#4⟩, srcCount := 0#32, snkCount := 0#32
      heap := [], nodes := [], root := 0#8, treeNodes := 0#32, inlen := 0#32, tables := .zero
      seq := { s.seq with phase := .cScan, latch := s.seq.latch.map fun l => { l with mode := .min } } } := rfl

/-- R201 in full. -/
theorem dInit_eq (s : State) :
    dInit s = { s with
      wr := ⟨0#8, 0#4⟩, rd := ⟨0#8, 0#4⟩, srcCount := 0#32, snkCount := 0#32
      nodes := [], root := 0#8, treeNodes := 0#32, seq := { s.seq with phase := .dTree } } := rfl

/-- A step of MakeLeaves changes only the queue and the arena. -/
theorem makeLeavesOf_frame (syms : List Byte) (s : State) :
    (makeLeavesOf syms s).Meets (fun t => ∃ heap nodes n, t = { s with heap := heap, nodes := nodes, treeNodes := n })
      (fun _ t => ∃ heap nodes n, t = { s with heap := heap, nodes := nodes, treeNodes := n }) True := by
  induction syms generalizing s with
  | nil => exact ⟨s.heap, s.nodes, s.treeNodes, rfl⟩
  | cons sym rest ih =>
    rw [makeLeavesOf, Move.meets_andThen]
    have key : ∀ t : State, (∃ heap nodes n, t = { s with heap := heap, nodes := nodes, treeNodes := n }) →
        (makeLeavesOf rest t).Meets (fun t => ∃ heap nodes n, t = { s with heap := heap, nodes := nodes, treeNodes := n })
          (fun _ t => ∃ heap nodes n, t = { s with heap := heap, nodes := nodes, treeNodes := n }) True := by
      rintro _ ⟨heap, nodes, n, rfl⟩
      exact (ih _).mono (by rintro _ ⟨h, k, m, rfl⟩; exact ⟨h, k, m, rfl⟩) (by rintro _ _ ⟨h, k, m, rfl⟩; exact ⟨h, k, m, rfl⟩) id
    unfold makeLeaf
    split
    · exact key s ⟨_, _, _, rfl⟩
    · rw [withAlloc_meets]
      split
      · exact ⟨_, _, _, rfl⟩
      · rw [push_meets]
        split
        · exact ⟨_, _, _, rfl⟩
        · exact key _ ⟨_, _, _, rfl⟩

/-- A merge changes only the queue and the arena. -/
theorem mergeStep_frame (s : State) :
    (mergeStep s).Meets (fun t => ∃ heap nodes n, t = { s with heap := heap, nodes := nodes, treeNodes := n })
      (fun _ t => ∃ heap nodes n, t = { s with heap := heap, nodes := nodes, treeNodes := n }) True := by
  unfold mergeStep
  simp only [withPop_meets, withAlloc_meets, push_meets]
  refine ⟨fun _ => ⟨_, _, _, rfl⟩, fun a as _ => ⟨fun _ => ⟨_, _, _, rfl⟩, fun b bs _ => ?_⟩⟩
  split
  · exact ⟨_, _, _, rfl⟩
  · split <;> exact ⟨_, _, _, rfl⟩

theorem mergeLoop_frame (turns : Nat) (s : State) :
    (mergeLoop turns s).Meets (fun t => ∃ heap nodes n, t = { s with heap := heap, nodes := nodes, treeNodes := n })
      (fun _ t => ∃ heap nodes n, t = { s with heap := heap, nodes := nodes, treeNodes := n }) True := by
  induction turns generalizing s with
  | zero => exact ⟨s.heap, s.nodes, s.treeNodes, rfl⟩
  | succ turns ih =>
    rw [mergeLoop]
    split
    · refine (mergeStep_frame s).andThen ?_
      rintro _ ⟨heap, nodes, n, rfl⟩
      exact (ih _).mono (by rintro _ ⟨h, k, m, rfl⟩; exact ⟨h, k, m, rfl⟩) (by rintro _ _ ⟨h, k, m, rfl⟩; exact ⟨h, k, m, rfl⟩) id
    · exact ⟨s.heap, s.nodes, s.treeNodes, rfl⟩

theorem buildTree_frame (s : State) :
    (buildTree s).Meets (fun t => ∃ heap nodes n r, t = { s with heap := heap, nodes := nodes, treeNodes := n, root := r })
      (fun _ t => ∃ heap nodes n r, t = { s with heap := heap, nodes := nodes, treeNodes := n, root := r }) True := by
  unfold buildTree
  split
  · rw [withAlloc_meets]; split <;> exact ⟨_, _, _, _, rfl⟩
  · rw [Move.meets_andThen]
    refine (mergeLoop_frame _ s).mono ?_ (by rintro _ _ ⟨h, k, m, rfl⟩; exact ⟨h, k, m, s.root, rfl⟩) id
    rintro _ ⟨h, k, m, rfl⟩
    rw [withPop_meets]
    exact ⟨fun _ => ⟨_, _, _, _, rfl⟩, fun r rest _ => ⟨_, _, _, _, rfl⟩⟩

/-- What every primitive step but the last ones leaves alone: the host's registers, the inputs, BUSY, and the error. -/
theorem microStep_frame (m : Micro) (s : State) (h : m.endsCommand = false) :
    (microStep m s).Meets (s.Same m.touches) (fun _ => s.Same m.touches) True := by
  cases m with
  | append b onFail =>
    refine appendByte_meets (fun snk => (by constructor <;> first | exact fun h => Bool.noConfusion h | exact fun _ => rfl | exact fun _ => ⟨rfl, rfl⟩ | exact rfl)) ?_
    rintro snk _ rfl
    cases onFail <;> (constructor <;> first | exact fun h => Bool.noConfusion h | exact fun _ => rfl | exact fun _ => ⟨rfl, rfl⟩ | exact rfl)
  | readBit => exact readBit_meets (fun _ => (by constructor <;> first | exact fun h => Bool.noConfusion h | exact fun _ => rfl | exact fun _ => ⟨rfl, rfl⟩ | exact rfl)) (fun _ _ _ => (by constructor <;> first | exact fun h => Bool.noConfusion h | rfl | exact fun _ => rfl | exact fun _ => ⟨rfl, rfl⟩)) (fun _ _ => (by constructor <;> first | exact fun h => Bool.noConfusion h | rfl | exact fun _ => rfl | exact fun _ => ⟨rfl, rfl⟩)) (fun _ _ => (by constructor <;> first | exact fun h => Bool.noConfusion h | rfl | exact fun _ => rfl | exact fun _ => ⟨rfl, rfl⟩))
  | writeBit b => unfold microStep writeBit; dsimp only; split <;> (constructor <;> first | exact fun h => Bool.noConfusion h | exact fun _ => rfl | exact fun _ => ⟨rfl, rfl⟩ | exact rfl)
  | flush onFail => unfold microStep flush; dsimp only; split <;> (constructor <;> first | exact fun h => Bool.noConfusion h | exact fun _ => rfl | exact fun _ => ⟨rfl, rfl⟩ | exact rfl)
  | pqPush => unfold microStep; dsimp only; rw [push_meets]; split <;> (constructor <;> first | exact fun h => Bool.noConfusion h | exact fun _ => rfl | exact fun _ => ⟨rfl, rfl⟩ | exact rfl)
  | pqPop => unfold microStep; dsimp only; rw [withPop_meets]; exact ⟨fun _ => (by constructor <;> first | exact fun h => Bool.noConfusion h | exact fun _ => rfl | exact fun _ => ⟨rfl, rfl⟩ | exact rfl), fun _ _ _ => (by constructor <;> first | exact fun h => Bool.noConfusion h | rfl | exact fun _ => rfl | exact fun _ => ⟨rfl, rfl⟩)⟩
  | pqTop => unfold microStep; dsimp only; rw [withTop_meets]; exact ⟨fun _ => (by constructor <;> first | exact fun h => Bool.noConfusion h | exact fun _ => rfl | exact fun _ => ⟨rfl, rfl⟩ | exact rfl), fun _ _ _ => (by constructor <;> first | exact fun h => Bool.noConfusion h | rfl | exact fun _ => rfl | exact fun _ => ⟨rfl, rfl⟩)⟩
  | scan =>
    refine srcRead_meets (fun b src => ?_) (fun src => (by constructor <;> first | exact fun h => Bool.noConfusion h | exact fun _ => rfl | exact fun _ => ⟨rfl, rfl⟩ | exact rfl)) (fun src => (by constructor <;> first | exact fun h => Bool.noConfusion h | rfl | exact fun _ => rfl | exact fun _ => ⟨rfl, rfl⟩))
    dsimp only
    split
    · (constructor <;> first | exact fun h => Bool.noConfusion h | exact fun _ => rfl | exact fun _ => ⟨rfl, rfl⟩ | exact rfl)
    · split <;> (constructor <;> first | exact fun h => Bool.noConfusion h | exact fun _ => rfl | exact fun _ => ⟨rfl, rfl⟩ | exact rfl)
  | makeLeaves =>
    exact (makeLeavesOf_frame _ s).mono (by rintro _ ⟨h, k, m, rfl⟩; (constructor <;> first | exact fun h => Bool.noConfusion h | exact fun _ => rfl | exact fun _ => ⟨rfl, rfl⟩ | exact rfl)) (by rintro _ _ ⟨h, k, m, rfl⟩; (constructor <;> first | exact fun h => Bool.noConfusion h | rfl | exact fun _ => rfl | exact fun _ => ⟨rfl, rfl⟩)) id
  | build =>
    exact (buildTree_frame s).mono (by rintro _ ⟨h, k, m, r, rfl⟩; (constructor <;> first | exact fun h => Bool.noConfusion h | exact fun _ => rfl | exact fun _ => ⟨rfl, rfl⟩ | exact rfl)) (by rintro _ _ ⟨h, k, m, r, rfl⟩; (constructor <;> first | exact fun h => Bool.noConfusion h | rfl | exact fun _ => rfl | exact fun _ => ⟨rfl, rfl⟩)) id
  | serNode n =>
    refine withNode_meets.2 ⟨fun _ => trivial, fun x _ => ?_⟩
    cases x <;> exact .seqOnly ..
  | serReturn =>
    unfold microStep serReturn
    dsimp only
    split
    · exact .seqOnly ..
    · refine withNode_meets.2 ⟨fun _ => trivial, fun x _ => ?_⟩
      cases x
      · trivial
      · exact .seqOnly ..
    · exact .seqOnly ..
  | payload i =>
    unfold microStep payloadStep
    dsimp only
    split
    · split
      · trivial
      · exact .seqOnly ..
    · exact .seqOnly ..
  | treeToken =>
    unfold microStep treeToken
    dsimp only
    split
    · (constructor <;> first | exact fun h => Bool.noConfusion h | exact fun _ => rfl | exact fun _ => ⟨rfl, rfl⟩ | exact rfl)
    · split
      · (constructor <;> first | exact fun h => Bool.noConfusion h | exact fun _ => rfl | exact fun _ => ⟨rfl, rfl⟩ | exact rfl)
      · rw [withAlloc_meets]; split <;> (constructor <;> first | exact fun h => Bool.noConfusion h | exact fun _ => rfl | exact fun _ => ⟨rfl, rfl⟩ | exact rfl)
  | treeLeaf => unfold microStep treeLeaf; dsimp only; rw [withAlloc_meets]; split <;> (constructor <;> first | exact fun h => Bool.noConfusion h | exact fun _ => rfl | exact fun _ => ⟨rfl, rfl⟩ | exact rfl)
  | treeReturn n =>
    unfold microStep treeReturn
    dsimp only
    split
    · (constructor <;> first | exact fun h => Bool.noConfusion h | exact fun _ => rfl | exact fun _ => ⟨rfl, rfl⟩ | exact rfl)
    · refine withNode_meets.2 ⟨fun _ => trivial, fun x _ => ?_⟩
      split <;> (constructor <;> first | exact fun h => Bool.noConfusion h | exact fun _ => rfl | exact fun _ => ⟨rfl, rfl⟩ | exact rfl)
  | takeCount => unfold microStep takeCount; dsimp only; split <;> (constructor <;> first | exact fun h => Bool.noConfusion h | exact fun _ => rfl | exact fun _ => ⟨rfl, rfl⟩ | exact rfl)
  | decode k => cases k <;> exact .seqOnly ..
  | walk n k =>
    refine withNode_meets.2 ⟨fun _ => trivial, fun x _ => ?_⟩
    cases x <;> exact .seqOnly ..
  | branch n k =>
    refine withNode_meets.2 ⟨fun _ => trivial, fun x _ => ?_⟩
    cases x
    · trivial
    · exact .seqOnly ..
  | cInit => rw [microStep, cInit_eq]; (constructor <;> first | exact fun h => Bool.noConfusion h | exact fun _ => rfl | exact fun _ => ⟨rfl, rfl⟩ | exact rfl)
  | dInit => rw [microStep, dInit_eq]; (constructor <;> first | exact fun h => Bool.noConfusion h | exact fun _ => rfl | exact fun _ => ⟨rfl, rfl⟩ | exact rfl)
  | fail _ _ _ => cases h
  | done => cases h
  | writeImmBit => exact .seqOnly ..
  | writeImmByte => exact .seqOnly ..
  | writeArg => exact .seqOnly ..
  | clearValue => exact .seqOnly ..
  | enterPhase _ => exact .seqOnly ..
  | serialize => exact .seqOnly ..
  | writeCount => exact .seqOnly ..
  | raise _ => exact .seqOnly ..
  | _ => (constructor <;> first | exact fun h => Bool.noConfusion h | exact fun _ => rfl | exact fun _ => ⟨rfl, rfl⟩ | exact rfl)

/-- What no primitive step changes. -/
structure State.SameHost (s t : State) : Prop where
  params : t.params = s.params
  pqMode : t.pqMode = s.pqMode
  ovr : t.ovr = s.ovr
  arg : t.arg = s.arg
  arg2 : t.arg2 = s.arg2
  doneIe : t.doneIe = s.doneIe
  errorIe : t.errorIe = s.errorIe
  inReset : t.inReset = s.inReset
  reply : t.reply = s.reply
  events : t.events = s.events
  draws : t.draws = s.draws

theorem State.SameHost.trans {s t u : State} (h : s.SameHost t) (h' : t.SameHost u) : s.SameHost u :=
  ⟨h'.1.trans h.1, h'.2.trans h.2, h'.3.trans h.3, h'.4.trans h.4, h'.5.trans h.5, h'.6.trans h.6, h'.7.trans h.7,
    h'.8.trans h.8, h'.9.trans h.9, h'.10.trans h.10, h'.11.trans h.11⟩

theorem State.Same.sameHost {ps : List Part} {s t : State} (h : s.Same ps t) : s.SameHost t :=
  ⟨h.params, h.pqMode, h.ovr, h.arg, h.arg2, h.doneIe, h.errorIe, h.inReset, h.reply, h.events, h.draws⟩

/-- No primitive step changes the host's registers, the inputs or the model's own counter. -/
theorem microStep_host (m : Micro) (s : State) : (microStep m s).Meets s.SameHost (fun _ => s.SameHost) True := by
  by_cases h : m.endsCommand = false
  · exact (microStep_frame m s h).mono (fun _ h => h.sameHost) (fun _ _ h => h.sameHost) id
  · cases m <;> first | exact absurd rfl h | (constructor <;> rfl)

/-- Nor does running a command. -/
theorem settle_host {s t : State} (h : settle s = .next t) : s.SameHost t := by
  refine settle_induction (P := s.SameHost) ?_ ?_ (by constructor <;> rfl) h
  · intro u m rest v hu _ hstep
    exact hu.trans ((by constructor <;> rfl : u.SameHost (u.next rest)).trans ((microStep_host m _).of_go hstep))
  · intro u m rest e v hu _ hstep
    exact hu.trans ((by constructor <;> rfl : u.SameHost (u.next rest)).trans
      (((microStep_host m _).of_raise hstep).trans (by constructor <;> rfl)))

end Sys2Proof.Machine
end

