-- ==== Sys2Proof/Laws/Todo.lean ====
section
/-! SUPPORT. What a primitive step leaves to run: new steps in front of those that were left, and what those new steps can be. -/

namespace Sys2Proof.Machine

/-- The steps that some primitive step puts in front of those still to run. -/
def Micro.isInner : Micro → Bool
  | .writeBit _ | .append _ _ | .clearValue | .readBit | .enterPhase _ | .scan => true
  | .serNode _ | .recordCode _ | .serReturn | .payload _ => true
  | .treeToken | .treeLeaf | .treeReturn _ | .decode _ | .walk _ _ | .branch _ _ => true
  | _ => false

/-- The steps that each primitive step puts in front of those still to run. -/
def Micro.spawns : Micro → Micro → Bool
  | .writeBit _ => fun | .append _ .raise => true | _ => false
  | .flush f => fun | .append _ g => f == g | _ => false
  | .writeImmBit | .writeImmByte | .writeArg | .writeCount => fun | .writeBit _ => true | _ => false
  | .scan => fun | .scan => true | _ => false
  | .serialize => fun | .serNode _ => true | _ => false
  | .serNode _ => fun | .writeBit _ | .recordCode _ | .serReturn | .serNode _ => true | _ => false
  | .serReturn => fun | .serNode _ | .serReturn => true | _ => false
  | .payload _ => fun | .writeBit _ | .payload _ => true | _ => false
  | .treeToken => fun | .clearValue | .readBit | .treeLeaf | .treeToken => true | _ => false
  | .treeLeaf => fun | .treeReturn _ => true | _ => false
  | .treeReturn _ => fun | .treeReturn _ | .clearValue | .readBit | .treeToken => true | _ => false
  | .takeCount => fun | .enterPhase _ | .decode _ => true | _ => false
  | .decode _ => fun | .walk _ _ => true | _ => false
  | .walk _ _ => fun | .append _ .raise | .decode _ | .clearValue | .readBit | .branch _ _ => true | _ => false
  | .branch _ _ => fun | .walk _ _ => true | _ => false
  | _ => fun _ => false

theorem Micro.isInner_of_spawns {m x : Micro} (h : m.spawns x = true) : x.isInner = true := by
  cases m <;> first | exact Bool.noConfusion h | (cases x <;> first | rfl | exact Bool.noConfusion h)

/-- New steps of an inner kind, in front of those left. -/
def State.leaves (s t : State) : Prop := ∃ new, t.seq.todo = new ++ s.seq.todo ∧ ∀ x ∈ new, x.isInner = true

theorem makeLeavesOf_seq (syms : List Byte) (s : State) :
    (makeLeavesOf syms s).Meets (fun t => t.seq = s.seq) (fun _ _ => True) True :=
  (makeLeavesOf_frame syms s).mono (by rintro _ ⟨_, _, _, rfl⟩; rfl) (fun _ _ _ => trivial) id

theorem buildTree_seq (s : State) : (buildTree s).Meets (fun t => t.seq = s.seq) (fun _ _ => True) True :=
  (buildTree_frame s).mono (by rintro _ ⟨_, _, _, _, rfl⟩; rfl) (fun _ _ _ => trivial) id

/-- After a step other than the last: the steps it spawns in front of those left, or WCLOSE's two last steps where its flush
failed. -/
theorem microStep_spawns (m : Micro) (s : State) (h : m.endsCommand = false) :
    (microStep m s).Meets (fun t => (∃ new, t.seq.todo = new ++ s.seq.todo ∧ ∀ x ∈ new, m.spawns x = true) ∨
        ((∃ b, m = .append b .afterClose) ∧ t.seq.todo = [.snkClose, .raise .ioSnk])) (fun _ _ => True) True := by
  have same : ∀ (m : Micro) (t : State), t.seq.todo = s.seq.todo →
      (∃ new, t.seq.todo = new ++ s.seq.todo ∧ ∀ x ∈ new, m.spawns x = true) ∨
        ((∃ b, m = .append b .afterClose) ∧ t.seq.todo = [.snkClose, .raise .ioSnk]) :=
    fun _ _ ht => .inl ⟨[], ht, by simp⟩
  have new : ∀ (m : Micro) (ns : List Micro) (t : State), t.seq.todo = ns ++ s.seq.todo → (ns.all m.spawns) = true →
      (∃ new, t.seq.todo = new ++ s.seq.todo ∧ ∀ x ∈ new, m.spawns x = true) ∨
        ((∃ b, m = .append b .afterClose) ∧ t.seq.todo = [.snkClose, .raise .ioSnk]) :=
    fun _ ns t ht hn => .inl ⟨ns, ht, by simpa [List.all_eq_true] using hn⟩
  have bits : ∀ (m : Micro) (l : List Bool), (∀ b, m.spawns (.writeBit b) = true) →
      (l.map Micro.writeBit).all m.spawns = true := by
    intro m l hm
    rw [List.all_map]
    exact List.all_eq_true.2 fun b _ => hm b
  cases m with
  | writeBit b => unfold microStep writeBit; dsimp only; split; exacts [new _ [_] _ rfl rfl, same _ _ rfl]
  | append b onFail =>
    refine appendByte_meets (fun snk => same _ _ rfl) ?_
    rintro snk _ rfl
    cases onFail; exacts [trivial, .inr ⟨⟨_, rfl⟩, rfl⟩, same _ _ rfl]
  | flush onFail =>
    unfold microStep flush; dsimp only; split
    exacts [new _ [_] _ rfl (by simp [Micro.spawns]), same _ _ rfl]
  | writeImmBit => exact new _ [_] _ rfl rfl
  | writeImmByte => exact new _ _ _ rfl (bits _ _ fun _ => rfl)
  | writeArg => exact new _ _ _ rfl (bits _ _ fun _ => rfl)
  | writeCount => exact new _ _ _ rfl (bits _ _ fun _ => rfl)
  | readBit =>
    exact readBit_meets (fun _ => same _ _ rfl) (fun _ _ _ => same _ _ rfl) (fun _ _ => trivial) (fun _ _ => trivial)
  | pqPush => unfold microStep; dsimp only; rw [push_meets]; split; exacts [trivial, same _ _ rfl]
  | pqPop => unfold microStep; dsimp only; rw [withPop_meets]; exact ⟨fun _ => trivial, fun _ _ _ => same _ _ rfl⟩
  | pqTop => unfold microStep; dsimp only; rw [withTop_meets]; exact ⟨fun _ => trivial, fun _ _ _ => same _ _ rfl⟩
  | scan =>
    refine srcRead_meets (fun b src => ?_) (fun src => same _ _ rfl) (fun src => trivial)
    dsimp only
    split
    · trivial
    · split; exacts [trivial, new _ [_] _ rfl rfl]
  | makeLeaves => exact (makeLeavesOf_seq _ s).mono (fun t ht => same _ t (by rw [ht])) (fun _ _ _ => trivial) id
  | build => exact (buildTree_seq s).mono (fun t ht => same _ t (by rw [ht])) (fun _ _ _ => trivial) id
  | serialize => exact new _ [_] _ rfl rfl
  | serNode n =>
    refine withNode_meets.2 ⟨fun _ => trivial, fun x _ => ?_⟩
    cases x with
    | leaf sym _ => exact new _ (.writeBit true :: (msbFirst sym).map .writeBit ++ [.recordCode sym, .serReturn]) _ rfl (by
        have := bits (.serNode n) (msbFirst sym) fun _ => rfl
        simp_all [Micro.spawns])
    | internal _ _ _ => exact new _ [_, _] _ rfl rfl
  | serReturn =>
    unfold microStep serReturn
    dsimp only
    split
    · exact same _ _ rfl
    · refine withNode_meets.2 ⟨fun _ => trivial, fun x _ => ?_⟩
      cases x
      · trivial
      · exact new _ [_] _ rfl rfl
    · exact new _ [_] _ rfl rfl
  | payload i =>
    unfold microStep payloadStep
    dsimp only
    split
    · split
      · trivial
      · next sym _ =>
        exact new _ ((codePath (s.tables.lenAt sym) (s.tables.bitsAt sym)).map .writeBit ++ [.payload (i + 1)]) _ rfl (by
          rw [List.all_append, bits _ _ fun _ => rfl]; rfl)
    · exact same _ _ rfl
  | treeToken =>
    unfold microStep treeToken
    dsimp only
    split
    · trivial
    · split
      · exact new _ (readBits 8 ++ [.treeLeaf]) _ rfl rfl
      · rw [withAlloc_meets]; split; exacts [trivial, new _ readToken _ rfl rfl]
  | treeLeaf => unfold microStep treeLeaf; dsimp only; rw [withAlloc_meets]; split; exacts [trivial, new _ [_] _ rfl rfl]
  | treeReturn n =>
    unfold microStep treeReturn
    dsimp only
    split
    · exact same _ _ rfl
    · refine withNode_meets.2 ⟨fun _ => trivial, fun x _ => ?_⟩
      split; exacts [new _ [_] _ rfl rfl, new _ readToken _ rfl rfl]
  | takeCount => unfold microStep takeCount; dsimp only; split; exacts [trivial, new _ [_, _] _ rfl rfl]
  | decode k => cases k; exacts [same _ _ rfl, new _ [_] _ rfl rfl]
  | walk n k =>
    refine withNode_meets.2 ⟨fun _ => trivial, fun x _ => ?_⟩
    cases x; exacts [new _ [_, _] _ rfl rfl, new _ (readBits 1 ++ [.branch n k]) _ rfl rfl]
  | branch n k =>
    refine withNode_meets.2 ⟨fun _ => trivial, fun x _ => ?_⟩
    cases x; exacts [trivial, new _ [_] _ rfl rfl]
  | cInit => exact same _ _ rfl
  | dInit => exact same _ _ rfl
  | raise e => trivial
  | fail _ _ _ => cases h
  | done => cases h
  | _ => exact same _ _ rfl

/-- The same, coarser. -/
theorem microStep_todo (m : Micro) (s : State) (h : m.endsCommand = false) :
    (microStep m s).Meets (fun t => s.leaves t ∨ t.seq.todo = [.snkClose, .raise .ioSnk]) (fun _ _ => True) True :=
  (microStep_spawns m s h).mono
    (fun _ ht => ht.imp (fun ⟨new, e, hn⟩ => ⟨new, e, fun x hx => Micro.isInner_of_spawns (hn x hx)⟩) (fun ⟨_, e⟩ => e))
    (fun _ _ _ => trivial) id

/-- Only `CInit` changes the latched command; nothing but the last step forgets it. -/
theorem microStep_latch (m : Micro) (s : State) (h : m.endsCommand = false) (hc : m ≠ .cInit) :
    (microStep m s).Meets (fun t => t.seq.latch = s.seq.latch) (fun _ t => t.seq.latch = s.seq.latch) True := by
  cases m with
  | writeBit b => unfold microStep writeBit; dsimp only; split <;> rfl
  | append b onFail =>
    refine appendByte_meets (fun snk => rfl) ?_
    rintro snk _ rfl
    cases onFail <;> rfl
  | flush onFail => unfold microStep flush; dsimp only; split <;> rfl
  | readBit => exact readBit_meets (fun _ => rfl) (fun _ _ _ => rfl) (fun _ _ => rfl) (fun _ _ => rfl)
  | pqPush => unfold microStep; dsimp only; rw [push_meets]; split <;> rfl
  | pqPop => unfold microStep; dsimp only; rw [withPop_meets]; exact ⟨fun _ => rfl, fun _ _ _ => rfl⟩
  | pqTop => unfold microStep; dsimp only; rw [withTop_meets]; exact ⟨fun _ => rfl, fun _ _ _ => rfl⟩
  | scan =>
    refine srcRead_meets (fun b src => ?_) (fun src => rfl) (fun src => rfl)
    dsimp only
    split
    · rfl
    · split <;> rfl
  | makeLeaves =>
    exact (makeLeavesOf_frame _ s).mono (by rintro _ ⟨_, _, _, rfl⟩; rfl) (by rintro _ _ ⟨_, _, _, rfl⟩; rfl) id
  | build => exact (buildTree_frame s).mono (by rintro _ ⟨_, _, _, _, rfl⟩; rfl) (by rintro _ _ ⟨_, _, _, _, rfl⟩; rfl) id
  | serNode n =>
    refine withNode_meets.2 ⟨fun _ => trivial, fun x _ => ?_⟩
    cases x <;> rfl
  | serReturn =>
    unfold microStep serReturn
    dsimp only
    split
    · rfl
    · refine withNode_meets.2 ⟨fun _ => trivial, fun x _ => ?_⟩
      cases x <;> trivial
    · rfl
  | payload i =>
    unfold microStep payloadStep
    dsimp only
    split
    · split <;> trivial
    · rfl
  | treeToken =>
    unfold microStep treeToken
    dsimp only
    split
    · rfl
    · split
      · rfl
      · rw [withAlloc_meets]; split <;> rfl
  | treeLeaf => unfold microStep treeLeaf; dsimp only; rw [withAlloc_meets]; split <;> rfl
  | treeReturn n =>
    unfold microStep treeReturn
    dsimp only
    split
    · rfl
    · refine withNode_meets.2 ⟨fun _ => trivial, fun x _ => ?_⟩
      split <;> rfl
  | takeCount => unfold microStep takeCount; dsimp only; split <;> rfl
  | decode k => cases k <;> rfl
  | walk n k =>
    refine withNode_meets.2 ⟨fun _ => trivial, fun x _ => ?_⟩
    cases x <;> rfl
  | branch n k =>
    refine withNode_meets.2 ⟨fun _ => trivial, fun x _ => ?_⟩
    cases x <;> trivial
  | cInit => exact absurd rfl hc
  | fail _ _ _ => cases h
  | done => cases h
  | _ => rfl

end Sys2Proof.Machine
end

