-- ==== Sys2Proof/Laws/Invariant.lean ====
section
/-! SUPPORT. What one primitive step does to the parts of the state that the invariant of R58 speaks of. -/

namespace Sys2Proof.Machine

/-! ## The cursors -/

/-- R58 (b) for a cursor. -/
def Cursor.writes (c : Cursor) : Prop := c.cnt.toNat ≤ 7 ∧ c.buf.toNat < 2 ^ c.cnt.toNat

theorem Cursor.empty_writes : Cursor.empty.writes := by unfold Cursor.writes Cursor.empty; decide

theorem shiftIn_toNat (v : Byte) (b : Bool) : (shiftIn v b).toNat = (2 * v.toNat + b.toNat) % 256 := by
  have : ∀ (v : Byte) (b : Bool), (shiftIn v b).toNat = (2 * v.toNat + b.toNat) % 256 := by decide
  exact this v b

theorem writeBit_writer {b : Bool} {s : State} (h : s.wr.writes) : (writeBit b s).wr.writes := by
  unfold writeBit
  dsimp only
  split
  · exact Cursor.empty_writes
  · next hc =>
    obtain ⟨h1, h2⟩ := h
    have hcnt : (s.wr.cnt + 1#4).toNat = s.wr.cnt.toNat + 1 := by
      rw [BitVec.toNat_add]; simp; omega
    have h7 : s.wr.cnt.toNat + 1 ≠ 8 := fun e => hc (BitVec.eq_of_toNat_eq (by rw [hcnt, e]; rfl))
    refine ⟨by show (s.wr.cnt + 1#4).toNat ≤ 7; omega, ?_⟩
    show (shiftIn s.wr.buf b).toNat < 2 ^ (s.wr.cnt + 1#4).toNat
    rw [hcnt, shiftIn_toNat, Nat.pow_succ]
    have : b.toNat ≤ 1 := Bool.toNat_le b
    omega

/-- R58 (b) after every primitive step. -/
theorem microStep_writer (m : Micro) (s : State) (he : m.endsCommand = false) (h : s.wr.writes) :
    (microStep m s).Meets (fun t => t.wr.writes) (fun _ t => t.wr.writes) True := by
  have same : m.touches.contains .wr = false →
      (microStep m s).Meets (fun t => t.wr.writes) (fun _ t => t.wr.writes) True := fun hm =>
    (microStep_frame m s he).mono (fun t ht => by rw [ht.wr hm]; exact h) (fun _ t ht => by rw [ht.wr hm]; exact h) id
  cases m with
  | writeBit b => exact writeBit_writer h
  | flush onFail => unfold microStep flush; dsimp only; split; exacts [Cursor.empty_writes, h]
  | cInit => exact Cursor.empty_writes
  | dInit => exact Cursor.empty_writes
  | _ => exact same rfl

theorem takeBit_reader {s : State} (h : s.rd.cnt.toNat ≤ 8) (h0 : s.rd.cnt ≠ 0#4) : (takeBit s).rd.cnt.toNat ≤ 7 := by
  show (s.rd.cnt - 1#4).toNat ≤ 7
  have : s.rd.cnt.toNat ≠ 0 := fun e => h0 (BitVec.eq_of_toNat_eq e)
  rw [BitVec.toNat_sub]
  simp
  omega

/-- R58 (c) after every primitive step. -/
theorem microStep_reader (m : Micro) (s : State) (he : m.endsCommand = false) (h : s.rd.cnt.toNat ≤ 7) :
    (microStep m s).Meets (fun t => t.rd.cnt.toNat ≤ 7) (fun _ t => t.rd.cnt.toNat ≤ 7) True := by
  have same : m.touches.contains .rd = false →
      (microStep m s).Meets (fun t => t.rd.cnt.toNat ≤ 7) (fun _ t => t.rd.cnt.toNat ≤ 7) True := fun hm =>
    (microStep_frame m s he).mono (fun t ht => by rw [ht.rd hm]; exact h) (fun _ t ht => by rw [ht.rd hm]; exact h) id
  cases m with
  | readBit =>
    exact readBit_meets (fun h0 => takeBit_reader (by omega) h0)
      (fun _ _ _ => takeBit_reader (Nat.le_refl 8) (show 8#4 ≠ 0#4 by decide)) (fun _ _ => h) (fun _ _ => h)
  | dropReader => exact Nat.zero_le 7
  | cInit => exact Nat.zero_le 7
  | dInit => exact Nat.zero_le 7
  | _ => exact same rfl

/-! ## INBUF -/

/-- R48: the canonical form, the capacity, and every byte below INLEN held. -/
structure State.InputInv (s : State) : Prop where
  inputLength : s.inlen.toNat ≤ s.params.inbufCap
  input : s.inbuf.wf ∧ (∀ c ∈ s.inbuf, c.1 < s.params.inbufCap) ∧ ∀ i < s.inlen.toNat, (s.inbuf.read i).isSome

theorem State.InputInv.congr {s t : State} (h : s.InputInv) (hp : t.params = s.params)
    (hi : t.inbuf = s.inbuf ∧ t.inlen = s.inlen) : t.InputInv := by
  obtain ⟨h1, h2⟩ := h
  constructor <;> rw [hi.2, hp]
  · exact h1
  · rw [hi.1]; exact h2

theorem microStep_input (m : Micro) (s : State) (he : m.endsCommand = false) (hp : s.params.legal) (h : s.InputInv) :
    (microStep m s).Meets State.InputInv (fun _ => State.InputInv) True := by
  have same : m.touches.contains .inbuf = false → (microStep m s).Meets State.InputInv (fun _ => State.InputInv) True :=
    fun hm => (microStep_frame m s he).mono (fun t ht => h.congr ht.params (ht.inbuf hm))
      (fun _ t ht => h.congr ht.params (ht.inbuf hm)) id
  cases m with
  | cInit => exact ⟨Nat.zero_le _, h.input.1, h.input.2.1, fun i hi => absurd hi (Nat.not_lt_zero i)⟩
  | scan =>
    refine srcRead_meets (fun b src => ?_) (fun src => h.congr rfl ⟨rfl, rfl⟩) (fun src => h.congr rfl ⟨rfl, rfl⟩)
    dsimp only
    split
    · exact h.congr rfl ⟨rfl, rfl⟩
    · split
      · exact h.congr rfl ⟨rfl, rfl⟩
      · next hlt =>
        have hlt : s.inlen.toNat < s.params.inbufCap := Nat.lt_of_not_le hlt
        have hcap := hp.2.2.2
        have hlen : (s.inlen + 1#32).toNat = s.inlen.toNat + 1 := by rw [BitVec.toNat_add]; simp; omega
        constructor
        · show (s.inlen + 1#32).toNat ≤ s.params.inbufCap; omega
        · refine ⟨Memory.write_wf h.input.1 _ _, fun c hc => ?_, fun i hi => ?_⟩
          · rcases Memory.mem_write hc with rfl | hc
            · exact hlt
            · exact h.input.2.1 c hc
          · have hi : i < (s.inlen + 1#32).toNat := hi
            show (((s.inbuf.write s.inlen.toNat b)).read i).isSome
            by_cases hii : i = s.inlen.toNat
            · subst hii; simp [Memory.read_write_same]
            · rw [Memory.read_write_other _ _ hii]; exact h.input.2.2 i (by omega)
  | _ => exact same rfl

/-! ## The queue and the arena in COMPRESS -/

/-- MakeLeaves of the alphabet from an empty queue and arena raises nothing: one entry and one node for each symbol that
occurs, in order under MIN (R184). -/
theorem makeLeavesOf_queue (syms : List Byte) (s : State) (cap : 128 ≤ s.params.pqCap)
    (len : s.heap.length + syms.length ≤ 128) (nodes : s.nodes.length = s.heap.length) (mode : s.latched.mode = .min)
    (ordered : heapOrdered .min s.heap) :
    (makeLeavesOf syms s).Meets
      (fun t => heapOrdered .min t.heap ∧ t.heap.length ≤ 128 ∧ t.nodes.length = t.heap.length) (fun _ _ => False) True := by
  induction syms generalizing s with
  | nil => exact ⟨ordered, len, nodes⟩
  | cons sym rest ih =>
    simp only [List.length_cons] at len
    rw [makeLeavesOf, Move.meets_andThen]
    unfold makeLeaf
    split
    · exact ih s cap (by omega) nodes mode ordered
    · rw [withAlloc_meets, if_neg (by unfold Config.nodeCap; omega), push_meets, if_neg (by show ¬s.params.pqCap ≤ s.heap.length; omega)]
      refine ih _ cap ?_ ?_ mode ?_
      · show (heapPush _ _ s.heap).length + rest.length ≤ 128
        rw [heapPush_length]; omega
      · show (s.nodes ++ [_]).length = (heapPush _ _ s.heap).length
        rw [heapPush_length, List.length_append, nodes]; rfl
      · show heapOrdered .min (heapPush s.latched.mode _ s.heap)
        rw [mode]; exact heapPush_ordered ordered _

/-- One merge (R186, R187), where there are two entries and room for the node. -/
theorem mergeStep_next {s : State} (two : 1 < s.heap.length) (room : s.nodes.length < Config.nodeCap)
    (cap : s.heap.length ≤ s.params.pqCap) :
    ∃ a as b bs, s.heap = a :: as ∧ heapPop s.latched.mode s.heap = b :: bs ∧ s.heap.length = bs.length + 2 ∧
      mergeStep s = .go { s with
        heap := heapPush s.latched.mode ⟨a.key + b.key, minTie a.tie b.tie, BitVec.ofNat 8 s.nodes.length⟩
          (heapPop s.latched.mode (b :: bs))
        nodes := s.nodes ++ [.internal (a.key + b.key) a.tag b.tag]
        treeNodes := BitVec.ofNat 32 (s.nodes.length + 1) } := by
  obtain ⟨a, as, ha⟩ := List.exists_cons_of_length_pos (Nat.lt_trans Nat.zero_lt_one two)
  have hl := heapPop_length s.latched.mode a as
  rw [← ha] at hl
  have hla : s.heap.length = as.length + 1 := by rw [ha]; rfl
  obtain ⟨b, bs, hb⟩ := List.exists_cons_of_length_pos (show 0 < (heapPop s.latched.mode s.heap).length by omega)
  have hlb : as.length = bs.length + 1 := by rw [← hl, hb]; rfl
  refine ⟨a, as, b, bs, ha, hb, by omega, ?_⟩
  have hcap : (heapPop s.latched.mode (b :: bs)).length < s.params.pqCap := by rw [heapPop_length]; omega
  rw [← hb] at hcap ⊢
  exact (withPop_cons ha _).trans <| (withPop_cons (s := { s with heap := heapPop s.latched.mode s.heap }) hb _).trans <|
    (withAlloc_room
      (s := { s with heap := heapPop s.latched.mode (heapPop s.latched.mode s.heap) }) room _ _).trans (push_room hcap)

/-- The merges raise nothing: each makes the queue one shorter and the arena one longer (R186). -/
theorem mergeLoop_queue (turns : Nat) (s : State) (cap : 128 ≤ s.params.pqCap) (some : s.heap ≠ [])
    (len : s.nodes.length + s.heap.length ≤ 256) (len' : s.heap.length ≤ 128) :
    (mergeLoop turns s).Meets
      (fun t => t.heap ≠ [] ∧ t.nodes.length + t.heap.length ≤ 256 ∧ (s.heap.length ≤ turns → t.heap.length = 1))
      (fun _ _ => False) True := by
  induction turns generalizing s with
  | zero => exact ⟨some, len, fun h => absurd (List.length_eq_zero_iff.1 (Nat.le_zero.1 h)) some⟩
  | succ turns ih =>
    rw [mergeLoop]
    split
    · next two =>
      obtain ⟨a, as, b, bs, -, -, hlen, hstep⟩ := mergeStep_next two (by unfold Config.nodeCap; omega) (by omega)
      rw [hstep, Move.andThen]
      have hpush := heapPush_length s.latched.mode ⟨a.key + b.key, minTie a.tie b.tie, BitVec.ofNat 8 s.nodes.length⟩
        (heapPop s.latched.mode (b :: bs))
      rw [heapPop_length] at hpush
      refine (ih _ (by exact cap) (fun h => ?_) ?_ ?_).mono (fun t ht => ⟨ht.1, ht.2.1, fun hle => ht.2.2 ?_⟩) (fun _ _ h => h) id
      · dsimp only at h; rw [h] at hpush; cases hpush
      · dsimp only; rw [hpush, List.length_append, List.length_singleton]; omega
      · dsimp only; rw [hpush]; omega
      · dsimp only; rw [hpush]; omega
    · next hl =>
      refine ⟨some, len, fun _ => ?_⟩
      have : s.heap.length ≠ 0 := fun h => some (List.length_eq_zero_iff.1 h)
      omega

/-- Build raises nothing and empties the queue (R186, R188). -/
theorem buildTree_queue (s : State) (cap : 128 ≤ s.params.pqCap) (len : s.heap.length ≤ 128)
    (nodes : s.nodes.length = s.heap.length) :
    (buildTree s).Meets (fun t => t.heap = [] ∧ t.nodes.length ≤ Config.nodeCap) (fun _ _ => False) True := by
  unfold buildTree
  split
  · next h =>
    have h0 : s.nodes.length = 0 := by rw [nodes, h]; rfl
    rw [withAlloc_meets, if_neg (by rw [h0]; decide)]
    exact ⟨h, by show (s.nodes ++ [_]).length ≤ 255; simp [h0]⟩
  · next e es h =>
    rw [Move.meets_andThen]
    refine (mergeLoop_queue _ s cap (by simp [h]) (by omega) len).mono (fun t ht => ?_) (fun _ _ h => h) id
    obtain ⟨h1, h2, h3⟩ := ht
    have h3 := h3 (Nat.le_refl _)
    rw [withPop_meets]
    refine ⟨fun h => absurd h h1, fun r rest hr => ⟨?_, by show t.nodes.length ≤ 255; omega⟩⟩
    rw [hr, List.length_cons] at h3
    have : rest = [] := List.length_eq_zero_iff.1 (by omega)
    show heapPop t.latched.mode t.heap = []
    rw [hr, this]; exact List.length_eq_zero_iff.1 (heapPop_length _ _ _)

end Sys2Proof.Machine
end

