-- ==== Sys2Proof/Laws/Keeps.lean ====
section
/-! SUPPORT. The invariant of R58 after one primitive step, and after a raise. -/

namespace Sys2Proof.Machine

/-- R58 (d) while a command runs, the latched command apart. -/
def State.queueWhile (s : State) (l : Latch) : Prop :=
  if l.opcode = 0x31#8 then
    (∀ m ∈ s.seq.todo, m.isHostQueue = false) ∧
      ((s.seq.todo = compressSteps ∧ heapOrdered s.pqMode s.heap) ∨
        ((s.seq.todo = compressSteps.drop 1 ∨ s.seq.todo = compressSteps.drop 2 ∨ s.seq.todo = compressSteps.drop 3) ∧
          l.mode = .min ∧ s.heap = [] ∧ s.nodes = []) ∨
        ((s.seq.todo = compressSteps.drop 4 ∨ s.seq.todo = compressSteps.drop 5) ∧
          l.mode = .min ∧ heapOrdered .min s.heap ∧ s.heap.length ≤ 128 ∧ s.nodes.length = s.heap.length) ∨
        ((∀ m ∈ s.seq.todo, m.isTreeBuilding = false) ∧ s.heap = []))
  else (∀ m ∈ s.seq.todo, m.isTreeBuilding = false) ∧ l.mode = s.pqMode ∧ heapOrdered s.pqMode s.heap

theorem State.queueInv_busy {s : State} (h : s.busy = true) :
    s.queueInv ↔ ∃ l, s.seq.latch = some l ∧ s.queueWhile l := by
  unfold State.queueInv; rw [if_pos h]; rfl

/-- Steps that may be put in front, or follow a failed flush, use the queue neither for the host nor for a tree. -/
theorem queue_free_of_inner {x : Micro} (h : x.isInner = true) :
    x.isHostQueue = false ∧ x.isTreeBuilding = false ∧ x.namesError := by
  cases x <;> first | exact ⟨rfl, rfl, trivial⟩ | cases h

theorem heapOrdered_nil (m : Mode) : heapOrdered m [] := fun _ _ => rfl

/-- The steps after any but the last: each is new and inner, or was left, or ends a WCLOSE. -/
theorem mem_todo {s t : State} {x : Micro} (h : s.leaves t ∨ t.seq.todo = [.snkClose, .raise .ioSnk]) (hx : x ∈ t.seq.todo) :
    x.isInner = true ∨ x ∈ s.seq.todo ∨ x = .snkClose ∨ x = .raise .ioSnk := by
  rcases h with ⟨new, hn, hi⟩ | h
  · rw [hn] at hx
    rcases List.mem_append.1 hx with hx | hx
    · exact .inl (hi x hx)
    · exact .inr (.inl hx)
  · rw [h] at hx
    simp only [List.mem_cons, List.not_mem_nil, or_false] at hx
    exact .inr (.inr hx)

theorem raiseError_todo (e : ErrCode) (s : State) {x : Micro} (hx : x ∈ (raiseError e s).seq.todo) :
    x ∈ cleanup ∨ x = .fail e s.latched.opcode s.seq.phase := by
  unfold raiseError at hx
  dsimp only at hx
  split at hx
  · simpa using hx
  · simp only [List.mem_cons, List.not_mem_nil, or_false] at hx; exact .inr hx

theorem cleanup_free {x : Micro} (hx : x ∈ cleanup) : x.isHostQueue = false ∧ x.isTreeBuilding = false ∧ x.namesError := by
  simp only [cleanup, List.mem_cons, List.not_mem_nil, or_false] at hx
  rcases hx with rfl | rfl | rfl | rfl | rfl <;> exact ⟨rfl, rfl, trivial⟩

/-- What a raise leaves of R58 (d). -/
theorem raiseError_queue {e : ErrCode} {s : State} {l : Latch}
    (h : if l.opcode = 0x31#8 then s.heap = [] else l.mode = s.pqMode ∧ heapOrdered s.pqMode s.heap) :
    (raiseError e s).queueWhile l := by
  have free : ∀ x ∈ (raiseError e s).seq.todo, x.isHostQueue = false ∧ x.isTreeBuilding = false := fun x hx => by
    rcases raiseError_todo e s hx with hx | rfl
    · exact ⟨(cleanup_free hx).1, (cleanup_free hx).2.1⟩
    · exact ⟨rfl, rfl⟩
  unfold State.queueWhile
  split at h
  · next ho => rw [if_pos ho]; exact ⟨fun x hx => (free x hx).1, .inr (.inr (.inr ⟨fun x hx => (free x hx).2, h⟩))⟩
  · next ho => rw [if_neg ho]; exact ⟨fun x hx => (free x hx).2, h⟩

theorem symbols_length : symbols.length = 128 := by simp [symbols, Config.alphabet]

/-- R58 (d) after a step other than the last, and after a raise. -/
theorem microStep_queue {s : State} {l : Latch} {m : Micro} {rest : List Micro} (cap : 128 ≤ s.params.pqCap)
    (latch : s.seq.latch = some l) (todo : s.seq.todo = m :: rest) (he : m.endsCommand = false) (h : s.queueWhile l) :
    (microStep m (s.next rest)).Meets (fun t => ∃ l', t.seq.latch = some l' ∧ t.queueWhile l')
      (fun e t => ∃ l', t.seq.latch = some l' ∧ (raiseError e t).queueWhile l') True := by
  have hlatched : (s.next rest).latched = l := by unfold State.latched; rw [State.next_seq, latch]; rfl
  -- a step that leaves the queue alone, outside the first phases of COMPRESS
  have plain : m.touches.contains .heap = false →
      (if l.opcode = 0x31#8 then
        (∀ x ∈ rest, x.isHostQueue = false) ∧ (∀ x ∈ rest, x.isTreeBuilding = false) ∧ s.heap = []
      else (∀ x ∈ rest, x.isTreeBuilding = false) ∧ l.mode = s.pqMode ∧ heapOrdered s.pqMode s.heap) →
      (microStep m (s.next rest)).Meets (fun t => ∃ l', t.seq.latch = some l' ∧ t.queueWhile l')
        (fun e t => ∃ l', t.seq.latch = some l' ∧ (raiseError e t).queueWhile l') True := fun hm hq => by
    have hc : m ≠ .cInit := by rintro rfl; cases hm
    have h1 := microStep_frame m (s.next rest) he
    have h2 := microStep_todo m (s.next rest) he
    have h3 := microStep_latch m (s.next rest) he hc
    revert h1 h2 h3
    cases microStep m (s.next rest) with
    | go t =>
      intro h1 h2 h3
      refine ⟨l, h3.trans latch, ?_⟩
      have hheap : t.heap = s.heap := h1.heap hm
      have hmode : t.pqMode = s.pqMode := h1.pqMode
      have free : ∀ x ∈ t.seq.todo, x ∈ rest ∨ (x.isHostQueue = false ∧ x.isTreeBuilding = false) := fun x hx => by
        rcases mem_todo h2 hx with hx | hx | rfl | rfl
        · exact .inr ⟨(queue_free_of_inner hx).1, (queue_free_of_inner hx).2.1⟩
        · exact .inl hx
        · exact .inr ⟨rfl, rfl⟩
        · exact .inr ⟨rfl, rfl⟩
      unfold State.queueWhile
      split at hq
      · next ho =>
        rw [if_pos ho]
        exact ⟨fun x hx => (free x hx).elim (hq.1 x) (·.1),
          .inr (.inr (.inr ⟨fun x hx => (free x hx).elim (hq.2.1 x) (·.2), hheap.trans hq.2.2⟩))⟩
      · next ho =>
        rw [if_neg ho, hheap, hmode]
        exact ⟨fun x hx => (free x hx).elim (hq.1 x) (·.2), hq.2⟩
    | raise e t =>
      intro h1 _ h3
      refine ⟨l, h3.trans latch, raiseError_queue ?_⟩
      rw [h1.heap hm, h1.pqMode]
      split at hq
      · next ho => rw [if_pos ho]; exact hq.2.2
      · next ho => rw [if_neg ho]; exact hq.2
    | wait => intros; trivial
    | stop f => intros; trivial
    | refuse r => intros; trivial
  unfold State.queueWhile at h
  split at h
  · next ho =>
    obtain ⟨hhost, h⟩ := h
    have hhr : ∀ x ∈ rest, x.isHostQueue = false := fun x hx => hhost x (by rw [todo]; exact List.mem_cons_of_mem _ hx)
    rcases h with ⟨hs, hord⟩ | ⟨hs, hmin, hheap, hnodes⟩ | ⟨hs, hmin, hord, hlen, hnodes⟩ | ⟨hfree, hheap⟩
    · -- CInit
      rw [todo] at hs
      obtain ⟨rfl, rfl⟩ := List.cons.inj hs
      refine ⟨{ l with mode := .min }, ?_, ?_⟩
      · show ((s.next _).useMin).seq.latch = _
        unfold State.useMin; rw [State.next_seq, latch]; rfl
      · unfold State.queueWhile
        rw [if_pos ho]
        exact ⟨hhr, .inr (.inl ⟨.inl rfl, rfl, rfl, rfl⟩)⟩
    · rw [todo] at hs
      rcases hs with hs | hs | hs <;> obtain ⟨rfl, rfl⟩ := List.cons.inj hs
      · -- Scan
        refine srcRead_meets (fun b src => ?_) (fun src => ?_) (fun src => ?_)
        · dsimp only
          have raised : ∀ e, ∃ l', s.seq.latch = some l' ∧ (raiseError e { s.next (compressSteps.drop 2) with
              srcCount := (s.next (compressSteps.drop 2)).srcCount + 1
              ports := ⟨src, (s.next (compressSteps.drop 2)).ports.snk,
                .srcByte b :: (s.next (compressSteps.drop 2)).ports.trace⟩ }).queueWhile l' :=
            fun e => ⟨l, latch, raiseError_queue (by rw [if_pos ho]; exact hheap)⟩
          split
          · exact raised _
          · split
            · exact raised _
            · refine ⟨l, latch, ?_⟩
              unfold State.queueWhile
              rw [if_pos ho]
              refine ⟨?_, .inr (.inl ⟨.inl rfl, hmin, hheap, hnodes⟩)⟩
              intro x hx
              rcases List.mem_cons.1 hx with rfl | hx
              · rfl
              · exact hhr x hx
        · refine ⟨l, latch, ?_⟩
          unfold State.queueWhile
          rw [if_pos ho]
          exact ⟨hhr, .inr (.inl ⟨.inr (.inl rfl), hmin, hheap, hnodes⟩)⟩
        · exact ⟨l, latch, raiseError_queue (by rw [if_pos ho]; exact hheap)⟩
      · refine ⟨l, latch, ?_⟩
        unfold State.queueWhile
        rw [if_pos ho]
        exact ⟨hhr, .inr (.inl ⟨.inr (.inr rfl), hmin, hheap, hnodes⟩)⟩
      · -- MakeLeaves
        have h1 := makeLeavesOf_queue symbols (s.next (compressSteps.drop 4)) cap
          (by show s.heap.length + symbols.length ≤ 128; rw [hheap, symbols_length]; decide) (by show s.nodes.length = s.heap.length; rw [hheap, hnodes]; rfl)
          ((congrArg Latch.mode hlatched).trans hmin) (by show heapOrdered .min s.heap; rw [hheap]; exact heapOrdered_nil _)
        have h2 := makeLeavesOf_frame symbols (s.next (compressSteps.drop 4))
        show (makeLeavesOf symbols (s.next (compressSteps.drop 4))).Meets _ _ _
        revert h1 h2
        cases makeLeavesOf symbols (s.next (compressSteps.drop 4)) with
        | go t =>
          rintro ⟨q1, q2, q3⟩ ⟨hp, nd, n, rfl⟩
          refine ⟨l, latch, ?_⟩
          unfold State.queueWhile
          rw [if_pos ho]
          exact ⟨hhr, .inr (.inr (.inl ⟨.inl rfl, hmin, q1, q2, q3⟩))⟩
        | raise e t => intro h; exact h.elim
        | wait => intros; trivial
        | stop f => intros; trivial
        | refuse r => intros; trivial
    · rw [todo] at hs
      rcases hs with hs | hs <;> obtain ⟨rfl, rfl⟩ := List.cons.inj hs
      · refine ⟨l, latch, ?_⟩
        unfold State.queueWhile
        rw [if_pos ho]
        exact ⟨hhr, .inr (.inr (.inl ⟨.inr rfl, hmin, hord, hlen, hnodes⟩))⟩
      · -- Build
        have h1 := buildTree_queue (s.next (compressSteps.drop 6)) cap hlen hnodes
        have h2 := buildTree_frame (s.next (compressSteps.drop 6))
        show (buildTree (s.next (compressSteps.drop 6))).Meets _ _ _
        revert h1 h2
        cases buildTree (s.next (compressSteps.drop 6)) with
        | go t =>
          rintro ⟨q1, q2⟩ ⟨hp, nd, n, r, rfl⟩
          refine ⟨l, latch, ?_⟩
          unfold State.queueWhile
          rw [if_pos ho]
          refine ⟨hhr, .inr (.inr (.inr ⟨?_, q1⟩))⟩
          show ∀ x ∈ compressSteps.drop 6, x.isTreeBuilding = false
          decide
        | raise e t => intro h; exact h.elim
        | wait => intros; trivial
        | stop f => intros; trivial
        | refuse r => intros; trivial
    · -- later steps of COMPRESS
      have hm1 : m.isHostQueue = false := hhost m (by rw [todo]; exact List.mem_cons_self)
      have hm2 : m.isTreeBuilding = false := hfree m (by rw [todo]; exact List.mem_cons_self)
      refine plain ?_ (by
        rw [if_pos ho]
        exact ⟨hhr, fun x hx => hfree x (by rw [todo]; exact List.mem_cons_of_mem _ hx), hheap⟩)
      cases m <;> first | rfl | exact Bool.noConfusion hm1 | exact Bool.noConfusion hm2
  · next ho =>
    obtain ⟨hfree, hmode, hord⟩ := h
    have hfr : ∀ x ∈ rest, x.isTreeBuilding = false := fun x hx => hfree x (by rw [todo]; exact List.mem_cons_of_mem _ hx)
    have hm2 : m.isTreeBuilding = false := hfree m (by rw [todo]; exact List.mem_cons_self)
    have changed : ∀ t : State, t.seq = (s.next rest).seq → t.pqMode = s.pqMode → heapOrdered s.pqMode t.heap →
        ∃ l', t.seq.latch = some l' ∧ t.queueWhile l' := fun t ht hp hh => by
      refine ⟨l, by rw [ht]; exact latch, ?_⟩
      unfold State.queueWhile
      rw [if_neg ho, hp, ht]
      exact ⟨hfr, hmode, hh⟩
    have raised : ∀ (e : ErrCode) (t : State), t.seq = (s.next rest).seq → t.pqMode = s.pqMode → heapOrdered s.pqMode t.heap →
        ∃ l', t.seq.latch = some l' ∧ (raiseError e t).queueWhile l' := fun e t ht hp hh =>
      ⟨l, by rw [ht]; exact latch, raiseError_queue (by rw [if_neg ho, hp]; exact ⟨hmode, hh⟩)⟩
    cases m with
    | pqPush =>
      refine push_meets.2 ?_
      split
      · exact raised _ _ rfl rfl hord
      · refine changed _ rfl rfl ?_
        show heapOrdered s.pqMode (heapPush (s.next rest).latched.mode _ s.heap)
        rw [hlatched, hmode]; exact heapPush_ordered hord _
    | pqPop =>
      unfold microStep
      dsimp only
      rw [withPop_meets]
      refine ⟨fun _ => raised _ _ rfl rfl hord, fun r others _ => changed _ rfl rfl ?_⟩
      show heapOrdered s.pqMode (heapPop (s.next rest).latched.mode s.heap)
      rw [hlatched, hmode]; exact heapPop_ordered hord
    | pqClear => exact changed _ rfl rfl (heapOrdered_nil _)
    | cInit => cases hm2
    | makeLeaves => cases hm2
    | build => cases hm2
    | fail _ _ _ => cases he
    | done => cases he
    | _ => exact plain rfl (by rw [if_neg ho]; exact ⟨hfr, hmode, hord⟩)

/-! ## The whole invariant -/

/-- MakeLeaves makes at most one node for each symbol. -/
theorem makeLeavesOf_arena (syms : List Byte) (s : State) :
    (makeLeavesOf syms s).Meets (fun t => t.nodes.length ≤ s.nodes.length + syms.length)
      (fun _ t => t.nodes.length ≤ s.nodes.length + syms.length) True := by
  induction syms generalizing s with
  | nil => exact Nat.le_refl _
  | cons sym rest ih =>
    rw [makeLeavesOf, Move.meets_andThen, List.length_cons]
    unfold makeLeaf
    split
    · exact (ih s).mono (fun t ht => by omega) (fun _ t ht => by omega) id
    · rw [withAlloc_meets]
      split
      · exact Nat.le_add_right _ _
      · rw [push_meets]
        have one : ∀ x : Node, (s.nodes ++ [x]).length = s.nodes.length + 1 := fun x => by simp
        split
        · show (s.nodes ++ [_]).length ≤ _; rw [one]; omega
        · refine (ih _).mono (fun t ht => ?_) (fun _ t ht => ?_) id
          · dsimp only at ht; rw [one] at ht; omega
          · dsimp only at ht; rw [one] at ht; omega

/-- The errors raised while the tree is built. -/
theorem makeLeavesOf_errors (syms : List Byte) (s : State) :
    (makeLeavesOf syms s).Meets (fun _ => True) (fun e _ => e ≠ .none) True := by
  induction syms generalizing s with
  | nil => trivial
  | cons sym rest ih =>
    rw [makeLeavesOf, Move.meets_andThen]
    unfold makeLeaf
    split
    · exact ih s
    · rw [withAlloc_meets]
      split
      · exact ErrCode.noConfusion
      · rw [push_meets]
        split
        · exact ErrCode.noConfusion
        · exact ih _

theorem mergeStep_errors (s : State) : (mergeStep s).Meets (fun _ => True) (fun e _ => e ≠ .none) True := by
  unfold mergeStep
  simp only [withPop_meets, withAlloc_meets, push_meets]
  refine ⟨fun _ => ErrCode.noConfusion, fun a as _ => ⟨fun _ => ErrCode.noConfusion, fun b bs _ => ?_⟩⟩
  split
  · exact ErrCode.noConfusion
  · split
    · exact ErrCode.noConfusion
    · trivial

theorem mergeLoop_errors (turns : Nat) (s : State) :
    (mergeLoop turns s).Meets (fun _ => True) (fun e _ => e ≠ .none) True := by
  induction turns generalizing s with
  | zero => trivial
  | succ turns ih =>
    rw [mergeLoop]
    split
    · exact (mergeStep_errors s).andThen fun t _ => ih t
    · trivial

/-- Every error raised has a code of R231; a step `raise` names its own. -/
theorem microStep_errors (m : Micro) (s : State) (he : m.endsCommand = false) (h : m.namesError) :
    (microStep m s).Meets (fun _ => True) (fun e _ => e ≠ .none) True := by
  cases m with
  | writeBit b => trivial
  | append b onFail =>
    refine appendByte_meets (fun _ => trivial) fun _ _ _ => ?_
    cases onFail
    · exact ErrCode.noConfusion
    · trivial
    · trivial
  | flush onFail => trivial
  | readBit =>
    exact readBit_meets (fun _ => trivial) (fun _ _ _ => trivial) (fun _ _ => ErrCode.noConfusion)
      (fun _ _ => ErrCode.noConfusion)
  | pqPush =>
    refine push_meets.2 ?_
    split
    · exact ErrCode.noConfusion
    · trivial
  | pqPop =>
    unfold microStep
    dsimp only
    exact withPop_meets.2 ⟨fun _ => ErrCode.noConfusion, fun _ _ _ => trivial⟩
  | pqTop =>
    unfold microStep
    dsimp only
    exact withTop_meets.2 ⟨fun _ => ErrCode.noConfusion, fun _ _ _ => trivial⟩
  | scan =>
    refine srcRead_meets (fun b src => ?_) (fun src => trivial) (fun src => ErrCode.noConfusion)
    dsimp only
    split
    · exact ErrCode.noConfusion
    · split
      · exact ErrCode.noConfusion
      · trivial
  | makeLeaves => exact makeLeavesOf_errors _ s
  | build =>
    unfold microStep buildTree
    dsimp only
    split
    · rw [withAlloc_meets]
      split
      · exact ErrCode.noConfusion
      · trivial
    · exact (mergeLoop_errors _ s).andThen fun t _ => withPop_meets.2 ⟨fun _ => ErrCode.noConfusion, fun _ _ _ => trivial⟩
  | serNode n => exact withNode_meets.2 ⟨fun _ => trivial, fun x _ => by cases x <;> trivial⟩
  | serReturn =>
    unfold microStep serReturn
    dsimp only
    split
    · trivial
    · exact withNode_meets.2 ⟨fun _ => trivial, fun x _ => by cases x <;> trivial⟩
    · trivial
  | payload i =>
    unfold microStep payloadStep
    dsimp only
    split
    · split <;> trivial
    · trivial
  | treeToken =>
    unfold microStep treeToken
    dsimp only
    split
    · exact ErrCode.noConfusion
    · split
      · trivial
      · rw [withAlloc_meets]
        split
        · exact ErrCode.noConfusion
        · trivial
  | treeLeaf =>
    unfold microStep treeLeaf
    dsimp only
    rw [withAlloc_meets]
    split
    · exact ErrCode.noConfusion
    · trivial
  | treeReturn n =>
    unfold microStep treeReturn
    dsimp only
    split
    · trivial
    · exact withNode_meets.2 ⟨fun _ => trivial, fun x _ => by split <;> trivial⟩
  | takeCount =>
    unfold microStep takeCount
    dsimp only
    split
    · exact ErrCode.noConfusion
    · trivial
  | walk n k => exact withNode_meets.2 ⟨fun _ => trivial, fun x _ => by cases x <;> trivial⟩
  | branch n k => exact withNode_meets.2 ⟨fun _ => trivial, fun x _ => by cases x <;> trivial⟩
  | raise e => exact h
  | fail _ _ _ => cases he
  | done => cases he
  | _ => trivial

/-- A state with the same parameters and a queue within PQ_CAP. -/
def State.sized (s t : State) : Prop := t.params = s.params ∧ t.heap.length ≤ s.params.pqCap

theorem push_size {e : Entry} {s t : State} (h : s.sized t) : (push e t).Meets s.sized (fun _ => s.sized) True := by
  rw [push_meets]
  split
  · exact h
  · next hc =>
    refine ⟨h.1, ?_⟩
    dsimp only
    rw [heapPush_length]
    have := congrArg Params.pqCap h.1
    omega

theorem withPop_size {s t : State} {f : Entry → State → Move} (h : s.sized t)
    (hf : ∀ e u, s.sized u → (f e u).Meets s.sized (fun _ => s.sized) True) :
    (withPop t f).Meets s.sized (fun _ => s.sized) True := by
  refine withPop_meets.2 ⟨fun _ => h, fun r rest hr => hf _ _ ⟨h.1, ?_⟩⟩
  dsimp only
  have := h.2
  rw [hr] at this ⊢
  rw [heapPop_length]
  exact Nat.le_of_succ_le this

theorem makeLeavesOf_size (syms : List Byte) {s t : State} (h : s.sized t) :
    (makeLeavesOf syms t).Meets s.sized (fun _ => s.sized) True := by
  induction syms generalizing t with
  | nil => exact h
  | cons sym rest ih =>
    rw [makeLeavesOf]
    refine Move.Meets.andThen (mid := s.sized) ?_ fun u hu => ih hu
    unfold makeLeaf
    split
    · exact h
    · rw [withAlloc_meets]
      split
      · exact h
      · exact push_size h

theorem mergeLoop_size (turns : Nat) {s t : State} (h : s.sized t) :
    (mergeLoop turns t).Meets s.sized (fun _ => s.sized) True := by
  induction turns generalizing t with
  | zero => exact h
  | succ turns ih =>
    rw [mergeLoop]
    split
    · refine Move.Meets.andThen (mid := s.sized) ?_ fun u hu => ih hu
      exact withPop_size h fun a u hu => withPop_size hu fun b v hv => by
        rw [withAlloc_meets]
        split
        · exact hv
        · exact push_size hv
    · exact h

/-- The queue's size (R52) after a step other than the last. -/
theorem microStep_size (m : Micro) (s : State) (he : m.endsCommand = false) (size : s.heap.length ≤ s.params.pqCap) :
    (microStep m s).Meets s.sized (fun _ => s.sized) True := by
  have h : s.sized s := ⟨rfl, size⟩
  have same : m.touches.contains .heap = false → (microStep m s).Meets s.sized (fun _ => s.sized) True := fun hm =>
    (microStep_frame m s he).mono (fun t ht => ⟨ht.params, by rw [ht.heap hm]; exact size⟩)
      (fun _ t ht => ⟨ht.params, by rw [ht.heap hm]; exact size⟩) id
  cases m with
  | pqPush => exact push_size h
  | pqPop => exact withPop_size (f := fun e s => .go (returnEntry e s)) h fun _ _ hu => hu
  | pqClear => exact ⟨rfl, Nat.zero_le _⟩
  | cInit => exact ⟨rfl, Nat.zero_le _⟩
  | makeLeaves => exact makeLeavesOf_size _ h
  | build =>
    unfold microStep buildTree
    dsimp only
    split
    · rw [withAlloc_meets]
      split
      · exact h
      · exact h
    · exact (mergeLoop_size _ h).andThen fun t ht => withPop_size ht fun _ _ hu => hu
  | fail _ _ _ => cases he
  | done => cases he
  | _ => exact same rfl

/-- The arena's bound (R51) after a step other than the last. -/
theorem microStep_arena {s : State} {l : Latch} {m : Micro} {rest : List Micro} (cap : 128 ≤ s.params.pqCap)
    (todo : s.seq.todo = m :: rest) (he : m.endsCommand = false) (h : s.queueWhile l) (arena : s.nodes.length ≤ Config.nodeCap) :
    (microStep m (s.next rest)).Meets (fun t => t.nodes.length ≤ Config.nodeCap)
      (fun _ t => t.nodes.length ≤ Config.nodeCap) True := by
  have same : m.touches.contains .nodes = false → (microStep m (s.next rest)).Meets
      (fun t => t.nodes.length ≤ Config.nodeCap) (fun _ t => t.nodes.length ≤ Config.nodeCap) True := fun hm =>
    (microStep_frame m (s.next rest) he).mono (fun t ht => by rw [ht.nodes hm]; exact arena)
      (fun _ t ht => by rw [ht.nodes hm]; exact arena) id
  have grown : ∀ x : Node, ¬ Config.nodeCap ≤ s.nodes.length → (s.nodes ++ [x]).length ≤ Config.nodeCap := fun x hx => by
    rw [List.length_append, List.length_singleton]; omega
  -- where COMPRESS builds the tree
  have phase : m = .makeLeaves ∨ m = .build → s.heap.length ≤ 128 ∧ s.nodes.length = s.heap.length ∧
      (m = .makeLeaves → s.heap = [] ∧ l.mode = .min) := by
    intro hm
    have htb : m.isTreeBuilding = true := by rcases hm with rfl | rfl <;> rfl
    have hmem : m ∈ s.seq.todo := by rw [todo]; exact List.mem_cons_self
    unfold State.queueWhile at h
    split at h
    · rcases h.2 with ⟨hs, _⟩ | ⟨_, h1, h2, h3⟩ | ⟨hs, _, _, h1, h2⟩ | ⟨hf, _⟩
      · rw [todo] at hs
        obtain ⟨rfl, -⟩ := List.cons.inj hs
        rcases hm with hm | hm <;> cases hm
      · exact ⟨by rw [h2]; exact Nat.zero_le _, by rw [h2, h3]; rfl, fun _ => ⟨h2, h1⟩⟩
      · refine ⟨h1, h2, fun hm => ?_⟩
        rw [todo] at hs
        rcases hs with hs | hs <;> obtain ⟨rfl, -⟩ := List.cons.inj hs <;> cases hm
      · rw [hf m hmem] at htb; cases htb
    · rw [h.1 m hmem] at htb; cases htb
  cases m with
  | cInit => exact Nat.zero_le _
  | dInit => exact Nat.zero_le _
  | release => exact Nat.zero_le _
  | makeLeaves =>
    obtain ⟨h1, h2, h3⟩ := phase (.inl rfl)
    have h4 := makeLeavesOf_arena symbols (s.next rest)
    exact h4.mono (fun t ht => by
      have : s.nodes.length = 0 := by rw [h2, (h3 rfl).1]; rfl
      have ht : t.nodes.length ≤ s.nodes.length + symbols.length := ht
      rw [symbols_length] at ht
      unfold Config.nodeCap; omega) (fun _ t ht => by
      have : s.nodes.length = 0 := by rw [h2, (h3 rfl).1]; rfl
      have ht : t.nodes.length ≤ s.nodes.length + symbols.length := ht
      rw [symbols_length] at ht
      unfold Config.nodeCap; omega) id
  | build =>
    obtain ⟨h1, h2, -⟩ := phase (.inr rfl)
    exact (buildTree_queue (s.next rest) cap h1 h2).mono (fun t ht => ht.2) (fun _ _ h => h.elim) id
  | treeToken =>
    unfold microStep treeToken
    dsimp only
    split
    · exact arena
    · split
      · exact arena
      · next hn _ => rw [withAlloc_meets, if_neg hn]; exact grown _ hn
  | treeLeaf =>
    unfold microStep treeLeaf
    dsimp only
    rw [withAlloc_meets]
    split
    · exact arena
    · next hn => exact grown _ hn
  | treeReturn n =>
    unfold microStep treeReturn
    dsimp only
    split
    · exact arena
    · refine withNode_meets.2 ⟨fun _ => trivial, fun x _ => ?_⟩
      split
      · show (List.set _ _ _).length ≤ _; rw [List.length_set]; exact arena
      · show (List.set _ _ _).length ≤ _; rw [List.length_set]; exact arena
  | fail _ _ _ => cases he
  | done => cases he
  | _ => exact same rfl

/-- After a step of a running command the invariant holds again, and so it does after a raise. -/
theorem microStep_blockInv {s : State} {m : Micro} {rest : List Micro} (inv : s.BlockInv) (todo : s.seq.todo = m :: rest) :
    (microStep m (s.next rest)).Meets State.BlockInv (fun e t => (raiseError e t).BlockInv) True := by
  have busy : s.busy = true := by
    cases hb : s.busy with
    | true => rfl
    | false => have := inv.idle hb; rw [this] at todo; cases todo
  have herr := inv.running busy
  have hreset : s.inReset = false := by
    cases hr : s.inReset with
    | false => rfl
    | true => rw [inv.held hr] at busy; cases busy
  obtain ⟨l, latch, hq⟩ := (State.queueInv_busy busy).1 inv.queueOrder
  have cap := inv.params.1
  have pend : m.namesError := inv.pending m (by rw [todo]; exact List.mem_cons_self)
  -- the queue at the end of a command
  have ends : (∀ x : Micro, x = m → x.endsCommand = true) → heapOrdered s.pqMode s.heap := fun he => by
    have he := he m rfl
    unfold State.queueWhile at hq
    split at hq
    · rcases hq.2 with ⟨hs, h⟩ | ⟨hs, _, h, _⟩ | ⟨hs, _⟩ | ⟨_, h⟩
      · exact h
      · rw [h]; exact heapOrdered_nil _
      · rw [todo] at hs
        rcases hs with hs | hs <;> obtain ⟨rfl, -⟩ := List.cons.inj hs <;> cases he
      · rw [h]; exact heapOrdered_nil _
    · exact hq.2.2
  by_cases he : m.endsCommand = false
  · have h1 := microStep_frame m (s.next rest) he
    have h2 := microStep_todo m (s.next rest) he
    have h3 := microStep_writer m (s.next rest) he inv.writer
    have h4 := microStep_reader m (s.next rest) he inv.reader
    have h5 := microStep_input m (s.next rest) he inv.params ⟨inv.inputLength, inv.input⟩
    have h6 := microStep_queue cap latch todo he hq
    have h7 := microStep_arena cap todo he hq inv.arena
    have h8 := microStep_size m (s.next rest) he inv.queueSize
    have h9 := microStep_errors m (s.next rest) he pend
    revert h1 h2 h3 h4 h5 h6 h7 h8 h9
    cases microStep m (s.next rest) with
    | go t =>
      intro h1 h2 h3 h4 h5 h6 h7 h8 _
      have hb : t.busy = true := h1.busy.trans busy
      exact
        { params := by rw [h1.params]; exact inv.params
          idle := fun h => by rw [hb] at h; cases h
          running := fun _ => h1.err.trans herr
          writer := h3
          reader := h4
          queueSize := by rw [h1.params]; exact h8.2
          queueOrder := (State.queueInv_busy hb).2 h6
          errors := by rw [h1.err, h1.errReg]; exact inv.errors
          pending := fun x hx => by
            rcases mem_todo h2 hx with hx | hx | rfl | rfl
            · exact (queue_free_of_inner hx).2.2
            · exact inv.pending x (by rw [todo]; exact List.mem_cons_of_mem _ hx)
            · trivial
            · exact ErrCode.noConfusion
          arena := h7
          inputLength := h5.inputLength
          input := h5.input
          held := fun h => by rw [h1.inReset] at h; exact absurd (h.symm.trans hreset) (by decide) }
    | raise e t =>
      intro h1 _ h3 h4 h5 h6 h7 h8 h9
      have hb : (raiseError e t).busy = true := h1.busy.trans busy
      exact
        { params := by rw [raiseError_params, h1.params]; exact inv.params
          idle := fun h => by rw [hb] at h; cases h
          running := fun _ => h1.err.trans herr
          writer := h3
          reader := h4
          queueSize := by rw [raiseError_params, h1.params]; exact h8.2
          queueOrder := (State.queueInv_busy hb).2 h6
          errors := by rw [raiseError_err, raiseError_errReg, h1.err, h1.errReg]; exact inv.errors
          pending := fun x hx => by
            rcases raiseError_todo e t hx with hx | rfl
            · exact (cleanup_free hx).2.2
            · exact h9
          arena := h7
          inputLength := h5.inputLength
          input := h5.input
          held := fun h => by rw [raiseError_inReset, h1.inReset] at h; exact absurd (h.symm.trans hreset) (by decide) }
    | wait => intros; trivial
    | stop f => intros; trivial
    | refuse r => intros; trivial
  · have he : m.endsCommand = true := by simpa using he
    have hord := ends (fun x hx => hx ▸ he)
    cases m with
    | fail e o p =>
      exact
        { params := inv.params
          idle := fun _ => rfl
          running := fun h => by cases h
          writer := inv.writer
          reader := inv.reader
          queueSize := inv.queueSize
          queueOrder := hord
          errors := by
            show true = false ↔ (⟨e, o, p⟩ : ErrReg) = .clear
            constructor
            · intro h; cases h
            · intro h; exact absurd (congrArg ErrReg.code h) pend
          pending := fun x hx => by cases hx
          arena := inv.arena
          inputLength := inv.inputLength
          input := inv.input
          held := fun _ => rfl }
    | done =>
      exact
        { params := inv.params
          idle := fun _ => rfl
          running := fun h => by cases h
          writer := inv.writer
          reader := inv.reader
          queueSize := inv.queueSize
          queueOrder := hord
          errors := inv.errors
          pending := fun x hx => by cases hx
          arena := inv.arena
          inputLength := inv.inputLength
          input := inv.input
          held := fun _ => rfl }
    | _ => cases he

end Sys2Proof.Machine
end

