-- ==== Sys2Proof/Laws/Arena.lean ====
section
/-! SUPPORT. The arena's invariant after one primitive step, and that no primitive step from a state of the two invariants
faults. -/

namespace Sys2Proof.Machine

/-! ## Growing the arena -/

/-- Every allocated entry stays allocated, and an internal one internal. -/
structure State.Grows (s t : State) : Prop where
  length : s.nodes.length ≤ t.nodes.length
  internal : ∀ n, s.isInternal n → t.isInternal n
  children : (∀ x ∈ s.nodes, x.below s.nodes.length) → ∀ x ∈ t.nodes, x.below t.nodes.length

theorem Node.below_mono {x : Node} {n k : Nat} (h : x.below n) (hk : n ≤ k) : x.below k := by
  cases x with
  | leaf _ _ => trivial
  | internal _ _ _ => exact ⟨Nat.lt_of_lt_of_le h.1 hk, Nat.lt_of_lt_of_le h.2 hk⟩

theorem State.Grows.same {s t : State} (h : t.nodes = s.nodes) : s.Grows t :=
  ⟨by rw [h], fun n hn => by unfold State.isInternal; rw [h]; exact hn, fun hc => by rw [h]; exact hc⟩

theorem State.Grows.trans {s t u : State} (h : s.Grows t) (h' : t.Grows u) : s.Grows u :=
  ⟨h.length.trans h'.length, fun n hn => h'.internal n (h.internal n hn), fun hc => h'.children (h.children hc)⟩

/-- A new entry whose children are allocated. -/
theorem State.Grows.append {s t : State} {x : Node} (h : t.nodes = s.nodes ++ [x]) (hx : x.below (s.nodes.length + 1)) :
    s.Grows t := by
  have hl : t.nodes.length = s.nodes.length + 1 := by rw [h]; simp
  refine ⟨by omega, fun n hn => ?_, fun hc y hy => ?_⟩
  · obtain ⟨f, l, r, hn⟩ := hn
    refine ⟨f, l, r, ?_⟩
    rw [h, List.getElem?_append_left (List.getElem?_eq_some_iff.1 hn).1]; exact hn
  · rw [hl]
    rw [h] at hy
    rcases List.mem_append.1 hy with hy | hy
    · exact Node.below_mono (hc y hy) (Nat.le_succ _)
    · rw [List.mem_singleton.1 hy]; exact hx

/-- A child written into an internal entry. -/
theorem State.Grows.set {s t : State} {p n : Byte} {right : Bool} {x : Node} (hx : s.nodes[p.toNat]? = some x)
    (h : t.nodes = s.nodes.set p.toNat (x.withChild right n)) (hn : n.toNat < s.nodes.length) : s.Grows t := by
  have hl : t.nodes.length = s.nodes.length := by rw [h, List.length_set]
  obtain ⟨hp, hxe⟩ := List.getElem?_eq_some_iff.1 hx
  refine ⟨hl.ge, fun k hk => ?_, fun hc y hy => ?_⟩
  · obtain ⟨f, l, r, hk⟩ := hk
    unfold State.isInternal
    rw [h, List.getElem?_set]
    split
    · next hpk =>
      rw [← hpk, hx] at hk
      cases hk
      cases right
      · exact ⟨_, _, _, rfl⟩
      · exact ⟨_, _, _, rfl⟩
    · exact ⟨f, l, r, hk⟩
  · rw [hl]
    rw [h] at hy
    rcases List.mem_or_eq_of_mem_set hy with hy | rfl
    · exact hc y hy
    · have hb := hc x (hxe ▸ List.getElem_mem hp)
      cases x with
      | leaf _ _ => trivial
      | internal _ l r =>
        cases right
        · exact ⟨hn, hb.2⟩
        · exact ⟨hb.1, hn⟩

theorem Micro.namesNode_grows {s t : State} {m : Micro} (h : m.namesNode s) (g : s.Grows t) : m.namesNode t := by
  cases m <;> first | trivial | exact Nat.lt_of_lt_of_le h g.length | exact g.internal _ h

/-! ## The tree under construction in COMPRESS -/

/-- The queue's tags and the nodes' children are allocated. -/
structure State.Tagged (s : State) : Prop where
  children : ∀ x ∈ s.nodes, x.below s.nodes.length
  tags : ∀ e ∈ s.heap, e.tag.toNat < s.nodes.length

theorem ofNat_toNat_lt {n : Nat} (h : n < Config.nodeCap) : (BitVec.ofNat 8 n).toNat = n := by
  unfold Config.nodeCap at h
  rw [BitVec.toNat_ofNat]; omega

theorem mem_heapPop {m : Mode} {h : List Entry} {e : Entry} (he : e ∈ heapPop m h) : e ∈ h := by
  cases h with
  | nil => cases he
  | cons r rest => exact List.mem_cons_of_mem _ ((heapPop_perm m r rest).mem_iff.1 he)

theorem mem_heapPush {m : Mode} {h : List Entry} {e x : Entry} (he : x ∈ heapPush m e h) : x = e ∨ x ∈ h :=
  List.mem_cons.1 ((heapPush_perm m e h).mem_iff.1 he)

/-- Alloc, then Push of an entry with the new node's index. -/
theorem alloc_push_tagged {s t : State} {n : Node} {key : Word} {tie : Byte}
    (hn : n.below s.nodes.length) (g : s.Grows t) (hl : t.nodes.length ≤ s.nodes.length) (ht : t.Tagged) :
    (withAlloc n t fun i u => push ⟨key, tie, i⟩ u).Meets (fun u => u.Tagged ∧ s.Grows u) (fun _ u => s.Grows u) True := by
  rw [withAlloc_meets]
  split
  · exact g
  · next hroom =>
    have hroom := Nat.lt_of_not_le hroom
    have hlen := Nat.le_antisymm hl g.length
    have gn : t.Grows { t with
        nodes := t.nodes ++ [n], treeNodes := BitVec.ofNat 32 (t.nodes.length + 1) } :=
      .append rfl (Node.below_mono hn (by omega))
    rw [push_meets]
    split
    · exact g.trans gn
    · refine ⟨⟨(gn.children ht.children), fun e he => ?_⟩, g.trans (gn.trans (.same rfl))⟩
      have hle : (t.nodes ++ [n]).length = t.nodes.length + 1 := by simp
      show e.tag.toNat < (t.nodes ++ [n]).length
      rw [hle]
      rcases mem_heapPush he with rfl | he
      · show (BitVec.ofNat 8 t.nodes.length).toNat < _
        rw [ofNat_toNat_lt hroom]; omega
      · have := ht.tags e he; omega

theorem makeLeavesOf_tagged (syms : List Byte) {s : State} (h : s.Tagged) :
    (makeLeavesOf syms s).Meets (fun t => t.Tagged ∧ s.Grows t) (fun _ t => s.Grows t) True := by
  induction syms generalizing s with
  | nil => exact ⟨h, .same rfl⟩
  | cons sym rest ih =>
    rw [makeLeavesOf, Move.meets_andThen]
    unfold makeLeaf
    split
    · exact ih h
    · refine (alloc_push_tagged (n := .leaf sym (s.tables.freqAt sym)) trivial (.same rfl) (Nat.le_refl _) h).mono
        (fun t ht => ?_) (fun _ _ h => h) id
      exact (ih ht.1).mono (fun u hu => ⟨hu.1, ht.2.trans hu.2⟩) (fun _ u hu => ht.2.trans hu) id

theorem popped_tagged {s : State} (h : s.Tagged) : ({ s with heap := heapPop s.latched.mode s.heap } : State).Tagged :=
  ⟨h.children, fun e he => h.tags e (mem_heapPop he)⟩

theorem mergeStep_tagged {s : State} (h : s.Tagged) :
    (mergeStep s).Meets (fun t => t.Tagged ∧ s.Grows t) (fun _ t => s.Grows t) True := by
  unfold mergeStep
  rw [withPop_meets]
  refine ⟨fun _ => .same rfl, fun a as ha => ?_⟩
  rw [withPop_meets]
  refine ⟨fun _ => .same rfl, fun b bs hb => ?_⟩
  refine alloc_push_tagged ?_ (.same rfl) (Nat.le_refl _) (popped_tagged (popped_tagged h))
  exact ⟨h.tags a (by rw [ha]; exact List.mem_cons_self),
    (popped_tagged h).tags b (by rw [hb]; exact List.mem_cons_self)⟩

theorem mergeLoop_tagged (turns : Nat) {s : State} (h : s.Tagged) :
    (mergeLoop turns s).Meets (fun t => t.Tagged ∧ s.Grows t) (fun _ t => s.Grows t) True := by
  induction turns generalizing s with
  | zero => exact ⟨h, .same rfl⟩
  | succ turns ih =>
    rw [mergeLoop]
    split
    · rw [Move.meets_andThen]
      exact (mergeStep_tagged h).mono
        (fun t ht => (ih ht.1).mono (fun u hu => ⟨hu.1, ht.2.trans hu.2⟩) (fun _ u hu => ht.2.trans hu) id) (fun _ _ h => h) id
    · exact ⟨h, .same rfl⟩

theorem buildTree_tagged {s : State} (h : s.Tagged) :
    (buildTree s).Meets (fun t => t.Tagged ∧ s.Grows t ∧ t.root.toNat < t.nodes.length) (fun _ t => s.Grows t) True := by
  unfold buildTree
  split
  · next hnil =>
    rw [withAlloc_meets]
    split
    · exact .same rfl
    · next hroom =>
      have hroom := Nat.lt_of_not_le hroom
      have g : s.Grows { s with
          nodes := s.nodes ++ [.leaf 0x00#8 0#32], treeNodes := BitVec.ofNat 32 (s.nodes.length + 1) } :=
        .append rfl trivial
      refine ⟨⟨g.children h.children, fun e he => ?_⟩, g.trans (.same rfl), ?_⟩
      · have he : e ∈ s.heap := he
        rw [hnil] at he; cases he
      · show (BitVec.ofNat 8 s.nodes.length).toNat < (s.nodes ++ [_]).length
        rw [ofNat_toNat_lt hroom]; simp
  · rw [Move.meets_andThen]
    refine (mergeLoop_tagged _ h).mono (fun t ht => ?_) (fun _ _ h => h) id
    rw [withPop_meets]
    refine ⟨fun _ => ht.2, fun r rest hr => ⟨⟨ht.1.children, fun e he => ht.1.tags e (mem_heapPop he)⟩, ht.2.trans (.same rfl), ?_⟩⟩
    exact ht.1.tags r (by rw [hr]; exact List.mem_cons_self)

/-! ## One primitive step -/

/-- CInit and DInit stand at the head of a command or nowhere. -/
theorem State.ArenaInv.no_start {s : State} {m : Micro} {rest : List Micro} (h : s.ArenaInv) (todo : s.seq.todo = m :: rest) :
    Micro.cInit ∉ rest ∧ Micro.dInit ∉ rest := by
  constructor
  · intro hc
    have := (h.start.1 (by rw [todo]; exact List.mem_cons_of_mem _ hc)).1
    rw [todo] at this
    obtain ⟨-, rfl⟩ := List.cons.inj this
    revert hc; decide
  · intro hd
    have := (h.start.2 (by rw [todo]; exact List.mem_cons_of_mem _ hd)).1
    rw [todo] at this
    obtain ⟨-, rfl⟩ := List.cons.inj this
    revert hd; decide

/-- What a step must do for the invariant to hold after it. -/
theorem State.ArenaInv.step {s t : State} {m : Micro} {rest new : List Micro} (h : s.ArenaInv) (todo : s.seq.todo = m :: rest)
    (todo' : t.seq.todo = new ++ rest) (grows : s.Grows t)
    (fresh : new.all (fun a => a.isInner && (!a.isTreeWalking || m.isTreeWalking) && (!a.usesStack || m.usesStack)) = true)
    (names : ∀ a ∈ new, a.namesNode t)
    (frames : (∀ f ∈ s.seq.stack, s.isInternal f.node) → ∀ f ∈ t.seq.stack, t.isInternal f.node)
    (order : new.Pairwise fun a b => a.isTreeWalking = true → b.isTreeReading = false)
    (root : (t.root = s.root ∧ (m.isTreeReading = false ∨ new.any Micro.isTreeReading = true)) ∨
      t.root.toNat < t.nodes.length)
    (built : m ≠ .build ∨ t.root.toNat < t.nodes.length)
    (tags : (t.heap = s.heap ∧ m ≠ .makeLeaves) ∨ (Micro.build ∈ rest → ∀ e ∈ t.heap, e.tag.toNat < t.nodes.length)) :
    t.ArenaInv := by
  have hfresh : ∀ a ∈ new, a.isInner = true ∧ (a.isTreeWalking = true → m.isTreeWalking = true) ∧
      (a.usesStack = true → m.usesStack = true) := fun a ha => by
    have := List.all_eq_true.1 fresh a ha
    simp only [Bool.and_eq_true, Bool.or_eq_true, Bool.not_eq_true'] at this
    exact ⟨this.1.1, fun hw => this.1.2.resolve_left (by simp [hw]), fun hw => this.2.resolve_left (by simp [hw])⟩
  have hord := h.order
  rw [todo] at hord
  obtain ⟨hm, hrest⟩ := List.pairwise_cons.1 hord
  have hmem : ∀ {x : Micro}, x ∈ rest → x ∈ s.seq.todo := fun hx => by rw [todo]; exact List.mem_cons_of_mem _ hx
  have hmm : m ∈ s.seq.todo := by rw [todo]; exact List.mem_cons_self
  have hnew : ∀ x : Micro, x.isInner = false → x ∈ t.seq.todo → x ∈ rest := fun x hx hxt => by
    rw [todo'] at hxt
    rcases List.mem_append.1 hxt with hxt | hxt
    · have := (hfresh x hxt).1; rw [hx] at this; cases this
    · exact hxt
  refine
    { children := grows.children h.children
      start := ⟨fun hc => absurd (hnew _ rfl hc) (h.no_start todo).1, fun hd => absurd (hnew _ rfl hd) (h.no_start todo).2⟩
      order := ?_, named := fun a ha => ?_, frames := fun hu => frames (h.frames ?_)
      rootBuilt := fun hs hb => ?_, rootRead := fun hw hr => ?_, tags := fun hb hl => ?_ }
  · rw [todo', List.pairwise_append]
    refine ⟨order.imp_of_mem fun {a b} ha hb hab => ⟨fun e => ?_, hab⟩, hrest, fun a ha b hb => ⟨fun e => ?_, fun hw => ?_⟩⟩
    · subst e; exact absurd (hfresh _ ha).1 (by decide)
    · subst e; exact absurd (hfresh _ ha).1 (by decide)
    · exact (hm b hb).2 ((hfresh a ha).2.1 hw)
  · rw [todo'] at ha
    rcases List.mem_append.1 ha with ha | ha
    · exact names a ha
    · exact Micro.namesNode_grows (h.named a (hmem ha)) grows
  · obtain ⟨x, hx, hxu⟩ := hu
    rw [todo'] at hx
    rcases List.mem_append.1 hx with hx | hx
    · exact ⟨m, hmm, (hfresh x hx).2.2 hxu⟩
    · exact ⟨x, hmem hx, hxu⟩
  · have hs' := hnew _ rfl hs
    rcases root with ⟨hroot, -⟩ | hroot
    · rcases built with hbm | hroot
      · rw [hroot]
        refine Nat.lt_of_lt_of_le (h.rootBuilt (hmem hs') fun hb' => ?_) grows.length
        rw [todo] at hb'
        rcases List.mem_cons.1 hb' with hb' | hb'
        · exact hbm hb'.symm
        · exact hb (by rw [todo']; exact List.mem_append_right _ hb')
      · exact hroot
    · exact hroot
  · rcases root with ⟨hroot, hread⟩ | hroot
    · rw [hroot]
      refine Nat.lt_of_lt_of_le (h.rootRead ?_ fun x hx => ?_) grows.length
      · obtain ⟨x, hx, hxw⟩ := hw
        rw [todo'] at hx
        rcases List.mem_append.1 hx with hx | hx
        · exact ⟨m, hmm, (hfresh x hx).2.1 hxw⟩
        · exact ⟨x, hmem hx, hxw⟩
      · rw [todo] at hx
        rcases List.mem_cons.1 hx with rfl | hx
        · rcases hread with hread | hread
          · exact hread
          · obtain ⟨y, hy, hyr⟩ := List.any_eq_true.1 hread
            have := hr y (by rw [todo']; exact List.mem_append_left _ hy)
            rw [hyr] at this; cases this
        · exact hr x (by rw [todo']; exact List.mem_append_right _ hx)
    · exact hroot
  · have hb' := hnew _ rfl hb
    rcases tags with ⟨hheap, hml⟩ | htags
    · rw [hheap]
      refine fun e he => Nat.lt_of_lt_of_le (h.tags (hmem hb') (fun hl' => ?_) e he) grows.length
      rw [todo] at hl'
      rcases List.mem_cons.1 hl' with hl' | hl'
      · exact hml hl'.symm
      · exact hl (by rw [todo']; exact List.mem_append_right _ hl')
    · exact htags hb'

/-- After a raise only the cleanup is left. -/
theorem raiseError_arenaInv {e : ErrCode} {s : State} (h : ∀ x ∈ s.nodes, x.below s.nodes.length) : (raiseError e s).ArenaInv := by
  have free : ∀ x ∈ (raiseError e s).seq.todo, x.usesArena = false ∧ x.usesStack = false ∧ x.isTreeWalking = false ∧
      x ≠ .cInit ∧ x ≠ .dInit ∧ x ≠ .serialize ∧ x ≠ .build ∧ x.namesNode (raiseError e s) := fun x hx => by
    rcases raiseError_todo e s hx with hx | rfl
    · simp only [cleanup, List.mem_cons, List.not_mem_nil, or_false] at hx
      rcases hx with rfl | rfl | rfl | rfl | rfl <;>
        exact ⟨rfl, rfl, rfl, Micro.noConfusion, Micro.noConfusion, Micro.noConfusion, Micro.noConfusion, trivial⟩
    · exact ⟨rfl, rfl, rfl, Micro.noConfusion, Micro.noConfusion, Micro.noConfusion, Micro.noConfusion, trivial⟩
  exact
    { children := h
      start := ⟨fun hc => absurd rfl (free _ hc).2.2.2.1, fun hd => absurd rfl (free _ hd).2.2.2.2.1⟩
      order := List.pairwise_of_forall_mem_list fun a ha b hb =>
        ⟨fun _ => (free b hb).1, fun hw => absurd ((free a ha).2.2.1.symm.trans hw) (by decide)⟩
      named := fun a ha => (free a ha).2.2.2.2.2.2.2
      frames := fun ⟨x, hx, hu⟩ => absurd ((free x hx).2.1.symm.trans hu) (by decide)
      rootBuilt := fun hs => absurd rfl (free _ hs).2.2.2.2.2.1
      rootRead := fun ⟨x, hx, hw⟩ => absurd ((free x hx).2.2.1.symm.trans hw) (by decide)
      tags := fun hb => absurd rfl (free _ hb).2.2.2.2.2.2.1 }

/-- With nothing left to run. -/
theorem arenaInv_of_idle {s : State} (h : ∀ x ∈ s.nodes, x.below s.nodes.length) (idle : s.seq = .idle) : s.ArenaInv := by
  have none : ∀ x : Micro, x ∉ s.seq.todo := fun x hx => by rw [idle] at hx; cases hx
  exact
    { children := h
      start := ⟨fun hc => absurd hc (none _), fun hd => absurd hd (none _)⟩
      order := by rw [idle]; exact .nil
      named := fun a ha => absurd ha (none _)
      frames := fun ⟨x, hx, _⟩ => absurd hx (none _)
      rootBuilt := fun hs => absurd hs (none _)
      rootRead := fun ⟨x, hx, _⟩ => absurd hx (none _)
      tags := fun hb => absurd hb (none _) }

/-- A decidable form of "names no node". -/
def Micro.namesNone : Micro → Bool
  | .serNode _ | .treeReturn _ | .walk _ _ | .branch _ _ => false
  | _ => true

theorem names_closed {s : State} (l : List Micro) (h : l.all Micro.namesNone = true) : ∀ a ∈ l, a.namesNode s := fun a ha => by
  have := List.all_eq_true.1 h a ha
  cases a <;> trivial

/-- The phase of COMPRESS that MakeLeaves runs in. -/
theorem makeLeaves_phase {s : State} {l : Latch} {rest : List Micro} (h : s.queueWhile l)
    (todo : s.seq.todo = .makeLeaves :: rest) : s.heap = [] ∧ s.nodes = [] := by
  have hmem : Micro.makeLeaves ∈ s.seq.todo := by rw [todo]; exact List.mem_cons_self
  unfold State.queueWhile at h
  split at h
  · rcases h.2 with ⟨hs, _⟩ | ⟨_, _, h2, h3⟩ | ⟨hs, _⟩ | ⟨hf, _⟩
    · rw [todo] at hs; cases (List.cons.inj hs).1
    · exact ⟨h2, h3⟩
    · rw [todo] at hs
      rcases hs with hs | hs <;> cases (List.cons.inj hs).1
    · exact absurd (hf _ hmem) (by decide)
  · exact absurd (h.1 _ hmem) (by decide)

/-- No leaf is made any more when Build runs. -/
theorem build_phase {s : State} {l : Latch} {rest : List Micro} (h : s.queueWhile l)
    (todo : s.seq.todo = .build :: rest) : Micro.makeLeaves ∉ s.seq.todo := by
  have hmem : Micro.build ∈ s.seq.todo := by rw [todo]; exact List.mem_cons_self
  unfold State.queueWhile at h
  split at h
  · rcases h.2 with ⟨hs, _⟩ | ⟨hs, _⟩ | ⟨hs, _⟩ | ⟨hf, _⟩
    · rw [todo] at hs; cases (List.cons.inj hs).1
    · rw [todo] at hs
      rcases hs with hs | hs | hs <;> cases (List.cons.inj hs).1
    · rcases hs with hs | hs <;> rw [hs] <;> decide
    · exact absurd (hf _ hmem) (by decide)
  · exact absurd (h.1 _ hmem) (by decide)

/-- No tree is built any more when the tree is serialized. -/
theorem serialize_phase {s : State} {l : Latch} {rest : List Micro} (h : s.queueWhile l)
    (todo : s.seq.todo = .serialize :: rest) : Micro.build ∉ s.seq.todo := by
  unfold State.queueWhile at h
  split at h
  · rcases h.2 with ⟨hs, _⟩ | ⟨hs, _⟩ | ⟨hs, _⟩ | ⟨hf, _⟩
    · rw [todo] at hs; cases (List.cons.inj hs).1
    · rw [todo] at hs
      rcases hs with hs | hs | hs <;> cases (List.cons.inj hs).1
    · rw [todo] at hs
      rcases hs with hs | hs <;> cases (List.cons.inj hs).1
    · exact fun hb => absurd (hf _ hb) (by decide)
  · exact fun hb => absurd (h.1 _ hb) (by decide)

/-- No tree is built after a step of a host queue command. -/
theorem host_no_build {s : State} {l : Latch} {m : Micro} {rest : List Micro} (h : s.queueWhile l)
    (todo : s.seq.todo = m :: rest) (hm : m.isHostQueue = true) : Micro.build ∉ rest := by
  unfold State.queueWhile at h
  split at h
  · exact absurd ((h.1 m (by rw [todo]; exact List.mem_cons_self)).symm.trans hm) (by decide)
  · exact fun hb => absurd (h.1 _ (by rw [todo]; exact List.mem_cons_of_mem _ hb)) (by decide)

/-- Building the tree reads no entry of the arena. -/
theorem makeLeavesOf_safe (syms : List Byte) (s : State) :
    (makeLeavesOf syms s).Meets (fun _ => True) (fun _ _ => True) False := by
  induction syms generalizing s with
  | nil => trivial
  | cons sym rest ih =>
    rw [makeLeavesOf, Move.meets_andThen]
    unfold makeLeaf
    split
    · exact ih s
    · rw [withAlloc_meets]
      split
      · trivial
      · rw [push_meets]
        split
        · trivial
        · exact ih _

theorem mergeLoop_safe (turns : Nat) (s : State) :
    (mergeLoop turns s).Meets (fun _ => True) (fun _ _ => True) False := by
  induction turns generalizing s with
  | zero => trivial
  | succ turns ih =>
    rw [mergeLoop]
    split
    · refine Move.Meets.andThen (mid := fun _ => True) ?_ fun t _ => ih t
      unfold mergeStep
      simp only [withPop_meets, withAlloc_meets, push_meets]
      refine ⟨fun _ => trivial, fun a as _ => ⟨fun _ => trivial, fun b bs _ => ?_⟩⟩
      split
      · trivial
      · split <;> trivial
    · trivial

theorem buildTree_safe (s : State) : (buildTree s).Meets (fun _ => True) (fun _ _ => True) False := by
  unfold buildTree
  split
  · rw [withAlloc_meets]
    split <;> trivial
  · exact (mergeLoop_safe _ s).andThen fun t _ => withPop_meets.2 ⟨fun _ => trivial, fun _ _ _ => trivial⟩

/-- After a step from a state of both invariants the arena's invariant holds again, and so it does after a raise; and no such
step faults. -/
theorem microStep_arenaInv {s : State} {m : Micro} {rest : List Micro} (inv : s.BlockInv) (h : s.ArenaInv)
    (todo : s.seq.todo = m :: rest) :
    (microStep m (s.next rest)).Meets State.ArenaInv (fun e t => (raiseError e t).ArenaInv) False := by
  have busy : s.busy = true := by
    cases hb : s.busy with
    | true => rfl
    | false => have := inv.idle hb; rw [this] at todo; cases todo
  obtain ⟨l, latch, hq⟩ := (State.queueInv_busy busy).1 inv.queueOrder
  have named : m.namesNode s := h.named m (by rw [todo]; exact List.mem_cons_self)
  have hframes : m.usesStack = true → ∀ f ∈ s.seq.stack, s.isInternal f.node := fun hu =>
    h.frames ⟨m, by rw [todo]; exact List.mem_cons_self, hu⟩
  have hord := h.order
  rw [todo] at hord
  obtain ⟨hm, hrest⟩ := List.pairwise_cons.1 hord
  -- a step that leaves the arena, ROOT, the queue and the stack alone
  have plain : ∀ (new : List Micro) (t : State), t.seq.todo = new ++ rest → t.nodes = s.nodes → t.root = s.root →
      t.heap = s.heap → t.seq.stack = s.seq.stack →
      new.all (fun a => a.isInner && (!a.isTreeWalking || m.isTreeWalking) && (!a.usesStack || m.usesStack)) = true →
      (∀ a ∈ new, a.namesNode s) → (new.Pairwise fun a b => a.isTreeWalking = true → b.isTreeReading = false) →
      (m.isTreeReading = false ∨ new.any Micro.isTreeReading = true) → m ≠ .build → m ≠ .makeLeaves → t.ArenaInv :=
    fun new t ht hn hr hh hst hf hna ho hrd hb hl =>
      h.step todo ht (.same hn) hf (fun a ha => Micro.namesNode_grows (hna a ha) (.same hn))
        (fun hfr f hf => by
          rw [hst] at hf
          exact (State.Grows.same hn).internal _ (hfr f hf))
        ho (.inl ⟨hr, hrd⟩) (.inl hb) (.inl ⟨hh, hl⟩)
  have raised : ∀ (e : ErrCode) (t : State), t.nodes = s.nodes → (raiseError e t).ArenaInv := fun e t hn =>
    raiseError_arenaInv (by rw [hn]; exact h.children)
  -- steps that write bits
  have bits : ∀ bs : List Bool, ((bs.map Micro.writeBit).all
      (fun a => a.isInner && (!a.isTreeWalking || m.isTreeWalking) && (!a.usesStack || m.usesStack))) = true := fun bs => by
    induction bs with
    | nil => rfl
    | cons b bs ih => rw [List.map_cons, List.all_cons, ih]; rfl
  have bitsNames : ∀ (bs : List Bool), ∀ a ∈ bs.map Micro.writeBit, a.namesNode s := fun bs a ha => by
    obtain ⟨b, -, rfl⟩ := List.mem_map.1 ha; trivial
  have bitsOrder : ∀ (bs : List Bool), (bs.map Micro.writeBit).Pairwise
      fun a b => a.isTreeWalking = true → b.isTreeReading = false := fun bs =>
    List.pairwise_of_forall_mem_list fun a ha b hb hw => by
      obtain ⟨b, -, rfl⟩ := List.mem_map.1 ha; cases hw
  cases m with
  | writeBit b =>
    unfold microStep writeBit
    dsimp only
    split
    · exact plain [_] _ rfl rfl rfl rfl rfl rfl (by simp [Micro.namesNode]) (by simp) (.inl rfl) Micro.noConfusion Micro.noConfusion
    · exact plain [] _ rfl rfl rfl rfl rfl rfl (by simp) (by simp) (.inl rfl) Micro.noConfusion Micro.noConfusion
  | append b onFail =>
    refine appendByte_meets (fun snk => ?_) ?_
    · exact plain [] _ rfl rfl rfl rfl rfl rfl (by simp) (by simp) (.inl rfl) Micro.noConfusion Micro.noConfusion
    · rintro snk _ rfl
      cases onFail
      · exact raised _ _ rfl
      · have free : ∀ x ∈ [Micro.snkClose, .raise .ioSnk], x.usesStack = false ∧ x.isTreeWalking = false ∧
            x ≠ .cInit ∧ x ≠ .dInit ∧ x ≠ .serialize ∧ x ≠ .build ∧ x ≠ .release := by decide
        exact
          { children := h.children
            start := ⟨fun hc => absurd rfl (free _ hc).2.2.1, fun hd => absurd rfl (free _ hd).2.2.2.1⟩
            order := List.pairwise_of_forall_mem_list fun a ha b hb =>
              ⟨fun e => absurd e (free a ha).2.2.2.2.2.2, fun hw => absurd ((free a ha).2.1.symm.trans hw) (by decide)⟩
            named := fun a ha => by
              have ha : a ∈ [Micro.snkClose, .raise .ioSnk] := ha
              simp only [List.mem_cons, List.not_mem_nil, or_false] at ha
              rcases ha with rfl | rfl <;> trivial
            frames := fun ⟨x, hx, hu⟩ => absurd ((free x hx).1.symm.trans hu) (by decide)
            rootBuilt := fun hs => absurd rfl (free _ hs).2.2.2.2.1
            rootRead := fun ⟨x, hx, hw⟩ => absurd ((free x hx).2.1.symm.trans hw) (by decide)
            tags := fun hb => absurd rfl (free _ hb).2.2.2.2.2.1 }
      · exact plain [] _ rfl rfl rfl rfl rfl rfl (by simp) (by simp) (.inl rfl) Micro.noConfusion Micro.noConfusion
  | flush onFail =>
    unfold microStep flush
    dsimp only
    split
    · exact plain [_] _ rfl rfl rfl rfl rfl rfl (by simp [Micro.namesNode]) (by simp) (.inl rfl) Micro.noConfusion Micro.noConfusion
    · exact plain [] _ rfl rfl rfl rfl rfl rfl (by simp) (by simp) (.inl rfl) Micro.noConfusion Micro.noConfusion
  | writeImmBit =>
    exact plain [_] _ rfl rfl rfl rfl rfl rfl (by simp [Micro.namesNode]) (by simp) (.inl rfl) Micro.noConfusion Micro.noConfusion
  | writeImmByte =>
    exact plain _ _ rfl rfl rfl rfl rfl (bits _) (bitsNames _) (bitsOrder _) (.inl rfl) Micro.noConfusion Micro.noConfusion
  | writeArg =>
    exact plain _ _ rfl rfl rfl rfl rfl (bits _) (bitsNames _) (bitsOrder _) (.inl rfl) Micro.noConfusion Micro.noConfusion
  | writeCount =>
    exact plain _ _ rfl rfl rfl rfl rfl (bits _) (bitsNames _) (bitsOrder _) (.inl rfl) Micro.noConfusion Micro.noConfusion
  | readBit =>
    refine readBit_meets (fun _ => ?_) (fun _ b src => ?_) (fun _ _ => raised _ _ rfl) (fun _ _ => raised _ _ rfl)
    · exact plain [] _ rfl rfl rfl rfl rfl rfl (by simp) (by simp) (.inl rfl) Micro.noConfusion Micro.noConfusion
    · exact plain [] _ rfl rfl rfl rfl rfl rfl (by simp) (by simp) (.inl rfl) Micro.noConfusion Micro.noConfusion
  | pqPush =>
    have hnb : Micro.build ∉ rest := host_no_build hq todo rfl
    refine push_meets.2 ?_
    split
    · exact raised _ _ rfl
    · exact h.step (new := []) todo rfl (.same rfl) rfl (by simp) (fun hf => hf) .nil (.inl ⟨rfl, .inl rfl⟩)
        (.inl Micro.noConfusion) (.inr fun hb => absurd hb hnb)
  | pqPop =>
    have hnb : Micro.build ∉ rest := host_no_build hq todo rfl
    unfold microStep
    dsimp only
    rw [withPop_meets]
    exact ⟨fun _ => raised _ _ rfl, fun _ _ _ =>
      h.step (new := []) todo rfl (.same rfl) rfl (by simp) (fun hf => hf) .nil (.inl ⟨rfl, .inl rfl⟩)
        (.inl Micro.noConfusion) (.inr fun hb => absurd hb hnb)⟩
  | pqTop =>
    unfold microStep
    dsimp only
    rw [withTop_meets]
    exact ⟨fun _ => raised _ _ rfl, fun _ _ _ =>
      plain [] _ rfl rfl rfl rfl rfl rfl (by simp) (by simp) (.inl rfl) Micro.noConfusion Micro.noConfusion⟩
  | pqClear =>
    exact h.step (new := []) todo rfl (.same rfl) rfl (by simp) (fun hf => hf) .nil (.inl ⟨rfl, .inl rfl⟩)
        (.inl Micro.noConfusion) (.inr fun _ e he => by cases he)
  | scan =>
    refine srcRead_meets (fun b src => ?_) (fun src => ?_) (fun src => raised _ _ rfl)
    · dsimp only
      split
      · exact raised _ _ rfl
      · split
        · exact raised _ _ rfl
        · exact plain [.scan] _ rfl rfl rfl rfl rfl rfl (by simp [Micro.namesNode]) (by simp) (.inl rfl) Micro.noConfusion Micro.noConfusion
    · exact plain [] _ rfl rfl rfl rfl rfl rfl (by simp) (by simp) (.inl rfl) Micro.noConfusion Micro.noConfusion
  | makeLeaves =>
    obtain ⟨hheap, -⟩ := makeLeaves_phase hq todo
    have ht : (s.next rest).Tagged := ⟨h.children, fun e he => by
      have he : e ∈ s.heap := he
      rw [hheap] at he; cases he⟩
    have h1 := makeLeavesOf_tagged symbols ht
    have h2 := makeLeavesOf_frame symbols (s.next rest)
    have h3 := makeLeavesOf_safe symbols (s.next rest)
    show (makeLeavesOf symbols (s.next rest)).Meets _ _ _
    revert h1 h2 h3
    cases makeLeavesOf symbols (s.next rest) with
    | go t =>
      rintro ⟨q1, q2⟩ ⟨hp, nd, n, rfl⟩ -
      exact h.step (new := []) todo rfl ⟨q2.length, q2.internal, q2.children⟩ rfl (by simp)
        (fun hf f hff => q2.internal _ (hf f hff)) .nil (.inl ⟨rfl, .inl rfl⟩) (.inl Micro.noConfusion) (.inr fun _ => q1.tags)
    | raise e t => intro h1 _ _; exact raiseError_arenaInv (h1.children h.children)
    | wait => intros; trivial
    | stop f => intro _ _ h3; exact h3
    | refuse r => intros; trivial
  | build =>
    have hml : Micro.makeLeaves ∉ s.seq.todo := build_phase hq todo
    have ht : (s.next rest).Tagged := ⟨h.children, h.tags (by rw [todo]; exact List.mem_cons_self) hml⟩
    have h1 := buildTree_tagged ht
    have h2 := buildTree_frame (s.next rest)
    have h3 := buildTree_safe (s.next rest)
    show (buildTree (s.next rest)).Meets _ _ _
    revert h1 h2 h3
    cases buildTree (s.next rest) with
    | go t =>
      rintro ⟨q1, q2, q3⟩ ⟨hp, nd, n, r, rfl⟩ -
      exact h.step (new := []) todo rfl ⟨q2.length, q2.internal, q2.children⟩ rfl (by simp)
        (fun hf f hff => q2.internal _ (hf f hff)) .nil (.inr q3) (.inr q3) (.inr fun _ => q1.tags)
    | raise e t => intro h1 _ _; exact raiseError_arenaInv (h1.children h.children)
    | wait => intros; trivial
    | stop f => intro _ _ h3; exact h3
    | refuse r => intros; trivial
  | cInit =>
    obtain ⟨hs, hst⟩ := h.start.1 (by rw [todo]; exact List.mem_cons_self)
    rw [todo] at hs
    obtain ⟨-, rfl⟩ := List.cons.inj hs
    exact
      { children := fun x hx => by cases hx
        start := ⟨fun hc => absurd hc (show Micro.cInit ∉ compressSteps.drop 1 by decide),
          fun hd => absurd hd (show Micro.dInit ∉ compressSteps.drop 1 by decide)⟩
        order := hrest
        named := fun a ha => names_closed (compressSteps.drop 1) (by decide) a ha
        frames := fun _ f hf => by
          have hf : f ∈ s.seq.stack := hf
          rw [hst] at hf; cases hf
        rootBuilt := fun _ hb => absurd (show Micro.build ∈ compressSteps.drop 1 by decide) hb
        rootRead := fun hw => absurd hw (show ¬ ∃ x ∈ compressSteps.drop 1, x.isTreeWalking = true by decide)
        tags := fun _ hl => absurd (show Micro.makeLeaves ∈ compressSteps.drop 1 by decide) hl }
  | dInit =>
    obtain ⟨hs, hst⟩ := h.start.2 (by rw [todo]; exact List.mem_cons_self)
    rw [todo] at hs
    obtain ⟨-, rfl⟩ := List.cons.inj hs
    exact
      { children := fun x hx => by cases hx
        start := ⟨fun hc => absurd hc (show Micro.cInit ∉ decompressSteps.drop 1 by decide),
          fun hd => absurd hd (show Micro.dInit ∉ decompressSteps.drop 1 by decide)⟩
        order := hrest
        named := fun a ha => names_closed (decompressSteps.drop 1) (by decide) a ha
        frames := fun _ f hf => by
          have hf : f ∈ s.seq.stack := hf
          rw [hst] at hf; cases hf
        rootBuilt := fun hs => absurd hs (show Micro.serialize ∉ decompressSteps.drop 1 by decide)
        rootRead := fun _ hr => absurd (hr .treeToken (show Micro.treeToken ∈ decompressSteps.drop 1 by decide)) (by decide)
        tags := fun hb => absurd hb (show Micro.build ∉ decompressSteps.drop 1 by decide) }
  | release =>
    have none : ∀ x ∈ rest, x.usesArena = false := fun x hx => (hm x hx).1 rfl
    have free : ∀ x ∈ rest, x.usesStack = false ∧ x.isTreeWalking = false ∧ x ≠ .build := fun x hx => by
      have := none x hx
      simp only [Micro.usesArena, Bool.or_eq_false_iff] at this
      exact ⟨this.1.1, this.1.2, by simpa using this.2.2⟩
    exact
      { children := fun x hx => by cases hx
        start := ⟨fun hc => absurd hc (h.no_start todo).1, fun hd => absurd hd (h.no_start todo).2⟩
        order := hrest
        named := fun a ha => by
          have := free a ha
          cases a <;> first | trivial | exact Bool.noConfusion this.1 | exact Bool.noConfusion this.2.1
        frames := fun ⟨x, hx, hu⟩ => absurd ((free x hx).1.symm.trans hu) (by decide)
        rootBuilt := fun hs => absurd (free _ hs).1 (by decide)
        rootRead := fun ⟨x, hx, hw⟩ => absurd ((free x hx).2.1.symm.trans hw) (by decide)
        tags := fun hb => absurd rfl (free _ hb).2.2 }
  | serialize =>
    have hb : Micro.build ∉ s.seq.todo := serialize_phase hq todo
    have hr := h.rootBuilt (by rw [todo]; exact List.mem_cons_self) hb
    exact plain [.serNode s.root] _ rfl rfl rfl rfl rfl rfl (by simpa [Micro.namesNode] using hr) (by simp) (.inl rfl)
      Micro.noConfusion Micro.noConfusion
  | serNode n =>
    refine withNode_meets.2 ⟨fun hn => ?_, fun x hx => ?_⟩
    · exact absurd (List.getElem?_eq_none_iff.1 hn) (Nat.not_le.2 named)
    · have hx : s.nodes[n.toNat]? = some x := hx
      obtain ⟨hlt, hxe⟩ := List.getElem?_eq_some_iff.1 hx
      have hbelow := h.children x (hxe ▸ List.getElem_mem hlt)
      cases x with
      | leaf sym f =>
        refine plain (.writeBit true :: (msbFirst sym).map .writeBit ++ [.recordCode sym, .serReturn]) _ rfl rfl rfl rfl rfl
          ?_ ?_ ?_ (.inl rfl) Micro.noConfusion Micro.noConfusion
        · have := bits (true :: msbFirst sym)
          rw [List.map_cons] at this
          rw [List.all_append, this]; rfl
        · intro a ha
          rcases List.mem_append.1 ha with ha | ha
          · exact bitsNames (true :: msbFirst sym) a ha
          · simp only [List.mem_cons, List.not_mem_nil, or_false] at ha
            rcases ha with rfl | rfl <;> trivial
        · refine List.pairwise_of_forall_mem_list fun a ha b hb hw => ?_
          rcases List.mem_append.1 ha with ha | ha
          · obtain ⟨b, -, rfl⟩ := List.mem_map.1 (show a ∈ (true :: msbFirst sym).map Micro.writeBit from ha); cases hw
          · simp only [List.mem_cons, List.not_mem_nil, or_false] at ha
            rcases ha with rfl | rfl <;> cases hw
      | internal f left right =>
        refine h.step (new := [.writeBit false, .serNode left]) todo rfl (.same rfl) rfl ?_ ?_ (by simp [Micro.isTreeWalking])
          (.inl ⟨rfl, .inl rfl⟩) (.inl Micro.noConfusion) (.inl ⟨rfl, Micro.noConfusion⟩)
        · intro a ha
          simp only [List.mem_cons, List.not_mem_nil, or_false] at ha
          rcases ha with rfl | rfl
          · trivial
          · exact hbelow.1
        · intro hf fr hfr
          rcases List.mem_cons.1 hfr with rfl | hfr
          · exact ⟨f, left, right, hx⟩
          · exact hf fr hfr
  | serReturn =>
    have hfr := hframes rfl
    unfold microStep serReturn
    dsimp only
    split
    · exact plain [] _ rfl rfl rfl rfl rfl rfl (by simp) (by simp) (.inl rfl) Micro.noConfusion Micro.noConfusion
    · next n others hstack =>
      have hstack : s.seq.stack = ⟨n, false⟩ :: others := hstack
      obtain ⟨f, left, right, hn⟩ := hfr ⟨n, false⟩ (by rw [hstack]; exact List.mem_cons_self)
      have hn : s.nodes[n.toNat]? = some (.internal f left right) := hn
      obtain ⟨hlt, hxe⟩ := List.getElem?_eq_some_iff.1 hn
      have hbelow := h.children _ (hxe ▸ List.getElem_mem hlt)
      rw [withNode_meets]
      refine ⟨fun hx => ?_, fun x hx => ?_⟩
      · have hx : s.nodes[n.toNat]? = none := hx
        rw [hn] at hx; cases hx
      · have hx : s.nodes[n.toNat]? = some x := hx
        rw [hn] at hx
        cases hx
        refine h.step (new := [.serNode right]) todo rfl (.same rfl) rfl ?_ ?_ (by simp)
          (.inl ⟨rfl, .inl rfl⟩) (.inl Micro.noConfusion) (.inl ⟨rfl, Micro.noConfusion⟩)
        · intro a ha
          rw [List.mem_singleton.1 ha]; exact hbelow.2
        · intro hf fr hfr
          rcases List.mem_cons.1 hfr with rfl | hfr
          · exact ⟨f, left, right, hn⟩
          · exact hf fr (by rw [hstack]; exact List.mem_cons_of_mem _ hfr)
    · next n others hstack =>
      have hstack : s.seq.stack = ⟨n, true⟩ :: others := hstack
      refine h.step (new := [.serReturn]) todo rfl (.same rfl) rfl (by simp [Micro.namesNode]) ?_ (by simp)
          (.inl ⟨rfl, .inl rfl⟩) (.inl Micro.noConfusion) (.inl ⟨rfl, Micro.noConfusion⟩)
      exact fun hf fr hfr => hf fr (by rw [hstack]; exact List.mem_cons_of_mem _ hfr)
  | payload i =>
    unfold microStep payloadStep
    dsimp only
    split
    · next hi =>
      split
      · next hn =>
        have := inv.input.2.2 i hi
        have hn : s.inbuf.read i = none := hn
        rw [hn] at this; cases this
      · next sym _ =>
        refine plain ((codePath ((s.next rest).tables.lenAt sym) ((s.next rest).tables.bitsAt sym)).map .writeBit ++ [.payload (i + 1)]) _
          rfl rfl rfl rfl rfl ?_ ?_ ?_ (.inl rfl) Micro.noConfusion Micro.noConfusion
        · rw [List.all_append, bits]; rfl
        · intro a ha
          rcases List.mem_append.1 ha with ha | ha
          · exact bitsNames _ a ha
          · rw [List.mem_singleton.1 ha]; trivial
        · refine List.pairwise_of_forall_mem_list fun a ha b hb hw => ?_
          rcases List.mem_append.1 ha with ha | ha
          · obtain ⟨b, -, rfl⟩ := List.mem_map.1 ha; cases hw
          · rw [List.mem_singleton.1 ha] at hw; cases hw
    · exact plain [] _ rfl rfl rfl rfl rfl rfl (by simp) (by simp) (.inl rfl) Micro.noConfusion Micro.noConfusion
  | treeToken =>
    unfold microStep treeToken
    dsimp only
    split
    · exact raised _ _ rfl
    · split
      · refine plain (readBits 8 ++ [.treeLeaf]) _ rfl rfl rfl rfl rfl rfl ?_ ?_ (.inr rfl) Micro.noConfusion Micro.noConfusion
        · exact fun a ha => names_closed _ (by decide) a ha
        · decide
      · next hroom _ =>
        have hroom := Nat.lt_of_not_le hroom
        have hroom : s.nodes.length < Config.nodeCap := hroom
        rw [withAlloc_meets, if_neg (show ¬ Config.nodeCap ≤ (s.next rest).nodes.length from Nat.not_le.2 hroom)]
        have g : s.Grows { s with nodes := s.nodes ++ [.internal 0#32 0#8 0#8] } :=
          .append rfl ⟨Nat.succ_pos _, Nat.succ_pos _⟩
        refine h.step (new := readToken) todo rfl ⟨g.length, g.internal, g.children⟩ rfl ?_ ?_ (by decide)
          (.inl ⟨rfl, .inr rfl⟩) (.inl Micro.noConfusion) (.inl ⟨rfl, Micro.noConfusion⟩)
        · exact fun a ha => names_closed _ (by decide) a ha
        · intro hf fr hfr
          rcases List.mem_cons.1 hfr with rfl | hfr
          · refine ⟨0#32, 0#8, 0#8, ?_⟩
            show (s.nodes ++ [_])[(BitVec.ofNat 8 s.nodes.length).toNat]? = _
            rw [ofNat_toNat_lt hroom]; simp
          · exact g.internal _ (hf fr hfr)
  | treeLeaf =>
    unfold microStep treeLeaf
    dsimp only
    rw [withAlloc_meets]
    split
    · exact raised _ _ rfl
    · next hroom =>
      have hroom : s.nodes.length < Config.nodeCap := Nat.lt_of_not_le hroom
      have g : s.Grows { s with nodes := s.nodes ++ [.leaf (s.seq.value.setWidth 8) 0#32] } := .append rfl trivial
      refine h.step (new := [.treeReturn (BitVec.ofNat 8 s.nodes.length)]) todo rfl ⟨g.length, g.internal, g.children⟩ rfl ?_
        (fun hf f hff => g.internal _ (hf f hff)) (by simp) (.inl ⟨rfl, .inr rfl⟩) (.inl Micro.noConfusion)
        (.inl ⟨rfl, Micro.noConfusion⟩)
      intro a ha
      rw [List.mem_singleton.1 ha]
      show (BitVec.ofNat 8 s.nodes.length).toNat < (s.nodes ++ [_]).length
      rw [ofNat_toNat_lt hroom]; simp
  | treeReturn n =>
    have hfr := hframes rfl
    unfold microStep treeReturn
    dsimp only
    split
    · exact h.step (new := []) todo rfl (.same rfl) rfl (by simp) (fun hf => hf) .nil (.inr named) (.inr named)
        (.inl ⟨rfl, Micro.noConfusion⟩)
    · next p right others hstack =>
      have hstack : s.seq.stack = ⟨p, right⟩ :: others := hstack
      obtain ⟨f, l, r, hp⟩ := hfr ⟨p, right⟩ (by rw [hstack]; exact List.mem_cons_self)
      have hp : s.nodes[p.toNat]? = some (.internal f l r) := hp
      have hlt := (List.getElem?_eq_some_iff.1 hp).1
      rw [withNode_meets]
      refine ⟨fun hx => ?_, fun x hx => ?_⟩
      · have hx : s.nodes[p.toNat]? = none := hx
        rw [hp] at hx; cases hx
      · have hx : s.nodes[p.toNat]? = some x := hx
        have g : s.Grows { s with nodes := s.nodes.set p.toNat (x.withChild right n) } := .set hx rfl named
        split
        · refine h.step (new := [.treeReturn p]) todo rfl ⟨g.length, g.internal, g.children⟩ rfl ?_ ?_ (by simp)
            (.inl ⟨rfl, .inr rfl⟩) (.inl Micro.noConfusion) (.inl ⟨rfl, Micro.noConfusion⟩)
          · intro a ha
            rw [List.mem_singleton.1 ha]
            exact Nat.lt_of_lt_of_le hlt g.length
          · exact fun hf fr hfr => g.internal _ (hf fr (by rw [hstack]; exact List.mem_cons_of_mem _ hfr))
        · refine h.step (new := readToken) todo rfl ⟨g.length, g.internal, g.children⟩ rfl ?_ ?_ (by decide)
            (.inl ⟨rfl, .inr rfl⟩) (.inl Micro.noConfusion) (.inl ⟨rfl, Micro.noConfusion⟩)
          · exact fun a ha => names_closed _ (by decide) a ha
          · intro hf fr hfr
            rcases List.mem_cons.1 hfr with rfl | hfr
            · exact g.internal _ ⟨f, l, r, hp⟩
            · exact g.internal _ (hf fr (by rw [hstack]; exact List.mem_cons_of_mem _ hfr))
  | takeCount =>
    unfold microStep takeCount
    dsimp only
    split
    · exact raised _ _ rfl
    · exact plain [_, .decode _] _ rfl rfl rfl rfl rfl rfl (by simp [Micro.namesNode]) (by simp [Micro.isTreeReading]) (.inl rfl)
        Micro.noConfusion Micro.noConfusion
  | decode k =>
    cases k with
    | zero => exact plain [] _ rfl rfl rfl rfl rfl rfl (by simp) (by simp) (.inl rfl) Micro.noConfusion Micro.noConfusion
    | succ k =>
      have hr := h.rootRead ⟨_, by rw [todo]; exact List.mem_cons_self, rfl⟩ (fun x hx => by
        rw [todo] at hx
        rcases List.mem_cons.1 hx with rfl | hx
        · rfl
        · exact (hm x hx).2 rfl)
      exact plain [.walk s.root k] _ rfl rfl rfl rfl rfl rfl (by simpa [Micro.namesNode] using hr) (by simp) (.inl rfl)
        Micro.noConfusion Micro.noConfusion
  | walk n k =>
    refine withNode_meets.2 ⟨fun hn => ?_, fun x hx => ?_⟩
    · exact absurd (List.getElem?_eq_none_iff.1 hn) (Nat.not_le.2 named)
    · have hx : s.nodes[n.toNat]? = some x := hx
      cases x with
      | leaf sym f =>
        exact plain [.append sym .raise, .decode k] _ rfl rfl rfl rfl rfl rfl (by simp [Micro.namesNode])
          (by simp [Micro.isTreeReading]) (.inl rfl) Micro.noConfusion Micro.noConfusion
      | internal f l r =>
        refine plain (readBits 1 ++ [.branch n k]) _ rfl rfl rfl rfl rfl rfl ?_ ?_ (.inl rfl) Micro.noConfusion Micro.noConfusion
        · intro a ha
          simp only [readBits, List.replicate_one, List.cons_append, List.nil_append, List.mem_cons, List.not_mem_nil,
            or_false] at ha
          rcases ha with rfl | rfl | rfl
          · trivial
          · trivial
          · exact ⟨f, l, r, hx⟩
        · simp [readBits, Micro.isTreeReading]
  | branch n k =>
    obtain ⟨f, l, r, hn⟩ := named
    have hn : s.nodes[n.toNat]? = some (.internal f l r) := hn
    obtain ⟨hlt, hxe⟩ := List.getElem?_eq_some_iff.1 hn
    have hbelow := h.children _ (hxe ▸ List.getElem_mem hlt)
    refine withNode_meets.2 ⟨fun hx => ?_, fun x hx => ?_⟩
    · have hx : s.nodes[n.toNat]? = none := hx
      rw [hn] at hx; cases hx
    · have hx : s.nodes[n.toNat]? = some x := hx
      rw [hn] at hx
      cases hx
      refine plain [.walk _ k] _ rfl rfl rfl rfl rfl rfl ?_ (by simp) (.inl rfl) Micro.noConfusion Micro.noConfusion
      intro a ha
      rw [List.mem_singleton.1 ha]
      show (if _ then r else l).toNat < s.nodes.length
      split
      · exact hbelow.2
      · exact hbelow.1
  | raise e => exact raised _ _ rfl
  | fail _ _ _ => exact arenaInv_of_idle h.children rfl
  | done => exact arenaInv_of_idle h.children rfl
  | _ => exact plain [] _ rfl rfl rfl rfl rfl rfl (by simp) (by simp) (.inl rfl) Micro.noConfusion Micro.noConfusion

end Sys2Proof.Machine
end

