-- ==== Sys2Proof/Laws/Bits.lean ====
section
/-! SUPPORT. Bit lists: the value of a list of bits shifted in one after the other, bytes as bits, and packing. -/

namespace Sys2Proof.Machine

open Sys2Proof.Artifact

theorem shiftIn_getLsbD {n : Nat} (v : BitVec n) (b : Bool) {i : Nat} (h : i < n) :
    (shiftIn v b).getLsbD i = if i = 0 then b else v.getLsbD (i - 1) := by
  unfold shiftIn bitVal
  rw [BitVec.getLsbD_or, BitVec.getLsbD_shiftLeft]
  have : 0 < n := by omega
  by_cases hi : i = 0
  · subst hi; cases b <;> simp [h]
  · cases b <;> simp [hi, h, show ¬ i < 1 by omega]

theorem foldl_shiftIn_getLsbD {n : Nat} (v : BitVec n) (bits : List Bool) {i : Nat} (h : i < n) :
    (bits.foldl shiftIn v).getLsbD i =
      if i < bits.length then bits[bits.length - 1 - i]?.getD false else v.getLsbD (i - bits.length) := by
  induction bits using List.reverseRecOn generalizing i with
  | nil => simp
  | append_singleton bits b ih =>
    rw [List.foldl_append, List.foldl_cons, List.foldl_nil, shiftIn_getLsbD _ _ h, List.length_append, List.length_singleton]
    by_cases hi : i = 0
    · subst hi; simp
    · rw [if_neg hi, ih (by omega)]
      by_cases hl : i - 1 < bits.length
      · rw [if_pos hl, if_pos (by omega), List.getElem?_append_left (by omega)]
        congr 2; omega
      · rw [if_neg hl, if_neg (by omega)]
        congr 1; omega

theorem msbFirst_length {n : Nat} (v : BitVec n) : (msbFirst v).length = n := by simp [msbFirst]

theorem msbFirst_get {n : Nat} (v : BitVec n) {i : Nat} (h : i < n) : (msbFirst v)[i]? = some (v.getLsbD (n - 1 - i)) := by
  simp [msbFirst, h]

/-- Shifting in the bits of a value gives the value. -/
theorem foldl_shiftIn_msbFirst {n k : Nat} (v : BitVec n) :
    (msbFirst v).foldl shiftIn (0#k) = v.setWidth k := by
  apply BitVec.eq_of_getLsbD_eq
  intro i hi
  rw [foldl_shiftIn_getLsbD _ _ hi, msbFirst_length, BitVec.getLsbD_setWidth]
  by_cases hn : i < n
  · rw [if_pos hn, msbFirst_get v (by omega)]
    simp [hi, show n - 1 - (n - 1 - i) = i by omega]
  · rw [if_neg hn, BitVec.getLsbD_of_ge v i (by omega)]; simp

/-- A stored code gives back its path. -/
theorem codePath_codeOfPath {path : List Bool} (h : path.length ≤ 127) :
    codePath (BitVec.ofNat 8 path.length) (codeOfPath path) = path := by
  have hl : (BitVec.ofNat 8 path.length).toNat = path.length := by
    rw [BitVec.toNat_ofNat]; omega
  unfold codePath codeOfPath
  rw [hl]
  apply List.ext_getElem?
  intro i
  by_cases hi : i < path.length
  · rw [List.getElem?_map, List.getElem?_range hi, Option.map_some, foldl_shiftIn_getLsbD _ _ (by omega),
      if_pos (by omega), show path.length - 1 - (path.length - 1 - i) = i by omega, List.getElem?_eq_getElem hi]
    simp
  · rw [List.getElem?_eq_none (by simp; omega), List.getElem?_eq_none (by omega)]

/-! ## Bytes as bits -/

theorem unpack_length (bs : List Byte) : (unpack bs).length = 8 * bs.length := by
  induction bs with
  | nil => rfl
  | cons b bs ih => simp only [unpack, List.flatMap_cons, List.length_append, List.length_cons, msbFirst_length] at *; omega

theorem unpack_append (as bs : List Byte) : unpack (as ++ bs) = unpack as ++ unpack bs := by simp [unpack]

/-- Bit `p` of a stream of bytes. -/
theorem unpack_get (bs : List Byte) {p : Nat} (h : p < 8 * bs.length) :
    (unpack bs)[p]? = (bs[p / 8]?).map (fun b => b.getLsbD (7 - p % 8)) := by
  induction bs generalizing p with
  | nil => simp at h
  | cons b bs ih =>
    rw [unpack, List.flatMap_cons]
    by_cases hp : p < 8
    · rw [List.getElem?_append_left (by rw [msbFirst_length]; exact hp), msbFirst_get b hp]
      simp [Nat.div_eq_of_lt hp, Nat.mod_eq_of_lt hp]
    · rw [List.getElem?_append_right (by rw [msbFirst_length]; omega), msbFirst_length]
      have := ih (p := p - 8) (by rw [List.length_cons] at h; omega)
      rw [unpack] at this
      rw [this, show p / 8 = (p - 8) / 8 + 1 by omega, List.getElem?_cons_succ, show (p - 8) % 8 = p % 8 by omega]

/-! ## Packing -/

theorem byteOf_getLsbD (bits : List Bool) {i : Nat} (h : i < 8) : (byteOf bits).getLsbD i = bits[7 - i]?.getD false := by
  have : byteOf bits = ((List.range 8).map fun i => bits[i]?.getD false).foldl shiftIn 0#8 := by
    unfold byteOf; rw [List.foldl_map]
  rw [this, foldl_shiftIn_getLsbD _ _ h]
  simp only [List.length_map, List.length_range, h, if_true]
  rw [List.getElem?_map, List.getElem?_range (by omega)]
  simp

theorem pack_length (bits : List Bool) : (pack bits).length = bytesFor bits.length := by simp [pack]

/-- The bits of a packed list: the list, zero-padded. -/
theorem unpack_pack_get (bits : List Bool) {p : Nat} (h : p < 8 * bytesFor bits.length) :
    (unpack (pack bits))[p]? = some (bits[p]?.getD false) := by
  rw [unpack_get _ (by rw [pack_length]; exact h)]
  have hq : p / 8 < bytesFor bits.length := by omega
  simp only [pack, List.getElem?_map, List.getElem?_range hq, Option.map_some]
  rw [byteOf_getLsbD _ (by omega), show 7 - (7 - p % 8) = p % 8 by omega]
  rw [List.getElem?_take]
  simp [show p % 8 < 8 by omega, show 8 * (p / 8) + p % 8 = p by omega]

/-- Packing loses no bit. -/
theorem prefix_unpack_pack (bits : List Bool) : bits <+: unpack (pack bits) := by
  rw [List.prefix_iff_eq_take]
  apply List.ext_getElem?
  intro p
  by_cases hp : p < bits.length
  · rw [List.getElem?_take, if_pos hp, unpack_pack_get bits (by unfold bytesFor; omega), List.getElem?_eq_getElem hp]
    rfl
  · rw [List.getElem?_eq_none (by omega), List.getElem?_eq_none (by simp; omega)]

end Sys2Proof.Machine
end

