-- ==== Sys2Proof/Laws/Follow.lean ====
section
/-! SUPPORT. Following a codec command: chains of primitive steps with the ports left open but for what the devices offer, so
that the chains compose; and the reader's and the writer's part of them. -/

namespace Sys2Proof.Machine

open Sys2Proof.Artifact

/-! ## Chains with open ports -/

/-- What the devices offer, and what the sink has taken. The sink accepts the next `room` bytes; where it is `full` then, it
refuses the one after them. -/
structure Wire where
  left : List SrcItem
  ended : Bool
  room : Nat
  full : Bool
  sunk : List Byte

structure Wire.of (w : Wire) (p : Ports) : Prop where
  src : p.src.holds w.left w.ended
  snk : 0 < w.room → p.snk.accepts w.room
  full : w.full = true → (p.snk.after w.room).refuses
  sunk : p.sunk = w.sunk

/-- The state with these ports. -/
def State.on (s : State) (p : Ports) : State := { s with ports := p }

/-- At most `n` primitive steps lead from `s` to `t`, whatever ports meet `w`, to ports that meet `w'`. -/
def Goes (n : Nat) (s : State) (w : Wire) (t : State) (w' : Wire) : Prop :=
  ∀ p, w.of p → ∃ k p', k ≤ n ∧ w'.of p' ∧ Reaches k (s.on p) (t.on p')

theorem Goes.refl (s : State) (w : Wire) : Goes 0 s w s w := fun p h => ⟨0, p, le_rfl, h, .refl _⟩

theorem Goes.trans {n m : Nat} {s t u : State} {w w' w'' : Wire} (h : Goes n s w t w') (h' : Goes m t w' u w'') :
    Goes (n + m) s w u w'' := by
  intro p hp
  obtain ⟨k, p', hk, hp', hr⟩ := h p hp
  obtain ⟨k', p'', hk', hp'', hr'⟩ := h' p' hp'
  exact ⟨k + k', p'', by omega, hp'', hr.trans hr'⟩

theorem Goes.mono {n m : Nat} {s t : State} {w w' : Wire} (h : Goes n s w t w') (hm : n ≤ m) : Goes m s w t w' := by
  intro p hp
  obtain ⟨k, p', hk, h⟩ := h p hp
  exact ⟨k, p', by omega, h⟩

/-- A step that leaves the ports alone. -/
theorem Goes.step {s t : State} {w : Wire} {m : Micro} {rest : List Micro} (todo : s.seq.todo = m :: rest)
    (step : ∀ p, microStep m ((s.next rest).on p) = .go (t.on p)) : Goes 1 s w t w :=
  fun p hp => ⟨1, p, le_rfl, hp, .one (rest := rest) (m := m) todo (step p)⟩

/-! ## The reader -/

/-- The reader cursor after `p` bits of the bytes, from an empty cursor. -/
def cursorAt (bs : List Byte) (p : Nat) : Cursor :=
  ⟨if p = 0 then 0#8 else bs[(p + 7) / 8 - 1]?.getD 0#8, BitVec.ofNat 4 (8 * ((p + 7) / 8) - p)⟩

/-- The reader after `p` bits of the bytes. -/
def State.readAt (s : State) (bs : List Byte) (p : Nat) : State :=
  { s with rd := cursorAt bs p, srcCount := BitVec.ofNat 32 ((p + 7) / 8) }

/-- The source after `p` bits of the bytes. -/
def Wire.readAt (w : Wire) (bs : List Byte) (items : List SrcItem) (p : Nat) : Wire :=
  { w with left := (bs.drop ((p + 7) / 8)).map .byte ++ items }

/-- The state with the steps still to run and the value being read. -/
def State.reads' (s : State) (v : Word) (rest : List Micro) : State := { s with seq := { s.seq with value := v, todo := rest } }

theorem Ports.sunk_giving {p : Ports} {bs : List Byte} {items : List SrcItem} {ended : Bool} :
    (p.giving bs items ended).sunk = p.sunk := by
  simp [Ports.giving, Ports.sunk, List.filterMap_append, List.filterMap_map]

theorem readBit_fetch {s : State} {b : Byte} {items : List SrcItem} {ended : Bool} (empty : s.rd.cnt = 0#4)
    (h : s.ports.src.holds (.byte b :: items) ended) :
    readBit s = .go (takeBit
      { s with rd := ⟨b, 8#4⟩, srcCount := s.srcCount + 1, ports := s.ports.giving [b] items ended }) := by
  unfold readBit; rw [if_pos empty, srcRead_byte h]; rfl

theorem readBit_buffered {s : State} (h : s.rd.cnt ≠ 0#4) : readBit s = .go (takeBit s) := by
  unfold readBit; rw [if_neg h]

theorem goes_readBit {s : State} {w : Wire} {bs : List Byte} {items : List SrcItem} {p : Nat} {v : Word} {rest : List Micro}
    (h : p < 8 * bs.length) :
    Goes 1 ((s.reads' v (.readBit :: rest)).readAt bs p) (w.readAt bs items p)
      ((s.reads' (shiftIn v ((unpack bs)[p]?.getD false)) rest).readAt bs (p + 1)) (w.readAt bs items (p + 1)) := by
  intro ports hw
  have bit := unpack_get bs h
  by_cases hp : p % 8 = 0
  · -- a byte is fetched
    have hq : (p + 7) / 8 = p / 8 := by omega
    have hq' : (p + 1 + 7) / 8 = p / 8 + 1 := by omega
    have hlt : p / 8 < bs.length := by omega
    have hleft : (w.readAt bs items p).left = .byte bs[p / 8] :: ((bs.drop (p / 8 + 1)).map .byte ++ items) := by
      simp only [Wire.readAt, hq, List.drop_eq_getElem_cons hlt, List.map_cons, List.cons_append]
    have hsrc := hw.src
    rw [hleft] at hsrc
    refine ⟨1, ports.giving [bs[p / 8]] ((bs.drop (p / 8 + 1)).map .byte ++ items) w.ended, le_rfl, ⟨?_, ?_, ?_, ?_⟩, ?_⟩
    · simp only [Wire.readAt, hq']; exact holds_giving hsrc
    · rw [giving_snk]; exact hw.snk
    · rw [giving_snk]; exact hw.full
    · rw [Ports.sunk_giving]; exact hw.sunk
    · refine .one (m := .readBit) (rest := rest) rfl ?_
      have hcnt : (cursorAt bs p).cnt = 0#4 := by
        simp only [cursorAt, hq, show 8 * (p / 8) - p = 0 by omega]
      refine (readBit_fetch (b := bs[p / 8]) (items := (bs.drop (p / 8 + 1)).map .byte ++ items) (ended := w.ended)
        hcnt hsrc).trans ?_
      simp only [takeBit, State.on, State.next, State.readAt, State.reads', Move.go.injEq, State.mk.injEq,
        and_true, true_and, cursorAt, hq, hq', Sequencer.mk.injEq, bit, List.getElem?_eq_getElem hlt, Option.map_some,
        Option.getD_some, show 8 * (p / 8 + 1) - (p + 1) = 7 by omega, hp]
      refine ⟨?_, ?_, ?_⟩
      · simp [List.getElem?_eq_getElem hlt]
      · simp [BitVec.ofNat_add]
      · simp
  · -- the bit is buffered
    have hq : (p + 7) / 8 = p / 8 + 1 := by omega
    have hq' : (p + 1 + 7) / 8 = p / 8 + 1 := by omega
    refine ⟨1, ports, le_rfl, ⟨?_, hw.snk, hw.full, hw.sunk⟩, ?_⟩
    · have := hw.src
      simpa only [Wire.readAt, hq, hq'] using this
    · refine .one (m := .readBit) (rest := rest) rfl ?_
      have hlt : p / 8 < bs.length := by omega
      have hcnt : (cursorAt bs p).cnt ≠ 0#4 := by
        intro hc
        have := congrArg BitVec.toNat hc
        simp only [cursorAt, hq, BitVec.toNat_ofNat] at this
        omega
      refine (readBit_buffered hcnt).trans ?_
      have hsub : (BitVec.ofNat 4 (8 * (p / 8 + 1) - p) - 1#4) = BitVec.ofNat 4 (8 * (p / 8 + 1) - (p + 1)) := by
        apply BitVec.eq_of_toNat_eq
        simp only [BitVec.toNat_sub, BitVec.toNat_ofNat]
        omega
      have hn : (BitVec.ofNat 4 (8 * (p / 8 + 1) - (p + 1))).toNat = 7 - p % 8 := by
        rw [BitVec.toNat_ofNat]; omega
      simp only [takeBit, State.on, State.next, State.readAt, State.reads', Move.go.injEq, State.mk.injEq,
        and_true, true_and, cursorAt, hq, hq', Sequencer.mk.injEq, bit, List.getElem?_eq_getElem hlt, Option.map_some,
        Option.getD_some, hsub, hn]
      simp [show p ≠ 0 by omega, List.getElem?_eq_getElem hlt]

/-- The value of a list of bits, the first one highest. -/
def valOf (bits : List Bool) : Word := bits.foldl shiftIn 0#32

theorem goes_readMany {s : State} {w : Wire} {bs : List Byte} {items : List SrcItem} (n : Nat) {p : Nat} {v : Word}
    {rest : List Micro} (h : p + n ≤ 8 * bs.length) :
    Goes n ((s.reads' v (List.replicate n .readBit ++ rest)).readAt bs p) (w.readAt bs items p)
      ((s.reads' ((((unpack bs).drop p).take n).foldl shiftIn v) rest).readAt bs (p + n)) (w.readAt bs items (p + n)) := by
  induction n generalizing p v with
  | zero => exact .refl _ _
  | succ n ih =>
    have h1 := goes_readBit (s := s) (w := w) (items := items) (v := v) (rest := List.replicate n .readBit ++ rest)
      (show p < 8 * bs.length by omega)
    have h2 := ih (p := p + 1) (v := shiftIn v ((unpack bs)[p]?.getD false)) (by omega)
    have hlt : p < (unpack bs).length := by rw [unpack_length]; omega
    rw [show p + 1 + n = p + (n + 1) by omega] at h2
    rw [List.drop_eq_getElem_cons hlt, List.take_succ_cons, List.foldl_cons]
    rw [List.getElem?_eq_getElem hlt] at h1 h2
    exact (h1.trans h2).mono (by omega)

/-- Reading `n` bits assembles their value. -/
theorem goes_readBits {s : State} {w : Wire} {bs : List Byte} {items : List SrcItem} (n : Nat) {p : Nat} {v : Word}
    {rest : List Micro} (h : p + n ≤ 8 * bs.length) :
    Goes (n + 1) ((s.reads' v (readBits n ++ rest)).readAt bs p) (w.readAt bs items p)
      ((s.reads' (valOf (((unpack bs).drop p).take n)) rest).readAt bs (p + n)) (w.readAt bs items (p + n)) := by
  have h1 : Goes 1 ((s.reads' v (readBits n ++ rest)).readAt bs p) (w.readAt bs items p)
      ((s.reads' 0#32 (List.replicate n .readBit ++ rest)).readAt bs p) (w.readAt bs items p) :=
    .step (m := .clearValue) (rest := List.replicate n .readBit ++ rest) rfl
      fun p' => by simp only [microStep, State.on, State.next, State.readAt, State.reads']
  exact (h1.trans (goes_readMany n h)).mono (by omega)

/-! ## Appends -/

/-- SNK_COUNT after `n` bytes. -/
def State.counted (s : State) (n : Nat) : State := { s with snkCount := BitVec.ofNat 32 n }

/-- The sink after it has taken bytes. -/
def Wire.gave (w : Wire) (room : Nat) (sunk : List Byte) : Wire := { w with room := room, sunk := sunk }

theorem Ports.sunk_taking (p : Ports) (bs : List Byte) : (p.taking bs).sunk = p.sunk ++ bs := by
  unfold Ports.taking Ports.sunk
  simp [List.filterMap_append, List.filterMap_map]

theorem appendByte_accepts {b : Byte} {onFail : SinkFail} {s : State} {n : Nat} (h : s.ports.snk.accepts (n + 1)) :
    appendByte b onFail s = .go { s with snkCount := s.snkCount + 1, ports := s.ports.taking [b] } := by
  unfold appendByte; rw [snkWrite_accepts h]; rfl

theorem appendByte_refuses {b : Byte} {s : State} (h : s.ports.snk.refuses) :
    ∃ p : Ports, p.sunk = s.ports.sunk ∧ appendByte b .raise s = .raise .ioSnk { s with ports := p } := by
  obtain ⟨snk, hs⟩ := snkWrite_refuses (b := b) h
  exact ⟨⟨s.ports.src, snk, .snkIoErr b :: s.ports.trace⟩, by simp [Ports.sunk], by unfold appendByte; rw [hs]; rfl⟩

/-- An append to a sink that accepts it. -/
theorem goes_append {s : State} {w : Wire} {b : Byte} {onFail : SinkFail} {rest : List Micro} {room n : Nat} {sunk : List Byte}
    (todo : s.seq.todo = .append b onFail :: rest) :
    Goes 1 (s.counted n) (w.gave (room + 1) sunk) ((s.next rest).counted (n + 1)) (w.gave room (sunk ++ [b])) := by
  intro p hp
  refine ⟨1, p.taking [b], le_rfl, ⟨hp.src,
    fun _ => accepts_taking [b] (by rw [List.length_singleton, Nat.add_comm]; exact hp.snk (Nat.succ_pos _)),
    fun h => ?_, ?_⟩, ?_⟩
  · have := hp.full h
    simpa only [Sink.after, Ports.taking, Wire.gave, List.length_singleton, List.drop_drop, Nat.add_comm] using this
  · rw [Ports.sunk_taking, hp.sunk]; rfl
  · refine .one (m := .append b onFail) (rest := rest) todo ?_
    refine (appendByte_accepts (b := b) (onFail := onFail) (s := (((s.counted n).on p).next rest))
      (hp.snk (Nat.succ_pos _))).trans ?_
    simp only [State.on, State.next, State.counted, BitVec.ofNat_add]
    rfl

/-! ## The end of a codec command -/

/-- The close of DECOMPRESS (R210). -/
def closeSteps : List Micro := [.dropReader, .srcClose, .snkClose, .release, .done]

/-- The ports after both close events. -/
def Ports.closed (p : Ports) : Ports :=
  { p with src := { p.src with current := none }, trace := .snkClose :: .srcClose :: p.trace }

/-- A codec command that has closed both streams and released the arena is over. -/
def State.closed (s : State) : State :=
  { s with rd := .empty, ports := s.ports.closed, nodes := [], intDone := true, busy := false, seq := .idle }

/-- The close of both codec commands once the reader is empty (R194, R210). -/
theorem reaches_closeTail {s : State} (todo : s.seq.todo = closeSteps.drop 1) (rd : s.rd = .empty) : Reaches 4 s s.closed := by
  refine .go (rest := [.snkClose, .release, .done]) (s' := srcClose (s.next [.snkClose, .release, .done])) todo rfl ?_
  refine .go (rest := [.release, .done]) (s' := { s.next [.release, .done] with ports := s.ports.closed }) rfl ?_ ?_
  · simp only [microStep, snkClose, srcClose, State.next, Ports.note, Ports.closed]
  refine .go (rest := [.done]) (s' := { s.next [.done] with ports := s.ports.closed, nodes := [] }) rfl ?_ ?_
  · simp only [microStep, State.next]
  refine .go (rest := []) (s' := s.closed) rfl ?_ (.refl _)
  simp only [microStep, completeCommand, State.next, State.closed, rd]

theorem reaches_close {s : State} (todo : s.seq.todo = closeSteps) : Reaches 5 s s.closed :=
  .go (rest := closeSteps.drop 1) (s' := dropReader (s.next (closeSteps.drop 1))) todo rfl
    (reaches_closeTail (s := dropReader (s.next (closeSteps.drop 1))) rfl rfl)

/-- An accepted command that is followed up to the close completes. -/
theorem command_of_goes {n : Nat} {i : Instr} {steps : List Micro} {s t : State} {w w' : Wire} (ready : s.ready)
    (wf : i.wellFormed = true) (ports : w.of s.ports) (h : Goes n (accept i steps s) w t w')
    (close : t.seq.todo = closeSteps ∨ (t.seq.todo = closeSteps.drop 1 ∧ t.rd = .empty)) (bound : n + 5 ≤ seqTurns) :
    ∃ p, w'.of p ∧ command i steps s = .next (t.on p).closed := by
  obtain ⟨k, p, hk, hp, hr⟩ := h s.ports ports
  refine ⟨p, hp, ?_⟩
  rw [command_ready ready wf]
  rcases close with close | ⟨close, rd⟩
  · exact settle_of_reaches rfl (hr.trans (reaches_close (s := t.on p) close)) (by omega) rfl
  · exact settle_of_reaches rfl (hr.trans (reaches_closeTail (s := t.on p) close rd)) (by omega) rfl

theorem Ports.sunk_closed (p : Ports) : p.closed.sunk = p.sunk := by simp [Ports.sunk, Ports.closed]

/-- A codec command that has failed and cleaned up is over (R234, R235). -/
def State.failed (s : State) (e : ErrCode) (opcode : Byte) (phase : Phase) : State :=
  { s with
    rd := .empty, ports := s.ports.closed, nodes := []
    errReg := ⟨e, opcode, phase⟩, err := true, intError := true, busy := false, seq := .idle }

/-- The cleanup of R235 with no pending bit, and step 4 of R234. -/
theorem reaches_cleanup {s : State} {e : ErrCode} {opcode : Byte} {phase : Phase} (wr : s.wr = .empty)
    (todo : s.seq.todo = cleanup ++ [.fail e opcode phase]) : Reaches 6 s (s.failed e opcode phase) := by
  refine .go (rest := [.dropReader, .srcClose, .snkClose, .release, .fail e opcode phase])
    (s' := s.next [.dropReader, .srcClose, .snkClose, .release, .fail e opcode phase]) todo ?_ ?_
  · simp only [microStep, flush, State.next, wr]; rfl
  refine .go (rest := [.srcClose, .snkClose, .release, .fail e opcode phase])
    (s' := dropReader (s.next [.srcClose, .snkClose, .release, .fail e opcode phase])) rfl rfl ?_
  refine .go (rest := [.snkClose, .release, .fail e opcode phase])
    (s' := srcClose ((dropReader (s.next [.snkClose, .release, .fail e opcode phase])))) rfl rfl ?_
  refine .go (rest := [.release, .fail e opcode phase])
    (s' := { s.next [.release, .fail e opcode phase] with rd := .empty, ports := s.ports.closed }) rfl ?_ ?_
  · simp only [microStep, snkClose, srcClose, dropReader, State.next, Ports.note, Ports.closed]
  refine .go (rest := [.fail e opcode phase])
    (s' := { s.next [.fail e opcode phase] with rd := .empty, ports := s.ports.closed, nodes := [] }) rfl ?_ ?_
  · simp only [microStep, State.next]
  refine .go (rest := []) (s' := s.failed e opcode phase) rfl ?_ (.refl _)
  simp only [microStep, failCommand, State.next, State.failed]

/-- An accepted codec command that is followed up to a step that raises fails (R234 to R236). -/
theorem command_of_raise {n : Nat} {i : Instr} {steps : List Micro} {s t t' : State} {w w' : Wire} {m : Micro}
    {rest : List Micro} {e : ErrCode} (ready : s.ready) (wf : i.wellFormed = true) (ports : w.of s.ports)
    (h : Goes n (accept i steps s) w t w') (todo : t.seq.todo = m :: rest)
    (raises : ∀ p, w'.of p → ∃ p', p'.sunk = p.sunk ∧ microStep m ((t.next rest).on p) = .raise e (t'.on p'))
    (codec : isCodec t'.latched.opcode = true) (wr : t'.wr = .empty) (bound : n + 7 ≤ seqTurns) :
    ∃ p : Ports, p.sunk = w'.sunk ∧ command i steps s = .next ((t'.on p).failed e t'.latched.opcode t'.seq.phase) := by
  obtain ⟨k, p, hk, hp, hr⟩ := h s.ports ports
  obtain ⟨p', hsunk, hstep⟩ := raises p hp
  refine ⟨p', hsunk.trans hp.sunk, ?_⟩
  rw [command_ready ready wf]
  have codec' : isCodec (t'.on p').latched.opcode = true := codec
  have hclean := reaches_cleanup (s := raiseError e (t'.on p')) (e := e) (opcode := t'.latched.opcode) (phase := t'.seq.phase) wr
    (by unfold raiseError; rw [codec']; rfl)
  exact settle_of_reaches rfl (hr.trans ((Reaches.oneRaise (s := t.on p) todo hstep).trans hclean)) (by omega) rfl

/-- An accepted codec command that is followed up to an append which the sink refuses fails (R120, R206). -/
theorem command_of_refused {n : Nat} {i : Instr} {steps : List Micro} {s t : State} {w w' : Wire} {b : Byte}
    {rest : List Micro} (ready : s.ready) (wf : i.wellFormed = true) (ports : w.of s.ports)
    (h : Goes n (accept i steps s) w t w') (todo : t.seq.todo = .append b .raise :: rest) (room : w'.room = 0)
    (full : w'.full = true) (codec : isCodec t.latched.opcode = true) (wr : t.wr = .empty) (bound : n + 7 ≤ seqTurns) :
    ∃ p : Ports, p.sunk = w'.sunk ∧
      command i steps s = .next (((t.next rest).on p).failed .ioSnk t.latched.opcode t.seq.phase) := by
  refine command_of_raise (m := .append b .raise) (rest := rest) (t' := t.next rest) ready wf ports h todo (fun p hp => ?_) codec wr
    bound
  have refuses := hp.full full
  rw [room] at refuses
  exact appendByte_refuses (s := (t.next rest).on p) refuses

/-! ## Trees in the arena -/

/-- The entry `n` of the arena is the root of a tree. -/
def HasTree (nodes : List Node) : Byte → Artifact.Tree → Prop
  | n, .leaf sym => ∃ freq, nodes[n.toNat]? = some (.leaf sym freq)
  | n, .node l r =>
    ∃ freq a b, nodes[n.toNat]? = some (.internal freq a b) ∧ HasTree nodes a l ∧ HasTree nodes b r

/-- No path leads further down a tree than it has internal nodes. -/
theorem walk_length {t : Artifact.Tree} {path : List Bool} {sym : Byte} (h : t.walk path = some sym) :
    2 * path.length + 1 ≤ t.size := by
  induction t generalizing path with
  | leaf x =>
    cases path with
    | nil => simp [Artifact.Tree.size]
    | cons b path => simp [Artifact.Tree.walk] at h
  | node l r ihl ihr =>
    cases path with
    | nil => simp [Artifact.Tree.walk] at h
    | cons b path =>
      have hl : 1 ≤ l.size := by cases l <;> simp [Artifact.Tree.size]
      have hr : 1 ≤ r.size := by cases r <;> simp [Artifact.Tree.size]
      simp only [Artifact.Tree.size, List.length_cons]
      cases b with
      | true => have := ihr (path := path) (by simpa [Artifact.Tree.walk] using h); omega
      | false => have := ihl (path := path) (by simpa [Artifact.Tree.walk] using h); omega

end Sys2Proof.Machine
end

