-- ==== Sys2Proof/Laws/Build.lean ====
section
/-! SUPPORT. The tree of COMPRESS: the queue and the arena hold the trees that the greedy merges of the artifact make (R184 to
R188). -/

namespace Sys2Proof.Machine

open Sys2Proof.Artifact

/-! ## The first item -/

theorem Item.before_asymm {a b : Item} (h : a.before b = true) : b.before a = false := by
  unfold Item.before at *
  simp only [Bool.or_eq_true, decide_eq_true_eq, Bool.and_eq_true, beq_iff_eq, Bool.or_eq_false_iff, decide_eq_false_iff_not,
    Bool.and_eq_false_iff, beq_eq_false_iff_ne] at *
  omega

theorem Item.before_not_trans {a b c : Item} (h : b.before a = false) (h' : c.before b = false) : c.before a = false := by
  unfold Item.before at *
  simp only [Bool.or_eq_false_iff, decide_eq_false_iff_not, Bool.and_eq_false_iff, beq_eq_false_iff_ne] at *
  omega

theorem Item.before_total {a b : Item} (h : a.tie ≠ b.tie) (h' : b.before a = false) : a.before b = true := by
  unfold Item.before at *
  simp only [Bool.or_eq_true, decide_eq_true_eq, Bool.and_eq_true, beq_iff_eq, Bool.or_eq_false_iff, decide_eq_false_iff_not,
    Bool.and_eq_false_iff, beq_eq_false_iff_ne] at *
  omega

theorem takeFirst_none {items : List Item} (h : takeFirst items = none) : items = [] := by
  cases items with
  | nil => rfl
  | cons x xs =>
    rw [takeFirst] at h
    split at h
    · cases h
    · split at h <;> cases h

/-- The item taken stands somewhere in the list, no other comes before it, and the others keep their order. -/
theorem takeFirst_some {items rest : List Item} {a : Item} (h : takeFirst items = some (a, rest)) :
    ∃ pre post, items = pre ++ a :: post ∧ rest = pre ++ post ∧ ∀ b ∈ rest, b.before a = false := by
  induction items generalizing a rest with
  | nil => cases h
  | cons x xs ih =>
    rw [takeFirst] at h
    split at h
    · next hn =>
      cases h
      exact ⟨[], xs, rfl, (takeFirst_none hn).symm, by simp⟩
    · next y ys hy =>
      obtain ⟨pre, post, hxs, hys, hmin⟩ := ih hy
      split at h
      · next hb =>
        cases h
        refine ⟨x :: pre, post, by simp [hxs], by simp [hys], fun b hm => ?_⟩
        rcases List.mem_cons.1 hm with rfl | hm
        · exact Item.before_asymm hb
        · exact hmin b hm
      · next hb =>
        cases h
        refine ⟨[], xs, rfl, rfl, fun b hm => ?_⟩
        have hyx : y.before x = false := by simpa using hb
        rw [hxs] at hm
        rcases List.mem_append.1 hm with hm | hm
        · exact Item.before_not_trans hyx (hmin b (by rw [hys]; exact List.mem_append_left _ hm))
        · rcases List.mem_cons.1 hm with e | hm
          · rw [e]; exact hyx
          · exact Item.before_not_trans hyx (hmin b (by rw [hys]; exact List.mem_append_right _ hm))

/-! ## Entries and items -/

/-- An entry of the queue holds an item: its key, its tie, and the tree its tag names. -/
structure Rep (nodes : List Node) (e : Entry) (i : Item) : Prop where
  key : e.key.toNat = i.freq
  tie : e.tie.toNat = i.tie
  tree : HasTree nodes e.tag i.tree

theorem HasTree.mono {nodes : List Node} (more : List Node) {t : Artifact.Tree} : ∀ {n : Byte},
    HasTree nodes n t → HasTree (nodes ++ more) n t := by
  have keep : ∀ {k : Nat} {x : Node}, nodes[k]? = some x → (nodes ++ more)[k]? = some x := fun {k} {x} h => by
    rw [List.getElem?_append_left (List.getElem?_eq_some_iff.1 h).1, h]
  induction t with
  | leaf sym => rintro n ⟨f, h⟩; exact ⟨f, keep h⟩
  | node l r ihl ihr => rintro n ⟨f, a, b, h, hl, hr⟩; exact ⟨f, a, b, keep h, ihl hl, ihr hr⟩

theorem Rep.mono {nodes : List Node} (more : List Node) {e : Entry} {i : Item} (h : Rep nodes e i) : Rep (nodes ++ more) e i :=
  ⟨h.key, h.tie, h.tree.mono more⟩

theorem Rep.before {nodes : List Node} {e e' : Entry} {a b : Item} (h : Rep nodes e a) (h' : Rep nodes e' b) :
    entryBefore .min e e' = a.before b := by
  unfold entryBefore Item.before
  simp only [BitVec.ult, h.key, h'.key, h.tie, h'.tie]
  congr 2
  rw [Bool.eq_iff_iff, beq_iff_eq, beq_iff_eq, ← BitVec.toNat_inj, h.key, h'.key]

/-- The queue, in heap order, holds the items, and no two ties are equal (R185). -/
structure Stands (nodes : List Node) (heap : List Entry) (items : List Item) : Prop where
  ordered : heapOrdered .min heap
  pairs : ∃ l : List Entry, heap.Perm l ∧ List.Forall₂ (Rep nodes) l items
  ties : items.Pairwise fun a b => a.tie ≠ b.tie

theorem Stands.length {nodes : List Node} {heap : List Entry} {items : List Item} (h : Stands nodes heap items) :
    heap.length = items.length := by
  obtain ⟨l, hp, hf⟩ := h.pairs
  rw [hp.length_eq, hf.length_eq]

theorem heapBefore_of_get {m : Mode} {h : List Entry} {i j : Nat} {a b : Entry} (ha : h[i]? = some a) (hb : h[j]? = some b) :
    heapBefore m h i j = entryBefore m a b := by unfold heapBefore; rw [ha, hb]

/-- Popping takes the first item (R151, R156). -/
theorem Stands.pop {nodes : List Node} {heap : List Entry} {items rest : List Item} {a : Item} (h : Stands nodes heap items)
    (ht : takeFirst items = some (a, rest)) :
    ∃ e others, heap = e :: others ∧ Rep nodes e a ∧ Stands nodes (heapPop .min heap) rest := by
  obtain ⟨pre, post, rfl, rfl, hmin⟩ := takeFirst_some ht
  obtain ⟨l, hp, hf⟩ := h.pairs
  obtain ⟨l1, l2', hf1, hf2', rfl⟩ : ∃ l1 l2, List.Forall₂ (Rep nodes) l1 pre ∧ List.Forall₂ (Rep nodes) l2 (a :: post) ∧
      l = l1 ++ l2 := by
    exact ⟨_, _, List.forall₂_take_append _ _ _ hf, List.forall₂_drop_append _ _ _ hf, (List.take_append_drop _ _).symm⟩
  obtain ⟨e, l2, he, hf2, rfl⟩ := List.forall₂_cons_right_iff.1 hf2'
  cases heap with
  | nil => have := hp.length_eq; simp at this
  | cons r others =>
    have hr : r ∈ l1 ++ e :: l2 := hp.mem_iff.1 (List.mem_cons_self ..)
    have first : ∀ x ∈ r :: others, entryBefore .min x r = false := by
      intro x hx
      obtain ⟨i, hi⟩ := List.mem_iff_getElem?.1 hx
      rw [← heapBefore_of_get hi (j := 0) rfl]
      exact root_first h.ordered i
    have he' : e ∈ r :: others := hp.mem_iff.2 (by simp)
    have hre : r = e := by
      rcases List.mem_append.1 hr with hm | hm
      · exfalso
        obtain ⟨b, hb, hrb⟩ : ∃ b ∈ pre, Rep nodes r b := by
          obtain ⟨i, hi⟩ := List.mem_iff_getElem.1 hm
          obtain ⟨hi, rfl⟩ := hi
          have hi' : i < pre.length := hf1.length_eq ▸ hi
          exact ⟨pre[i], List.getElem_mem _, (List.forall₂_iff_get.1 hf1).2 i hi hi'⟩
        have hne : a.tie ≠ b.tie := fun heq =>
          (List.pairwise_append.1 h.ties).2.2 b hb a (List.mem_cons_self ..) heq.symm
        have := Item.before_total hne (hmin b (List.mem_append_left _ hb))
        rw [← he.before hrb, first e he'] at this
        cases this
      · rcases List.mem_cons.1 hm with hm | hm
        · exact hm
        · exfalso
          obtain ⟨b, hb, hrb⟩ : ∃ b ∈ post, Rep nodes r b := by
            obtain ⟨i, hi⟩ := List.mem_iff_getElem.1 hm
            obtain ⟨hi, rfl⟩ := hi
            have hi' : i < post.length := hf2.length_eq ▸ hi
            exact ⟨post[i], List.getElem_mem _, (List.forall₂_iff_get.1 hf2).2 i hi hi'⟩
          have hne : a.tie ≠ b.tie := (List.pairwise_cons.1 (List.pairwise_append.1 h.ties).2.1).1 b hb
          have := Item.before_total hne (hmin b (List.mem_append_right _ hb))
          rw [← he.before hrb, first e he'] at this
          cases this
    subst hre
    have hrest : others.Perm (l1 ++ l2) := (hp.trans List.perm_middle).cons_inv
    refine ⟨r, others, rfl, he, heapPop_ordered h.ordered, ⟨l1 ++ l2, (heapPop_perm _ _ _).trans hrest, ?_⟩, ?_⟩
    · exact List.rel_append hf1 hf2
    · exact h.ties.sublist (List.Sublist.append_left (List.sublist_cons_self ..) _)

/-- Pushing adds an item (R155). -/
theorem Stands.push {nodes : List Node} {heap : List Entry} {items : List Item} {e : Entry} {i : Item} (more : List Node)
    (h : Stands nodes heap items) (he : Rep (nodes ++ more) e i) (fresh : ∀ b ∈ items, i.tie ≠ b.tie) :
    Stands (nodes ++ more) (heapPush .min e heap) (i :: items) := by
  obtain ⟨l, hp, hf⟩ := h.pairs
  exact ⟨heapPush_ordered h.ordered e, ⟨e :: l, (heapPush_perm _ _ _).trans (hp.cons e),
    .cons he (hf.imp fun _ _ h => h.mono more)⟩, List.pairwise_cons.2 ⟨fresh, h.ties⟩⟩

theorem Stands.perm {nodes : List Node} {heap : List Entry} {items items' : List Item} (h : Stands nodes heap items)
    (hp : items.Perm items') : Stands nodes heap items' := by
  obtain ⟨l, hl, hf⟩ := h.pairs
  obtain ⟨l', hf', hp'⟩ := List.perm_comp_forall₂ hp.symm hf.flip
  exact ⟨h.ordered, ⟨l', hl.trans hp'.symm, hf'.flip⟩, hp.pairwise h.ties fun h => h.symm⟩

/-! ## The leaves (R184) -/

/-- The arena and the queue, TREE_NODES counting the arena. -/
def State.built (s : State) (nodes : List Node) (heap : List Entry) : State :=
  { s with nodes := nodes, treeNodes := BitVec.ofNat 32 nodes.length, heap := heap }

/-- The leaves of some symbols. -/
def leavesOf (xs syms : List Byte) : List Item :=
  (syms.filter fun sym => occurrences xs sym != 0).map fun sym => ⟨occurrences xs sym, sym.toNat, .leaf sym⟩

theorem leavesOf_symbols (xs : List Byte) : leavesOf xs symbols = leafItems xs := rfl

section
variable {s : State} (cap : 128 ≤ s.params.pqCap) (mode : s.latched.mode = .min)
include cap mode

theorem makeLeaf_go {nodes : List Node} {heap : List Entry} {sym : Byte} {freq : Word} (hf : s.tables.freqAt sym = freq)
    (some : freq ≠ 0#32) (room : nodes.length < 255) (fits : heap.length < 128) :
    makeLeaf sym (s.built nodes heap) =
      .go (s.built (nodes ++ [.leaf sym freq]) (heapPush .min ⟨freq, sym, BitVec.ofNat 8 nodes.length⟩ heap)) := by
  unfold makeLeaf
  simp only [State.built, hf]
  rw [if_neg some, withAlloc_room (show nodes.length < Config.nodeCap from room)]
  dsimp only
  rw [push_room (show heap.length < s.params.pqCap by omega)]
  have : s.latched.mode = .min := mode
  unfold State.latched at *
  dsimp only
  rw [this, List.length_append, List.length_singleton, hf]

end

/-- The queue has room for 128 entries and is in MIN mode. -/
structure State.Builds (s : State) : Prop where
  cap : 128 ≤ s.params.pqCap
  mode : s.latched.mode = .min

/-- MakeLeaves: for every symbol that occurs a leaf in the arena and its entry in the queue, the same whatever the rest of the
state. -/
theorem makeLeavesOf_stands {xs : List Byte} (small : xs.length < 4294967296) (syms : List Byte) :
    ∀ {nodes : List Node} {heap : List Entry} {items : List Item}, Stands nodes heap items →
    nodes.length = items.length → items.length + syms.length ≤ 128 → (∀ sym ∈ syms, sym.toNat < 128) →
    syms.Nodup → (∀ sym ∈ syms, ∀ b ∈ items, b.tie ≠ sym.toNat) →
    ∃ nodes' heap',
      (∀ s : State, s.Builds →
        (∀ sym : Byte, sym.toNat < 128 → s.tables.freqAt sym = BitVec.ofNat 32 (occurrences xs sym)) →
        makeLeavesOf syms (s.built nodes heap) = .go (s.built nodes' heap')) ∧
      Stands nodes' heap' (items ++ leavesOf xs syms) ∧ nodes'.length = (items ++ leavesOf xs syms).length := by
  induction syms with
  | nil =>
    intro nodes heap items h hn _ _ _ _
    exact ⟨nodes, heap, fun _ _ _ => rfl, by simpa [leavesOf] using h, by simpa [leavesOf] using hn⟩
  | cons sym syms ih =>
    intro nodes heap items h hn hlen hsyms hnodup hfresh
    simp only [List.length_cons] at hlen
    have hsym := hsyms sym (List.mem_cons_self ..)
    have hocc : occurrences xs sym < 4294967296 := lt_of_le_of_lt List.count_le_length small
    obtain ⟨hnot, hnodup⟩ := List.nodup_cons.1 hnodup
    by_cases hz : occurrences xs sym = 0
    · obtain ⟨nodes', heap', hgo, hst, hl⟩ := ih h hn (by omega) (fun x hx => hsyms x (List.mem_cons_of_mem _ hx)) hnodup
        (fun x hx => hfresh x (List.mem_cons_of_mem _ hx))
      refine ⟨nodes', heap', fun s hb counts => ?_, by simpa [leavesOf, hz] using hst, by simpa [leavesOf, hz] using hl⟩
      have : makeLeaf sym (s.built nodes heap) = .go (s.built nodes heap) := by
        unfold makeLeaf
        rw [if_pos (by show s.tables.freqAt sym = _; rw [counts sym hsym, hz])]
      rw [makeLeavesOf, this]
      exact hgo s hb counts
    · have hne : BitVec.ofNat 32 (occurrences xs sym) ≠ 0#32 := by
        intro e
        have := congrArg BitVec.toNat e
        simp only [BitVec.toNat_ofNat] at this
        omega
      have hheap := h.length
      have hrep : Rep (nodes ++ [.leaf sym (BitVec.ofNat 32 (occurrences xs sym))])
          ⟨BitVec.ofNat 32 (occurrences xs sym), sym, BitVec.ofNat 8 nodes.length⟩
          ⟨occurrences xs sym, sym.toNat, .leaf sym⟩ := by
        refine ⟨?_, rfl, BitVec.ofNat 32 (occurrences xs sym), ?_⟩
        · show (BitVec.ofNat 32 (occurrences xs sym)).toNat = occurrences xs sym
          rw [BitVec.toNat_ofNat]; omega
        · have : (BitVec.ofNat 8 nodes.length).toNat = nodes.length := by rw [BitVec.toNat_ofNat]; omega
          simp [this]
      have hst := (h.push _ hrep fun b hb => (hfresh sym (List.mem_cons_self ..) b hb).symm).perm
        (items' := items ++ [⟨occurrences xs sym, sym.toNat, .leaf sym⟩]) (List.perm_append_singleton _ _).symm
      obtain ⟨nodes', heap', hgo, hst', hl⟩ := ih hst (by simp [hn]) (by simp; omega)
        (fun x hx => hsyms x (List.mem_cons_of_mem _ hx)) hnodup (by
          intro x hx b hb
          rcases List.mem_append.1 hb with hb | hb
          · exact hfresh x (List.mem_cons_of_mem _ hx) b hb
          · simp only [List.mem_singleton] at hb
            subst hb
            intro e
            exact hnot ((BitVec.eq_of_toNat_eq e) ▸ hx))
      refine ⟨nodes', heap', fun s hb counts => ?_, by simpa [leavesOf, hz] using hst', by simpa [leavesOf, hz] using hl⟩
      rw [makeLeavesOf, makeLeaf_go hb.cap hb.mode (counts sym hsym) hne (by omega) (by omega)]
      exact hgo s hb counts

section
variable {s : State} (cap : 128 ≤ s.params.pqCap) (mode : s.latched.mode = .min)
include cap mode

/-! ## The merges (R186) -/

theorem mergeStep_go {nodes : List Node} {heap others : List Entry} {a b : Entry} (ha : heap = a :: others)
    {others' : List Entry} (hb : heapPop .min heap = b :: others') (room : nodes.length < 255) (fits : heap.length ≤ 128) :
    mergeStep (s.built nodes heap) =
      .go (s.built (nodes ++ [.internal (a.key + b.key) a.tag b.tag])
        (heapPush .min ⟨a.key + b.key, minTie a.tie b.tie, BitVec.ofNat 8 nodes.length⟩ (heapPop .min (heapPop .min heap)))) := by
  have hlen : (heapPop .min (heapPop .min heap)).length < 128 := by
    have h1 : (heapPop .min heap).length = others.length := by rw [ha]; exact (heapPop_perm _ _ _).length_eq
    have h2 : (heapPop .min (heapPop .min heap)).length = others'.length := by
      rw [hb]; exact (heapPop_perm _ _ _).length_eq
    have h3 : heap.length = others.length + 1 := by rw [ha]; rfl
    have h4 : (heapPop .min heap).length = others'.length + 1 := by rw [hb]; rfl
    omega
  unfold mergeStep
  have e1 : (s.built nodes heap).latched.mode = .min := mode
  rw [withPop_cons (show (s.built nodes heap).heap = _ from ha), e1]
  simp only [State.built]
  rw [withPop_cons (show heapPop .min heap = _ from hb)]
  have e2 : ({ s with nodes := nodes, treeNodes := BitVec.ofNat 32 nodes.length, heap := heapPop .min heap } :
    State).latched.mode = .min := mode
  rw [e2, withAlloc_room (show nodes.length < Config.nodeCap from room)]
  dsimp only
  rw [push_room (by show _ < s.params.pqCap; exact lt_of_lt_of_le hlen cap)]
  have e3 : ({ s with
    nodes := nodes ++ [.internal (a.key + b.key) a.tag b.tag]
    treeNodes := BitVec.ofNat 32 (nodes.length + 1)
    heap := heapPop .min (heapPop .min heap) } : State).latched.mode = .min := mode
  rw [e3, List.length_append, List.length_singleton]

end

/-- The counts that the merges keep: no more nodes than the arena holds, and no sum that does not fit. -/
structure Fits (nodes : List Node) (items : List Item) : Prop where
  room : nodes.length + items.length ≤ 256
  size : nodes.length = (items.map fun i => i.tree.size).sum
  freq : (items.map Item.freq).sum < 4294967296

theorem minTie_toNat (a b : Byte) : (minTie a b).toNat = min a.toNat b.toNat := by
  unfold minTie BitVec.ult
  by_cases h : a.toNat < b.toNat
  · simp [h]; omega
  · simp [h]; omega

/-- The merges, the same whatever the rest of the state. -/
theorem mergeLoop_stands : ∀ (turns : Nat) {nodes : List Node} {heap : List Entry} {items : List Item},
    Stands nodes heap items → Fits nodes items → items ≠ [] → items.length ≤ 128 → items.length ≤ turns + 1 →
    ∃ nodes' heap' item,
      (∀ s : State, s.Builds → mergeLoop turns (s.built nodes heap) = .go (s.built nodes' heap')) ∧
      mergeAll turns items = [item] ∧ Stands nodes' heap' [item] ∧ Fits nodes' [item] := by
  intro turns
  induction turns with
  | zero =>
    intro nodes heap items h hf hne _ hlen
    obtain ⟨item, rfl⟩ : ∃ i, items = [i] := by
      match items, hne, hlen with
      | [i], _, _ => exact ⟨i, rfl⟩
    exact ⟨nodes, heap, item, fun _ _ => rfl, rfl, h, hf⟩
  | succ turns ih =>
    intro nodes heap items h hf hne h128 hlen
    have hheap := h.length
    cases ht : takeFirst items with
    | none => exact absurd (takeFirst_none ht) hne
    | some x =>
      obtain ⟨a, rest⟩ := x
      obtain ⟨pre, post, hi, hr, _⟩ := takeFirst_some ht
      have hl : items.length = rest.length + 1 := by rw [hi, hr]; simp; omega
      obtain ⟨e, others, he, hrep, hst⟩ := h.pop ht
      cases ht' : takeFirst rest with
      | none =>
        have hr0 := takeFirst_none ht'
        subst hr0
        have : items = [a] := by
          rw [hi]
          obtain ⟨rfl, rfl⟩ := List.append_eq_nil_iff.1 hr.symm
          rfl
        subst this
        refine ⟨nodes, heap, a, fun s _ => ?_, rfl, h, hf⟩
        rw [mergeLoop, if_neg (by show ¬ 1 < heap.length; rw [hheap]; simp)]
      | some y =>
        obtain ⟨b, rest'⟩ := y
        obtain ⟨pre', post', hi', hr', _⟩ := takeFirst_some ht'
        have hl' : rest.length = rest'.length + 1 := by rw [hi', hr']; simp; omega
        obtain ⟨e', others', he', hrep', hst'⟩ := hst.pop ht'
        have hperm : items.Perm (a :: b :: rest') := by
          rw [hi]
          refine List.perm_middle.trans (.cons a ?_)
          rw [← hr, hi', hr']
          exact List.perm_middle
        have hroom := hf.room
        have hsum := hf.freq
        rw [(hperm.map Item.freq).sum_eq] at hsum
        simp only [List.map_cons, List.sum_cons] at hsum
        have hsize := hf.size
        rw [(hperm.map fun i => i.tree.size).sum_eq] at hsize
        simp only [List.map_cons, List.sum_cons] at hsize
        have hties := (hperm.pairwise h.ties fun h => h.symm)
        have hta := List.pairwise_cons.1 hties
        have htb := List.pairwise_cons.1 hta.2
        have hrep2 : Rep (nodes ++ [.internal (e.key + e'.key) e.tag e'.tag])
            ⟨e.key + e'.key, minTie e.tie e'.tie, BitVec.ofNat 8 nodes.length⟩
            ⟨a.freq + b.freq, min a.tie b.tie, .node a.tree b.tree⟩ := by
          refine ⟨?_, ?_, e.key + e'.key, e.tag, e'.tag, ?_, hrep.tree.mono _, hrep'.tree.mono _⟩
          · show (e.key + e'.key).toNat = _
            rw [BitVec.toNat_add, hrep.key, hrep'.key, Nat.mod_eq_of_lt (by omega)]
          · show (minTie e.tie e'.tie).toNat = _
            rw [minTie_toNat, hrep.tie, hrep'.tie]
          · have : (BitVec.ofNat 8 nodes.length).toNat = nodes.length := by rw [BitVec.toNat_ofNat]; omega
            simp [this]
        have hst2 := hst'.push _ hrep2 (by
          intro c hc
          show min a.tie b.tie ≠ c.tie
          have h1 := hta.1 c (List.mem_cons_of_mem _ hc)
          have h2 := htb.1 c hc
          omega)
        obtain ⟨nodes', heap', item, hgo, hall, hfin, hfit⟩ := ih hst2 (by
          refine ⟨by simp; omega, ?_, ?_⟩
          · simp only [List.length_append, List.length_singleton, List.map_cons, List.sum_cons, Artifact.Tree.size]; omega
          · simp only [List.map_cons, List.sum_cons]; omega) (by simp) (by simp; omega) (by simp; omega)
        refine ⟨nodes', heap', item, fun s hb => ?_, ?_, hfin, hfit⟩
        · rw [mergeLoop, if_pos (by show 1 < heap.length; omega),
            mergeStep_go hb.cap hb.mode he he' (by omega) (by omega)]
          exact hgo s hb
        · rw [mergeAll, ht]
          dsimp only
          rw [ht']
          exact hall

/-- `Build` makes the tree of the merges, leaves it in the arena under ROOT, and leaves the queue empty (R186, R188). -/
theorem buildTree_stands {nodes : List Node} {heap : List Entry} {items : List Item} (h : Stands nodes heap items)
    (hf : Fits nodes items) (h128 : items.length ≤ 128) :
    ∃ nodes' root,
      (∀ s : State, s.Builds → buildTree (s.built nodes heap) = .go (({ s with root := root } : State).built nodes' [])) ∧
      HasTree nodes' root (match mergeAll items.length items with | [] => .leaf 0x00#8 | item :: _ => item.tree) ∧
      nodes'.length = (match mergeAll items.length items with | [] => .leaf 0x00#8 | item :: _ => item.tree : Artifact.Tree).size ∧
      nodes'.length ≤ 255 := by
  have hheap := h.length
  cases heap with
  | nil =>
    obtain rfl : items = [] := List.eq_nil_of_length_eq_zero (by simpa using hheap.symm)
    have hn : nodes = [] := List.eq_nil_of_length_eq_zero (by simpa using hf.size)
    subst hn
    exact ⟨[.leaf 0x00#8 0#32], 0#8, fun _ _ => rfl, ⟨0#32, rfl⟩, rfl, by simp⟩
  | cons r others =>
    have hne : items ≠ [] := by rintro rfl; simp at hheap
    obtain ⟨nodes', heap', item, hgo, hall, hfin, hfit⟩ := mergeLoop_stands items.length h hf hne h128 (by omega)
    rw [hall]
    obtain ⟨e, others', he, hrep, hst⟩ := hfin.pop (a := item) (rest := []) rfl
    have hempty : heapPop .min heap' = [] := List.eq_nil_of_length_eq_zero (by simpa using hst.length)
    refine ⟨nodes', e.tag, fun s hb => ?_, hrep.tree, by simpa using hfit.size, by have := hfit.room; simp at this; omega⟩
    have : buildTree (s.built nodes (r :: others)) =
        (mergeLoop (r :: others).length (s.built nodes (r :: others))).andThen fun s =>
          withPop s fun e s => .go { s with root := e.tag } := rfl
    rw [this, hheap, hgo s hb]
    simp only [Move.andThen]
    rw [withPop_cons (show (s.built nodes' heap').heap = _ from he)]
    have hm : (s.built nodes' heap').latched.mode = .min := hb.mode
    rw [hm]
    show Move.go _ = Move.go _
    simp only [State.built, hempty]

end Sys2Proof.Machine
end

