-- ==== Sys2Proof/Laws/Commands.lean ====
section
/-! SUPPORT. What is left of a running command stays that command's: every primitive step keeps `State.commandInv`. -/

namespace Sys2Proof.Machine

/-! ## Abstract lists of steps -/

theorem endsEmpty_mono {fills empties : Micro → Bool} {l : List Micro} : ∀ {b : Bool},
    endsEmpty fills empties false l = true → endsEmpty fills empties b l = true := by
  induction l with
  | nil => intro b h; cases h
  | cons m rest ih =>
    intro b h
    rw [endsEmpty] at h ⊢
    split at h
    · cases h
    · rw [if_neg (by assumption)]
      split
      · next he => rw [if_pos he] at h; exact h
      · next he =>
        rw [if_neg he] at h
        split
        · next hf => rw [if_pos hf] at h; exact h
        · next hf => rw [if_neg hf] at h; exact ih h

/-- Steps in front that fill nothing leave the answer as it is. -/
theorem endsEmpty_append {fills empties : Micro → Bool} {new rest : List Micro} (ends : ∀ x ∈ new, x.endsCommand = false)
    (idle : ∀ x ∈ new, fills x = false) : ∀ {b : Bool}, endsEmpty fills empties b rest = true →
    endsEmpty fills empties b (new ++ rest) = true := by
  induction new with
  | nil => exact fun h => h
  | cons x new ih =>
    intro b h
    have ih := fun b => ih (b := b) (fun y hy => ends y (List.mem_cons_of_mem _ hy)) fun y hy => idle y (List.mem_cons_of_mem _ hy)
    rw [List.cons_append, endsEmpty, if_neg (by rw [ends x (List.mem_cons_self ..)]; decide), idle x (List.mem_cons_self ..)]
    by_cases he : empties x = true
    · rw [if_pos he]
      refine ih true ?_
      cases b
      · exact endsEmpty_mono h
      · exact h
    · rw [if_neg he]; exact ih b h

/-- Where the rest of the list empties on its own, any steps may stand in front. -/
theorem endsEmpty_before {fills empties : Micro → Bool} {new rest : List Micro} (ends : ∀ x ∈ new, x.endsCommand = false)
    (h : endsEmpty fills empties false rest = true) : ∀ b : Bool, endsEmpty fills empties b (new ++ rest) = true := by
  induction new with
  | nil => exact fun b => endsEmpty_mono h
  | cons x new ih =>
    intro b
    rw [List.cons_append, endsEmpty, if_neg (by rw [ends x (List.mem_cons_self ..)]; decide)]
    exact ih (fun y hy => ends y (List.mem_cons_of_mem _ hy)) _

/-- One step of a list that ends empty: what the step leaves does so too. -/
theorem endsEmpty_step {fills empties : Micro → Bool} {m : Micro} {new rest : List Micro} {now now' : Bool}
    (h : endsEmpty fills empties now (m :: rest) = true) (hm : m.endsCommand = false)
    (ends : ∀ x ∈ new, x.endsCommand = false) (spawn : ∀ x ∈ new, fills x = true → fills m = true)
    (emptied : empties m = true → now' = true ∧ fills m = false) (kept : empties m = false → fills m = false → now' = now ∨ now' = true) :
    endsEmpty fills empties now' (new ++ rest) = true := by
  rw [endsEmpty, if_neg (by rw [hm]; decide)] at h
  have idle : fills m = false → ∀ x ∈ new, fills x = false := fun hf x hx => by
    cases hx' : fills x with
    | false => rfl
    | true => rw [spawn x hx hx'] at hf; cases hf
  cases he : empties m with
  | true =>
    rw [if_pos he] at h
    obtain ⟨rfl, hf⟩ := emptied he
    exact endsEmpty_append ends (idle hf) h
  | false =>
    rw [if_neg (by rw [he]; decide)] at h
    cases hf : fills m with
    | true => rw [if_pos hf] at h; exact endsEmpty_before ends h _
    | false =>
      rw [if_neg (by rw [hf]; decide)] at h
      refine endsEmpty_append ends (idle hf) ?_
      rcases kept he hf with rfl | rfl
      · exact h
      · cases now
        · exact endsEmpty_mono h
        · exact h

theorem endsClosing_mono {l : List Micro} : ∀ {n : Nat}, endsClosing 0 l = 2 → endsClosing n l = 2 := by
  induction l with
  | nil => intro n h; cases h
  | cons m rest ih =>
    intro n h
    rw [endsClosing] at h ⊢
    split at h
    · cases h
    · rw [if_neg (by assumption)]
      unfold Micro.closingAfter at h ⊢
      split at h
      · next hs => rw [if_pos hs]; exact h
      · next hs =>
        rw [if_neg hs]
        exact ih (by simpa using h)

theorem endsClosing_before {new rest : List Micro} (ends : ∀ x ∈ new, x.endsCommand = false)
    (h : endsClosing 0 rest = 2) : ∀ n : Nat, endsClosing n (new ++ rest) = 2 := by
  induction new with
  | nil => exact fun n => endsClosing_mono h
  | cons x new ih =>
    intro n
    rw [List.cons_append, endsClosing, if_neg (by rw [ends x (List.mem_cons_self ..)]; decide)]
    exact ih (fun y hy => ends y (List.mem_cons_of_mem _ hy)) _

theorem endsClosing_append {new rest : List Micro} (ends : ∀ x ∈ new, x.endsCommand = false)
    (quiet : ∀ x ∈ new, x.transfers = false ∧ x ≠ .srcClose ∧ x ≠ .snkClose) {n : Nat} (h : endsClosing n rest = 2) :
    endsClosing n (new ++ rest) = 2 := by
  induction new with
  | nil => exact h
  | cons x new ih =>
    have hq := quiet x (List.mem_cons_self ..)
    have ih := ih (fun y hy => ends y (List.mem_cons_of_mem _ hy)) fun y hy => quiet y (List.mem_cons_of_mem _ hy)
    rw [List.cons_append, endsClosing, if_neg (by rw [ends x (List.mem_cons_self ..)]; decide), Micro.closingAfter,
      if_neg hq.2.1, if_neg hq.2.2, if_neg (by rw [hq.1]; decide)]
    exact ih

/-! ## What the spawned steps are -/

section
variable {m x : Micro} (h : m.spawns x = true)
include h

theorem Micro.endsCommand_of_spawns : x.endsCommand = false := by
  cases m <;> first | exact Bool.noConfusion h | (cases x <;> first | rfl | exact Bool.noConfusion h)

theorem Micro.givesResult_of_spawns : x.givesResult = false := by
  cases m <;> first | exact Bool.noConfusion h | (cases x <;> first | rfl | exact Bool.noConfusion h)

theorem Micro.writes_of_spawns (hx : x.writes = true) : m.writes = true := by
  cases m <;> first | exact Bool.noConfusion h | rfl | (cases x <;> first | exact Bool.noConfusion hx | exact Bool.noConfusion h)

theorem Micro.reads_of_spawns (hx : x.reads = true) : m.reads = true := by
  cases m <;> first | exact Bool.noConfusion h | rfl | (cases x <;> first | exact Bool.noConfusion hx | exact Bool.noConfusion h)

theorem Micro.transfers_of_spawns : m.transfers = true := by
  cases m <;> first | exact Bool.noConfusion h | rfl

theorem Micro.close_of_spawns : x ≠ .srcClose ∧ x ≠ .snkClose := by
  constructor <;> rintro rfl <;> cases m <;> exact Bool.noConfusion h

theorem Micro.building_of_spawns : x ≠ .makeLeaves ∧ x ≠ .build := by
  constructor <;> rintro rfl <;> cases m <;> exact Bool.noConfusion h

theorem Micro.belongsTo_of_spawns {op : Byte} (hm : m.belongsTo op = true) : x.belongsTo op = true := by
  have raises : ∀ (b : Byte), (op = 0x01#8 ∨ op = 0x02#8 ∨ op = 0x03#8 ∨ op = 0x04#8 ∨ op = 0x31#8 ∨ op = 0x32#8) →
      (Micro.append b .raise).belongsTo op = true := by
    rintro b (rfl | rfl | rfl | rfl | rfl | rfl) <;> rfl
  have flush : ∀ (b : Byte) (f : SinkFail), (Micro.flush f).belongsTo op = true → (Micro.append b f).belongsTo op = true := by
    intro b f hm
    cases f with
    | raise => exact raises b (by simp only [Micro.belongsTo, Bool.or_eq_true, beq_iff_eq] at hm; tauto)
    | afterClose => exact hm
    | ignore => exact hm
  cases m
  case flush f =>
    cases x
    case append b g =>
      have : f = g := by simpa [Micro.spawns] using h
      exact this ▸ flush b f hm
    all_goals exact Bool.noConfusion h
  case writeBit =>
    cases x
    case append b g =>
      cases g
      case raise => exact raises b (by simp only [Micro.belongsTo, Bool.or_eq_true, beq_iff_eq] at hm; tauto)
      all_goals exact Bool.noConfusion h
    all_goals exact Bool.noConfusion h
  case walk =>
    cases x
    case append b g =>
      cases g
      case raise => exact raises b (by simp only [Micro.belongsTo, beq_iff_eq] at hm; tauto)
      all_goals exact Bool.noConfusion h
    all_goals first | exact Bool.noConfusion h | (simp only [Micro.belongsTo, Bool.or_eq_true, beq_iff_eq] at hm ⊢; tauto)
  all_goals first
    | exact Bool.noConfusion h
    | (cases x <;> first
        | exact Bool.noConfusion h
        | exact hm
        | (simp only [Micro.belongsTo, Bool.or_eq_true, beq_iff_eq] at hm ⊢; tauto))

end

/-- Of the codec commands only COMPRESS and DECOMPRESS have steps. -/
theorem codec_of_belongsTo {m : Micro} {op : Byte} (h : m.belongsTo op = true) (hm : m.endsCommand = false)
    (codec : isCodec op = true) : op = 0x31#8 ∨ op = 0x32#8 := by
  have other : ∀ o : Byte, isCodec o = false → ¬ op = o := by
    rintro o ho rfl; rw [codec] at ho; cases ho
  have : op ≠ 0x01#8 ∧ op ≠ 0x02#8 ∧ op ≠ 0x03#8 ∧ op ≠ 0x04#8 ∧ op ≠ 0x05#8 ∧ op ≠ 0x11#8 ∧ op ≠ 0x12#8 ∧ op ≠ 0x13#8 ∧
      op ≠ 0x14#8 ∧ op ≠ 0x21#8 ∧ op ≠ 0x22#8 ∧ op ≠ 0x23#8 ∧ op ≠ 0x24#8 ∧ op ≠ 0x25#8 := by
    refine ⟨?_, ?_, ?_, ?_, ?_, ?_, ?_, ?_, ?_, ?_, ?_, ?_, ?_, ?_⟩ <;> exact other _ rfl
  cases m
  case append b f => cases f <;> simp only [Micro.belongsTo, Bool.or_eq_true, beq_iff_eq] at h <;> tauto
  case flush f => cases f <;> simp only [Micro.belongsTo, Bool.or_eq_true, beq_iff_eq] at h <;> tauto
  case fail => cases hm
  case done => cases hm
  all_goals
    simp only [Micro.belongsTo, Bool.or_eq_true, beq_iff_eq] at h
    tauto

/-! ## What one step does to what is wound up -/

/-- The latched opcode stays the same to the end of the command. -/
theorem microStep_opcode (m : Micro) (s : State) (h : m.endsCommand = false) :
    (microStep m s).Meets (fun t => t.latched.opcode = s.latched.opcode) (fun _ t => t.latched.opcode = s.latched.opcode) True := by
  by_cases hc : m = .cInit
  · subst hc
    show (cInit s).latched.opcode = _
    rw [cInit_eq]
    unfold State.latched
    cases s.seq.latch <;> rfl
  · refine (microStep_latch m s h hc).mono (fun t ht => ?_) (fun _ t ht => ?_) id <;> unfold State.latched <;> rw [ht]

theorem Micro.keeps_writer {m : Micro} (h : m.emptiesWriter = false) (hw : m.writes = false) : m.touches.contains .wr = false := by
  cases m <;> first | rfl | exact Bool.noConfusion h | exact Bool.noConfusion hw

theorem Micro.keeps_reader {m : Micro} (h : m.emptiesReader = false) (hr : m.reads = false) : m.touches.contains .rd = false := by
  cases m <;> first | rfl | exact Bool.noConfusion h | exact Bool.noConfusion hr

theorem Micro.keeps_ports {m : Micro} (ht : m.transfers = false) (h1 : m ≠ .srcClose) (h2 : m ≠ .snkClose) :
    m.touches.contains .ports = false := by
  cases m <;> first | rfl | exact Bool.noConfusion ht | exact absurd rfl h1 | exact absurd rfl h2

theorem Micro.keeps_arena {m : Micro} (h : (m == .release) = false) (hb : m.builds = false) (h1 : m ≠ .cInit) (h2 : m ≠ .dInit) :
    m.touches.contains .nodes = false := by
  cases m <;> first | rfl | exact Bool.noConfusion h | exact Bool.noConfusion hb | exact absurd rfl h1 | exact absurd rfl h2

theorem closing_snkClose (l : List PortEvent) : closing (.snkClose :: l) = if closing l = 1 then 2 else 0 := by
  rcases l with _ | ⟨e, l⟩
  · rfl
  · cases e <;> try rfl
    rcases l with _ | ⟨e, l⟩
    · rfl
    · cases e <;> rfl

/-- A flush leaves the writer cursor empty (R123). -/
theorem flush_wr {f : SinkFail} {s : State} (wr : s.wr.cnt.toNat ≤ 7 ∧ s.wr.buf.toNat < 2 ^ s.wr.cnt.toNat) :
    (flush f s).wr = .empty := by
  unfold flush
  split
  · rfl
  · next h =>
    have hc : s.wr.cnt.toNat = 0 := by omega
    have hb : s.wr.buf = 0#8 := BitVec.eq_of_toNat_eq (by rw [hc] at wr; simp only [BitVec.toNat_ofNat]; omega)
    have hc' : s.wr.cnt = 0#4 := BitVec.eq_of_toNat_eq (by simpa using hc)
    cases hs : s.wr with
    | mk buf cnt => rw [hs] at hb hc'; simp only at hb hc'; rw [hb, hc']; rfl

/-- What one step does to the cursors, the arena and the close events. -/
structure Winds (m : Micro) (s t : State) : Prop where
  emptied : m.emptiesWriter = true → t.wr = .empty
  keptWriter : m.emptiesWriter = false → m.writes = false → t.wr = s.wr
  dropped : m.emptiesReader = true → t.rd = .empty
  keptReader : m.emptiesReader = false → m.reads = false → t.rd = s.rd
  released : (m == .release) = true → t.nodes = []
  keptArena : (m == .release) = false → m.builds = false → t.nodes = s.nodes ∨ t.nodes = []
  closes : m.transfers = false → closing t.ports.trace = m.closingAfter (closing s.ports.trace)

theorem Winds.of_same {m : Micro} {s t : State} (h : s.Same m.touches t) (emptied : m.emptiesWriter = true → t.wr = .empty)
    (dropped : m.emptiesReader = true → t.rd = .empty) (released : (m == .release) = true → t.nodes = [])
    (fresh : m = .cInit ∨ m = .dInit → t.nodes = [])
    (closes : m = .srcClose ∨ m = .snkClose → closing t.ports.trace = m.closingAfter (closing s.ports.trace)) : Winds m s t where
  emptied := emptied
  keptWriter := fun h1 h2 => h.wr (Micro.keeps_writer h1 h2)
  dropped := dropped
  keptReader := fun h1 h2 => h.rd (Micro.keeps_reader h1 h2)
  released := released
  keptArena := fun h1 h2 => by
    by_cases h3 : m = .cInit
    · exact .inr (fresh (.inl h3))
    · by_cases h4 : m = .dInit
      · exact .inr (fresh (.inr h4))
      · exact .inl (h.nodes (Micro.keeps_arena h1 h2 h3 h4))
  closes := fun ht => by
    by_cases h1 : m = .srcClose
    · exact closes (.inl h1)
    · by_cases h2 : m = .snkClose
      · exact closes (.inr h2)
      · rw [Micro.closingAfter, if_neg h1, if_neg h2, if_neg (by rw [ht]; decide), h.ports (Micro.keeps_ports ht h1 h2)]

theorem microStep_winds (m : Micro) (s : State) (h : m.endsCommand = false)
    (wr : s.wr.cnt.toNat ≤ 7 ∧ s.wr.buf.toNat < 2 ^ s.wr.cnt.toNat) :
    (microStep m s).Meets (Winds m s) (fun _ _ => True) True := by
  have frame := microStep_frame m s h
  cases m with
  | flush f =>
    exact .of_same frame (fun _ => flush_wr wr) (fun h => Bool.noConfusion h) (fun h => Bool.noConfusion h)
      (fun h => h.elim Micro.noConfusion Micro.noConfusion) (fun h => h.elim Micro.noConfusion Micro.noConfusion)
  | cInit =>
    exact .of_same frame (fun _ => rfl) (fun _ => rfl) (fun h => Bool.noConfusion h) (fun _ => rfl)
      (fun h => h.elim Micro.noConfusion Micro.noConfusion)
  | dInit =>
    exact .of_same frame (fun _ => rfl) (fun _ => rfl) (fun h => Bool.noConfusion h) (fun _ => rfl)
      (fun h => h.elim Micro.noConfusion Micro.noConfusion)
  | dropReader =>
    exact .of_same frame (fun h => Bool.noConfusion h) (fun _ => rfl) (fun h => Bool.noConfusion h)
      (fun h => h.elim Micro.noConfusion Micro.noConfusion) (fun h => h.elim Micro.noConfusion Micro.noConfusion)
  | release =>
    exact .of_same frame (fun h => Bool.noConfusion h) (fun h => Bool.noConfusion h) (fun _ => rfl)
      (fun h => h.elim Micro.noConfusion Micro.noConfusion) (fun h => h.elim Micro.noConfusion Micro.noConfusion)
  | srcClose =>
    exact .of_same frame (fun h => Bool.noConfusion h) (fun h => Bool.noConfusion h) (fun h => Bool.noConfusion h)
      (fun h => h.elim Micro.noConfusion Micro.noConfusion) (fun _ => rfl)
  | snkClose =>
    exact .of_same frame (fun h => Bool.noConfusion h) (fun h => Bool.noConfusion h) (fun h => Bool.noConfusion h)
      (fun h => h.elim Micro.noConfusion Micro.noConfusion) (fun _ => closing_snkClose _)
  | _ =>
    exact frame.mono (fun t ht => .of_same ht (fun h => Bool.noConfusion h) (fun h => Bool.noConfusion h)
      (fun h => Bool.noConfusion h) (fun h => h.elim Micro.noConfusion Micro.noConfusion)
      (fun h => h.elim Micro.noConfusion Micro.noConfusion)) (fun _ _ _ => trivial) id

/-! ## The invariant -/

theorem winding_step {m : Micro} {rest new : List Micro} {s t : State} (h : s.winding) (todo : s.seq.todo = m :: rest)
    (hm : m.endsCommand = false) (left : t.seq.todo = new ++ rest) (spawned : ∀ x ∈ new, m.spawns x = true)
    (w : Winds m s t) : t.winding := by
  have ends : ∀ x ∈ new, x.endsCommand = false := fun x hx => Micro.endsCommand_of_spawns (spawned x hx)
  obtain ⟨h1, h2, h3, h4⟩ := h
  rw [todo] at h1 h2 h3 h4
  constructor
  · rw [left]
    rw [endsClosing, if_neg (by rw [hm]; decide)] at h1
    cases ht : m.transfers with
    | true =>
      have hs : m ≠ .srcClose ∧ m ≠ .snkClose := by constructor <;> rintro rfl <;> exact Bool.noConfusion ht
      rw [Micro.closingAfter, if_neg hs.1, if_neg hs.2, if_pos ht] at h1
      exact endsClosing_before ends h1 _
    | false =>
      have : new = [] := List.eq_nil_iff_forall_not_mem.2 fun x hx => by
        rw [Micro.transfers_of_spawns (spawned x hx)] at ht; cases ht
      rw [this, w.closes ht]
      exact h1
  · rw [left]
    refine endsEmpty_step h2 hm ends (fun x hx => Micro.writes_of_spawns (spawned x hx))
      (fun he => ⟨by rw [w.emptied he]; rfl, by cases m <;> first | rfl | exact Bool.noConfusion he⟩)
      (fun he hf => .inl (by rw [w.keptWriter he hf]))
  · rw [left]
    refine endsEmpty_step h3 hm ends (fun x hx => Micro.reads_of_spawns (spawned x hx))
      (fun he => ⟨by rw [w.dropped he]; rfl, by cases m <;> first | rfl | exact Bool.noConfusion he⟩)
      (fun he hf => .inl (by rw [w.keptReader he hf]))
  · rw [left]
    refine endsEmpty_step h4 hm ends (fun x hx hf => ?_)
      (fun he => ⟨by rw [w.released he]; rfl, by cases m <;> first | rfl | exact Bool.noConfusion he⟩)
      (fun he hf => ?_)
    · have hb := Micro.building_of_spawns (spawned x hx)
      have : x.reads = true := by simpa [Micro.builds, hb.1, hb.2] using hf
      simp [Micro.builds, Micro.reads_of_spawns (spawned x hx) this]
    · rcases w.keptArena he hf with e | e
      · exact .inl (by rw [e])
      · exact .inr (by rw [e]; rfl)

/-- The cleanup of R235 winds a codec command up from anywhere. -/
theorem winding_cleanup {s : State} {e : ErrCode} {op : Byte} {phase : Phase} (todo : s.seq.todo = cleanup ++ [.fail e op phase]) :
    s.winding := by
  constructor <;> rw [todo]
  · generalize closing s.ports.trace = n; rfl
  · generalize (s.wr == .empty) = b; cases b <;> rfl
  · generalize (s.rd == .empty) = b; cases b <;> rfl
  · generalize s.nodes.isEmpty = b; cases b <;> rfl

/-- What a raise leaves to run is the command's (R234). -/
theorem raiseError_steps {m : Micro} {op : Byte} {e : ErrCode} {t : State} (hm : m.belongsTo op = true)
    (he : m.endsCommand = false) (opcode : t.latched.opcode = op) :
    (raiseError e t).latched.opcode = op ∧ ∀ x ∈ (raiseError e t).seq.todo, x.belongsTo op = true := by
  refine ⟨opcode, fun x hx => ?_⟩
  unfold raiseError at hx
  dsimp only at hx
  rw [opcode] at hx
  split at hx
  · next hc =>
    simp only [cleanup, List.cons_append, List.nil_append, List.mem_cons, List.not_mem_nil, or_false] at hx
    rcases codec_of_belongsTo hm he hc with rfl | rfl <;> rcases hx with rfl | rfl | rfl | rfl | rfl | rfl <;> rfl
  · rw [List.mem_singleton] at hx; subst hx; simp [Micro.belongsTo]

/-- After a step of a running command, the steps left are the command's, and so they are after a raise. -/
theorem microStep_steps {s : State} {op : Byte} {m : Micro} {rest : List Micro} (opcode : s.latched.opcode = op)
    (steps : ∀ x ∈ s.seq.todo, x.belongsTo op = true) (todo : s.seq.todo = m :: rest) (hm : m.endsCommand = false) :
    (microStep m (s.next rest)).Meets (fun t => t.latched.opcode = op ∧ ∀ x ∈ t.seq.todo, x.belongsTo op = true)
      (fun e t => (raiseError e t).latched.opcode = op ∧ ∀ x ∈ (raiseError e t).seq.todo, x.belongsTo op = true) True := by
  have belongs := steps m (by rw [todo]; exact List.mem_cons_self ..)
  have same : (s.next rest).latched.opcode = op := opcode
  refine ((microStep_spawns m (s.next rest) hm).and (microStep_opcode m (s.next rest) hm)).mono ?_
    (fun e t ht => raiseError_steps belongs hm (ht.2.trans same)) id
  rintro t ⟨⟨new, left, spawned⟩ | ⟨⟨b, rfl⟩, left⟩, ht⟩
  · refine ⟨ht.trans same, fun x hx => ?_⟩
    rw [left] at hx
    rcases List.mem_append.1 hx with hx | hx
    · exact Micro.belongsTo_of_spawns (spawned x hx) belongs
    · exact steps x (by rw [todo]; exact List.mem_cons_of_mem _ hx)
  · have hop : op = 0x05#8 := by simpa [Micro.belongsTo] using belongs
    exact ⟨ht.trans same, by rw [left, hop]; simp [Micro.belongsTo]⟩

/-- After a step of a running codec command it is still on its way to its close, and so it is after a raise. -/
theorem microStep_winding {s : State} {m : Micro} {rest : List Micro}
    (wr : s.wr.cnt.toNat ≤ 7 ∧ s.wr.buf.toNat < 2 ^ s.wr.cnt.toNat) (codec : isCodec s.latched.opcode = true)
    (belongs : m.belongsTo s.latched.opcode = true) (h : s.winding) (todo : s.seq.todo = m :: rest) (hm : m.endsCommand = false) :
    (microStep m (s.next rest)).Meets State.winding (fun e t => (raiseError e t).winding) True := by
  refine (((microStep_spawns m (s.next rest) hm).and (microStep_winds m (s.next rest) hm wr)).and
    (microStep_opcode m (s.next rest) hm)).mono ?_ (fun e t ht => ?_) id
  · rintro t ⟨⟨⟨new, left, spawned⟩ | ⟨⟨b, rfl⟩, -⟩, winds⟩, -⟩
    · exact winding_step (s := s) h todo hm left spawned
        ⟨winds.1, winds.2, winds.3, winds.4, winds.5, winds.6, winds.7⟩
    · have hop : s.latched.opcode = 0x05#8 := by simpa [Micro.belongsTo] using belongs
      rw [hop] at codec; cases codec
  · have : isCodec t.latched.opcode = true := by rw [ht.2]; exact codec
    exact winding_cleanup (e := e) (op := t.latched.opcode) (phase := t.seq.phase)
      (by unfold raiseError; dsimp only; rw [if_pos this])

/-- After a step of a running command, what is left is the command's, and so it is after a raise. -/
theorem microStep_command {s : State} {m : Micro} {rest : List Micro}
    (wr : s.wr.cnt.toNat ≤ 7 ∧ s.wr.buf.toNat < 2 ^ s.wr.cnt.toNat) (c : s.commandInv) (todo : s.seq.todo = m :: rest) :
    (microStep m (s.next rest)).Meets (fun t => t.busy = true → t.commandInv) (fun e t => (raiseError e t).commandInv) True := by
  cases hm : m.endsCommand with
  | true => cases m <;> first | exact Bool.noConfusion hm | exact fun h => Bool.noConfusion h
  | false =>
    have belongs := c.steps m (by rw [todo]; exact List.mem_cons_self ..)
    have winds : isCodec s.latched.opcode = true → _ := fun hc => microStep_winding wr hc belongs (c.codec hc) todo hm
    have steps := microStep_steps rfl c.steps todo hm
    have winds : (microStep m (s.next rest)).Meets (fun t => isCodec s.latched.opcode = true → t.winding)
        (fun e t => isCodec s.latched.opcode = true → (raiseError e t).winding) True := by
      cases hc : isCodec s.latched.opcode with
      | true => exact (winds hc).mono (fun _ h _ => h) (fun _ _ h _ => h) id
      | false => exact steps.mono (fun _ _ h => Bool.noConfusion h) (fun _ _ _ h => Bool.noConfusion h) id
    refine (((microStep_spawns m (s.next rest) hm).and winds).and steps).mono ?_ ?_ id
    · rintro t ⟨⟨left, wound⟩, opcode, belong⟩ -
      refine ⟨by rw [opcode]; exact belong, ?_, fun hc => wound (by rw [← opcode]; exact hc)⟩
      rcases left with ⟨new, left, spawned⟩ | ⟨-, left⟩
      · have left : t.seq.todo = new ++ rest := left
        rw [left]
        intro x hx hr
        rcases List.mem_append.1 hx with hx | hx
        · rw [Micro.givesResult_of_spawns (spawned x hx)] at hr; cases hr
        · obtain ⟨reading, e, len, only⟩ := c.results x (by rw [todo]; exact List.mem_cons_of_mem _ hx) hr
          rw [todo] at e
          rcases reading with _ | ⟨r, reading⟩
          · cases e
            rw [List.mem_singleton] at hx; subst hx; cases hr
          · obtain ⟨rfl, rfl⟩ := List.cons.inj e
            have : new = [] := List.eq_nil_iff_forall_not_mem.2 fun y hy => by
              have := spawned y hy
              rcases only m (List.mem_cons_self ..) with rfl | rfl <;> exact Bool.noConfusion this
            refine ⟨reading, by rw [this]; rfl, by simp only [List.length_cons] at len; omega,
              fun y hy => only y (List.mem_cons_of_mem _ hy)⟩
      · rw [left]; simp [Micro.givesResult]
    · rintro e t ⟨⟨-, wound⟩, opcode, belong⟩
      refine ⟨by rw [opcode]; exact belong, ?_, fun hc => wound (by rw [← opcode]; exact hc)⟩
      intro x hx hr
      have : ∀ y ∈ (raiseError e t).seq.todo, y.givesResult = false := by
        unfold raiseError; dsimp only; split <;> simp [cleanup, Micro.givesResult]
      rw [this x hx] at hr; cases hr

/-- What an accepted command has to do is that command's: checked on its list of steps. -/
theorem accept_command {i : Instr} {steps : List Micro} {s : State} (belongs : steps.all (·.belongsTo i.opcode) = true)
    (results : steps.any Micro.givesResult = true → ∃ reading m, steps = reading ++ [m, .done] ∧ reading.length ≤ 33 ∧
      m.givesResult = true ∧ ∀ x ∈ reading, x = .clearValue ∨ x = .readBit)
    (codec : isCodec i.opcode = true → endsClosing 0 steps = 2 ∧ endsEmpty Micro.writes Micro.emptiesWriter false steps = true ∧
      endsEmpty Micro.reads Micro.emptiesReader false steps = true ∧ endsEmpty Micro.builds (· == .release) false steps = true) :
    (accept i steps s).commandInv where
  steps := List.all_eq_true.1 belongs
  results := fun x hx hr => by
    obtain ⟨reading, m, e, len, hm, only⟩ := results (List.any_eq_true.2 ⟨x, hx, hr⟩)
    have hx' : x ∈ reading ++ [m, .done] := e ▸ hx
    simp only [List.mem_append, List.mem_cons, List.not_mem_nil, or_false] at hx'
    rcases hx' with hx' | rfl | rfl
    · rcases only x hx' with rfl | rfl <;> cases hr
    · exact ⟨reading, e, len, only⟩
    · cases hr
  codec := fun hc => by
    obtain ⟨h1, h2, h3, h4⟩ := codec hc
    exact ⟨endsClosing_mono h1, endsEmpty_mono h2, endsEmpty_mono h3, endsEmpty_mono h4⟩

/-- Every primitive step keeps the whole invariant. -/
theorem microStep_inv {s : State} {m : Micro} {rest : List Micro} (inv : s.Inv) (todo : s.seq.todo = m :: rest) :
    (microStep m (s.next rest)).Meets State.Inv (fun e t => (raiseError e t).Inv) True := by
  have busy : s.busy = true := by
    cases hb : s.busy with
    | true => rfl
    | false => have := inv.idle hb; rw [this] at todo; cases todo
  exact ((microStep_blockInv inv.toBlockInv todo).and (microStep_command inv.writer (inv.command busy) todo)).mono
    (fun _ h => ⟨h.1, h.2⟩) (fun _ _ h => ⟨h.1, fun _ => h.2⟩) id

end Sys2Proof.Machine
end

