-- ==== Sys2Proof/Laws/Writer.lean ====
section
/-! SUPPORT. The bit writer in a chain: a list of bits written one by one, and the flush. -/

namespace Sys2Proof.Machine

open Sys2Proof.Artifact

/-- The bits of a list that do not fill a byte. -/
def pendingOf (bits : List Bool) : List Bool := bits.drop (8 * (bits.length / 8))

/-- The whole bytes of a list of bits. -/
def wholeOf (bits : List Bool) : List Byte := (List.range (bits.length / 8)).map fun i => byteOf ((bits.drop (8 * i)).take 8)

/-- The writer after a list of bits, from an empty cursor and SNK_COUNT = 0. -/
def State.wrote (s : State) (bits : List Bool) : State :=
  { s with
    wr := ⟨(pendingOf bits).foldl shiftIn 0#8, BitVec.ofNat 4 (pendingOf bits).length⟩
    snkCount := BitVec.ofNat 32 (bits.length / 8) }

/-- The sink after a list of bits, of which it accepts `room` bytes. -/
def Wire.wrote (w : Wire) (room : Nat) (sunk : List Byte) (bits : List Bool) : Wire :=
  { w with room := room - bits.length / 8, sunk := sunk ++ wholeOf bits }

theorem pendingOf_length (bits : List Bool) : (pendingOf bits).length = bits.length % 8 := by
  simp only [pendingOf, List.length_drop]; omega

/-- Eight bits shifted in are the byte they make. -/
theorem foldl_shiftIn_byteOf {bits : List Bool} (h : bits.length = 8) : bits.foldl shiftIn 0#8 = byteOf bits := by
  apply BitVec.eq_of_getLsbD_eq
  intro i hi
  rw [foldl_shiftIn_getLsbD _ _ hi, byteOf_getLsbD _ hi, if_pos (by omega), h]

/-- Fewer bits, shifted to the top. -/
theorem foldl_shiftIn_pad {bits : List Bool} (h : bits.length ≤ 7) :
    (bits.foldl shiftIn 0#8) <<< (8 - bits.length) = byteOf bits := by
  apply BitVec.eq_of_getLsbD_eq
  intro i hi
  rw [byteOf_getLsbD _ hi, BitVec.getLsbD_shiftLeft]
  by_cases hb : i < 8 - bits.length
  · simp [hb, List.getElem?_eq_none (show bits.length ≤ 7 - i by omega)]
  · rw [foldl_shiftIn_getLsbD _ _ (by omega), if_pos (by omega)]
    simp only [hi, hb, decide_true, decide_false, Bool.not_false, Bool.true_and]
    congr 2; omega

theorem pendingOf_snoc {bits : List Bool} {b : Bool} (h : bits.length % 8 ≠ 7) :
    pendingOf (bits ++ [b]) = pendingOf bits ++ [b] := by
  unfold pendingOf
  rw [List.length_append, List.length_singleton, show (bits.length + 1) / 8 = bits.length / 8 by omega]
  rw [List.drop_append_of_le_length (by omega)]

theorem wholeOf_snoc {bits : List Bool} {b : Bool} (h : bits.length % 8 ≠ 7) : wholeOf (bits ++ [b]) = wholeOf bits := by
  unfold wholeOf
  rw [List.length_append, List.length_singleton, show (bits.length + 1) / 8 = bits.length / 8 by omega]
  apply List.map_congr_left
  intro i hi
  rw [List.mem_range] at hi
  rw [List.drop_append_of_le_length (by omega), List.take_append_of_le_length (by simp; omega)]

theorem pendingOf_full {bits : List Bool} {b : Bool} (h : bits.length % 8 = 7) : pendingOf (bits ++ [b]) = [] := by
  unfold pendingOf
  rw [List.length_append, List.length_singleton]
  exact List.drop_eq_nil_of_le (by simp; omega)

theorem wholeOf_full {bits : List Bool} {b : Bool} (h : bits.length % 8 = 7) :
    wholeOf (bits ++ [b]) = wholeOf bits ++ [byteOf (pendingOf bits ++ [b])] := by
  unfold wholeOf
  rw [List.length_append, List.length_singleton, show (bits.length + 1) / 8 = bits.length / 8 + 1 by omega, List.range_succ,
    List.map_append, List.map_singleton]
  congr 1
  · apply List.map_congr_left
    intro i hi
    rw [List.mem_range] at hi
    rw [List.drop_append_of_le_length (by omega), List.take_append_of_le_length (by simp; omega)]
  · rw [List.drop_append_of_le_length (by omega)]
    unfold pendingOf
    rw [List.take_of_length_le (by simp; omega)]

theorem pack_eq (bits : List Bool) :
    pack bits = if bits.length % 8 = 0 then wholeOf bits else wholeOf bits ++ [byteOf (pendingOf bits)] := by
  unfold pack wholeOf bytesFor
  split
  · rw [show (bits.length + 7) / 8 = bits.length / 8 by omega]
  · rw [show (bits.length + 7) / 8 = bits.length / 8 + 1 by omega, List.range_succ, List.map_append, List.map_singleton]
    congr 2
    unfold pendingOf
    rw [List.take_of_length_le (by simp; omega)]

section
variable {s : State} {w : Wire} {room : Nat} {sunk : List Byte}

theorem writeBit_pending {s : State} {b : Bool} (h : s.wr.cnt + 1#4 ≠ 8#4) :
    writeBit b s = { s with wr := ⟨shiftIn s.wr.buf b, s.wr.cnt + 1#4⟩ } := by unfold writeBit; simp only [h, if_false]

theorem writeBit_full {s : State} {b : Bool} (h : s.wr.cnt + 1#4 = 8#4) :
    writeBit b s = State.before { s with wr := .empty } [.append (shiftIn s.wr.buf b) .raise] := by
  unfold writeBit; simp only [h, if_true]

/-- One bit (R120). -/
theorem goes_writeBit {bits : List Bool} {b : Bool} {rest : List Micro} (todo : s.seq.todo = .writeBit b :: rest)
    (fits : (bits.length + 1) / 8 ≤ room) :
    Goes 2 (s.wrote bits) (w.wrote room sunk bits) ((s.next rest).wrote (bits ++ [b])) (w.wrote room sunk (bits ++ [b])) := by
  have hlen := pendingOf_length bits
  by_cases h : bits.length % 8 = 7
  · have hc : BitVec.ofNat 4 (pendingOf bits).length + 1#4 = 8#4 := by rw [hlen, h]; decide
    have g1 : Goes 1 (s.wrote bits) (w.wrote room sunk bits)
        (({ s.next (.append (byteOf (pendingOf bits ++ [b])) .raise :: rest) with wr := .empty } : State).counted (bits.length / 8))
        ((w.gave (room - bits.length / 8 - 1 + 1) (sunk ++ wholeOf bits))) := by
      have : w.gave (room - bits.length / 8 - 1 + 1) (sunk ++ wholeOf bits) = w.wrote room sunk bits := by
        simp only [Wire.gave, Wire.wrote]; congr 1; omega
      rw [this]
      refine .step (m := .writeBit b) (rest := rest) todo fun q => ?_
      have := writeBit_full (s := ((s.wrote bits).next rest).on q) (b := b) hc
      refine (congrArg Move.go this).trans ?_
      simp only [State.before, State.on, State.next, State.wrote, State.counted, List.cons_append, List.nil_append]
      rw [← foldl_shiftIn_byteOf (bits := pendingOf bits ++ [b]) (by simp; omega), List.foldl_append, List.foldl_cons,
        List.foldl_nil]
    have g2 := goes_append (s := ({ s.next (.append (byteOf (pendingOf bits ++ [b])) .raise :: rest) with wr := .empty } : State))
      (w := w) (room := room - bits.length / 8 - 1) (n := bits.length / 8) (sunk := sunk ++ wholeOf bits)
      (b := byteOf (pendingOf bits ++ [b])) (onFail := .raise) (rest := rest) rfl
    have := g1.trans g2
    have e1 : (s.next rest).wrote (bits ++ [b]) =
        (({ s.next (.append (byteOf (pendingOf bits ++ [b])) .raise :: rest) with wr := .empty } : State).next rest).counted
          (bits.length / 8 + 1) := by
      simp only [State.wrote, State.next, State.counted, pendingOf_full h, List.length_append, List.length_singleton,
        List.foldl_nil, List.length_nil, Cursor.empty, show (bits.length + 1) / 8 = bits.length / 8 + 1 by omega]
    have e2 : w.wrote room sunk (bits ++ [b]) = w.gave (room - bits.length / 8 - 1)
        (sunk ++ wholeOf bits ++ [byteOf (pendingOf bits ++ [b])]) := by
      simp only [Wire.wrote, Wire.gave, wholeOf_full h, List.append_assoc, List.length_append, List.length_singleton]
      congr 1; omega
    rw [e1, e2]
    exact this
  · have hc : BitVec.ofNat 4 (pendingOf bits).length + 1#4 ≠ 8#4 := by
      intro hc
      have := congrArg BitVec.toNat hc
      simp only [BitVec.toNat_add, BitVec.toNat_ofNat, hlen] at this
      omega
    have e : w.wrote room sunk (bits ++ [b]) = w.wrote room sunk bits := by
      simp only [Wire.wrote, wholeOf_snoc h, List.length_append, List.length_singleton]
      congr 1; omega
    rw [e]
    refine Goes.mono (n := 1) (.step (m := .writeBit b) (rest := rest) todo fun q => ?_) (by omega)
    have := writeBit_pending (s := ((s.wrote bits).next rest).on q) (b := b) hc
    refine (congrArg Move.go this).trans ?_
    simp only [State.on, State.next, State.wrote, pendingOf_snoc h, List.foldl_append, List.foldl_cons, List.foldl_nil,
      List.length_append, List.length_singleton, show (bits.length + 1) / 8 = bits.length / 8 by omega, BitVec.ofNat_add]

/-- A list of bits (R121, R122, R190, R193). -/
theorem goes_writeBits (more : List Bool) : ∀ {s : State} {bits : List Bool} {rest : List Micro},
    s.seq.todo = more.map Micro.writeBit ++ rest → (bits.length + more.length) / 8 ≤ room →
    Goes (2 * more.length) (s.wrote bits) (w.wrote room sunk bits) ((s.next rest).wrote (bits ++ more))
      (w.wrote room sunk (bits ++ more)) := by
  induction more with
  | nil =>
    intro s bits rest todo _
    have : s.next rest = s := by
      simp only [List.map_nil, List.nil_append] at todo
      rw [← todo]; rfl
    rw [this, List.append_nil]
    exact .refl _ _
  | cons b more ih =>
    intro s bits rest todo fits
    simp only [List.length_cons] at fits
    have g1 := goes_writeBit (s := s) (w := w) (room := room) (sunk := sunk) (bits := bits) (b := b)
      (rest := more.map Micro.writeBit ++ rest) todo (by omega)
    have g2 := ih (s := s.next (more.map Micro.writeBit ++ rest)) (bits := bits ++ [b]) (rest := rest) rfl
      (by simp only [List.length_append, List.length_singleton]; omega)
    rw [List.append_assoc, List.singleton_append] at g2
    exact (g1.trans g2).mono (by simp only [List.length_cons]; omega)

/-- The sink after the padded last byte (R105, R123). -/
def Wire.packed (w : Wire) (room : Nat) (sunk : List Byte) (bits : List Bool) : Wire :=
  w.gave (room - bytesFor bits.length) (sunk ++ pack bits)

/-- The flush (R123): the bits that were written are in the sink, zero-padded to a whole byte. -/
theorem goes_flush {bits : List Bool} {onFail : SinkFail} {rest : List Micro} (todo : s.seq.todo = .flush onFail :: rest)
    (fits : bytesFor bits.length ≤ room) :
    Goes 2 (s.wrote bits) (w.wrote room sunk bits)
      (({ s.next rest with wr := .empty } : State).counted (bytesFor bits.length)) (w.packed room sunk bits) := by
  have hlen := pendingOf_length bits
  unfold Wire.packed bytesFor at *
  rw [pack_eq]
  by_cases h : bits.length % 8 = 0
  · rw [if_pos h, show (bits.length + 7) / 8 = bits.length / 8 by omega]
    refine Goes.mono (n := 1) (.step (m := .flush onFail) (rest := rest) todo fun q => ?_) (by omega)
    have hp : pendingOf bits = [] := List.eq_nil_of_length_eq_zero (by omega)
    simp only [microStep, flush, State.on, State.next, State.wrote, State.counted, hp, List.length_nil, List.foldl_nil]
    rfl
  · rw [if_neg h, show (bits.length + 7) / 8 = bits.length / 8 + 1 by omega, ← List.append_assoc]
    have hcnt : (BitVec.ofNat 4 (pendingOf bits).length).toNat = (pendingOf bits).length := by
      rw [BitVec.toNat_ofNat]; omega
    have g1 : Goes 1 (s.wrote bits) (w.wrote room sunk bits)
        (({ s.next (.append (byteOf (pendingOf bits)) onFail :: rest) with wr := .empty } : State).counted (bits.length / 8))
        (w.gave (room - (bits.length / 8 + 1) + 1) (sunk ++ wholeOf bits)) := by
      have : w.gave (room - (bits.length / 8 + 1) + 1) (sunk ++ wholeOf bits) = w.wrote room sunk bits := by
        simp only [Wire.gave, Wire.wrote]; congr 1; omega
      rw [this]
      refine .step (m := .flush onFail) (rest := rest) todo fun q => ?_
      simp only [microStep, flush, State.on, State.next, State.wrote, State.counted, hcnt,
        foldl_shiftIn_pad (show (pendingOf bits).length ≤ 7 by omega)]
      rw [if_pos (by omega)]
      simp only [State.before, List.cons_append, List.nil_append]
    exact g1.trans (goes_append
      (s := ({ s.next (.append (byteOf (pendingOf bits)) onFail :: rest) with wr := .empty } : State)) rfl)

end

end Sys2Proof.Machine
end

