-- ==== Sys2Proof/Laws/Serial.lean ====
section
/-! SUPPORT. COMPRESS, followed step by step: serializing the tree with its codes (R190, R191), and the payload (R193). -/

namespace Sys2Proof.Machine

open Sys2Proof.Artifact

/-! ## The codes that are recorded -/

/-- The code table after the leaves of a tree reached by a path are recorded (R191). -/
def recordAll (t : Tables) (path : List Bool) : Artifact.Tree → Tables
  | .leaf sym => t.record sym path
  | .node l r => recordAll (recordAll t (path ++ [false]) l) (path ++ [true]) r

theorem Tables.record_at (t : Tables) {x sym : Byte} (path : List Bool) (hs : sym.toNat < 128) (hx : x.toNat < 128) :
    (t.record x path).lenAt sym = (if x = sym then BitVec.ofNat 8 path.length else t.lenAt sym) ∧
      (t.record x path).bitsAt sym = (if x = sym then codeOfPath path else t.bitsAt sym) := by
  have h1 : x.toNat < t.codeLen.size := hx
  have h2 : x.toNat < t.codeBits.size := hx
  unfold Tables.record Tables.lenAt Tables.bitsAt
  simp only [Vector.getElem?_setIfInBounds]
  by_cases h : x = sym
  · subst h; simp [hx]
  · have hne : ¬ x.toNat = sym.toNat := fun e => h (BitVec.eq_of_toNat_eq e)
    simp [h, hne]

theorem recordAll_freq (tree : Artifact.Tree) : ∀ (t : Tables) (path : List Bool), (recordAll t path tree).freq = t.freq := by
  induction tree with
  | leaf sym => exact fun t path => rfl
  | node l r ihl ihr => intro t path; rw [recordAll, ihr, ihl]

theorem codeOf_none {tree : Artifact.Tree} {sym : Byte} (h : sym ∉ tree.leaves) : tree.codeOf sym = none := by
  induction tree with
  | leaf x => simp only [Artifact.Tree.leaves, List.mem_singleton] at h; simp [Artifact.Tree.codeOf, Ne.symm h]
  | node l r ihl ihr =>
    simp only [Artifact.Tree.leaves, List.mem_append, not_or] at h
    simp [Artifact.Tree.codeOf, ihl h.1, ihr h.2]

theorem codeOf_some {tree : Artifact.Tree} {sym : Byte} (h : sym ∈ tree.leaves) : ∃ p, tree.codeOf sym = some p := by
  induction tree with
  | leaf x => simp only [Artifact.Tree.leaves, List.mem_singleton] at h; exact ⟨[], by simp [Artifact.Tree.codeOf, h]⟩
  | node l r ihl ihr =>
    simp only [Artifact.Tree.leaves, List.mem_append] at h
    rw [Artifact.Tree.codeOf]
    cases hl : l.codeOf sym with
    | some p => exact ⟨_, rfl⟩
    | none =>
      rcases h with h | h
      · obtain ⟨p, hp⟩ := ihl h; rw [hl] at hp; cases hp
      · obtain ⟨p, hp⟩ := ihr h; exact ⟨true :: p, by simp [hp]⟩

/-- The code of a leaf leads to it. -/
theorem walk_codeOf {tree : Artifact.Tree} {sym : Byte} : ∀ {p : List Bool}, tree.codeOf sym = some p → tree.walk p = some sym := by
  induction tree with
  | leaf x =>
    intro p h
    rw [Artifact.Tree.codeOf] at h
    split at h
    · next hx => cases h; simp [Artifact.Tree.walk, hx]
    · cases h
  | node l r ihl ihr =>
    intro p h
    rw [Artifact.Tree.codeOf] at h
    split at h
    · next q hq => cases h; simpa [Artifact.Tree.walk] using ihl hq
    · simp only [Option.map_eq_some_iff] at h
      obtain ⟨q, hq, rfl⟩ := h
      simpa [Artifact.Tree.walk] using ihr hq

theorem leaves_length (t : Artifact.Tree) : 2 * t.leaves.length = t.size + 1 := by
  induction t with
  | leaf x => rfl
  | node l r ihl ihr => simp only [Artifact.Tree.leaves, Artifact.Tree.size, List.length_append]; omega

/-- What the table holds for a symbol: its code behind the path to the tree, or what it held before. -/
theorem recordAll_at {sym : Byte} (hs : sym.toNat < 128) (tree : Artifact.Tree) : ∀ (t : Tables) (path : List Bool),
    (∀ x ∈ tree.leaves, x.toNat < 128) → tree.leaves.Nodup →
    (recordAll t path tree).lenAt sym =
        (match tree.codeOf sym with | some p => BitVec.ofNat 8 (path ++ p).length | none => t.lenAt sym) ∧
      (recordAll t path tree).bitsAt sym =
        (match tree.codeOf sym with | some p => codeOfPath (path ++ p) | none => t.bitsAt sym) := by
  induction tree with
  | leaf x =>
    intro t path hx _
    have := t.record_at path hs (hx x (by simp [Artifact.Tree.leaves]))
    rw [recordAll, this.1, this.2, Artifact.Tree.codeOf]
    by_cases h : x = sym <;> simp [h]
  | node l r ihl ihr =>
    intro t path hx hd
    simp only [Artifact.Tree.leaves] at hx hd
    obtain ⟨hdl, hdr, hdis⟩ := List.nodup_append.1 hd
    have hr := ihr (recordAll t (path ++ [false]) l) (path ++ [true]) (fun y hy => hx y (List.mem_append_right _ hy)) hdr
    have hl := ihl t (path ++ [false]) (fun y hy => hx y (List.mem_append_left _ hy)) hdl
    rw [recordAll, hr.1, hr.2, Artifact.Tree.codeOf]
    by_cases hm : sym ∈ l.leaves
    · obtain ⟨p, hp⟩ := codeOf_some hm
      have hn : sym ∉ r.leaves := fun h => hdis sym hm sym h rfl
      rw [codeOf_none hn]
      dsimp only
      rw [hl.1, hl.2, hp]
      simp
    · have hp := codeOf_none hm
      rw [hp] at hl ⊢
      cases hq : r.codeOf sym with
      | none => simpa using hl
      | some q => simp

/-! ## Serialization (R190) -/

/-- A position in `Ser`. -/
def State.inSer (s : State) (t : Tables) (stack : List Frame) (todo : List Micro) : State :=
  { s with tables := t, seq := { s.seq with stack := stack, todo := todo } }

section
variable {s : State} {w : Wire} {room : Nat} {sunk : List Byte}

theorem goes_ser (tree : Artifact.Tree) : ∀ {n : Byte} {t : Tables} {stack : List Frame} {bits : List Bool} {rest : List Micro},
    HasTree s.nodes n tree → (bits.length + tree.bits.length) / 8 ≤ room →
    Goes (22 * tree.size) ((s.inSer t stack (.serNode n :: rest)).wrote bits) (w.wrote room sunk bits)
      ((s.inSer (recordAll t (stack.map Frame.right).reverse tree) stack (.serReturn :: rest)).wrote (bits ++ tree.bits))
      (w.wrote room sunk (bits ++ tree.bits)) := by
  induction tree with
  | leaf sym =>
    rintro n t stack bits rest ⟨f, hn⟩ fits
    simp only [Artifact.Tree.bits, List.length_cons, msbFirst_length] at fits
    have g1 : Goes 1 ((s.inSer t stack (.serNode n :: rest)).wrote bits) (w.wrote room sunk bits)
        ((s.inSer t stack ((true :: msbFirst sym).map Micro.writeBit ++ (.recordCode sym :: .serReturn :: rest))).wrote bits)
        (w.wrote room sunk bits) :=
      .step (m := .serNode n) (rest := rest) rfl fun q => by
        simp only [microStep, serNode, withNode, State.on, State.next, State.inSer, State.wrote, hn, State.before,
          List.map_cons, List.cons_append, List.append_assoc, List.nil_append]
    have g2 := goes_writeBits (w := w) (room := room) (sunk := sunk) (true :: msbFirst sym)
      (s := s.inSer t stack ((true :: msbFirst sym).map Micro.writeBit ++ (.recordCode sym :: .serReturn :: rest)))
      (bits := bits) (rest := .recordCode sym :: .serReturn :: rest) rfl
      (by simp only [List.length_cons, msbFirst_length]; omega)
    have g3 : Goes 1 (((s.inSer t stack ((true :: msbFirst sym).map Micro.writeBit ++ (.recordCode sym :: .serReturn :: rest))).next
          (.recordCode sym :: .serReturn :: rest)).wrote (bits ++ true :: msbFirst sym))
        (w.wrote room sunk (bits ++ true :: msbFirst sym))
        ((s.inSer (t.record sym (stack.map Frame.right).reverse) stack (.serReturn :: rest)).wrote (bits ++ true :: msbFirst sym))
        (w.wrote room sunk (bits ++ true :: msbFirst sym)) :=
      .step (m := .recordCode sym) (rest := .serReturn :: rest) rfl fun q => by
        simp only [microStep, State.path, State.on, State.next, State.inSer, State.wrote]
    exact ((g1.trans g2).trans g3).mono (by simp only [List.length_cons, msbFirst_length, Artifact.Tree.size]; omega)
  | node l r ihl ihr =>
    rintro n t stack bits rest ⟨f, a, b, hn, hl, hr⟩ fits
    simp only [Artifact.Tree.bits, List.length_cons, List.length_append] at fits
    have g1 : Goes 1 ((s.inSer t stack (.serNode n :: rest)).wrote bits) (w.wrote room sunk bits)
        ((s.inSer t (⟨n, false⟩ :: stack) (.writeBit false :: .serNode a :: rest)).wrote bits) (w.wrote room sunk bits) :=
      .step (m := .serNode n) (rest := rest) rfl fun q => by
        simp only [microStep, serNode, withNode, State.on, State.next, State.inSer, State.wrote, hn, State.before,
          List.cons_append, List.nil_append]
    have g2 := goes_writeBit (w := w) (room := room) (sunk := sunk) (bits := bits) (b := false)
      (s := s.inSer t (⟨n, false⟩ :: stack) (.writeBit false :: .serNode a :: rest)) (rest := .serNode a :: rest) rfl (by omega)
    have g3 := ihl (t := t) (stack := ⟨n, false⟩ :: stack) (bits := bits ++ [false]) (rest := rest) hl
      (by simp only [List.length_append, List.length_singleton]; omega)
    have g4 : Goes 1 ((s.inSer (recordAll t ((⟨n, false⟩ :: stack).map Frame.right).reverse l) (⟨n, false⟩ :: stack)
          (.serReturn :: rest)).wrote (bits ++ [false] ++ l.bits)) (w.wrote room sunk (bits ++ [false] ++ l.bits))
        ((s.inSer (recordAll t ((⟨n, false⟩ :: stack).map Frame.right).reverse l) (⟨n, true⟩ :: stack)
          (.serNode b :: rest)).wrote (bits ++ [false] ++ l.bits)) (w.wrote room sunk (bits ++ [false] ++ l.bits)) :=
      .step (m := .serReturn) (rest := rest) rfl fun q => by
        simp only [microStep, serReturn, withNode, State.on, State.next, State.inSer, State.wrote, hn, State.before,
          List.cons_append, List.nil_append]
    have g5 := ihr (t := recordAll t ((⟨n, false⟩ :: stack).map Frame.right).reverse l) (stack := ⟨n, true⟩ :: stack)
      (bits := bits ++ [false] ++ l.bits) (rest := rest) hr
      (by simp only [List.length_append, List.length_singleton]; omega)
    have g6 : Goes 1 ((s.inSer (recordAll (recordAll t ((⟨n, false⟩ :: stack).map Frame.right).reverse l)
          ((⟨n, true⟩ :: stack).map Frame.right).reverse r) (⟨n, true⟩ :: stack)
          (.serReturn :: rest)).wrote (bits ++ [false] ++ l.bits ++ r.bits)) (w.wrote room sunk (bits ++ [false] ++ l.bits ++ r.bits))
        ((s.inSer (recordAll (recordAll t ((⟨n, false⟩ :: stack).map Frame.right).reverse l)
          ((⟨n, true⟩ :: stack).map Frame.right).reverse r) stack (.serReturn :: rest)).wrote (bits ++ [false] ++ l.bits ++ r.bits))
        (w.wrote room sunk (bits ++ [false] ++ l.bits ++ r.bits)) :=
      .step (m := .serReturn) (rest := rest) rfl fun q => by
        simp only [microStep, serReturn, State.on, State.next, State.inSer, State.wrote, State.before,
          List.cons_append, List.nil_append]
    have := ((((g1.trans g2).trans g3).trans g4).trans g5).trans g6
    rw [show bits ++ [false] ++ l.bits ++ r.bits = bits ++ (Artifact.Tree.node l r).bits by
      simp [Artifact.Tree.bits]] at this
    simp only [List.map_cons, List.reverse_cons] at this
    exact this.mono (by simp only [Artifact.Tree.size]; omega)

/-! ## The payload (R193) -/

theorem goes_payload {code : Byte → List Bool} {xs : List Byte} {rest : List Micro} (len : s.inlen.toNat = xs.length)
    (input : ∀ i < xs.length, s.inbuf.read i = xs[i]?) (codes : ∀ x ∈ xs, codePath (s.tables.lenAt x) (s.tables.bitsAt x) = code x)
    (short : ∀ x ∈ xs, (code x).length ≤ 127) (ys : List Byte) : ∀ {i : Nat} {bits : List Bool}, xs.drop i = ys → i ≤ xs.length →
    (bits.length + (ys.flatMap code).length) / 8 ≤ room →
    Goes (256 * ys.length + 1) ((s.next (.payload i :: rest)).wrote bits) (w.wrote room sunk bits)
      ((s.next rest).wrote (bits ++ ys.flatMap code)) (w.wrote room sunk (bits ++ ys.flatMap code)) := by
  induction ys with
  | nil =>
    intro i bits hd hi _
    have : i = xs.length := by
      have := congrArg List.length hd
      simp only [List.length_drop, List.length_nil] at this
      omega
    rw [List.flatMap_nil, List.append_nil]
    refine .step (m := .payload i) (rest := rest) rfl fun q => ?_
    simp only [microStep, payloadStep, State.on, State.next, State.wrote, len]
    rw [if_neg (by omega)]
  | cons y ys ih =>
    intro i bits hd hi fits
    have hlt : i < xs.length := by
      have := congrArg List.length hd
      simp only [List.length_drop, List.length_cons] at this
      omega
    have hy : xs[i] = y ∧ xs.drop (i + 1) = ys := by
      rw [List.drop_eq_getElem_cons hlt] at hd
      exact List.cons.inj hd
    have hmem : y ∈ xs := hy.1 ▸ List.getElem_mem hlt
    have hread : s.inbuf.read i = some y := by rw [input i hlt, List.getElem?_eq_getElem hlt, hy.1]
    simp only [List.flatMap_cons, List.length_append] at fits
    have g1 : Goes 1 ((s.next (.payload i :: rest)).wrote bits) (w.wrote room sunk bits)
        ((s.next ((code y).map Micro.writeBit ++ .payload (i + 1) :: rest)).wrote bits) (w.wrote room sunk bits) := by
      refine .step (m := .payload i) (rest := rest) rfl fun q => ?_
      simp only [microStep, payloadStep, State.on, State.next, State.wrote, len, hread]
      rw [if_pos hlt]
      simp only [State.before, codes y hmem, List.append_assoc, List.cons_append, List.nil_append]
    have g2 := goes_writeBits (w := w) (room := room) (sunk := sunk) (code y)
      (s := s.next ((code y).map Micro.writeBit ++ .payload (i + 1) :: rest)) (bits := bits) (rest := .payload (i + 1) :: rest) rfl
      (by omega)
    have g3 := ih (i := i + 1) (bits := bits ++ code y) hy.2 hlt
      (by simp only [List.length_append]; omega)
    have hs := short y hmem
    rw [List.flatMap_cons, ← List.append_assoc]
    exact ((g1.trans g2).trans g3).mono (by simp only [List.length_cons]; omega)

end

end Sys2Proof.Machine
end

