-- ==== Sys2Proof/Laws/Greedy.lean ====
section
/-! SUPPORT. The tree of an input, as plain lists (R184 to R188, R208): its leaves are the symbols that occur, and its codes are
short. -/

namespace Sys2Proof.Artifact

open Sys2Proof.Machine

theorem symbols_nodup : symbols.Nodup := by
  unfold symbols
  refine List.Nodup.map_on ?_ List.nodup_range
  intro a ha b hb h
  rw [List.mem_range] at ha hb
  simp only [Config.alphabet] at ha hb
  have := congrArg BitVec.toNat h
  simp only [BitVec.toNat_ofNat] at this
  omega

theorem mem_symbols {sym : Byte} : sym ∈ symbols ↔ sym.toNat < 128 := by
  unfold symbols
  simp only [List.mem_map, List.mem_range, Config.alphabet]
  constructor
  · rintro ⟨a, ha, rfl⟩; rw [BitVec.toNat_ofNat]; omega
  · intro h; exact ⟨sym.toNat, h, by simp⟩

theorem symbols_length : symbols.length = 128 := by simp [symbols, Config.alphabet]

/-- Different symbols cannot occur more often than the input is long. -/
theorem sum_occurrences_le {syms : List Byte} (h : syms.Nodup) (xs : List Byte) :
    (syms.map (occurrences xs)).sum ≤ xs.length := by
  induction syms generalizing xs with
  | nil => simp
  | cons x syms ih =>
    obtain ⟨hx, hd⟩ := List.nodup_cons.1 h
    have hrest : syms.map (occurrences xs) = syms.map (occurrences (xs.filter (· != x))) := by
      apply List.map_congr_left
      intro y hy
      unfold occurrences
      rw [List.count_filter (by simpa using fun e : y = x => hx (e ▸ hy))]
    have := ih hd (xs.filter (· != x))
    have hcount : xs.length = occurrences xs x + (xs.filter (· != x)).length := by
      unfold occurrences
      rw [List.count_eq_length_filter]
      exact List.length_eq_length_filter_add _
    rw [List.map_cons, List.sum_cons, hrest]
    omega

theorem leafItems_facts (xs : List Byte) :
    (leafItems xs).length ≤ 128 ∧ ((leafItems xs).map fun i => i.tree.size).sum = (leafItems xs).length ∧
      ((leafItems xs).map Item.freq).sum ≤ xs.length ∧
      (leafItems xs).flatMap (fun i => i.tree.leaves) = symbols.filter fun sym => occurrences xs sym != 0 := by
  unfold leafItems
  refine ⟨?_, ?_, ?_, ?_⟩
  · rw [List.length_map, ← symbols_length]; exact List.length_filter_le _ _
  · rw [List.map_map, List.length_map]
    generalize symbols.filter _ = l
    induction l with
    | nil => rfl
    | cons x l ih => simp only [List.map_cons, List.sum_cons, Function.comp, List.length_cons, Tree.size] at *; omega
  · rw [List.map_map]
    exact sum_occurrences_le (symbols_nodup.filter _) xs
  · rw [List.flatMap_map]
    simp [Tree.leaves]

/-- The merges keep the leaves. -/
theorem mergeAll_leaves : ∀ (turns : Nat) {items : List Item}, items ≠ [] → items.length ≤ turns + 1 →
    ∃ item, mergeAll turns items = [item] ∧ item.tree.leaves.Perm (items.flatMap fun i => i.tree.leaves) := by
  intro turns
  induction turns with
  | zero =>
    intro items hne hlen
    match items, hne, hlen with
    | [i], _, _ => exact ⟨i, rfl, by simp⟩
  | succ turns ih =>
    intro items hne hlen
    cases ht : takeFirst items with
    | none => exact absurd (takeFirst_none ht) hne
    | some x =>
      obtain ⟨a, rest⟩ := x
      obtain ⟨pre, post, hi, hr, _⟩ := takeFirst_some ht
      have hl : items.length = rest.length + 1 := by rw [hi, hr]; simp; omega
      have hp : items.Perm (a :: rest) := by rw [hi, hr]; exact List.perm_middle
      cases ht' : takeFirst rest with
      | none =>
        obtain rfl := takeFirst_none ht'
        refine ⟨a, by rw [mergeAll, ht]; dsimp only; rw [ht'], ?_⟩
        simpa using (hp.flatMap_right fun i => i.tree.leaves).symm
      | some y =>
        obtain ⟨b, rest'⟩ := y
        obtain ⟨pre', post', hi', hr', _⟩ := takeFirst_some ht'
        have hp' : rest.Perm (b :: rest') := by rw [hi', hr']; exact List.perm_middle
        have hl' : rest.length = rest'.length + 1 := by rw [hi', hr']; simp; omega
        obtain ⟨item, hall, hleaves⟩ := ih (items := ⟨a.freq + b.freq, min a.tie b.tie, .node a.tree b.tree⟩ :: rest')
          (by simp) (by simp; omega)
        refine ⟨item, by rw [mergeAll, ht]; dsimp only; rw [ht']; exact hall, hleaves.trans ?_⟩
        have := (hp.trans (hp'.cons a)).flatMap_right fun i => i.tree.leaves
        simpa [Tree.leaves] using this.symm

theorem leafItems_nil_iff {xs : List Byte} (hx : ∀ x ∈ xs, x.toNat < 128) : leafItems xs = [] ↔ xs = [] := by
  constructor
  · intro h
    cases xs with
    | nil => rfl
    | cons x xs =>
      have : x ∈ symbols.filter fun sym => occurrences (x :: xs) sym != 0 := by
        rw [List.mem_filter]
        exact ⟨mem_symbols.2 (hx x (List.mem_cons_self ..)), by simp [occurrences]⟩
      rw [← (leafItems_facts _).2.2.2, h] at this
      simp at this
  · rintro rfl
    have := (leafItems_facts []).2.2.1
    unfold leafItems
    rw [List.filter_eq_nil_iff.2 (by simp [occurrences])]
    rfl

/-- The leaves of the tree of an input (R184, R188). -/
theorem treeOf_leaves {xs : List Byte} (hx : ∀ x ∈ xs, x.toNat < 128) :
    (xs = [] ∧ treeOf xs = .leaf 0x00#8) ∨
      (treeOf xs).leaves.Perm (symbols.filter fun sym => occurrences xs sym != 0) := by
  by_cases h : leafItems xs = []
  · left
    refine ⟨(leafItems_nil_iff hx).1 h, ?_⟩
    unfold treeOf; rw [h]; rfl
  · right
    obtain ⟨item, hall, hleaves⟩ := mergeAll_leaves (leafItems xs).length h (by omega)
    rw [(leafItems_facts xs).2.2.2] at hleaves
    unfold treeOf
    rw [hall]
    exact hleaves

theorem treeOf_nodup {xs : List Byte} (hx : ∀ x ∈ xs, x.toNat < 128) :
    (treeOf xs).leaves.Nodup ∧ (∀ x ∈ (treeOf xs).leaves, x.toNat < 128) ∧ (treeOf xs).size ≤ 255 := by
  rcases treeOf_leaves hx with ⟨rfl, h⟩ | h
  · rw [h]; simp [Tree.leaves, Tree.size]
  · refine ⟨h.nodup_iff.2 (symbols_nodup.filter _), fun x hm => ?_, ?_⟩
    · exact mem_symbols.1 (List.mem_filter.1 (h.mem_iff.1 hm)).1
    · have h1 := leaves_length (treeOf xs)
      have h2 := h.length_eq
      have h3 : (symbols.filter fun sym => occurrences xs sym != 0).length ≤ symbols.length := List.length_filter_le _ _
      rw [symbols_length] at h3
      omega

/-- Every symbol of the input has a leaf. -/
theorem treeOf_mem {xs : List Byte} (hx : ∀ x ∈ xs, x.toNat < 128) {sym : Byte} (h : sym ∈ xs) : sym ∈ (treeOf xs).leaves := by
  rcases treeOf_leaves hx with ⟨rfl, _⟩ | hp
  · simp at h
  · rw [hp.mem_iff, List.mem_filter]
    exact ⟨mem_symbols.2 (hx sym h), by simp [occurrences, List.count_eq_zero, h]⟩

theorem code_walk {t : Tree} {sym : Byte} (h : sym ∈ t.leaves) : t.walk (code t sym) = some sym := by
  obtain ⟨p, hp⟩ := codeOf_some h
  unfold code
  rw [hp]
  exact walk_codeOf hp

theorem code_length {xs : List Byte} (hx : ∀ x ∈ xs, x.toNat < 128) (sym : Byte) : (code (treeOf xs) sym).length ≤ 127 := by
  by_cases h : sym ∈ (treeOf xs).leaves
  · have := walk_length (code_walk h)
    have := (treeOf_nodup hx).2.2
    omega
  · unfold code; rw [codeOf_none h]; simp

end Sys2Proof.Artifact
end

