-- ==== Sys2Proof/Laws/Scan.lean ====
section
/-! SUPPORT. COMPRESS, followed step by step: its start (R182) and the scan (R183). -/

namespace Sys2Proof.Machine

open Sys2Proof.Artifact

/-! ## What the scan leaves -/

/-- Bytes stored in INBUF from an address on. -/
def Memory.store (m : Memory) : Nat → List Byte → Memory
  | _, [] => m
  | a, x :: xs => (m.write a x).store (a + 1) xs

theorem Memory.read_store (xs : List Byte) : ∀ (m : Memory) (a n : Nat),
    (m.store a xs).read n = if a ≤ n ∧ n < a + xs.length then xs[n - a]? else m.read n := by
  induction xs with
  | nil => intro m a n; rw [Memory.store, if_neg (by simp)]
  | cons x xs ih =>
    intro m a n
    rw [Memory.store, ih]
    by_cases h : n = a
    · subst h; simp [Memory.read_write_same]
    · rw [Memory.read_write_other m x h]
      by_cases h' : a ≤ n ∧ n < a + (x :: xs).length
      · rw [if_pos h', if_pos (by simp at h'; omega), show n - a = (n - (a + 1)) + 1 by omega, List.getElem?_cons_succ]
      · rw [if_neg h', if_neg (by simp at h' ⊢; omega)]

/-- FREQ after counting bytes. -/
def Tables.countAll (t : Tables) (xs : List Byte) : Tables := xs.foldl Tables.count t

theorem Tables.freqAt_count (t : Tables) {x sym : Byte} (hx : x.toNat < 128) (hs : sym.toNat < 128) :
    (t.count x).freqAt sym = t.freqAt sym + if x = sym then 1#32 else 0#32 := by
  have h1 : x.toNat < t.freq.size := hx
  have h2 : sym.toNat < t.freq.size := hs
  unfold Tables.count Tables.freqAt
  simp only [Vector.getElem?_setIfInBounds]
  by_cases h : x = sym
  · subst h; simp [hx]
  · rw [if_neg (fun e => h (BitVec.eq_of_toNat_eq e)), if_neg h]; simp

theorem Tables.countAll_codes (xs : List Byte) : ∀ t : Tables,
    (t.countAll xs).codeLen = t.codeLen ∧ (t.countAll xs).codeBits = t.codeBits := by
  induction xs with
  | nil => exact fun t => ⟨rfl, rfl⟩
  | cons x xs ih => exact fun t => ih (t.count x)

theorem Tables.freqAt_countAll (xs : List Byte) {sym : Byte} (hs : sym.toNat < 128) : ∀ t : Tables,
    (∀ x ∈ xs, x.toNat < 128) → (t.countAll xs).freqAt sym = t.freqAt sym + BitVec.ofNat 32 (occurrences xs sym) := by
  induction xs with
  | nil => intro t _; simp [Tables.countAll, occurrences]
  | cons x xs ih =>
    intro t h
    have := ih (t.count x) fun y hy => h y (List.mem_cons_of_mem _ hy)
    rw [Tables.countAll, List.foldl_cons, ← Tables.countAll, this, Tables.freqAt_count t (h x (List.mem_cons_self ..)) hs]
    unfold occurrences
    rw [List.count_cons, BitVec.ofNat_add]
    by_cases hx : x = sym
    · subst hx; simp only [if_true, beq_self_eq_true]; ac_rfl
    · simp [hx]

theorem Tables.freqAt_zero (sym : Byte) : Tables.zero.freqAt sym = 0#32 := by
  unfold Tables.freqAt Tables.zero
  cases h : (Vector.replicate 128 0#32)[sym.toNat]? with
  | none => rfl
  | some v =>
    rw [Vector.getElem?_replicate] at h
    split at h
    · simpa using h.symm
    · cases h

/-! ## The start and the scan -/

/-- COMPRESS under way: the phase, and what `CInit` leaves in the state that no later step but the close changes. -/
def State.compressing (s : State) (phase : Phase) (todo : List Micro) : State :=
  { s with
    busy := true
    rd := .empty
    seq := { phase := phase, todo := todo, stack := [], value := 0#32, latch := some ⟨0x31#8, 0x00#8, s.arg, s.arg2, .min⟩ } }

/-- The scan after some bytes. -/
def State.scanned (s : State) (m : Memory) (t : Tables) (n : Nat) : State :=
  { s with inbuf := m, tables := t, inlen := BitVec.ofNat 32 n, srcCount := BitVec.ofNat 32 n }

/-- The state of the writer, the queue and the arena after `CInit`. -/
def State.blank (s : State) : State :=
  { s with wr := .empty, snkCount := 0#32, heap := [], nodes := [], root := 0#8, treeNodes := 0#32 }

theorem goes_cInit {s : State} {w : Wire} {steps : List Micro} :
    Goes 1 (accept .compress (.cInit :: steps) s) w (((s.blank.compressing .cScan steps)).scanned s.inbuf .zero 0) w :=
  .step (m := .cInit) (rest := steps) rfl fun q => by
    simp only [microStep, cInit, freshStreams, State.useMin, State.enter, accept, State.next, State.on, State.compressing,
      State.scanned, State.blank]
    rfl

section
variable {s : State} {w : Wire}

theorem scanStep_byte {s : State} {b : Byte} {items : List SrcItem} {ended : Bool}
    (h : s.ports.src.holds (.byte b :: items) ended) (hb : b.toNat < 128) (room : s.inlen.toNat < s.params.inbufCap) :
    scanStep s = .go (State.before
      { s with
        srcCount := s.srcCount + 1
        ports := s.ports.giving [b] items ended
        inbuf := s.inbuf.write s.inlen.toNat b
        tables := s.tables.count b
        inlen := s.inlen + 1 } [.scan]) := by
  unfold scanStep
  rw [srcRead_byte h]
  simp only [Reply.andThen]
  rw [if_neg (by simp only [Config.alphabet]; omega), if_neg (by omega)]

theorem scanStep_symbol {s : State} {b : Byte} {items : List SrcItem} {ended : Bool}
    (h : s.ports.src.holds (.byte b :: items) ended) (hb : 128 ≤ b.toNat) :
    scanStep s = .raise .symbol { s with srcCount := s.srcCount + 1, ports := s.ports.giving [b] items ended } := by
  unfold scanStep
  rw [srcRead_byte h]
  simp only [Reply.andThen]
  rw [if_pos (by simp only [Config.alphabet]; omega)]

theorem scanStep_tooLong {s : State} {b : Byte} {items : List SrcItem} {ended : Bool}
    (h : s.ports.src.holds (.byte b :: items) ended) (hb : b.toNat < 128) (full : s.params.inbufCap ≤ s.inlen.toNat) :
    scanStep s = .raise .tooLong { s with srcCount := s.srcCount + 1, ports := s.ports.giving [b] items ended } := by
  unfold scanStep
  rw [srcRead_byte h]
  simp only [Reply.andThen]
  rw [if_neg (by simp only [Config.alphabet]; omega), if_pos full]

theorem scanStep_ioErr {s : State} {items : List SrcItem} {ended : Bool} (h : s.ports.src.holds (.ioErr :: items) ended) :
    scanStep s = .raise .ioSrc { s with ports := s.ports.givingThen [] .srcIoErr items ended } := by
  unfold scanStep; rw [srcRead_ioErr h]; rfl

theorem Ports.sunk_givingThen {p : Ports} {bs : List Byte} {e : PortEvent} {items : List SrcItem} {ended : Bool}
    (h : ∀ b, e ≠ .snkOk b) : (p.givingThen bs e items ended).sunk = p.sunk := by
  have : (p.givingThen bs e items ended).sunk = (p.giving bs items ended).sunk := by
    unfold Ports.givingThen Ports.note Ports.sunk
    cases e with
    | snkOk b => exact absurd rfl (h b)
    | _ => simp
  rw [this, Ports.sunk_giving]

/-- The bytes of the input are stored and counted (R183). -/
theorem goes_scan {rest : List Micro} {items : List SrcItem} (xs : List Byte) : ∀ {m : Memory} {t : Tables} {n : Nat},
    (∀ x ∈ xs, x.toNat < 128) → n + xs.length ≤ s.params.inbufCap → s.params.inbufCap < 2147483648 →
    Goes xs.length ((s.compressing .cScan (.scan :: rest)).scanned m t n) { w with left := xs.map .byte ++ items }
      ((s.compressing .cScan (.scan :: rest)).scanned (m.store n xs) (t.countAll xs) (n + xs.length))
      { w with left := items } := by
  induction xs with
  | nil => intro m t n _ _ _; exact .refl _ _
  | cons x xs ih =>
    intro m t n hx hcap hbig
    simp only [List.length_cons] at hcap
    have g2 := ih (m := m.write n x) (t := t.count x) (n := n + 1) (fun y hy => hx y (List.mem_cons_of_mem _ hy)) (by omega) hbig
    have g1 : Goes 1 ((s.compressing .cScan (.scan :: rest)).scanned m t n) { w with left := (x :: xs).map .byte ++ items }
        ((s.compressing .cScan (.scan :: rest)).scanned (m.write n x) (t.count x) (n + 1))
        { w with left := xs.map .byte ++ items } := by
      intro p hp
      have hn : (BitVec.ofNat 32 n).toNat = n := by rw [BitVec.toNat_ofNat]; omega
      refine ⟨1, p.giving [x] (xs.map .byte ++ items) w.ended, le_rfl, ⟨holds_giving hp.src, ?_, ?_, ?_⟩, ?_⟩
      · rw [giving_snk]; exact hp.snk
      · rw [giving_snk]; exact hp.full
      · rw [Ports.sunk_giving]; exact hp.sunk
      · refine .one (m := .scan) (rest := rest) rfl ?_
        refine (scanStep_byte (b := x) (items := xs.map .byte ++ items) (ended := w.ended) hp.src
          (hx x (List.mem_cons_self ..)) (show (BitVec.ofNat 32 n).toNat < s.params.inbufCap by omega)).trans ?_
        simp only [State.before, State.scanned, State.compressing, State.on, State.next, hn, BitVec.ofNat_add,
          List.cons_append, List.nil_append]
        rfl
    rw [show n + (x :: xs).length = n + 1 + xs.length by simp only [List.length_cons]; omega]
    exact (g1.trans g2).mono (by simp only [List.length_cons]; omega)

/-- The end of the input (R183): SYMCOUNT is written. -/
theorem goes_scanEnd {rest : List Micro} {m : Memory} {t : Tables} {n : Nat} :
    Goes 1 ((s.compressing .cScan (.scan :: rest)).scanned m t n) { w with left := [], ended := true }
      ((({ s with symcount := BitVec.ofNat 32 n } : State).compressing .cScan rest).scanned m t n)
      { w with left := [], ended := true } := by
  intro p hp
  refine ⟨1, p.givingThen [] .srcEnd [] true, le_rfl, ⟨?_, ?_, ?_, ?_⟩, ?_⟩
  · have := holds_giving (bs := []) (items := []) (ended := true) hp.src
    exact this
  · have : (p.givingThen [] .srcEnd [] true).snk = p.snk := rfl
    rw [this]; exact hp.snk
  · have : (p.givingThen [] .srcEnd [] true).snk = p.snk := rfl
    rw [this]; exact hp.full
  · have : (p.givingThen [] .srcEnd [] true).sunk = (p.giving [] [] true).sunk := by
      simp [Ports.sunk, Ports.givingThen, Ports.note]
    rw [this, Ports.sunk_giving]; exact hp.sunk
  · refine .one (m := .scan) (rest := rest) rfl ?_
    have := srcRead_ended (s := (((s.compressing .cScan (.scan :: rest)).scanned m t n).on p).next rest) hp.src
    unfold microStep scanStep
    rw [this]
    rfl

end

end Sys2Proof.Machine
end

