-- ==== Sys2Proof/Laws/Compress.lean ====
section
/-! SUPPORT. COMPRESS as a whole: the chain from its acceptance to its close (R181 to R194). -/

namespace Sys2Proof.Machine

open Sys2Proof.Artifact

/-- Everything COMPRESS has left in the state at a point of its run. -/
structure Progress where
  symcount : Word
  inbuf : Memory
  tables : Tables
  count : Nat
  nodes : List Node
  heap : List Entry
  root : Byte
  bits : List Bool

/-- The state at a point of the run. -/
def State.at' (s : State) (phase : Phase) (todo : List Micro) (x : Progress) : State :=
  ((({ s with symcount := x.symcount, root := x.root } : State).compressing phase todo).scanned x.inbuf x.tables x.count
    |>.built x.nodes x.heap).wrote x.bits

theorem State.wrote_nil (s : State) : s.wrote [] = { s with wr := .empty, snkCount := 0#32 } := by
  simp [State.wrote, pendingOf, Cursor.empty]

section
variable {s : State} {w : Wire} {room : Nat} {sunk : List Byte}

theorem goes_enterPhase {phase p : Phase} {rest : List Micro} {x : Progress} {w : Wire} :
    Goes 1 (s.at' phase (.enterPhase p :: rest) x) w (s.at' p rest x) w :=
  .step (m := .enterPhase p) (rest := rest) rfl fun q => by
    simp only [microStep, State.enter, State.on, State.next, State.at', State.compressing, State.scanned, State.built,
      State.wrote]

/-- The start of serialization (R190). -/
theorem goes_serialize {phase : Phase} {rest : List Micro} {x : Progress} :
    Goes 2 (s.at' phase (.enterPhase .cSerial :: .serialize :: rest) x) (w.wrote room sunk x.bits)
      (s.at' .cSerial (.serNode x.root :: rest) x) (w.wrote room sunk x.bits) :=
  .trans (n := 1) (m := 1) (t := s.at' .cSerial (.serialize :: rest) x) goes_enterPhase
    (.step (m := .serialize) (rest := rest) rfl fun q => by
      simp only [microStep, State.before, State.on, State.next, State.at', State.compressing, State.scanned, State.built,
        State.wrote, List.cons_append, List.nil_append])

/-- The start of the count (R192). -/
theorem goes_writeCount {phase : Phase} {rest : List Micro} {x : Progress} :
    Goes 2 (s.at' phase (.enterPhase .cCount :: .writeCount :: rest) x) (w.wrote room sunk x.bits)
      (s.at' .cCount ((msbFirst (BitVec.ofNat 32 x.count)).map Micro.writeBit ++ rest) x) (w.wrote room sunk x.bits) :=
  .trans (n := 1) (m := 1) (t := s.at' .cCount (.writeCount :: rest) x) goes_enterPhase
    (.step (m := .writeCount) (rest := rest) rfl fun q => by
      simp only [microStep, State.before, State.on, State.next, State.at', State.compressing, State.scanned, State.built,
        State.wrote])

/-- The scan (R182, R183). -/
theorem goes_input {rest : List Micro} {xs : List Byte} (hx : ∀ x ∈ xs, x.toNat < 128) (cap : xs.length ≤ s.params.inbufCap)
    (big : s.params.inbufCap < 2147483648) (hw : w.left = xs.map .byte ∧ w.ended = true) :
    Goes (xs.length + 2) (accept .compress (.cInit :: .scan :: rest) s) w
      (s.at' .cScan rest ⟨BitVec.ofNat 32 xs.length, s.inbuf.store 0 xs, Tables.zero.countAll xs, xs.length, [], [], 0#8, []⟩)
      { w with left := [] } := by
  have g1 := goes_cInit (s := s) (w := w) (steps := .scan :: rest)
  have g2 := goes_scan (s := s.blank) (w := w) (rest := rest) (items := []) xs (m := s.inbuf) (t := .zero) (n := 0) hx
    (by show 0 + xs.length ≤ s.params.inbufCap; omega) big
  have g3 := goes_scanEnd (s := s.blank) (w := w) (rest := rest) (m := s.inbuf.store 0 xs) (t := Tables.zero.countAll xs)
    (n := xs.length)
  obtain ⟨left, ended, r, full, k⟩ := w
  obtain ⟨rfl, rfl⟩ := hw
  simp only [List.append_nil, Nat.zero_add] at g2
  have e : s.at' .cScan rest
      ⟨BitVec.ofNat 32 xs.length, s.inbuf.store 0 xs, Tables.zero.countAll xs, xs.length, [], [], 0#8, []⟩ =
      (({ s.blank with symcount := BitVec.ofNat 32 xs.length } : State).compressing .cScan rest).scanned (s.inbuf.store 0 xs)
        (Tables.zero.countAll xs) xs.length := by
    rw [State.at', State.wrote_nil]; rfl
  rw [e]
  have := (g1.trans g2).trans g3
  exact this.mono (by omega)

/-- FREQ after COMPRESS has read its input (R49, R183). -/
theorem freq_counted {xs : List Byte} (hx : ∀ x ∈ xs, x.toNat < 128) {sym : Byte} (hs : sym.toNat < 128) :
    (Tables.zero.countAll xs).freqAt sym = BitVec.ofNat 32 (occurrences xs sym) := by
  rw [Tables.freqAt_countAll xs hs _ hx, Tables.freqAt_zero, BitVec.zero_add]

/-- The leaves and the merges (R184, R186). -/
theorem goes_makeTree {rest : List Micro} {xs : List Byte} (hx : ∀ x ∈ xs, x.toNat < 128) (cap : 128 ≤ s.params.pqCap)
    (small : xs.length < 2147483648) {n : Word} {m : Memory} {w : Wire} :
    ∃ nodes root, HasTree nodes root (treeOf xs) ∧ nodes.length = (treeOf xs).size ∧
      Goes 4 (s.at' .cScan (.enterPhase .cLeaves :: .makeLeaves :: .enterPhase .cBuild :: .build :: rest)
          ⟨n, m, Tables.zero.countAll xs, xs.length, [], [], 0#8, []⟩) w
        (s.at' .cBuild rest ⟨n, m, Tables.zero.countAll xs, xs.length, nodes, [], root, []⟩) w := by
  have counts : ∀ sym : Byte, sym.toNat < 128 →
      (Tables.zero.countAll xs).freqAt sym = BitVec.ofNat 32 (occurrences xs sym) := fun sym hs => freq_counted hx hs
  have facts := leafItems_facts xs
  have base : ∀ (q : Ports) (phase : Phase) (todo : List Micro) (nodes : List Node) (heap : List Entry) (root : Byte),
      (s.at' phase todo ⟨n, m, Tables.zero.countAll xs, xs.length, nodes, heap, root, []⟩).on q =
        State.built ((s.at' phase todo ⟨n, m, Tables.zero.countAll xs, xs.length, [], [], root, []⟩).on q) nodes heap :=
    fun _ _ _ _ _ _ => rfl
  obtain ⟨nodes1, heap1, hgo1, hst1, hlen1⟩ := makeLeavesOf_stands (xs := xs) (by omega) symbols
    (nodes := []) (heap := []) (items := []) ⟨by intro i _; simp [heapBefore], ⟨[], .refl _, .nil⟩, .nil⟩ rfl
    (by rw [symbols_length]; simp) (fun sym h => mem_symbols.1 h) symbols_nodup (by simp)
  rw [List.nil_append, leavesOf_symbols] at hst1 hlen1
  have hfits : Fits nodes1 (leafItems xs) := ⟨by omega, by rw [facts.2.1, hlen1], by omega⟩
  obtain ⟨nodes2, root, hgo2, htree, hlen2, _⟩ := buildTree_stands hst1 hfits facts.1
  refine ⟨nodes2, root, by unfold treeOf; exact htree, by unfold treeOf; exact hlen2, ?_⟩
  have g1 : Goes 1 (s.at' .cScan (.enterPhase .cLeaves :: .makeLeaves :: .enterPhase .cBuild :: .build :: rest)
      ⟨n, m, Tables.zero.countAll xs, xs.length, [], [], 0#8, []⟩) w _ w := goes_enterPhase
  have g2 : Goes 1 (s.at' .cLeaves (.makeLeaves :: .enterPhase .cBuild :: .build :: rest)
        ⟨n, m, Tables.zero.countAll xs, xs.length, [], [], 0#8, []⟩) w
      (s.at' .cLeaves (.enterPhase .cBuild :: .build :: rest)
        ⟨n, m, Tables.zero.countAll xs, xs.length, nodes1, heap1, 0#8, []⟩) w :=
    .step (m := .makeLeaves) (rest := .enterPhase .cBuild :: .build :: rest) rfl fun q =>
      hgo1 ((s.at' .cLeaves (.enterPhase .cBuild :: .build :: rest)
        ⟨n, m, Tables.zero.countAll xs, xs.length, [], [], 0#8, []⟩).on q) ⟨cap, rfl⟩ counts
  have g3 : Goes 1 (s.at' .cLeaves (.enterPhase .cBuild :: .build :: rest)
      ⟨n, m, Tables.zero.countAll xs, xs.length, nodes1, heap1, 0#8, []⟩) w _ w := goes_enterPhase
  have g4 : Goes 1 (s.at' .cBuild (.build :: rest)
        ⟨n, m, Tables.zero.countAll xs, xs.length, nodes1, heap1, 0#8, []⟩) w
      (s.at' .cBuild rest ⟨n, m, Tables.zero.countAll xs, xs.length, nodes2, [], root, []⟩) w :=
    .step (m := .build) (rest := rest) rfl fun q =>
      hgo2 ((s.at' .cBuild rest ⟨n, m, Tables.zero.countAll xs, xs.length, [], [], 0#8, []⟩).on q) ⟨cap, rfl⟩
  exact ((g1.trans g2).trans g3).trans g4

/-- The tree with its codes (R190). -/
theorem goes_serialTree {phase : Phase} {rest : List Micro} {xs : List Byte} {n : Word} {m : Memory} {t : Tables} {nodes : List Node}
    {heap : List Entry} {root : Byte} (tree : HasTree nodes root (treeOf xs)) (fits : (treeOf xs).bits.length / 8 ≤ room) :
    Goes (22 * (treeOf xs).size + 3)
      (s.at' phase (.enterPhase .cSerial :: .serialize :: rest) ⟨n, m, t, xs.length, nodes, heap, root, []⟩) (w.wrote room sunk [])
      (s.at' .cSerial rest ⟨n, m, recordAll t [] (treeOf xs), xs.length, nodes, heap, root, (treeOf xs).bits⟩)
      (w.wrote room sunk (treeOf xs).bits) := by
  have g1 := goes_serialize (s := s) (w := w) (room := room) (sunk := sunk) (phase := phase) (rest := rest)
    (x := ⟨n, m, t, xs.length, nodes, heap, root, []⟩)
  have g2 := goes_ser (s := s.at' .cSerial [] ⟨n, m, t, xs.length, nodes, heap, root, []⟩) (w := w) (room := room) (sunk := sunk)
    (treeOf xs) (n := root) (t := t) (stack := []) (bits := []) (rest := rest) tree (by rw [List.length_nil]; omega)
  rw [List.nil_append] at g2
  have g3 : Goes 1 (s.at' .cSerial (.serReturn :: rest)
        ⟨n, m, recordAll t [] (treeOf xs), xs.length, nodes, heap, root, (treeOf xs).bits⟩) (w.wrote room sunk (treeOf xs).bits)
      (s.at' .cSerial rest ⟨n, m, recordAll t [] (treeOf xs), xs.length, nodes, heap, root, (treeOf xs).bits⟩)
      (w.wrote room sunk (treeOf xs).bits) :=
    .step (m := .serReturn) (rest := rest) rfl fun q => rfl
  exact ((g1.trans g2).trans g3).mono (by omega)

/-- The count (R192). -/
theorem goes_countBits {phase : Phase} {rest : List Micro} {x : Progress} (fits : (x.bits.length + 32) / 8 ≤ room) :
    Goes 66 (s.at' phase (.enterPhase .cCount :: .writeCount :: rest) x) (w.wrote room sunk x.bits)
      (s.at' .cCount rest { x with bits := x.bits ++ msbFirst (BitVec.ofNat 32 x.count) })
      (w.wrote room sunk (x.bits ++ msbFirst (BitVec.ofNat 32 x.count))) :=
  (goes_writeCount.trans (goes_writeBits (w := w) (room := room) (sunk := sunk) (msbFirst (BitVec.ofNat 32 x.count))
    (s := s.at' .cCount ((msbFirst (BitVec.ofNat 32 x.count)).map Micro.writeBit ++ rest) x) (bits := x.bits) (rest := rest) rfl
    (by rw [msbFirst_length]; exact fits))).mono (by rw [msbFirst_length])

/-- The codes that the payload reads from the table are the tree's (R191). -/
theorem codes_recorded {xs : List Byte} (hx : ∀ x ∈ xs, x.toNat < 128) (t : Tables) : ∀ x ∈ xs,
    codePath ((recordAll t [] (treeOf xs)).lenAt x) ((recordAll t [] (treeOf xs)).bitsAt x) = code (treeOf xs) x := by
  intro x hm
  obtain ⟨nodup, alphabet, -⟩ := treeOf_nodup hx
  obtain ⟨p, hp⟩ := codeOf_some (treeOf_mem hx hm)
  have := recordAll_at (hx x hm) (treeOf xs) t [] alphabet nodup
  rw [this.1, this.2, hp]
  have hl := code_length hx x
  unfold code at hl ⊢
  rw [hp] at hl ⊢
  exact codePath_codeOfPath hl

/-- The code table that COMPRESS leaves: the tree's codes, and the empty code for every symbol without a leaf (R50, R191). -/
theorem table_recorded {xs : List Byte} (hx : ∀ x ∈ xs, x.toNat < 128) {sym : Byte} (hs : sym.toNat < 128) :
    (recordAll (Tables.zero.countAll xs) [] (treeOf xs)).lenAt sym = BitVec.ofNat 8 (code (treeOf xs) sym).length ∧
      (recordAll (Tables.zero.countAll xs) [] (treeOf xs)).bitsAt sym = codeOfPath (code (treeOf xs) sym) := by
  obtain ⟨nodup, alphabet, -⟩ := treeOf_nodup hx
  have h := recordAll_at hs (treeOf xs) (Tables.zero.countAll xs) [] alphabet nodup
  have zero := Tables.countAll_codes xs Tables.zero
  unfold code
  cases hc : (treeOf xs).codeOf sym with
  | some q => rw [hc] at h; exact h
  | none =>
    rw [hc] at h
    rw [h.1, h.2]
    unfold Tables.lenAt Tables.bitsAt
    rw [zero.1, zero.2]
    simp [Tables.zero, hs, codeOfPath]

/-- The tree with its codes, the count and the payload (R190 to R193). -/
theorem goes_write {phase : Phase} {rest : List Micro} {xs : List Byte} (hx : ∀ x ∈ xs, x.toNat < 128)
    (small : xs.length < 2147483648) {n : Word} {m : Memory} {t : Tables} {nodes : List Node} {heap : List Entry} {root : Byte}
    (tree : HasTree nodes root (treeOf xs)) (input : ∀ i < xs.length, m.read i = xs[i]?)
    (fits : (artifactBits xs).length / 8 ≤ room) :
    Goes (22 * (treeOf xs).size + 256 * xs.length + 80)
      (s.at' phase (.enterPhase .cSerial :: .serialize :: .enterPhase .cCount :: .writeCount :: .enterPhase .cPayload ::
        .payload 0 :: rest) ⟨n, m, t, xs.length, nodes, heap, root, []⟩) (w.wrote room sunk [])
      (s.at' .cPayload rest ⟨n, m, recordAll t [] (treeOf xs), xs.length, nodes, heap, root, artifactBits xs⟩)
      (w.wrote room sunk (artifactBits xs)) := by
  have hN : (BitVec.ofNat 32 xs.length).toNat = xs.length := by rw [BitVec.toNat_ofNat]; omega
  have hlen : (artifactBits xs).length = (treeOf xs).bits.length + 32 + (xs.flatMap (code (treeOf xs))).length := by
    simp only [artifactBits, List.length_append, msbFirst_length]
  have g1 := goes_serialTree (s := s) (w := w) (sunk := sunk) (phase := phase)
    (rest := .enterPhase .cCount :: .writeCount :: .enterPhase .cPayload :: .payload 0 :: rest) (n := n) (m := m) (t := t)
    (heap := heap) tree (show (treeOf xs).bits.length / 8 ≤ room by omega)
  let x : Progress := ⟨n, m, recordAll t [] (treeOf xs), xs.length, nodes, heap, root, (treeOf xs).bits⟩
  let bits := (treeOf xs).bits ++ msbFirst (BitVec.ofNat 32 xs.length)
  have hb : bits.length = (treeOf xs).bits.length + 32 := by simp only [bits, List.length_append, msbFirst_length]
  have g2 := goes_countBits (s := s) (w := w) (sunk := sunk) (phase := .cSerial) (rest := .enterPhase .cPayload :: .payload 0 :: rest)
    (x := x) (show ((treeOf xs).bits.length + 32) / 8 ≤ room by omega)
  have g3 : Goes 1 (s.at' .cCount (.enterPhase .cPayload :: .payload 0 :: rest) { x with bits := bits })
      (w.wrote room sunk bits) _ (w.wrote room sunk bits) := goes_enterPhase
  have g4 := goes_payload (w := w) (room := room) (sunk := sunk) (s := s.at' .cPayload [] { x with bits := bits })
    (code := code (treeOf xs)) (xs := xs) (rest := rest) hN input (codes_recorded hx t) (fun x _ => code_length hx x) xs (i := 0)
    (bits := bits) rfl (by omega) (by omega)
  exact (((g1.trans g2).trans g3).trans g4).mono (by omega)

/-- COMPRESS from its acceptance to its close (R195). -/
theorem goes_compress {xs : List Byte} (hx : ∀ x ∈ xs, x.toNat < 128) (legal : s.params.legal)
    (cap : xs.length ≤ s.params.inbufCap) (hw : w.left = xs.map .byte ∧ w.ended = true)
    (fits : (artifact xs).length ≤ room) :
    ∃ nodes root, nodes.length = (treeOf xs).size ∧
      Goes (2000 * xs.length + 10000) (accept .compress compressSteps s) (w.gave room sunk)
        (({ s.at' .cClose (closeSteps.drop 1) ⟨BitVec.ofNat 32 xs.length, s.inbuf.store 0 xs,
          recordAll (Tables.zero.countAll xs) [] (treeOf xs), xs.length, nodes, [], root, artifactBits xs⟩ with wr := .empty } :
            State).counted (artifact xs).length)
        (({ w with left := [] } : Wire).packed room sunk (artifactBits xs)) := by
  have big : s.params.inbufCap < 2147483648 := by have := legal; simp only [Params.legal] at this; omega
  have pq : 128 ≤ s.params.pqCap := by have := legal; simp only [Params.legal] at this; omega
  let close := Micro.enterPhase .cClose :: .flush .raise :: closeSteps.drop 1
  let write := Micro.enterPhase .cSerial :: .serialize :: .enterPhase .cCount :: .writeCount :: .enterPhase .cPayload ::
    .payload 0 :: close
  have g1 := goes_input (s := s) (w := w.gave room sunk)
    (rest := .enterPhase .cLeaves :: .makeLeaves :: .enterPhase .cBuild :: .build :: write) hx cap big hw
  obtain ⟨nodes, root, tree, size, g2⟩ := goes_makeTree (s := s) (rest := write) hx pq (by omega)
    (n := BitVec.ofNat 32 xs.length) (m := s.inbuf.store 0 xs) (w := ({ w with left := [] } : Wire).wrote room sunk [])
  have g3 := goes_write (s := s) (w := { w with left := [] }) (room := room) (sunk := sunk) (phase := .cBuild) (rest := close)
    (n := BitVec.ofNat 32 xs.length) (m := s.inbuf.store 0 xs) (t := Tables.zero.countAll xs) (heap := []) hx (by omega) tree
    (fun i hi => by rw [Memory.read_store, if_pos (by omega), Nat.sub_zero])
    (by rw [artifact, pack_length, bytesFor] at fits; omega)
  have g4 : Goes 1 (s.at' .cPayload close ⟨BitVec.ofNat 32 xs.length, s.inbuf.store 0 xs,
      recordAll (Tables.zero.countAll xs) [] (treeOf xs), xs.length, nodes, [], root, artifactBits xs⟩)
      (({ w with left := [] } : Wire).wrote room sunk (artifactBits xs)) _
      (({ w with left := [] } : Wire).wrote room sunk (artifactBits xs)) := goes_enterPhase
  have g5 := goes_flush (s := s.at' .cClose (.flush .raise :: closeSteps.drop 1) ⟨BitVec.ofNat 32 xs.length, s.inbuf.store 0 xs,
      recordAll (Tables.zero.countAll xs) [] (treeOf xs), xs.length, nodes, [], root, artifactBits xs⟩)
    (w := { w with left := [] }) (room := room) (sunk := sunk) (bits := artifactBits xs) (onFail := .raise)
    (rest := closeSteps.drop 1) rfl (by rw [← pack_length]; exact fits)
  refine ⟨nodes, root, size, ?_⟩
  have size := (treeOf_nodup hx).2.2
  have hlen : (artifact xs).length = bytesFor (artifactBits xs).length := pack_length _
  rw [hlen]
  have w0 : ({ (w.gave room sunk) with left := [] } : Wire) = ({ w with left := [] } : Wire).wrote room sunk [] := by
    simp [Wire.gave, Wire.wrote, wholeOf]
  rw [w0] at g1
  have := (((g1.trans g2).trans g3).trans g4).trans g5
  exact this.mono (by omega)

end

end Sys2Proof.Machine
end

