-- ==== Sys2Proof/Laws/CompressErrors.lean ====
section
/-! SUPPORT. COMPRESS to a sink that refuses a byte of the artifact: the chain up to the append it refuses (R120, R181, V-C12). -/

namespace Sys2Proof.Machine

open Sys2Proof.Artifact

/-- From the state, with `bits` written, the writer comes to the byte after the `room` bytes of `all` that the sink accepts; the
state is `mid` then, but for the writer. -/
def Chokes (n : Nat) (w : Wire) (room : Nat) (sunk : List Byte) (all bits : List Bool) (start mid : State) : Prop :=
  ∃ b rest, Goes n (start.wrote bits) (w.wrote room sunk bits)
    (({ mid.next (.append b .raise :: rest) with wr := .empty } : State).counted room)
    (w.gave 0 (sunk ++ wholeOf (all.take (8 * room + 7))))

section
variable {s : State} {w : Wire} {room : Nat} {sunk : List Byte} {all : List Bool}

theorem Chokes.after {n m : Nat} {start mid stop : State} {before bits : List Bool}
    (h : Chokes m w room sunk all bits mid stop)
    (g : Goes n (start.wrote before) (w.wrote room sunk before) (mid.wrote bits) (w.wrote room sunk bits)) :
    Chokes (n + m) w room sunk all before start stop := by
  obtain ⟨b, rest, h⟩ := h
  exact ⟨b, rest, g.trans h⟩

theorem Chokes.mono {n m : Nat} {start mid : State} {bits : List Bool} (h : Chokes n w room sunk all bits start mid)
    (hm : n ≤ m) : Chokes m w room sunk all bits start mid := by
  obtain ⟨b, rest, h⟩ := h
  exact ⟨b, rest, h.mono hm⟩

/-- The bit that completes the byte which the sink refuses (R120). -/
theorem chokes_writeBit {bits : List Bool} {b : Bool} {rest : List Micro} (todo : s.seq.todo = .writeBit b :: rest)
    (h : bits ++ [b] <+: all) (full : bits.length = 8 * room + 7) : Chokes 1 w room sunk all bits s s := by
  have hlen := pendingOf_length bits
  have hc : BitVec.ofNat 4 (pendingOf bits).length + 1#4 = 8#4 := by rw [hlen, full]; simp
  have hbits : all.take (8 * room + 7) = bits := by
    rw [← full]; exact (List.prefix_iff_eq_take.1 ((List.prefix_append bits [b]).trans h)).symm
  refine ⟨byteOf (pendingOf bits ++ [b]), rest, ?_⟩
  rw [hbits]
  have e : w.wrote room sunk bits = w.gave 0 (sunk ++ wholeOf bits) := by simp only [Wire.wrote, Wire.gave]; congr 1; omega
  rw [e]
  refine .step (m := .writeBit b) (rest := rest) todo fun q => ?_
  have := writeBit_full (s := ((s.wrote bits).next rest).on q) (b := b) hc
  refine (congrArg Move.go this).trans ?_
  simp only [State.before, State.on, State.next, State.wrote, State.counted, List.cons_append, List.nil_append]
  rw [← foldl_shiftIn_byteOf (bits := pendingOf bits ++ [b]) (by simp; omega), List.foldl_append, List.foldl_cons,
    List.foldl_nil, show bits.length / 8 = room by omega]

/-- Bits that go beyond what the sink accepts. -/
theorem chokes_writeBits (more : List Bool) : ∀ {s : State} {bits : List Bool} {rest : List Micro},
    s.seq.todo = more.map Micro.writeBit ++ rest → bits ++ more <+: all → bits.length ≤ 8 * room + 7 →
    8 * room + 7 < bits.length + more.length → Chokes (2 * more.length) w room sunk all bits s s := by
  induction more with
  | nil => intro s bits rest _ _ h1 h2; simp at h2; omega
  | cons b more ih =>
    intro s bits rest todo h h1 h2
    simp only [List.length_cons] at h2
    rw [← List.singleton_append, ← List.append_assoc] at h
    by_cases full : bits.length = 8 * room + 7
    · exact (chokes_writeBit todo ((List.prefix_append _ _).trans h) full).mono (by simp only [List.length_cons]; omega)
    · have g := goes_writeBit (s := s) (w := w) (room := room) (sunk := sunk) (bits := bits) (b := b)
        (rest := more.map Micro.writeBit ++ rest) todo (by omega)
      have := (ih (s := s.next (more.map Micro.writeBit ++ rest)) (rest := rest) rfl h
        (by simp only [List.length_append, List.length_singleton]; omega)
        (by simp only [List.length_append, List.length_singleton]; omega)).after g
      exact this.mono (by simp only [List.length_cons]; omega)

/-- A tree that goes beyond what the sink accepts: FREQ is not touched (R190, R191). -/
theorem chokes_ser (tree : Artifact.Tree) : ∀ {n : Byte} {t : Tables} {stack : List Frame} {bits : List Bool} {rest : List Micro},
    HasTree s.nodes n tree → bits ++ tree.bits <+: all → bits.length ≤ 8 * room + 7 →
    8 * room + 7 < bits.length + tree.bits.length →
    ∃ t' stack', t'.freq = t.freq ∧
      Chokes (22 * tree.size) w room sunk all bits (s.inSer t stack (.serNode n :: rest)) (s.inSer t' stack' []) := by
  induction tree with
  | leaf sym =>
    rintro n t stack bits rest ⟨f, hn⟩ h h1 h2
    have g1 : Goes 1 ((s.inSer t stack (.serNode n :: rest)).wrote bits) (w.wrote room sunk bits)
        ((s.inSer t stack ((true :: msbFirst sym).map Micro.writeBit ++ (.recordCode sym :: .serReturn :: rest))).wrote bits)
        (w.wrote room sunk bits) :=
      .step (m := .serNode n) (rest := rest) rfl fun q => by
        simp only [microStep, serNode, withNode, State.on, State.next, State.inSer, State.wrote, hn, State.before,
          List.map_cons, List.cons_append, List.append_assoc, List.nil_append]
    refine ⟨t, stack, rfl, ?_⟩
    have := (chokes_writeBits (w := w) (sunk := sunk) (true :: msbFirst sym)
      (s := s.inSer t stack ((true :: msbFirst sym).map Micro.writeBit ++ (.recordCode sym :: .serReturn :: rest)))
      (rest := .recordCode sym :: .serReturn :: rest) rfl h h1 h2).after g1
    exact this.mono (by simp only [List.length_cons, msbFirst_length, Artifact.Tree.size]; omega)
  | node l r ihl ihr =>
    rintro n t stack bits rest ⟨f, a, b, hn, hl, hr⟩ h h1 h2
    simp only [Artifact.Tree.bits, List.length_cons, List.length_append] at h h2
    have g1 : Goes 1 ((s.inSer t stack (.serNode n :: rest)).wrote bits) (w.wrote room sunk bits)
        ((s.inSer t (⟨n, false⟩ :: stack) (.writeBit false :: .serNode a :: rest)).wrote bits) (w.wrote room sunk bits) :=
      .step (m := .serNode n) (rest := rest) rfl fun q => by
        simp only [microStep, serNode, withNode, State.on, State.next, State.inSer, State.wrote, hn, State.before,
          List.cons_append, List.nil_append]
    rw [← List.singleton_append, ← List.append_assoc] at h
    by_cases full : bits.length = 8 * room + 7
    · refine ⟨t, ⟨n, false⟩ :: stack, rfl, ?_⟩
      have := (chokes_writeBit (w := w) (sunk := sunk) (b := false) (rest := .serNode a :: rest)
        (s := s.inSer t (⟨n, false⟩ :: stack) (.writeBit false :: .serNode a :: rest)) rfl
        ((List.prefix_append _ _).trans h) full).after g1
      exact this.mono (by simp only [Artifact.Tree.size]; omega)
    · have g2 := goes_writeBit (w := w) (room := room) (sunk := sunk) (bits := bits) (b := false)
        (s := s.inSer t (⟨n, false⟩ :: stack) (.writeBit false :: .serNode a :: rest)) (rest := .serNode a :: rest) rfl (by omega)
      rw [← List.append_assoc] at h
      by_cases hleft : 8 * room + 7 < (bits ++ [false]).length + l.bits.length
      · obtain ⟨t', stack', hf, c⟩ := ihl (t := t) (stack := ⟨n, false⟩ :: stack) (bits := bits ++ [false]) (rest := rest) hl
          ((List.prefix_append _ _).trans h) (by simp only [List.length_append, List.length_singleton]; omega) hleft
        exact ⟨t', stack', hf, (c.after (g1.trans g2)).mono (by simp only [Artifact.Tree.size]; omega)⟩
      · simp only [List.length_append, List.length_singleton] at hleft
        have g3 := goes_ser (w := w) (room := room) (sunk := sunk) l (t := t) (stack := ⟨n, false⟩ :: stack) (bits := bits ++ [false])
          (rest := rest) hl (by simp only [List.length_append, List.length_singleton]; omega)
        have g4 : Goes 1 ((s.inSer (recordAll t ((⟨n, false⟩ :: stack).map Frame.right).reverse l) (⟨n, false⟩ :: stack)
              (.serReturn :: rest)).wrote (bits ++ [false] ++ l.bits)) (w.wrote room sunk (bits ++ [false] ++ l.bits))
            ((s.inSer (recordAll t ((⟨n, false⟩ :: stack).map Frame.right).reverse l) (⟨n, true⟩ :: stack)
              (.serNode b :: rest)).wrote (bits ++ [false] ++ l.bits)) (w.wrote room sunk (bits ++ [false] ++ l.bits)) :=
          .step (m := .serReturn) (rest := rest) rfl fun q => by
            simp only [microStep, serReturn, withNode, State.on, State.next, State.inSer, State.wrote, hn, State.before,
              List.cons_append, List.nil_append]
        obtain ⟨t', stack', hf, c⟩ := ihr (t := recordAll t ((⟨n, false⟩ :: stack).map Frame.right).reverse l)
          (stack := ⟨n, true⟩ :: stack) (bits := bits ++ [false] ++ l.bits) (rest := rest) hr h
          (by simp only [List.length_append, List.length_singleton]; omega)
          (by simp only [List.length_append, List.length_singleton]; omega)
        exact ⟨t', stack', hf.trans (recordAll_freq ..),
          (c.after (((g1.trans g2).trans g3).trans g4)).mono (by simp only [Artifact.Tree.size]; omega)⟩

/-- A payload that goes beyond what the sink accepts (R193). -/
theorem chokes_payload {code : Byte → List Bool} {xs : List Byte} {rest : List Micro} (len : s.inlen.toNat = xs.length)
    (input : ∀ i < xs.length, s.inbuf.read i = xs[i]?) (codes : ∀ x ∈ xs, codePath (s.tables.lenAt x) (s.tables.bitsAt x) = code x)
    (short : ∀ x ∈ xs, (code x).length ≤ 127) (ys : List Byte) : ∀ {i : Nat} {bits : List Bool}, xs.drop i = ys → i ≤ xs.length →
    bits ++ ys.flatMap code <+: all → bits.length ≤ 8 * room + 7 → 8 * room + 7 < bits.length + (ys.flatMap code).length →
    Chokes (256 * ys.length + 1) w room sunk all bits (s.next (.payload i :: rest)) s := by
  induction ys with
  | nil => intro i bits _ _ _ h1 h2; simp at h2; omega
  | cons y ys ih =>
    intro i bits hd hi h h1 h2
    have hlt : i < xs.length := by
      have := congrArg List.length hd
      simp only [List.length_drop, List.length_cons] at this
      omega
    have hy : xs[i] = y ∧ xs.drop (i + 1) = ys := by
      rw [List.drop_eq_getElem_cons hlt] at hd
      exact List.cons.inj hd
    have hmem : y ∈ xs := hy.1 ▸ List.getElem_mem hlt
    have hread : s.inbuf.read i = some y := by rw [input i hlt, List.getElem?_eq_getElem hlt, hy.1]
    simp only [List.flatMap_cons, List.length_append] at h h2
    rw [← List.append_assoc] at h
    have hs := short y hmem
    have g1 : Goes 1 ((s.next (.payload i :: rest)).wrote bits) (w.wrote room sunk bits)
        ((s.next ((code y).map Micro.writeBit ++ .payload (i + 1) :: rest)).wrote bits) (w.wrote room sunk bits) := by
      refine .step (m := .payload i) (rest := rest) rfl fun q => ?_
      simp only [microStep, payloadStep, State.on, State.next, State.wrote, len, hread]
      rw [if_pos hlt]
      simp only [State.before, codes y hmem, List.append_assoc, List.cons_append, List.nil_append]
    by_cases hc : 8 * room + 7 < bits.length + (code y).length
    · have := (chokes_writeBits (w := w) (sunk := sunk) (code y)
        (s := s.next ((code y).map Micro.writeBit ++ .payload (i + 1) :: rest)) (rest := .payload (i + 1) :: rest) rfl
        ((List.prefix_append _ _).trans h) h1 hc).after g1
      obtain ⟨b, rest', this⟩ := this
      exact ⟨b, rest', this.mono (by simp only [List.length_cons]; omega)⟩
    · have g2 := goes_writeBits (w := w) (room := room) (sunk := sunk) (code y)
        (s := s.next ((code y).map Micro.writeBit ++ .payload (i + 1) :: rest)) (bits := bits) (rest := .payload (i + 1) :: rest) rfl
        (by omega)
      have := (ih (i := i + 1) (bits := bits ++ code y) hy.2 hlt h (by simp only [List.length_append]; omega)
        (by simp only [List.length_append]; omega)).after (g1.trans g2)
      exact this.mono (by simp only [List.length_cons]; omega)

/-- A padded last byte that the sink refuses (R123). -/
theorem chokes_flush {rest : List Micro} (todo : s.seq.todo = .flush .raise :: rest) (h1 : all.length ≤ 8 * room + 7)
    (h2 : 8 * room < all.length) : Chokes 1 w room sunk all all s s := by
  have hlen := pendingOf_length all
  have hcnt : (BitVec.ofNat 4 (pendingOf all).length).toNat = (pendingOf all).length := by rw [BitVec.toNat_ofNat]; omega
  refine ⟨byteOf (pendingOf all), rest, ?_⟩
  rw [List.take_of_length_le h1]
  have e : w.wrote room sunk all = w.gave 0 (sunk ++ wholeOf all) := by simp only [Wire.wrote, Wire.gave]; congr 1; omega
  rw [e]
  refine .step (m := .flush .raise) (rest := rest) todo fun q => ?_
  simp only [microStep, flush, State.on, State.next, State.wrote, State.counted, hcnt,
    foldl_shiftIn_pad (show (pendingOf all).length ≤ 7 by omega), show all.length / 8 = room by omega]
  rw [if_pos (by omega)]
  simp only [State.before, List.cons_append, List.nil_append]

/-! ## The whole command -/

/-- The whole bytes before the end of a beginning of the bits are the first bytes of all of them. -/
theorem wholeOf_take {bits : List Bool} {k : Nat} (h : k < bytesFor bits.length) :
    wholeOf (bits.take (8 * k + 7)) = (pack bits).take k := by
  unfold bytesFor at h
  unfold wholeOf pack bytesFor
  rw [← List.map_take, List.take_range, show (bits.take (8 * k + 7)).length / 8 = k by rw [List.length_take]; omega,
    show min k ((bits.length + 7) / 8) = k by omega]
  apply List.map_congr_left
  intro i hi
  rw [List.mem_range] at hi
  rw [List.drop_take, List.take_take, show min 8 (8 * k + 7 - 8 * i) = 8 by omega]

/-- The phase in which COMPRESS completes byte `k` of the artifact (R236). -/
def chokedPhase (xs : List Byte) (k : Nat) : Phase :=
  if 8 * k + 7 < (treeOf xs).bits.length then .cSerial
  else if 8 * k + 7 < (treeOf xs).bits.length + 32 then .cCount
  else if 8 * k + 7 < (artifactBits xs).length then .cPayload
  else .cClose

/-- COMPRESS from its acceptance to the append of the byte that the sink refuses. -/
theorem goes_choked {xs : List Byte} (hx : ∀ x ∈ xs, x.toNat < 128) (legal : s.params.legal)
    (cap : xs.length ≤ s.params.inbufCap) (hw : w.left = xs.map .byte ∧ w.ended = true) (less : room < (artifact xs).length) :
    ∃ (t : Tables) (stack : List Frame) (nodes : List Node) (root : Byte) (b : Byte) (rest : List Micro),
      t.freq = (Tables.zero.countAll xs).freq ∧
      (chokedPhase xs room ≠ .cSerial → t = recordAll (Tables.zero.countAll xs) [] (treeOf xs)) ∧
      nodes.length = (treeOf xs).size ∧
      Goes (2000 * xs.length + 10000) (accept .compress compressSteps s) (w.gave room sunk)
        (({ (s.at' (chokedPhase xs room) [] ⟨BitVec.ofNat 32 xs.length, s.inbuf.store 0 xs, t, xs.length, nodes, [], root,
            []⟩).inSer t stack (.append b .raise :: rest) with wr := .empty } : State).counted room)
        (({ w with left := [] } : Wire).gave 0 (sunk ++ (artifact xs).take room)) := by
  have big : s.params.inbufCap < 2147483648 := by have := legal; simp only [Params.legal] at this; omega
  have pq : 128 ≤ s.params.pqCap := by have := legal; simp only [Params.legal] at this; omega
  have hN : (BitVec.ofNat 32 xs.length).toNat = xs.length := by rw [BitVec.toNat_ofNat]; omega
  have hlen : (artifactBits xs).length = (treeOf xs).bits.length + 32 + (xs.flatMap (code (treeOf xs))).length := by
    simp only [artifactBits, List.length_append, msbFirst_length]
  have input : ∀ i < xs.length, (s.inbuf.store 0 xs).read i = xs[i]? := fun i hi => by
    rw [Memory.read_store, if_pos (by omega), Nat.sub_zero]
  have less' : room < bytesFor (artifactBits xs).length := by rw [artifact, pack_length] at less; exact less
  have sizes := (treeOf_nodup hx).2.2
  let close := Micro.enterPhase .cClose :: .flush .raise :: closeSteps.drop 1
  let pay := Micro.enterPhase .cPayload :: .payload 0 :: close
  let write := Micro.enterPhase .cSerial :: .serialize :: .enterPhase .cCount :: .writeCount :: pay
  have g1 := goes_input (s := s) (w := w.gave room sunk)
    (rest := .enterPhase .cLeaves :: .makeLeaves :: .enterPhase .cBuild :: .build :: write) hx cap big hw
  obtain ⟨nodes, root, tree, size, g2⟩ := goes_makeTree (s := s) (rest := write) hx pq (by omega)
    (n := BitVec.ofNat 32 xs.length) (m := s.inbuf.store 0 xs) (w := ({ w with left := [] } : Wire).wrote room sunk [])
  have w0 : ({ (w.gave room sunk) with left := [] } : Wire) = ({ w with left := [] } : Wire).wrote room sunk [] := by
    simp [Wire.gave, Wire.wrote, wholeOf]
  rw [w0] at g1
  let x : Progress := ⟨BitVec.ofNat 32 xs.length, s.inbuf.store 0 xs, Tables.zero.countAll xs, xs.length, nodes, [], root, []⟩
  have taken : wholeOf ((artifactBits xs).take (8 * room + 7)) = (artifact xs).take room := wholeOf_take less'
  rw [← taken]
  have g0 : Goes (xs.length + 2 + 4) (accept .compress compressSteps s) (w.gave room sunk) (s.at' .cBuild write x)
      (({ w with left := [] } : Wire).wrote room sunk []) := g1.trans g2
  unfold chokedPhase
  by_cases h1 : 8 * room + 7 < (treeOf xs).bits.length
  · rw [if_pos h1]
    have g3 := goes_serialize (s := s) (w := { w with left := [] }) (room := room) (sunk := sunk) (phase := .cBuild)
      (rest := .enterPhase .cCount :: .writeCount :: pay) (x := x)
    obtain ⟨t, stack, hf, b, rest, g4⟩ := chokes_ser (s := s.at' .cSerial [] x) (w := { w with left := [] }) (room := room) (sunk := sunk)
      (all := artifactBits xs) (treeOf xs) (n := root) (t := x.tables) (stack := []) (bits := [])
      (rest := .enterPhase .cCount :: .writeCount :: pay) tree
      (by rw [artifactBits, List.append_assoc]; exact List.prefix_append _ _) (by simp) (by simpa using h1)
    exact ⟨t, stack, nodes, root, b, rest, hf, fun h => absurd rfl h, size, ((g0.trans g3).trans g4).mono (by omega)⟩
  rw [if_neg h1]
  refine ⟨recordAll (Tables.zero.countAll xs) [] (treeOf xs), [], nodes, root, ?_⟩
  have g3 := goes_serialTree (s := s) (w := { w with left := [] }) (room := room) (sunk := sunk) (phase := .cBuild)
    (rest := .enterPhase .cCount :: .writeCount :: pay) (n := BitVec.ofNat 32 xs.length) (m := s.inbuf.store 0 xs)
    (t := Tables.zero.countAll xs) (heap := []) tree (show (treeOf xs).bits.length / 8 ≤ room by omega)
  let y : Progress := { x with tables := recordAll (Tables.zero.countAll xs) [] (treeOf xs), bits := (treeOf xs).bits }
  by_cases h2 : 8 * room + 7 < (treeOf xs).bits.length + 32
  · rw [if_pos h2]
    have g4 := goes_writeCount (s := s) (w := { w with left := [] }) (room := room) (sunk := sunk) (phase := .cSerial) (rest := pay) (x := y)
    obtain ⟨b, rest, g5⟩ := chokes_writeBits (w := { w with left := [] }) (room := room) (sunk := sunk) (all := artifactBits xs)
      (msbFirst (BitVec.ofNat 32 xs.length)) (s := s.at' .cCount ((msbFirst (BitVec.ofNat 32 xs.length)).map Micro.writeBit ++ pay) y)
      (bits := (treeOf xs).bits) (rest := pay) rfl (by rw [artifactBits]; exact List.prefix_append _ _) (by omega)
      (by rw [msbFirst_length]; exact h2)
    exact ⟨b, rest, recordAll_freq .., fun _ => rfl, size,
      (((g0.trans g3).trans g4).trans g5).mono (by rw [msbFirst_length]; omega)⟩
  rw [if_neg h2]
  let bits := (treeOf xs).bits ++ msbFirst (BitVec.ofNat 32 xs.length)
  have hb : bits.length = (treeOf xs).bits.length + 32 := by simp only [bits, List.length_append, msbFirst_length]
  by_cases h3 : 8 * room + 7 < (artifactBits xs).length
  · rw [if_pos h3]
    have g4 := goes_countBits (s := s) (w := { w with left := [] }) (room := room) (sunk := sunk) (phase := .cSerial) (rest := pay) (x := y)
      (show ((treeOf xs).bits.length + 32) / 8 ≤ room by omega)
    have g5 : Goes 1 (s.at' .cCount pay { y with bits := bits }) (({ w with left := [] } : Wire).wrote room sunk bits) _
        (({ w with left := [] } : Wire).wrote room sunk bits) := goes_enterPhase
    obtain ⟨b, rest, g6⟩ := chokes_payload (w := { w with left := [] }) (room := room) (sunk := sunk) (all := artifactBits xs)
      (s := s.at' .cPayload [] { y with bits := bits }) (code := code (treeOf xs)) (xs := xs) (rest := close) hN input
      (codes_recorded hx _) (fun x _ => code_length hx x) xs (i := 0) (bits := bits) rfl (by omega) (List.prefix_refl _) (by omega)
      (by omega)
    exact ⟨b, rest, recordAll_freq .., fun _ => rfl, size, ((((g0.trans g3).trans g4).trans g5).trans g6).mono (by omega)⟩
  · rw [if_neg h3]
    unfold bytesFor at less'
    have g4 := goes_write (s := s) (w := { w with left := [] }) (room := room) (sunk := sunk) (phase := .cBuild) (rest := close)
      (n := BitVec.ofNat 32 xs.length) (m := s.inbuf.store 0 xs) (t := Tables.zero.countAll xs) (heap := []) hx (by omega) tree input
      (by omega)
    let z : Progress := { y with bits := artifactBits xs }
    have g5 : Goes 1 (s.at' .cPayload close z) (({ w with left := [] } : Wire).wrote room sunk (artifactBits xs)) _
        (({ w with left := [] } : Wire).wrote room sunk (artifactBits xs)) := goes_enterPhase
    obtain ⟨b, rest, g6⟩ := chokes_flush (w := { w with left := [] }) (room := room) (sunk := sunk) (all := artifactBits xs)
      (s := s.at' .cClose (.flush .raise :: closeSteps.drop 1) z) (rest := closeSteps.drop 1) rfl (by omega) (by omega)
    exact ⟨b, rest, recordAll_freq .., fun _ => rfl, size, (((g0.trans g4).trans g5).trans g6).mono (by omega)⟩

end

end Sys2Proof.Machine
end

