-- ==== Sys2Proof/Laws/Decompress.lean ====
section
/-! SUPPORT. DECOMPRESS, followed step by step: reading the tree (R202), the count (R205), and decoding (R206). -/

namespace Sys2Proof.Machine

open Sys2Proof.Artifact

/-! ## Bits that a stream begins with -/

theorem stream_take {a : List Bool} {bs : List Byte} {p : Nat} (h : a <+: (unpack bs).drop p) :
    ((unpack bs).drop p).take a.length = a := (List.prefix_iff_eq_take.1 h).symm

theorem stream_bound {a : List Bool} {bs : List Byte} {p : Nat} (h : a <+: (unpack bs).drop p) (hp : p ≤ 8 * bs.length) :
    p + a.length ≤ 8 * bs.length := by
  have := h.length_le
  rw [List.length_drop, unpack_length] at this
  omega

theorem stream_append {a b : List Bool} {bs : List Byte} {p : Nat} (h : a ++ b <+: (unpack bs).drop p) :
    a <+: (unpack bs).drop p ∧ b <+: (unpack bs).drop (p + a.length) := by
  refine ⟨(List.prefix_append a b).trans h, ?_⟩
  obtain ⟨c, hc⟩ := h
  exact ⟨c, by rw [← List.drop_drop, ← hc, List.append_assoc, List.drop_left]⟩

/-! ## The arena -/

/-- The entries of a tree whose root is allocated at `m`, in pre-order (R202). -/
def nodesOf : Nat → Artifact.Tree → List Node
  | _, .leaf sym => [.leaf sym 0#32]
  | m, .node l r =>
    .internal 0#32 (BitVec.ofNat 8 (m + 1)) (BitVec.ofNat 8 (m + 1 + l.size)) ::
      (nodesOf (m + 1) l ++ nodesOf (m + 1 + l.size) r)

theorem nodesOf_length (m : Nat) (t : Artifact.Tree) : (nodesOf m t).length = t.size := by
  induction t generalizing m with
  | leaf sym => rfl
  | node l r ihl ihr => simp only [nodesOf, List.length_cons, List.length_append, ihl, ihr, Artifact.Tree.size]

/-- The arena and the traversal stack, TREE_NODES counting the arena. -/
def State.arena (s : State) (nodes : List Node) (stack : List Frame) : State :=
  { s with nodes := nodes, treeNodes := BitVec.ofNat 32 nodes.length, seq := { s.seq with stack := stack } }

/-- A position in `ReadTree()`. -/
def State.inTree (s : State) (nodes : List Node) (stack : List Frame) (v : Word) (todo : List Micro) (bs : List Byte)
    (p : Nat) : State := ((s.arena nodes stack).reads' v todo).readAt bs p

theorem valOf_singleton (b : Bool) : (valOf [b]).getLsbD 0 = b := by cases b <;> decide

theorem valOf_byte (b : Byte) : (valOf (msbFirst b)).setWidth 8 = b := by
  rw [valOf, foldl_shiftIn_msbFirst, BitVec.setWidth_setWidth_of_le _ (by decide), BitVec.setWidth_eq]

theorem valOf_word (v : Word) : valOf (msbFirst v) = v := by rw [valOf, foldl_shiftIn_msbFirst, BitVec.setWidth_eq]

section
variable {s : State} {w : Wire} {bs : List Byte} {items : List SrcItem}

/-- Reading a field of the stream. -/
theorem goes_readField {a : List Bool} {nodes : List Node} {stack : List Frame} {p : Nat} {v : Word} {rest : List Micro}
    (h : a <+: (unpack bs).drop p) (hp : p ≤ 8 * bs.length) :
    Goes (a.length + 1) (s.inTree nodes stack v (readBits a.length ++ rest) bs p) (w.readAt bs items p)
      (s.inTree nodes stack (valOf a) rest bs (p + a.length)) (w.readAt bs items (p + a.length)) := by
  have := goes_readBits (s := s.arena nodes stack) (w := w) (items := items) (v := v) (rest := rest) a.length
    (stream_bound h hp)
  rwa [stream_take h] at this

/-- The tag bit of a token, up to the arena bound (R202, R203). -/
theorem goes_tag {b : Bool} {nodes : List Node} {stack : List Frame} {p : Nat} {v : Word} {rest : List Micro}
    (h : [b] <+: (unpack bs).drop p) (hp : p ≤ 8 * bs.length) :
    Goes 2 (s.inTree nodes stack v (readToken ++ rest) bs p) (w.readAt bs items p)
      (s.inTree nodes stack (valOf [b]) (.treeToken :: rest) bs (p + 1)) (w.readAt bs items (p + 1)) := by
  have := goes_readField (s := s) (w := w) (items := items) (nodes := nodes) (stack := stack) (v := v)
    (rest := .treeToken :: rest) h hp
  simpa [readToken] using this

theorem treeToken_leaf {s : State} (room : s.nodes.length < 255) (tag : s.seq.value.getLsbD 0 = true) :
    treeToken s = .go (s.before (readBits 8 ++ [.treeLeaf])) := by
  unfold treeToken
  rw [if_neg (by simp [Config.nodeCap]; omega), if_pos tag]

theorem treeToken_internal {s : State} (room : s.nodes.length < 255) (tag : s.seq.value.getLsbD 0 = false) :
    treeToken s = .go (State.before
      { s with
        nodes := s.nodes ++ [.internal 0#32 0#8 0#8]
        treeNodes := BitVec.ofNat 32 (s.nodes.length + 1)
        seq := { s.seq with stack := ⟨BitVec.ofNat 8 s.nodes.length, false⟩ :: s.seq.stack } } readToken) := by
  unfold treeToken
  rw [if_neg (by simp [Config.nodeCap]; omega), if_neg (by rw [tag]; decide), withAlloc_room room]

/-- A leaf (R202, R204). -/
theorem goes_readLeaf {sym : Byte} {nodes : List Node} {stack : List Frame} {p : Nat} {v : Word} {rest : List Micro}
    (h : true :: msbFirst sym <+: (unpack bs).drop p) (hp : p ≤ 8 * bs.length) (room : nodes.length < 255) :
    Goes 20 (s.inTree nodes stack v (readToken ++ rest) bs p) (w.readAt bs items p)
      (s.inTree (nodes ++ [.leaf sym 0#32]) stack (valOf (msbFirst sym)) (.treeReturn (BitVec.ofNat 8 nodes.length) :: rest) bs
        (p + 9)) (w.readAt bs items (p + 9)) := by
  obtain ⟨h1, h2⟩ := stream_append (a := [true]) (b := msbFirst sym) h
  have g1 := goes_tag (s := s) (w := w) (items := items) (nodes := nodes) (stack := stack) (v := v) (rest := rest) h1 hp
  have hp' := stream_bound h1 hp
  have g2 := goes_readField (s := s) (w := w) (items := items) (nodes := nodes) (stack := stack) (v := valOf [true])
    (rest := .treeLeaf :: rest) h2 hp'
  simp only [List.length_singleton, msbFirst_length] at g2 hp'
  have g12 : Goes 1 (s.inTree nodes stack (valOf [true]) (.treeToken :: rest) bs (p + 1)) (w.readAt bs items (p + 1))
      (s.inTree nodes stack (valOf [true]) (readBits 8 ++ .treeLeaf :: rest) bs (p + 1)) (w.readAt bs items (p + 1)) :=
    .step (m := .treeToken) (rest := rest) rfl fun q => (treeToken_leaf room (valOf_singleton true)).trans (by
      simp only [State.before, State.on, State.next, State.inTree, State.arena, State.readAt, State.reads',
        List.append_assoc, List.singleton_append])
  have g3 : Goes 1 (s.inTree nodes stack (valOf (msbFirst sym)) (.treeLeaf :: rest) bs (p + 9)) (w.readAt bs items (p + 9))
      (s.inTree (nodes ++ [.leaf sym 0#32]) stack (valOf (msbFirst sym)) (.treeReturn (BitVec.ofNat 8 nodes.length) :: rest) bs
        (p + 9)) (w.readAt bs items (p + 9)) :=
    .step (m := .treeLeaf) (rest := rest) rfl fun q =>
      (withAlloc_room (s := ((s.inTree nodes stack (valOf (msbFirst sym)) (.treeLeaf :: rest) bs (p + 9)).next rest).on q)
        room (.leaf ((valOf (msbFirst sym)).setWidth 8) 0#32) fun n s => .go (s.before [.treeReturn n])).trans (by
      simp only [State.before, State.on, State.next, State.inTree, State.arena, State.readAt, State.reads', valOf_byte,
        List.length_append, List.length_singleton, List.singleton_append])
  exact (((g1.trans g12).trans g2).trans g3).mono (by omega)

/-- Reading a subtree (R202): its entries are added to the arena in pre-order, and the return of its root follows. -/
theorem goes_readTree (t : Artifact.Tree) : ∀ {nodes : List Node} {stack : List Frame} {p : Nat} {v : Word} {rest : List Micro},
    t.bits <+: (unpack bs).drop p → p ≤ 8 * bs.length → nodes.length + t.size ≤ 255 →
    ∃ v', Goes (20 * t.size) (s.inTree nodes stack v (readToken ++ rest) bs p) (w.readAt bs items p)
      (s.inTree (nodes ++ nodesOf nodes.length t) stack v' (.treeReturn (BitVec.ofNat 8 nodes.length) :: rest) bs
        (p + t.bits.length)) (w.readAt bs items (p + t.bits.length)) := by
  induction t with
  | leaf sym =>
    intro nodes stack p v rest h hp room
    refine ⟨valOf (msbFirst sym), ?_⟩
    have := goes_readLeaf (s := s) (w := w) (items := items) (stack := stack) (v := v) (rest := rest) h hp
      (show nodes.length < 255 by simp [Artifact.Tree.size] at room; omega)
    simpa [Artifact.Tree.bits, msbFirst_length, Artifact.Tree.size, nodesOf] using this
  | node l r ihl ihr =>
    intro nodes stack p v rest h hp room
    simp only [Artifact.Tree.size] at room
    obtain ⟨h1, h2⟩ := stream_append (a := [false]) (b := l.bits ++ r.bits) h
    obtain ⟨h2, h3⟩ := stream_append h2
    have hp1 := stream_bound h1 hp
    have hp2 := stream_bound h2 hp1
    have g1 := goes_tag (s := s) (w := w) (items := items) (nodes := nodes) (stack := stack) (v := v) (rest := rest) h1 hp
    simp only [List.length_singleton] at h2 h3 hp1 hp2
    have hm : (BitVec.ofNat 8 nodes.length).toNat = nodes.length := by rw [BitVec.toNat_ofNat]; omega
    -- the node is allocated
    have g2 : Goes 1 (s.inTree nodes stack (valOf [false]) (.treeToken :: rest) bs (p + 1)) (w.readAt bs items (p + 1))
        (s.inTree (nodes ++ [.internal 0#32 0#8 0#8]) (⟨BitVec.ofNat 8 nodes.length, false⟩ :: stack) (valOf [false])
          (readToken ++ rest) bs (p + 1)) (w.readAt bs items (p + 1)) :=
      .step (m := .treeToken) (rest := rest) rfl fun q =>
        (treeToken_internal (show nodes.length < 255 by omega) (valOf_singleton false)).trans (by
          simp only [State.before, State.on, State.next, State.inTree, State.arena, State.readAt, State.reads',
            List.length_append, List.length_singleton])
    -- its left subtree
    obtain ⟨v1, g3⟩ := ihl (nodes := nodes ++ [.internal 0#32 0#8 0#8])
      (stack := ⟨BitVec.ofNat 8 nodes.length, false⟩ :: stack) (v := valOf [false]) (rest := rest) h2 hp1
      (by simp only [List.length_append, List.length_singleton]; omega)
    simp only [List.length_append, List.length_singleton] at g3
    -- is linked
    let nodes1 := nodes ++ .internal 0#32 (BitVec.ofNat 8 (nodes.length + 1)) 0#8 :: nodesOf (nodes.length + 1) l
    have len1 : nodes1.length = nodes.length + 1 + l.size := by
      simp only [nodes1, List.length_append, List.length_cons, nodesOf_length]; omega
    have g4 : Goes 1 (s.inTree (nodes ++ [.internal 0#32 0#8 0#8] ++ nodesOf (nodes.length + 1) l)
          (⟨BitVec.ofNat 8 nodes.length, false⟩ :: stack) v1 (.treeReturn (BitVec.ofNat 8 (nodes.length + 1)) :: rest) bs
          (p + 1 + l.bits.length)) (w.readAt bs items (p + 1 + l.bits.length))
        (s.inTree nodes1 (⟨BitVec.ofNat 8 nodes.length, true⟩ :: stack) v1 (readToken ++ rest) bs (p + 1 + l.bits.length))
        (w.readAt bs items (p + 1 + l.bits.length)) :=
      .step (m := .treeReturn (BitVec.ofNat 8 (nodes.length + 1))) (rest := rest) rfl fun q => by
        simp only [microStep, treeReturn, State.before, State.on, State.next, State.inTree, State.arena, State.readAt,
          State.reads', withNode, hm]
        rw [List.append_assoc, List.getElem?_append_right (le_refl _), Nat.sub_self]
        simp [Node.withChild, nodes1, List.set_append_right]
    -- its right subtree
    obtain ⟨v2, g5⟩ := ihr (nodes := nodes1) (stack := ⟨BitVec.ofNat 8 nodes.length, true⟩ :: stack) (v := v1) (rest := rest)
      h3 hp2 (by omega)
    -- is linked
    have g6 : Goes 1 (s.inTree (nodes1 ++ nodesOf nodes1.length r)
          (⟨BitVec.ofNat 8 nodes.length, true⟩ :: stack) v2 (.treeReturn (BitVec.ofNat 8 nodes1.length) :: rest) bs
          (p + 1 + l.bits.length + r.bits.length)) (w.readAt bs items (p + 1 + l.bits.length + r.bits.length))
        (s.inTree (nodes ++ nodesOf nodes.length (.node l r)) stack v2 (.treeReturn (BitVec.ofNat 8 nodes.length) :: rest) bs
          (p + 1 + l.bits.length + r.bits.length)) (w.readAt bs items (p + 1 + l.bits.length + r.bits.length)) :=
      .step (m := .treeReturn (BitVec.ofNat 8 nodes1.length)) (rest := rest) rfl fun q => by
        simp only [microStep, treeReturn, State.before, State.on, State.next, State.inTree, State.arena, State.readAt,
          State.reads', withNode, hm, len1, nodesOf]
        simp only [nodes1]
        rw [List.append_assoc, List.getElem?_append_right (le_refl _), Nat.sub_self]
        simp [Node.withChild, List.set_append_right]
    refine ⟨v2, ?_⟩
    have := ((((g1.trans g2).trans g3).trans g4).trans g5).trans g6
    rw [show p + 1 + l.bits.length + r.bits.length = p + (Artifact.Tree.node l r).bits.length by
      simp only [Artifact.Tree.bits, List.length_cons, List.length_append]; omega] at this
    exact this.mono (by simp only [Artifact.Tree.size]; omega)

end

/-! ## The tree that was read -/

theorem hasTree_nodesOf (t : Artifact.Tree) (below above : List Node) (room : below.length + t.size ≤ 255) :
    HasTree (below ++ nodesOf below.length t ++ above) (BitVec.ofNat 8 below.length) t := by
  have idx : ∀ m < 256, (BitVec.ofNat 8 m).toNat = m := fun m hm => by rw [BitVec.toNat_ofNat]; omega
  induction t generalizing below above with
  | leaf sym =>
    simp only [Artifact.Tree.size] at room
    exact ⟨0#32, by simp [idx _ (show below.length < 256 by omega), nodesOf]⟩
  | node l r ihl ihr =>
    simp only [Artifact.Tree.size] at room
    refine ⟨0#32, _, _, by simp [idx _ (show below.length < 256 by omega), nodesOf]; exact ⟨rfl, rfl⟩, ?_, ?_⟩
    · have := ihl (below ++ [.internal 0#32 (BitVec.ofNat 8 (below.length + 1)) (BitVec.ofNat 8 (below.length + 1 + l.size))])
        (nodesOf (below.length + 1 + l.size) r ++ above) (by simp; omega)
      simpa [nodesOf] using this
    · have := ihr (below ++ .internal 0#32 (BitVec.ofNat 8 (below.length + 1)) (BitVec.ofNat 8 (below.length + 1 + l.size)) ::
        nodesOf (below.length + 1) l) above (by simp [nodesOf_length]; omega)
      simp only [List.length_append, List.length_cons, nodesOf_length] at this
      rw [show below.length + (l.size + 1) = below.length + 1 + l.size by omega] at this
      simpa [nodesOf] using this

/-! ## Decoding -/

section
variable {s : State} {w : Wire} {bs : List Byte} {items : List SrcItem}

/-- A walk from a node to a leaf (R206). -/
theorem goes_walk {nodes : List Node} {sym : Byte} {k : Nat} {rest : List Micro} (t : Artifact.Tree) :
    ∀ {n : Byte} {path : List Bool} {p : Nat} {v : Word}, HasTree nodes n t → t.walk path = some sym →
    path <+: (unpack bs).drop p → p ≤ 8 * bs.length →
    ∃ v', Goes (4 * path.length + 1) (s.inTree nodes [] v (.walk n k :: rest) bs p) (w.readAt bs items p)
      (s.inTree nodes [] v' (.append sym .raise :: .decode k :: rest) bs (p + path.length))
      (w.readAt bs items (p + path.length)) := by
  induction t with
  | leaf x =>
    rintro n path p v ⟨f, hn⟩ hw h hp
    cases path with
    | cons b path => simp [Artifact.Tree.walk] at hw
    | nil =>
      simp only [Artifact.Tree.walk, Option.some.injEq] at hw
      subst hw
      refine ⟨v, .step (m := .walk n k) (rest := rest) rfl fun q => ?_⟩
      simp only [microStep, walkStep, withNode, State.on, State.next, State.inTree, State.arena, State.readAt, State.reads', hn,
        State.before, List.length_nil, Nat.add_zero, List.cons_append, List.nil_append]
  | node l r ihl ihr =>
    rintro n path p v ⟨f, a, c, hn, hl, hr⟩ hw h hp
    cases path with
    | nil => simp [Artifact.Tree.walk] at hw
    | cons b path =>
      obtain ⟨h1, h2⟩ := stream_append (a := [b]) (b := path) h
      have hp1 := stream_bound h1 hp
      simp only [List.length_singleton] at h2 hp1
      have g1 : Goes 1 (s.inTree nodes [] v (.walk n k :: rest) bs p) (w.readAt bs items p)
          (s.inTree nodes [] v (readBits 1 ++ .branch n k :: rest) bs p) (w.readAt bs items p) :=
        .step (m := .walk n k) (rest := rest) rfl fun q => by
          simp only [microStep, walkStep, withNode, State.on, State.next, State.inTree, State.arena, State.readAt,
            State.reads', hn, State.before, List.append_assoc, List.cons_append, List.nil_append]
      have g2 := goes_readField (s := s) (w := w) (items := items) (nodes := nodes) (stack := []) (v := v)
        (rest := .branch n k :: rest) h1 hp
      simp only [List.length_singleton] at g2
      have g3 : Goes 1 (s.inTree nodes [] (valOf [b]) (.branch n k :: rest) bs (p + 1)) (w.readAt bs items (p + 1))
          (s.inTree nodes [] (valOf [b]) (.walk (if b then c else a) k :: rest) bs (p + 1)) (w.readAt bs items (p + 1)) :=
        .step (m := .branch n k) (rest := rest) rfl fun q => by
          simp only [microStep, branchStep, withNode, State.on, State.next, State.inTree, State.arena, State.readAt,
            State.reads', hn, State.before, valOf_singleton, List.cons_append, List.nil_append]
      have ih : ∃ v', Goes (4 * path.length + 1) (s.inTree nodes [] (valOf [b]) (.walk (if b then c else a) k :: rest) bs (p + 1))
          (w.readAt bs items (p + 1)) (s.inTree nodes [] v' (.append sym .raise :: .decode k :: rest) bs (p + 1 + path.length))
          (w.readAt bs items (p + 1 + path.length)) := by
        cases b with
        | true => exact ihr hr (by simpa [Artifact.Tree.walk] using hw) h2 hp1
        | false => exact ihl hl (by simpa [Artifact.Tree.walk] using hw) h2 hp1
      obtain ⟨v', g4⟩ := ih
      refine ⟨v', ?_⟩
      have := (((g1.trans g2).trans g3).trans g4)
      rw [show p + 1 + path.length = p + (b :: path).length by simp only [List.length_cons]; omega] at this
      exact this.mono (by simp only [List.length_cons]; omega)

/-- Decoding some of the positions that are left (R206). -/
theorem goes_decodeSome {nodes : List Node} {tree : Artifact.Tree} {rest : List Micro} {more : Nat} (small : tree.size ≤ 255)
    (root : HasTree nodes s.root tree) (ps : List (List Bool × Byte)) :
    (∀ p ∈ ps, tree.walk p.1 = some p.2) → ∀ {p n room : Nat} {v : Word} {sunk : List Byte},
    ps.flatMap Prod.fst <+: (unpack bs).drop p → p ≤ 8 * bs.length → ps.length ≤ room →
    ∃ v', Goes (600 * ps.length) ((s.inTree nodes [] v (.decode (ps.length + more) :: rest) bs p).counted n)
      ((w.readAt bs items p).gave room sunk)
      ((s.inTree nodes [] v' (.decode more :: rest) bs (p + (ps.flatMap Prod.fst).length)).counted (n + ps.length))
      ((w.readAt bs items (p + (ps.flatMap Prod.fst).length)).gave (room - ps.length) (sunk ++ ps.map Prod.snd)) := by
  induction ps with
  | nil =>
    intro _ p n room v sunk _ _ _
    refine ⟨v, ?_⟩
    simp only [List.length_nil, List.flatMap_nil, List.map_nil, List.append_nil, Nat.add_zero, Nat.sub_zero, Nat.zero_add,
      Nat.mul_zero]
    exact .refl _ _
  | cons x ps ih =>
    intro hwalk p n room v sunk h hp hroom
    rw [List.flatMap_cons] at h
    obtain ⟨h1, h2⟩ := stream_append h
    have hp1 := stream_bound h1 hp
    simp only [List.length_cons] at hroom
    obtain ⟨room, rfl⟩ : ∃ r, room = r + 1 := ⟨room - 1, by omega⟩
    have hx := hwalk x (List.mem_cons_self ..)
    have short := walk_length hx
    have g1 : Goes 1 ((s.inTree nodes [] v (.decode ((x :: ps).length + more) :: rest) bs p).counted n)
        ((w.readAt bs items p).gave (room + 1) sunk)
        ((s.inTree nodes [] v (.walk s.root (ps.length + more) :: rest) bs p).counted n)
        ((w.readAt bs items p).gave (room + 1) sunk) :=
      .step (m := .decode (ps.length + more + 1)) (rest := rest) (by
        simp only [State.counted, State.inTree, State.arena, State.readAt, State.reads', List.length_cons, Nat.add_right_comm]) fun _ => by
        simp only [microStep, decodeStep, State.on, State.next, State.counted, State.inTree, State.arena, State.readAt,
          State.reads', State.before, List.cons_append, List.nil_append]
    obtain ⟨v1, g2⟩ := goes_walk (s := s.counted n) (w := w.gave (room + 1) sunk) (items := items) (k := ps.length + more)
      (rest := rest) (v := v) tree root hx h1 hp
    have g3 := goes_append (w := w.readAt bs items (p + x.1.length)) (room := room) (n := n) (sunk := sunk)
      (s := s.inTree nodes [] v1 (.append x.2 .raise :: .decode (ps.length + more) :: rest) bs (p + x.1.length)) (b := x.2)
      (onFail := .raise) (rest := .decode (ps.length + more) :: rest) rfl
    obtain ⟨v2, g4⟩ := ih (fun p hp => hwalk p (List.mem_cons_of_mem _ hp)) (n := n + 1) (room := room) (v := v1)
      (sunk := sunk ++ [x.2]) h2 hp1 (by omega)
    refine ⟨v2, ?_⟩
    have := ((g1.trans g2).trans g3).trans g4
    rw [List.append_assoc, show n + 1 + ps.length = n + (x :: ps).length by simp only [List.length_cons]; omega,
      show p + x.1.length + (ps.flatMap Prod.fst).length = p + ((x :: ps).flatMap Prod.fst).length by
        simp only [List.flatMap_cons, List.length_append]; omega,
      show room - ps.length = room + 1 - (x :: ps).length by simp only [List.length_cons]; omega] at this
    exact this.mono (by simp only [List.length_cons]; omega)

/-- Decoding the positions that are left (R206, R207). -/
theorem goes_decode {nodes : List Node} {tree : Artifact.Tree} {rest : List Micro} (small : tree.size ≤ 255)
    (root : HasTree nodes s.root tree) (ps : List (List Bool × Byte)) (walks : ∀ p ∈ ps, tree.walk p.1 = some p.2) {p n room : Nat}
    {v : Word} {sunk : List Byte} (h : ps.flatMap Prod.fst <+: (unpack bs).drop p) (hp : p ≤ 8 * bs.length) (fits : ps.length ≤ room) :
    ∃ v', Goes (600 * ps.length + 1) ((s.inTree nodes [] v (.decode ps.length :: rest) bs p).counted n)
      ((w.readAt bs items p).gave room sunk)
      ((s.inTree nodes [] v' rest bs (p + (ps.flatMap Prod.fst).length)).counted (n + ps.length))
      ((w.readAt bs items (p + (ps.flatMap Prod.fst).length)).gave (room - ps.length) (sunk ++ ps.map Prod.snd)) := by
  obtain ⟨v', g⟩ := goes_decodeSome (s := s) (w := w) (items := items) (rest := rest) (more := 0) small root ps walks (n := n) (v := v)
    (sunk := sunk) h hp fits
  exact ⟨v', g.trans (.step (m := .decode 0) (rest := rest) rfl fun _ => rfl)⟩

end

/-! ## The whole command -/

/-- The state after `DInit` (R201), but for the reader and the arena. -/
def State.decompressing (s : State) (phase : Phase) (root : Byte) (symcount : Word) : State :=
  { s with
    busy := true
    wr := .empty
    root := root
    symcount := symcount
    seq := { phase := phase, todo := [], stack := [], value := 0#32, latch := some ⟨0x32#8, 0x00#8, s.arg, s.arg2, s.pqMode⟩ } }

theorem goes_dInit {s : State} {w : Wire} (bs : List Byte) :
    Goes 1 (accept .decompress decompressSteps s) w
      (((s.decompressing .dTree 0#8 s.symcount).inTree [] [] 0#32 (decompressSteps.drop 1) bs 0).counted 0) w :=
  .step (m := .dInit) (rest := decompressSteps.drop 1) rfl fun q => by
    simp only [microStep, dInit, freshStreams, State.enter, accept, State.next, State.on, State.decompressing, State.inTree,
      State.arena, State.reads', State.readAt, State.counted]
    rfl

section
variable {s : State} {w : Wire} {bs : List Byte} {items : List SrcItem}

/-- A tree at the start of the stream, up to `ReadCount()`. -/
theorem goes_tree {tree : Artifact.Tree} {rest : List Micro} (h : tree.bits <+: unpack bs) (small : tree.size ≤ 255) :
    ∃ v, Goes (20 * tree.size + 2)
      (((s.decompressing .dTree 0#8 s.symcount).inTree [] [] 0#32 (readToken ++ .enterPhase .dCount :: rest) bs 0).counted 0)
      (w.readAt bs items 0)
      (((s.decompressing .dCount 0#8 s.symcount).inTree (nodesOf 0 tree) [] v rest bs tree.bits.length).counted 0)
      (w.readAt bs items tree.bits.length) := by
  obtain ⟨v, g1⟩ := goes_readTree (s := (s.decompressing .dTree 0#8 s.symcount).counted 0) (w := w) (items := items) tree
    (nodes := []) (stack := []) (p := 0) (v := 0#32) (rest := .enterPhase .dCount :: rest) (by simpa using h) (by omega)
    (by simpa using small)
  refine ⟨v, ?_⟩
  simp only [List.nil_append, Nat.zero_add, List.length_nil] at g1
  have g2 : Goes 1 ((((s.decompressing .dTree 0#8 s.symcount).counted 0).inTree (nodesOf 0 tree) [] v
        (.treeReturn (BitVec.ofNat 8 0) :: .enterPhase .dCount :: rest) bs tree.bits.length))
      (w.readAt bs items tree.bits.length)
      ((((s.decompressing .dTree 0#8 s.symcount).counted 0).inTree (nodesOf 0 tree) [] v
        (.enterPhase .dCount :: rest) bs tree.bits.length)) (w.readAt bs items tree.bits.length) :=
    .step (m := .treeReturn (BitVec.ofNat 8 0)) (rest := .enterPhase .dCount :: rest) rfl fun q => by
      simp only [microStep, treeReturn, State.next, State.on, State.decompressing, State.inTree, State.arena, State.reads',
        State.readAt, State.counted]
  have g3 : Goes 1 ((((s.decompressing .dTree 0#8 s.symcount).counted 0).inTree (nodesOf 0 tree) [] v
        (.enterPhase .dCount :: rest) bs tree.bits.length)) (w.readAt bs items tree.bits.length)
      ((((s.decompressing .dCount 0#8 s.symcount).counted 0).inTree (nodesOf 0 tree) [] v rest bs tree.bits.length))
      (w.readAt bs items tree.bits.length) :=
    .step (m := .enterPhase .dCount) (rest := rest) rfl fun q => by
      simp only [microStep, State.enter, State.next, State.on, State.decompressing, State.inTree, State.arena, State.reads',
        State.readAt, State.counted]
  exact (g1.trans g2).trans g3

/-- The count that follows, up to the test of its sign (R205). -/
theorem goes_count {tree : Artifact.Tree} {count : Word} {rest : List Micro} (h : tree.bits ++ msbFirst count <+: unpack bs)
    (small : tree.size ≤ 255) :
    Goes (20 * tree.size + 35)
      (((s.decompressing .dTree 0#8 s.symcount).inTree [] [] 0#32
        (readToken ++ .enterPhase .dCount :: (readBits 32 ++ .takeCount :: rest)) bs 0).counted 0) (w.readAt bs items 0)
      (((s.decompressing .dCount 0#8 s.symcount).inTree (nodesOf 0 tree) [] count (.takeCount :: rest) bs
        (tree.bits.length + 32)).counted 0) (w.readAt bs items (tree.bits.length + 32)) := by
  obtain ⟨h1, h2⟩ := stream_append (p := 0) (by simpa using h)
  rw [Nat.zero_add] at h2
  obtain ⟨v, g1⟩ := goes_tree (s := s) (w := w) (items := items) (rest := readBits 32 ++ .takeCount :: rest)
    (by simpa using h1) small
  have hp := stream_bound h1 (by omega)
  have g2 := goes_readField (s := (s.decompressing .dCount 0#8 s.symcount).counted 0) (w := w) (items := items)
    (nodes := nodesOf 0 tree) (stack := []) (v := v) (rest := .takeCount :: rest) h2 (by simpa using hp)
  rw [msbFirst_length, valOf_word] at g2
  exact (g1.trans g2).mono (by omega)

/-- A count that is not negative starts `Decode` (R205). -/
theorem goes_takeCount {tree : Artifact.Tree} {count : Nat} {w : Wire} (small : count < 2147483648) :
    Goes 2 (((s.decompressing .dCount 0#8 s.symcount).inTree (nodesOf 0 tree) [] (BitVec.ofNat 32 count)
        (.takeCount :: .enterPhase .dClose :: closeSteps) bs (tree.bits.length + 32)).counted 0) w
      (((s.decompressing .dDecode 0#8 (BitVec.ofNat 32 count)).inTree (nodesOf 0 tree) [] (BitVec.ofNat 32 count)
        (.decode count :: .enterPhase .dClose :: closeSteps) bs (tree.bits.length + 32)).counted 0) w := by
  have hN : (BitVec.ofNat 32 count).toNat = count := by rw [BitVec.toNat_ofNat]; omega
  refine Goes.trans (n := 1) (m := 1)
    (t := ((s.decompressing .dCount 0#8 (BitVec.ofNat 32 count)).inTree (nodesOf 0 tree) [] (BitVec.ofNat 32 count)
      (.enterPhase .dDecode :: .decode count :: .enterPhase .dClose :: closeSteps) bs (tree.bits.length + 32)).counted 0)
    (.step (m := .takeCount) (rest := .enterPhase .dClose :: closeSteps) rfl fun q => ?_)
    (.step (m := .enterPhase .dDecode) (rest := .decode count :: .enterPhase .dClose :: closeSteps) rfl fun q => ?_)
  · have hm : (BitVec.ofNat 32 count).msb = false := by
      rw [BitVec.msb_eq_decide, hN]; simp; omega
    simp only [microStep, takeCount, State.next, State.on, State.decompressing, State.inTree, State.arena, State.reads',
      State.readAt, State.counted, hm, hN, State.before, List.cons_append, List.nil_append]
    rfl
  · simp only [microStep, State.enter, State.next, State.on, State.decompressing, State.inTree, State.arena, State.reads',
      State.readAt, State.counted]

/-- DECOMPRESS up to its close (R201 to R208): the tree, the count, and that many paths to leaves. -/
theorem goes_decompress {tree : Artifact.Tree} {ps : List (List Bool × Byte)} {room : Nat} {sunk : List Byte}
    (small : tree.size ≤ 255) (walks : ∀ p ∈ ps, tree.walk p.1 = some p.2) (count : ps.length < 2147483648)
    (h : streamBits tree ps <+: unpack bs) (enough : ps.length ≤ room) :
    ∃ v, Goes (20 * tree.size + 600 * ps.length + 50) (accept .decompress decompressSteps s)
      ((w.readAt bs items 0).gave room sunk)
      (((s.decompressing .dClose 0#8 (BitVec.ofNat 32 ps.length)).inTree (nodesOf 0 tree) [] v closeSteps bs
        (streamBits tree ps).length).counted ps.length)
      ((w.readAt bs items (streamBits tree ps).length).gave (room - ps.length) (sunk ++ ps.map Prod.snd)) := by
  have hN : (BitVec.ofNat 32 ps.length).toNat = ps.length := by rw [BitVec.toNat_ofNat]; omega
  have hlen : (streamBits tree ps).length = tree.bits.length + 32 + (ps.flatMap Prod.fst).length := by
    simp only [streamBits, List.length_append, msbFirst_length]
  obtain ⟨h1, h2⟩ := stream_append (p := 0) (a := tree.bits ++ msbFirst (BitVec.ofNat 32 ps.length)) (by simpa [streamBits] using h)
  have hp := stream_bound h1 (by omega)
  simp only [List.length_append, msbFirst_length, Nat.zero_add] at h2 hp
  have g0 := goes_dInit (s := s) (w := (w.readAt bs items 0).gave room sunk) bs
  have g1 := goes_count (s := s) (w := w.gave room sunk) (items := items) (rest := .enterPhase .dClose :: closeSteps)
    (by simpa using h1) small
  have g2 := goes_takeCount (s := s) (bs := bs) (tree := tree) (count := ps.length)
    (w := (w.readAt bs items (tree.bits.length + 32)).gave room sunk) count
  have tree0 : HasTree (nodesOf 0 tree) 0#8 tree := by
    simpa using hasTree_nodesOf tree [] [] (by simpa using small)
  obtain ⟨v, g3⟩ := goes_decode (s := s.decompressing .dDecode 0#8 (BitVec.ofNat 32 ps.length)) (w := w) (items := items)
    (nodes := nodesOf 0 tree) (tree := tree) (rest := .enterPhase .dClose :: closeSteps) small tree0 ps walks (n := 0)
    (room := room) (v := BitVec.ofNat 32 ps.length) (sunk := sunk) h2 hp enough
  rw [← hlen, Nat.zero_add] at g3
  refine ⟨v, ?_⟩
  have g4 : Goes 1 (((s.decompressing .dDecode 0#8 (BitVec.ofNat 32 ps.length)).inTree (nodesOf 0 tree) [] v
        (.enterPhase .dClose :: closeSteps) bs (streamBits tree ps).length).counted ps.length)
      ((w.readAt bs items (streamBits tree ps).length).gave (room - ps.length) (sunk ++ ps.map Prod.snd))
      (((s.decompressing .dClose 0#8 (BitVec.ofNat 32 ps.length)).inTree (nodesOf 0 tree) [] v closeSteps bs
        (streamBits tree ps).length).counted ps.length)
      ((w.readAt bs items (streamBits tree ps).length).gave (room - ps.length) (sunk ++ ps.map Prod.snd)) :=
    .step (m := .enterPhase .dClose) (rest := closeSteps) rfl fun q => by
      simp only [microStep, State.enter, State.next, State.on, State.decompressing, State.inTree, State.arena, State.reads',
        State.readAt, State.counted]
  exact ((((g0.trans g1).trans g2).trans g3).trans g4).mono (by omega)

end

end Sys2Proof.Machine
end

