-- ==== Sys2Proof/Laws/DecompressErrors.lean ====
section
/-! SUPPORT. DECOMPRESS where it fails: a token stream too long for the arena (R203), a stream that ends too early (R209), and a sink
that refuses a symbol (R206). -/

namespace Sys2Proof.Machine

open Sys2Proof.Artifact

/-! ## Tokens (R202, R203) -/

/-- The pending nodes whose right subtree is still to come. -/
def openOf (stack : List Frame) : Nat := (stack.filter fun f => !f.right).length

section
variable {s : State} {w : Wire} {bs : List Byte} {items : List SrcItem}

/-- A finished node is linked to the pending nodes above it, up to one whose right subtree is read next. -/
theorem goes_return {p : Nat} {v : Word} {rest : List Micro} (stack : List Frame) : ∀ {nodes : List Node} {n : Byte},
    (∀ f ∈ stack, f.node.toNat < nodes.length) → 1 ≤ openOf stack →
    ∃ nodes' stack', Goes stack.length (s.inTree nodes stack v (.treeReturn n :: rest) bs p) (w.readAt bs items p)
        (s.inTree nodes' stack' v (readToken ++ rest) bs p) (w.readAt bs items p) ∧
      nodes'.length = nodes.length ∧ stack'.length ≤ stack.length ∧ openOf stack' + 1 = openOf stack ∧
      ∀ f ∈ stack', f.node.toNat < nodes'.length := by
  induction stack with
  | nil => intro nodes n _ h; simp [openOf] at h
  | cons f stack ih =>
    intro nodes n hf hopen
    have hlt := hf f (List.mem_cons_self ..)
    have hget : nodes[f.node.toNat]? = some nodes[f.node.toNat] := List.getElem?_eq_getElem hlt
    obtain ⟨p', right⟩ := f
    cases right with
    | false =>
      refine ⟨nodes.set p'.toNat (nodes[p'.toNat].withChild false n), ⟨p', true⟩ :: stack, ?_, by simp, by simp,
        by simp [openOf], fun f hm => ?_⟩
      · refine Goes.mono (n := 1) (.step (m := .treeReturn n) (rest := rest) rfl fun q => ?_) (by simp)
        simp only [microStep, treeReturn, State.before, State.on, State.next, State.inTree, State.arena, State.readAt,
          State.reads', withNode, hget, List.length_set]
        rfl
      · rw [List.length_set]
        rcases List.mem_cons.1 hm with rfl | hm
        · exact hlt
        · exact hf f (List.mem_cons_of_mem _ hm)
    | true =>
      obtain ⟨nodes', stack', g, h1, h2, h3, h4⟩ := ih (nodes := nodes.set p'.toNat (nodes[p'.toNat].withChild true n)) (n := p')
        (fun f hm => by rw [List.length_set]; exact hf f (List.mem_cons_of_mem _ hm)) (by simpa [openOf] using hopen)
      refine ⟨nodes', stack', ?_, by simpa using h1, by simp only [List.length_cons]; omega, by simpa [openOf] using h3, h4⟩
      have g1 : Goes 1 (s.inTree nodes (⟨p', true⟩ :: stack) v (.treeReturn n :: rest) bs p) (w.readAt bs items p)
          (s.inTree (nodes.set p'.toNat (nodes[p'.toNat].withChild true n)) stack v (.treeReturn p' :: rest) bs p)
          (w.readAt bs items p) :=
        .step (m := .treeReturn n) (rest := rest) rfl fun q => by
          simp only [microStep, treeReturn, State.before, State.on, State.next, State.inTree, State.arena, State.readAt,
            State.reads', withNode, hget, List.length_set]
          rfl
      exact (g1.trans g).mono (by simp only [List.length_cons]; omega)

/-- Tokens that leave the tree open are read one after the other. -/
theorem goes_tokens {rest : List Micro} (tokens : List Token) : ∀ {nodes : List Node} {stack : List Frame} {p need : Nat} {v : Word},
    openAfter (openOf stack + 1) tokens = some (need + 1) → tokens.flatMap Token.bits <+: (unpack bs).drop p → p ≤ 8 * bs.length →
    nodes.length + tokens.length ≤ 255 → stack.length ≤ nodes.length → (∀ f ∈ stack, f.node.toNat < nodes.length) →
    ∃ nodes' stack' v', Goes (300 * tokens.length) (s.inTree nodes stack v (readToken ++ rest) bs p) (w.readAt bs items p)
        (s.inTree nodes' stack' v' (readToken ++ rest) bs (p + (tokens.flatMap Token.bits).length))
        (w.readAt bs items (p + (tokens.flatMap Token.bits).length)) ∧ nodes'.length = nodes.length + tokens.length := by
  induction tokens with
  | nil => intro nodes stack p need v _ _ _ _ _ _; exact ⟨nodes, stack, v, .refl _ _, rfl⟩
  | cons token tokens ih =>
    intro nodes stack p need v hopen h hp room hstack hf
    simp only [List.length_cons] at room
    rw [List.flatMap_cons] at h
    obtain ⟨h1, h2⟩ := stream_append h
    have hp1 := stream_bound h1 hp
    have hm : (BitVec.ofNat 8 nodes.length).toNat = nodes.length := by rw [BitVec.toNat_ofNat]; omega
    cases token with
    | none =>
      have g1 := goes_tag (s := s) (w := w) (items := items) (nodes := nodes) (stack := stack) (v := v) (rest := rest)
        (b := false) h1 hp
      have g2 : Goes 1 (s.inTree nodes stack (valOf [false]) (.treeToken :: rest) bs (p + 1)) (w.readAt bs items (p + 1))
          (s.inTree (nodes ++ [.internal 0#32 0#8 0#8]) (⟨BitVec.ofNat 8 nodes.length, false⟩ :: stack) (valOf [false])
            (readToken ++ rest) bs (p + 1)) (w.readAt bs items (p + 1)) :=
        .step (m := .treeToken) (rest := rest) rfl fun q =>
          (treeToken_internal (show nodes.length < 255 by omega) (valOf_singleton false)).trans (by
            simp only [State.before, State.on, State.next, State.inTree, State.arena, State.readAt, State.reads',
              List.length_append, List.length_singleton])
      obtain ⟨nodes', stack', v', g3, hl⟩ := ih (nodes := nodes ++ [.internal 0#32 0#8 0#8])
        (stack := ⟨BitVec.ofNat 8 nodes.length, false⟩ :: stack) (p := p + 1) (need := need) (v := valOf [false])
        (by simpa [openAfter, openOf] using hopen) h2 hp1 (by simp only [List.length_append, List.length_singleton]; omega)
        (by simp only [List.length_append, List.length_cons]; omega) (by
          intro f hmem
          simp only [List.length_append, List.length_singleton]
          rcases List.mem_cons.1 hmem with rfl | hmem
          · rw [hm]; omega
          · have := hf f hmem; omega)
      refine ⟨nodes', stack', v', ?_, by
        simp only [List.length_append, List.length_singleton] at hl; simp only [List.length_cons]; omega⟩
      have := (g1.trans g2).trans g3
      rw [show p + 1 + (tokens.flatMap Token.bits).length = p + ((none :: tokens : List Token).flatMap Token.bits).length by
        simp only [List.flatMap_cons, List.length_append, Token.bits, List.length_singleton]; omega] at this
      exact this.mono (by simp only [List.length_cons]; omega)
    | some sym =>
      have hopen' : openAfter (openOf stack) tokens = some (need + 1) := by simpa [openAfter] using hopen
      have hpos : 1 ≤ openOf stack := by
        rcases Nat.eq_zero_or_pos (openOf stack) with h0 | h0
        · rw [h0] at hopen'
          cases tokens <;> simp [openAfter] at hopen'
        · exact h0
      have g1 := goes_readLeaf (s := s) (w := w) (items := items) (nodes := nodes) (stack := stack) (v := v) (rest := rest)
        (sym := sym) h1 hp (by omega)
      obtain ⟨nodes1, stack1, g2, l1, l2, l3, l4⟩ := goes_return (s := s) (w := w) (bs := bs) (items := items) (p := p + 9)
        (v := valOf (msbFirst sym)) (rest := rest) stack (nodes := nodes ++ [.leaf sym 0#32]) (n := BitVec.ofNat 8 nodes.length)
        (fun f hmem => by have := hf f hmem; simp only [List.length_append, List.length_singleton]; omega) hpos
      simp only [List.length_append, List.length_singleton] at l1
      have hbits : (Token.bits (some sym)).length = 9 := by simp [Token.bits, msbFirst_length]
      rw [hbits] at h2 hp1
      obtain ⟨nodes', stack', v', g3, hl⟩ := ih (nodes := nodes1) (stack := stack1) (p := p + 9) (need := need)
        (v := valOf (msbFirst sym)) (by rw [l3]; exact hopen') h2 hp1 (by omega) (by omega) l4
      refine ⟨nodes', stack', v', ?_, by simp only [List.length_cons]; omega⟩
      have := (g1.trans g2).trans g3
      rw [show p + 9 + (tokens.flatMap Token.bits).length = p + ((some sym :: tokens : List Token).flatMap Token.bits).length by
        simp only [List.flatMap_cons, List.length_append, hbits]; omega] at this
      exact this.mono (by simp only [List.length_cons]; omega)

theorem treeToken_full {s : State} (full : 255 ≤ s.nodes.length) : treeToken s = .raise .treeOverflow s := if_pos full

/-! ## A stream that ends too early (R209) -/

/-- What is left of a stream either ends inside the first part of what is wanted, or has all of it. -/
theorem cut_append {a x y : List Bool} (h : a <+: x ++ y) :
    (a.length < x.length ∧ a <+: x) ∨ (x <+: a ∧ a.drop x.length <+: y) := by
  by_cases hl : a.length < x.length
  · exact .inl ⟨hl, List.prefix_of_prefix_length_le h (List.prefix_append x y) (by omega)⟩
  · have hx : x <+: a := List.prefix_of_prefix_length_le (List.prefix_append x y) h (by omega)
    refine .inr ⟨hx, ?_⟩
    obtain ⟨b, rfl⟩ := hx
    rw [List.drop_left]
    exact (List.prefix_append_right_inj x).1 h

/-- From the state, DECOMPRESS comes to a bit that is no longer there. -/
def Starves (n : Nat) (s : State) (bs : List Byte) (items : List SrcItem) (w : Wire) (start : State) (p : Nat) : Prop :=
  ∃ nodes stack v rest, Goes n start (w.readAt bs items p)
    (s.inTree nodes stack v (.readBit :: rest) bs (8 * bs.length)) (w.readAt bs items (8 * bs.length))

theorem Starves.after {n m : Nat} {start mid : State} {p q : Nat} (h : Starves m s bs items w mid q)
    (g : Goes n start (w.readAt bs items p) mid (w.readAt bs items q)) : Starves (n + m) s bs items w start p := by
  obtain ⟨nodes, stack, v, rest, g'⟩ := h
  exact ⟨nodes, stack, v, rest, g.trans g'⟩

theorem Starves.mono {n m : Nat} {start : State} {p : Nat} (h : Starves n s bs items w start p) (hm : n ≤ m) :
    Starves m s bs items w start p := by
  obtain ⟨nodes, stack, v, rest, g⟩ := h
  exact ⟨nodes, stack, v, rest, g.mono hm⟩

/-- A field longer than what is left. -/
theorem starves_field {n : Nat} {nodes : List Node} {stack : List Frame} {p : Nat} {v : Word} {rest : List Micro}
    (hp : p ≤ 8 * bs.length) (short : 8 * bs.length < p + n) :
    Starves (n + 1) s bs items w (s.inTree nodes stack v (readBits n ++ rest) bs p) p := by
  have g1 : Goes 1 (s.inTree nodes stack v (readBits n ++ rest) bs p) (w.readAt bs items p)
      (s.inTree nodes stack 0#32 (List.replicate n .readBit ++ rest) bs p) (w.readAt bs items p) :=
    .step (m := .clearValue) (rest := List.replicate n .readBit ++ rest) rfl
      fun q => by simp only [microStep, State.on, State.next, State.inTree, State.arena, State.readAt, State.reads']
  obtain ⟨k, hk⟩ : ∃ k, n = (8 * bs.length - p) + (k + 1) := ⟨n - (8 * bs.length - p) - 1, by omega⟩
  have e : List.replicate n Micro.readBit ++ rest =
      List.replicate (8 * bs.length - p) .readBit ++ (.readBit :: (List.replicate k .readBit ++ rest)) := by
    conv_lhs => rw [hk]
    rw [List.replicate_add, List.append_assoc, List.replicate_succ, List.cons_append]
  rw [e] at g1
  have g2 := goes_readMany (s := s.arena nodes stack) (w := w) (bs := bs) (items := items) (8 * bs.length - p) (p := p) (v := 0#32)
    (rest := .readBit :: (List.replicate k .readBit ++ rest)) (by omega)
  rw [show p + (8 * bs.length - p) = 8 * bs.length by omega] at g2
  have g := g1.trans g2
  exact ⟨nodes, stack, _, _, g.mono (by omega)⟩

theorem drop_length (p : Nat) : ((unpack bs).drop p).length = 8 * bs.length - p := by rw [List.length_drop, unpack_length]

/-- The tag bit of a token that is no longer there. -/
theorem starves_tag {nodes : List Node} {stack : List Frame} {p : Nat} {v : Word} {rest : List Micro} (hp : p = 8 * bs.length) :
    Starves 2 s bs items w (s.inTree nodes stack v (readToken ++ rest) bs p) p := by
  subst hp
  have := starves_field (s := s) (w := w) (items := items) (n := 1) (nodes := nodes) (stack := stack) (v := v)
    (rest := .treeToken :: rest) (le_refl (8 * bs.length)) (by omega)
  simpa [readToken] using this

/-- An internal node's token: the node is allocated and pending (R202). -/
theorem goes_internal {nodes : List Node} {stack : List Frame} {p : Nat} {v : Word} {rest : List Micro}
    (h : [false] <+: (unpack bs).drop p) (hp : p ≤ 8 * bs.length) (room : nodes.length < 255) :
    Goes 3 (s.inTree nodes stack v (readToken ++ rest) bs p) (w.readAt bs items p)
      (s.inTree (nodes ++ [.internal 0#32 0#8 0#8]) (⟨BitVec.ofNat 8 nodes.length, false⟩ :: stack) (valOf [false])
        (readToken ++ rest) bs (p + 1)) (w.readAt bs items (p + 1)) := by
  have g1 := goes_tag (s := s) (w := w) (items := items) (nodes := nodes) (stack := stack) (v := v) (rest := rest) h hp
  have g2 : Goes 1 (s.inTree nodes stack (valOf [false]) (.treeToken :: rest) bs (p + 1)) (w.readAt bs items (p + 1))
      (s.inTree (nodes ++ [.internal 0#32 0#8 0#8]) (⟨BitVec.ofNat 8 nodes.length, false⟩ :: stack) (valOf [false])
        (readToken ++ rest) bs (p + 1)) (w.readAt bs items (p + 1)) :=
    .step (m := .treeToken) (rest := rest) rfl fun q =>
      (treeToken_internal room (valOf_singleton false)).trans (by
        simp only [State.before, State.on, State.next, State.inTree, State.arena, State.readAt, State.reads',
          List.length_append, List.length_singleton])
  exact g1.trans g2

/-- A left subtree, up to the start of the right one. -/
theorem goes_left {l : Artifact.Tree} {nodes : List Node} {stack : List Frame} {n : Byte} {p : Nat} {v : Word} {rest : List Micro}
    (h : l.bits <+: (unpack bs).drop p) (hp : p ≤ 8 * bs.length) (room : nodes.length + l.size ≤ 255)
    (hn : n.toNat < nodes.length) :
    ∃ nodes' v', Goes (20 * l.size + 1) (s.inTree nodes (⟨n, false⟩ :: stack) v (readToken ++ rest) bs p) (w.readAt bs items p)
        (s.inTree nodes' (⟨n, true⟩ :: stack) v' (readToken ++ rest) bs (p + l.bits.length))
        (w.readAt bs items (p + l.bits.length)) ∧ nodes'.length = nodes.length + l.size := by
  obtain ⟨v1, g1⟩ := goes_readTree (s := s) (w := w) (items := items) l (nodes := nodes) (stack := ⟨n, false⟩ :: stack) (v := v)
    (rest := rest) h hp room
  have hlt : n.toNat < (nodes ++ nodesOf nodes.length l).length := by rw [List.length_append]; omega
  have hget : (nodes ++ nodesOf nodes.length l)[n.toNat]? = some (nodes ++ nodesOf nodes.length l)[n.toNat] :=
    List.getElem?_eq_getElem hlt
  have g2 : Goes 1 (s.inTree (nodes ++ nodesOf nodes.length l) (⟨n, false⟩ :: stack) v1
        (.treeReturn (BitVec.ofNat 8 nodes.length) :: rest) bs (p + l.bits.length)) (w.readAt bs items (p + l.bits.length))
      (s.inTree ((nodes ++ nodesOf nodes.length l).set n.toNat ((nodes ++ nodesOf nodes.length l)[n.toNat].withChild false
        (BitVec.ofNat 8 nodes.length))) (⟨n, true⟩ :: stack) v1 (readToken ++ rest) bs (p + l.bits.length))
      (w.readAt bs items (p + l.bits.length)) :=
    .step (m := .treeReturn (BitVec.ofNat 8 nodes.length)) (rest := rest) rfl fun q => by
      simp only [microStep, treeReturn, State.before, State.on, State.next, State.inTree, State.arena, State.readAt,
        State.reads', withNode, hget, List.length_set]
      rfl
  exact ⟨_, v1, g1.trans g2, by rw [List.length_set, List.length_append, nodesOf_length]⟩

/-- A tree that the stream cuts short. -/
theorem starves_tree (t : Artifact.Tree) : ∀ {nodes : List Node} {stack : List Frame} {p : Nat} {v : Word} {rest : List Micro},
    (unpack bs).drop p <+: t.bits → 8 * bs.length - p < t.bits.length → p ≤ 8 * bs.length → nodes.length + t.size ≤ 255 →
    Starves (20 * t.size) s bs items w (s.inTree nodes stack v (readToken ++ rest) bs p) p := by
  induction t with
  | leaf sym =>
    intro nodes stack p v rest h short hp room
    simp only [Artifact.Tree.bits, List.length_cons, msbFirst_length] at short
    simp only [Artifact.Tree.size] at room ⊢
    by_cases hz : p = 8 * bs.length
    · exact (starves_tag hz).mono (by omega)
    · rcases cut_append (x := [true]) (y := msbFirst sym) h with ⟨hl, _⟩ | ⟨h1, _⟩
      · rw [drop_length] at hl; simp only [List.length_singleton] at hl; omega
      · have g1 := goes_tag (s := s) (w := w) (items := items) (nodes := nodes) (stack := stack) (v := v) (rest := rest) h1 hp
        have g2 : Goes 1 (s.inTree nodes stack (valOf [true]) (.treeToken :: rest) bs (p + 1)) (w.readAt bs items (p + 1))
            (s.inTree nodes stack (valOf [true]) (readBits 8 ++ .treeLeaf :: rest) bs (p + 1)) (w.readAt bs items (p + 1)) :=
          .step (m := .treeToken) (rest := rest) rfl fun q =>
            (treeToken_leaf (show nodes.length < 255 by omega) (valOf_singleton true)).trans (by
              simp only [State.before, State.on, State.next, State.inTree, State.arena, State.readAt, State.reads',
                List.append_assoc, List.singleton_append])
        have := (starves_field (s := s) (w := w) (bs := bs) (items := items) (n := 8) (nodes := nodes) (stack := stack)
          (v := valOf [true]) (rest := .treeLeaf :: rest) (p := p + 1) (by omega) (by omega)).after (g1.trans g2)
        exact this.mono (by omega)
  | node l r ihl ihr =>
    intro nodes stack p v rest h short hp room
    simp only [Artifact.Tree.bits, List.length_cons, List.length_append] at short
    simp only [Artifact.Tree.size] at room ⊢
    by_cases hz : p = 8 * bs.length
    · exact (starves_tag hz).mono (by omega)
    · rcases cut_append (x := [false]) (y := l.bits ++ r.bits) h with ⟨hl, _⟩ | ⟨h1, h2⟩
      · rw [drop_length] at hl; simp only [List.length_singleton] at hl; omega
      · rw [List.length_singleton, List.drop_drop] at h2
        have hm : (BitVec.ofNat 8 nodes.length).toNat = nodes.length := by rw [BitVec.toNat_ofNat]; omega
        have g1 := goes_internal (s := s) (w := w) (items := items) (nodes := nodes) (stack := stack) (v := v) (rest := rest) h1 hp
          (by omega)
        have hlen : (nodes ++ [Node.internal 0#32 0#8 0#8]).length = nodes.length + 1 := by simp
        rcases cut_append h2 with ⟨hl, hpre⟩ | ⟨hl, hr⟩
        · rw [drop_length] at hl
          exact ((ihl hpre hl (by omega) (by omega)).after g1).mono (by omega)
        · obtain ⟨nodes', v', g2, hn⟩ := goes_left (s := s) (w := w) (items := items)
            (nodes := nodes ++ [.internal 0#32 0#8 0#8]) (stack := stack) (n := BitVec.ofNat 8 nodes.length) (v := valOf [false])
            (rest := rest) hl (by omega) (by omega) (by omega)
          have hp2 := stream_bound hl (by omega)
          rw [List.drop_drop] at hr
          exact ((ihr hr (by omega) hp2 (by omega)).after (g1.trans g2)).mono (by omega)

/-- A walk that the stream cuts short. -/
theorem starves_walk {nodes : List Node} {sym : Byte} {k : Nat} {rest : List Micro} (t : Artifact.Tree) :
    ∀ {n : Byte} {path : List Bool} {p : Nat} {v : Word}, HasTree nodes n t → t.walk path = some sym →
    (unpack bs).drop p <+: path → 8 * bs.length - p < path.length → p ≤ 8 * bs.length →
    Starves (4 * path.length) s bs items w (s.inTree nodes [] v (.walk n k :: rest) bs p) p := by
  induction t with
  | leaf x =>
    rintro n path p v _ hw _ short _
    cases path with
    | nil => simp at short
    | cons b path => simp [Artifact.Tree.walk] at hw
  | node l r ihl ihr =>
    rintro n path p v ⟨f, a, c, hn, hl, hr⟩ hw h short hp
    cases path with
    | nil => simp at short
    | cons b path =>
      have g1 : Goes 1 (s.inTree nodes [] v (.walk n k :: rest) bs p) (w.readAt bs items p)
          (s.inTree nodes [] v (readBits 1 ++ .branch n k :: rest) bs p) (w.readAt bs items p) :=
        .step (m := .walk n k) (rest := rest) rfl fun q => by
          simp only [microStep, walkStep, withNode, State.on, State.next, State.inTree, State.arena, State.readAt,
            State.reads', hn, State.before, List.append_assoc, List.cons_append, List.nil_append]
      simp only [List.length_cons] at short ⊢
      by_cases hz : p = 8 * bs.length
      · have := (starves_field (s := s) (w := w) (bs := bs) (items := items) (n := 1) (nodes := nodes) (stack := []) (v := v)
          (rest := .branch n k :: rest) hp (by omega)).after g1
        exact this.mono (by omega)
      · rcases cut_append (x := [b]) (y := path) h with ⟨hx, _⟩ | ⟨h1, h2⟩
        · rw [drop_length] at hx; simp only [List.length_singleton] at hx; omega
        · rw [List.length_singleton, List.drop_drop] at h2
          have g2 := goes_readField (s := s) (w := w) (items := items) (nodes := nodes) (stack := []) (v := v)
            (rest := .branch n k :: rest) h1 hp
          simp only [List.length_singleton] at g2
          have g3 : Goes 1 (s.inTree nodes [] (valOf [b]) (.branch n k :: rest) bs (p + 1)) (w.readAt bs items (p + 1))
              (s.inTree nodes [] (valOf [b]) (.walk (if b then c else a) k :: rest) bs (p + 1)) (w.readAt bs items (p + 1)) :=
            .step (m := .branch n k) (rest := rest) rfl fun q => by
              simp only [microStep, branchStep, withNode, State.on, State.next, State.inTree, State.arena, State.readAt,
                State.reads', hn, State.before, valOf_singleton, List.cons_append, List.nil_append]
          have ih : Starves (4 * path.length) s bs items w
              (s.inTree nodes [] (valOf [b]) (.walk (if b then c else a) k :: rest) bs (p + 1)) (p + 1) := by
            cases b with
            | true => exact ihr hr (by simpa [Artifact.Tree.walk] using hw) h2 (by omega) (by omega)
            | false => exact ihl hl (by simpa [Artifact.Tree.walk] using hw) h2 (by omega) (by omega)
          exact (ih.after ((g1.trans g2).trans g3)).mono (by omega)

/-- Decoding that the stream cuts short: the symbols whose paths lie whole inside it are emitted and stay in the sink. -/
theorem starves_decode {nodes : List Node} {tree : Artifact.Tree} {rest : List Micro} (small : tree.size ≤ 255)
    (root : HasTree nodes s.root tree) (ps : List (List Bool × Byte)) :
    (∀ p ∈ ps, tree.walk p.1 = some p.2) → ∀ {p n room : Nat} {v : Word} {sunk : List Byte},
    (unpack bs).drop p <+: ps.flatMap Prod.fst → 8 * bs.length - p < (ps.flatMap Prod.fst).length → p ≤ 8 * bs.length →
    ps.length ≤ room →
    ∃ k nodes' stack' v' rest', (p + ((ps.take k).flatMap Prod.fst).length ≤ 8 * bs.length ∧
        8 * bs.length < p + ((ps.take (k + 1)).flatMap Prod.fst).length) ∧
      Goes (600 * ps.length) ((s.inTree nodes [] v (.decode ps.length :: rest) bs p).counted n)
        ((w.readAt bs items p).gave room sunk)
        ((s.inTree nodes' stack' v' (.readBit :: rest') bs (8 * bs.length)).counted (n + k))
        ((w.readAt bs items (8 * bs.length)).gave (room - k) (sunk ++ (ps.take k).map Prod.snd)) := by
  induction ps with
  | nil => intro _ p n room v sunk _ short _ _; simp at short
  | cons x ps ih =>
    intro hwalk p n room v sunk h short hp hroom
    simp only [List.flatMap_cons, List.length_append] at h short
    simp only [List.length_cons] at hroom
    have hx := hwalk x (List.mem_cons_self ..)
    have hshort := walk_length hx
    have g1 : Goes 1 ((s.inTree nodes [] v (.decode (x :: ps).length :: rest) bs p).counted n)
        ((w.readAt bs items p).gave room sunk)
        ((s.inTree nodes [] v (.walk s.root ps.length :: rest) bs p).counted n)
        ((w.readAt bs items p).gave room sunk) :=
      .step (m := .decode (ps.length + 1)) (rest := rest) (by
        simp only [State.counted, State.inTree, State.arena, State.readAt, State.reads', List.length_cons]) fun _ => by
        simp only [microStep, decodeStep, State.on, State.next, State.counted, State.inTree, State.arena, State.readAt,
          State.reads', State.before, List.cons_append, List.nil_append]
    rcases cut_append h with ⟨hl, hpre⟩ | ⟨hl, hr⟩
    · rw [drop_length] at hl
      obtain ⟨nodes', stack', v', rest', g2⟩ := starves_walk (s := s.counted n) (w := w.gave room sunk) (items := items)
        (k := ps.length) (rest := rest) (v := v) tree root hx hpre hl hp
      refine ⟨0, nodes', stack', v', rest', ⟨by simpa using hp, by simp; omega⟩, ?_⟩
      simp only [List.take_zero, List.map_nil, List.append_nil, Nat.add_zero, Nat.sub_zero]
      exact (g1.trans g2).mono (by simp only [List.length_cons]; omega)
    · have hp1 := stream_bound hl hp
      rw [List.drop_drop] at hr
      obtain ⟨room, rfl⟩ : ∃ r, room = r + 1 := ⟨room - 1, by omega⟩
      obtain ⟨v1, g2⟩ := goes_walk (s := s.counted n) (w := w.gave (room + 1) sunk) (items := items) (k := ps.length)
        (rest := rest) (v := v) tree root hx hl hp
      have g3 := goes_append (w := w.readAt bs items (p + x.1.length)) (room := room) (n := n) (sunk := sunk)
        (s := s.inTree nodes [] v1 (.append x.2 .raise :: .decode ps.length :: rest) bs (p + x.1.length)) (b := x.2)
        (onFail := .raise) (rest := .decode ps.length :: rest) rfl
      obtain ⟨k, nodes', stack', v', rest', hk, g4⟩ := ih (fun p hp => hwalk p (List.mem_cons_of_mem _ hp)) (n := n + 1)
        (room := room) (v := v1) (sunk := sunk ++ [x.2]) hr (by omega) hp1 (by omega)
      refine ⟨k + 1, nodes', stack', v', rest', ?_, ?_⟩
      · simp only [List.take_succ_cons, List.flatMap_cons, List.length_append] at hk ⊢
        omega
      have := ((g1.trans g2).trans g3).trans g4
      rw [List.append_assoc, show n + 1 + k = n + (k + 1) by omega, show room - k = room + 1 - (k + 1) by omega] at this
      exact this.mono (by simp only [List.length_cons]; omega)

/-- The phase in which DECOMPRESS asks for more than the bits it is given (R236). -/
def starvedPhase (tree : Artifact.Tree) (given : Nat) : Phase :=
  if given < tree.bits.length then .dTree else if given < tree.bits.length + 32 then .dCount else .dDecode

/-- DECOMPRESS of a stream that holds a proper beginning of a tree, a count and its paths (R209). -/
theorem goes_truncated {tree : Artifact.Tree} {ps : List (List Bool × Byte)} {room : Nat} {sunk : List Byte}
    (small : tree.size ≤ 255) (walks : ∀ p ∈ ps, tree.walk p.1 = some p.2) (count : ps.length < 2147483648)
    (h : unpack bs <+: streamBits tree ps) (short : (unpack bs).length < (streamBits tree ps).length) (enough : ps.length ≤ room) :
    let phase := starvedPhase tree (8 * bs.length)
    ∃ k nodes stack v rest,
      (if phase = .dDecode then
        tree.bits.length + 32 + ((ps.take k).flatMap Prod.fst).length ≤ 8 * bs.length ∧
          8 * bs.length < tree.bits.length + 32 + ((ps.take (k + 1)).flatMap Prod.fst).length
      else k = 0) ∧
      Goes (20 * tree.size + 600 * ps.length + 50) (accept .decompress decompressSteps s) ((w.readAt bs items 0).gave room sunk)
        (((s.decompressing phase 0#8 (if phase = .dDecode then BitVec.ofNat 32 ps.length else s.symcount)).inTree nodes stack v (.readBit :: rest) bs (8 * bs.length)).counted k)
        ((w.readAt bs items (8 * bs.length)).gave (room - k) (sunk ++ (ps.take k).map Prod.snd)) := by
  have hN : (BitVec.ofNat 32 ps.length).toNat = ps.length := by rw [BitVec.toNat_ofNat]; omega
  intro phase
  rw [unpack_length] at short
  simp only [streamBits, List.append_assoc, List.length_append, msbFirst_length] at h short
  have g0 := goes_dInit (s := s) (w := (w.readAt bs items 0).gave room sunk) bs
  have zero : ∀ l : List Byte, l = l ++ (ps.take 0).map Prod.snd := by simp
  rcases cut_append (a := (unpack bs).drop 0) (by simpa using h) with ⟨hl, hpre⟩ | ⟨h1, h2⟩
  · -- in the tree
    rw [drop_length] at hl
    obtain ⟨nodes, stack, v, rest, g1⟩ := starves_tree (s := (s.decompressing .dTree 0#8 s.symcount).counted 0)
      (w := w.gave room sunk) (items := items) tree (nodes := []) (stack := []) (v := 0#32)
      (rest := .enterPhase .dCount :: (readBits 32 ++ .takeCount :: .enterPhase .dClose :: closeSteps)) hpre hl (by omega)
      (by simpa using small)
    have hphase : phase = .dTree := by simp only [phase, starvedPhase]; rw [if_pos (by omega)]
    simp only [hphase]
    refine ⟨0, nodes, stack, v, rest, rfl, ?_⟩
    rw [← zero, Nat.sub_zero]
    exact (g0.trans g1).mono (by omega)
  · obtain ⟨v0, g1⟩ := goes_tree (s := s) (w := w.gave room sunk) (items := items)
      (rest := readBits 32 ++ .takeCount :: .enterPhase .dClose :: closeSteps) (by simpa using h1) small
    have hp1 := stream_bound h1 (by omega)
    rw [List.drop_drop, Nat.zero_add] at h2
    rw [Nat.zero_add] at hp1
    rcases cut_append h2 with ⟨hl, hpre⟩ | ⟨h3, h4⟩
    · -- in the count
      rw [drop_length, msbFirst_length] at hl
      obtain ⟨nodes, stack, v, rest, g2⟩ := starves_field (s := (s.decompressing .dCount 0#8 s.symcount).counted 0)
        (w := w.gave room sunk) (bs := bs) (items := items) (n := 32) (nodes := nodesOf 0 tree) (stack := []) (v := v0)
        (rest := .takeCount :: .enterPhase .dClose :: closeSteps) hp1 (by omega)
      have hphase : phase = .dCount := by
        simp only [phase, starvedPhase]; rw [if_neg (by omega), if_pos (by omega)]
      simp only [hphase]
      refine ⟨0, nodes, stack, v, rest, rfl, ?_⟩
      rw [← zero, Nat.sub_zero]
      exact ((g0.trans g1).trans g2).mono (by omega)
    · -- in the payload
      have hp2 := stream_bound h3 hp1
      rw [List.drop_drop] at h4
      rw [msbFirst_length] at h4 hp2
      have g2 := goes_readField (s := (s.decompressing .dCount 0#8 s.symcount).counted 0) (w := w.gave room sunk)
        (items := items) (nodes := nodesOf 0 tree) (stack := []) (v := v0)
        (rest := .takeCount :: .enterPhase .dClose :: closeSteps) h3 hp1
      rw [msbFirst_length, valOf_word] at g2
      have g3 := goes_takeCount (s := s) (bs := bs) (tree := tree) (count := ps.length)
        (w := (w.readAt bs items (tree.bits.length + 32)).gave room sunk) count
      have tree0 : HasTree (nodesOf 0 tree) 0#8 tree := by
        simpa using hasTree_nodesOf tree [] [] (by simpa using small)
      obtain ⟨k, nodes, stack, v, rest, hk, g4⟩ := starves_decode (s := s.decompressing .dDecode 0#8 (BitVec.ofNat 32 ps.length))
        (w := w) (items := items) (nodes := nodesOf 0 tree) (tree := tree) (rest := .enterPhase .dClose :: closeSteps) small tree0
        ps walks (n := 0) (room := room) (v := BitVec.ofNat 32 ps.length) (sunk := sunk) h4 (by omega) hp2 enough
      rw [Nat.zero_add] at g4
      have hphase : phase = .dDecode := by
        simp only [phase, starvedPhase]; rw [if_neg (by omega), if_neg (by omega)]
      simp only [hphase, if_true]
      refine ⟨k, nodes, stack, v, rest, hk, ?_⟩
      exact ((((g0.trans g1).trans g2).trans g3).trans g4).mono (by omega)

/-- DECOMPRESS up to the append of one of the symbols (R206). -/
theorem goes_symbol {tree : Artifact.Tree} {ps : List (List Bool × Byte)} {k : Nat} {sunk : List Byte}
    (small : tree.size ≤ 255) (walks : ∀ p ∈ ps, tree.walk p.1 = some p.2) (count : ps.length < 2147483648) (hk : k < ps.length)
    (h : tree.bits ++ msbFirst (BitVec.ofNat 32 ps.length) ++ (ps.take (k + 1)).flatMap Prod.fst <+: unpack bs) :
    let len := tree.bits.length + 32 + ((ps.take (k + 1)).flatMap Prod.fst).length
    ∃ v rest,
      Goes (20 * tree.size + 600 * ps.length + 50) (accept .decompress decompressSteps s) ((w.readAt bs items 0).gave k sunk)
        (((s.decompressing .dDecode 0#8 (BitVec.ofNat 32 ps.length)).inTree (nodesOf 0 tree) [] v
          (.append ps[k].2 .raise :: rest) bs len).counted k)
        ((w.readAt bs items len).gave 0 (sunk ++ (ps.take k).map Prod.snd)) := by
  intro len
  have htake : ps.take (k + 1) = ps.take k ++ [ps[k]] := List.take_succ_eq_append_getElem hk
  obtain ⟨h1, h2⟩ := stream_append (p := 0) (a := tree.bits ++ msbFirst (BitVec.ofNat 32 ps.length)) (by simpa using h)
  have hp := stream_bound h1 (by omega)
  simp only [List.length_append, msbFirst_length, Nat.zero_add] at h2 hp
  rw [htake, List.flatMap_append] at h2
  obtain ⟨h2, h3⟩ := stream_append h2
  have hp2 := stream_bound h2 hp
  have g0 := goes_dInit (s := s) (w := (w.readAt bs items 0).gave k sunk) bs
  have g1 := goes_count (s := s) (w := w.gave k sunk) (items := items) (rest := .enterPhase .dClose :: closeSteps)
    (by simpa using h1) small
  have g2 := goes_takeCount (s := s) (bs := bs) (tree := tree) (count := ps.length)
    (w := (w.readAt bs items (tree.bits.length + 32)).gave k sunk) count
  have tree0 : HasTree (nodesOf 0 tree) 0#8 tree := by
    simpa using hasTree_nodesOf tree [] [] (by simpa using small)
  have hlen : (ps.take k).length = k := List.length_take_of_le (by omega)
  obtain ⟨v, g3⟩ := goes_decodeSome (s := s.decompressing .dDecode 0#8 (BitVec.ofNat 32 ps.length)) (w := w) (items := items)
    (nodes := nodesOf 0 tree) (tree := tree) (rest := .enterPhase .dClose :: closeSteps) (more := ps.length - k) small tree0
    (ps.take k) (fun p hp => walks p (List.mem_of_mem_take hp)) (n := 0) (room := k) (v := BitVec.ofNat 32 ps.length) (sunk := sunk)
    h2 hp (by omega)
  rw [hlen, Nat.sub_self, Nat.zero_add, show k + (ps.length - k) = ps.length by omega] at g3
  have hx := walks ps[k] (List.getElem_mem hk)
  have short := walk_length hx
  obtain ⟨m, hm⟩ : ∃ m, ps.length - k = m + 1 := ⟨ps.length - k - 1, by omega⟩
  rw [hm] at g3
  let s' := s.decompressing .dDecode 0#8 (BitVec.ofNat 32 ps.length)
  have g4 : Goes 1 ((s'.inTree (nodesOf 0 tree) [] v (.decode (m + 1) :: .enterPhase .dClose :: closeSteps) bs
        (tree.bits.length + 32 + ((ps.take k).flatMap Prod.fst).length)).counted k)
      ((w.readAt bs items (tree.bits.length + 32 + ((ps.take k).flatMap Prod.fst).length)).gave 0 (sunk ++ (ps.take k).map Prod.snd))
      ((s'.inTree (nodesOf 0 tree) [] v (.walk 0#8 m :: .enterPhase .dClose :: closeSteps) bs
        (tree.bits.length + 32 + ((ps.take k).flatMap Prod.fst).length)).counted k)
      ((w.readAt bs items (tree.bits.length + 32 + ((ps.take k).flatMap Prod.fst).length)).gave 0 (sunk ++ (ps.take k).map Prod.snd)) :=
    .step (m := .decode (m + 1)) (rest := .enterPhase .dClose :: closeSteps) rfl fun _ => rfl
  obtain ⟨v', g5⟩ := goes_walk (s := s'.counted k) (w := w.gave 0 (sunk ++ (ps.take k).map Prod.snd)) (items := items) (k := m)
    (rest := .enterPhase .dClose :: closeSteps) (v := v) tree tree0 hx (by simpa using h3) hp2
  have hl : tree.bits.length + 32 + ((ps.take k).flatMap Prod.fst).length + ps[k].1.length = len := by
    simp only [len, htake, List.flatMap_append, List.flatMap_singleton, List.length_append]; omega
  rw [hl] at g5
  refine ⟨v', .decode m :: .enterPhase .dClose :: closeSteps, ?_⟩
  exact (((((g0.trans g1).trans g2).trans g3).trans g4).trans g5).mono (by omega)

/-- ReadBit at the end of the stream (R124). -/
theorem readBit_ended {s : State} (empty : s.rd.cnt = 0#4) (h : s.ports.src.holds [] true) :
    readBit s = .raise .eos { s with ports := s.ports.givingThen [] .srcEnd [] true } := by
  unfold readBit; rw [if_pos empty, srcRead_ended h]; rfl

/-- ReadBit where the source answers IoErr (R124). -/
theorem readBit_ioErr {s : State} {ended : Bool} (empty : s.rd.cnt = 0#4) (h : s.ports.src.holds (.ioErr :: items) ended) :
    readBit s = .raise .ioSrc { s with ports := s.ports.givingThen [] .srcIoErr items ended } := by
  unfold readBit; rw [if_pos empty, srcRead_ioErr h]; rfl

theorem cursorAt_end (bs : List Byte) : (cursorAt bs (8 * bs.length)).cnt = 0#4 := by
  simp only [cursorAt, show (8 * bs.length + 7) / 8 = bs.length by omega, Nat.sub_self]

end

end Sys2Proof.Machine
end

