-- ==== Sys2Proof/Laws/PerInstr.lean ====
section
/-! SUPPORT. Per-instruction laws: the family EncodedFields, one lemma for each constructor of Instr. -/

namespace Sys2Proof.Laws.EncodedFields

/-- The three fields of a command's word (R90): OPCODE is the command's, IMM8 is its operand (0 where it has none), RSVD
is 0. So the decoder finds in the word exactly what the encoder put there. -/
def Statement (i : Instr) : Prop :=
  opcodeField (encode i) = i.opcode ∧ imm8Field (encode i) = i.imm8 ∧ rsvdField (encode i) = 0#16

/-- The fields of a word laid out as R90 says. -/
theorem fields_of_layout (imm8 opcode : Byte) :
    opcodeField (0#16 ++ imm8 ++ opcode) = opcode ∧ imm8Field (0#16 ++ imm8 ++ opcode) = imm8 ∧
      rsvdField (0#16 ++ imm8 ++ opcode) = 0#16 := by
  unfold opcodeField imm8Field rsvdField
  refine ⟨?_, ?_, ?_⟩ <;> apply BitVec.eq_of_getLsbD_eq <;> intro i hi <;> rw [BitVec.getLsbD_extractLsb'] <;>
    simp only [BitVec.getLsbD_append, hi]
  · simp; omega
  · simp [show ¬ 8 + i < 8 by omega, hi]
  · simp [show ¬ 16 + i < 8 by omega, show ¬ 16 + i - 8 < 8 by omega]

theorem wbit (imm8 : Byte) : Statement (.wbit imm8) := fields_of_layout ..
theorem wbyte (imm8 : Byte) : Statement (.wbyte imm8) := fields_of_layout ..
theorem wint32 : Statement .wint32 := fields_of_layout ..
theorem wflush : Statement .wflush := fields_of_layout ..
theorem wclose : Statement .wclose := fields_of_layout ..
theorem rbit : Statement .rbit := fields_of_layout ..
theorem rbyte : Statement .rbyte := fields_of_layout ..
theorem rint32 : Statement .rint32 := fields_of_layout ..
theorem rclose : Statement .rclose := fields_of_layout ..
theorem pqPush : Statement .pqPush := fields_of_layout ..
theorem pqPop : Statement .pqPop := fields_of_layout ..
theorem pqTop : Statement .pqTop := fields_of_layout ..
theorem pqSize : Statement .pqSize := fields_of_layout ..
theorem pqClear : Statement .pqClear := fields_of_layout ..
theorem compress : Statement .compress := fields_of_layout ..
theorem decompress : Statement .decompress := fields_of_layout ..

end Sys2Proof.Laws.EncodedFields
end

