-- ==== Sys2Proof/Laws/Steps.lean ====
section
/-! SUPPORT. What a step of a busy block is: an input that leaves the running command alone, and then the SEQUENCER. -/

namespace Sys2Proof.Machine

/-- What an input other than a reset changes while a command runs: the host's registers, the devices, the inputs and the answers,
none of which the SEQUENCER works on. -/
structure State.Hears (s t : State) : Prop where
  params : t.params = s.params
  pqMode : t.pqMode = s.pqMode
  busy : t.busy = s.busy
  err : t.err = s.err
  errReg : t.errReg = s.errReg
  result : t.result = s.result
  result2 : t.result2 = s.result2
  heap : t.heap = s.heap
  wr : t.wr = s.wr
  rd : t.rd = s.rd
  symcount : t.symcount = s.symcount
  srcCount : t.srcCount = s.srcCount
  snkCount : t.snkCount = s.snkCount
  treeNodes : t.treeNodes = s.treeNodes
  intDone : t.intDone = true → s.intDone = true
  intError : t.intError = true → s.intError = true
  tables : t.tables = s.tables
  inbuf : t.inbuf = s.inbuf
  inlen : t.inlen = s.inlen
  nodes : t.nodes = s.nodes
  root : t.root = s.root
  seq : t.seq = s.seq
  trace : t.ports.trace = s.ports.trace
  inReset : t.inReset = true → s.inReset = true

/-- A step of a busy block, no reset: the input, then the SEQUENCER from where it stood. -/
theorem step_busy {s t : State} (busy : s.busy = true) (reset : ¬ s.resets) (h : step s = .next t) :
    ∃ s₀, s.Hears s₀ ∧ settle s₀ = .next t := by
  unfold step at h
  split at h
  · exact ⟨s, by constructor <;> first | rfl | exact id, h⟩
  · next e rest he =>
    unfold handleEvent at h
    split at h
    · next a =>
      unfold hostAccess at h
      dsimp only at h
      split at h
      · next hsel =>
        split at h
        · next hword =>
          split at h
          · refine ⟨_, ?_, h⟩
            unfold hostRead
            split
            · constructor <;> first | rfl | exact id
            · constructor <;> first | rfl | exact id
          · next v hv =>
            split at h
            · exact ⟨_, by constructor <;> first | rfl | exact id, h⟩
            · next hr =>
              split at h
              · unfold writeCmd at h
                split at h
                · next i _ =>
                  have : exec i ({ s with events := rest, reply := .ack } : State) =
                      settle (dropCommand { s with events := rest, reply := .ack }) := by
                    cases i <;> exact if_pos (by simp [busy])
                  exact ⟨_, by constructor <;> first | rfl | exact id, this.symm.trans h⟩
                · exact ⟨_, by constructor <;> first | rfl | exact id, (if_pos (by simp [busy])).symm.trans h⟩
              · refine ⟨_, ?_, h⟩
                have hsel : s.params.hcBase ≤ a.addr ∧ a.addr < s.params.hcBase + Config.windowBytes := by
                  simpa [selected] using hsel
                have hword : a.bytes = 4 ∧ (a.addr - s.params.hcBase) % 4 = 0 := by simpa [isWordAccess] using hword
                unfold writeRegister
                split
                · next hoff =>
                  have hoff : a.addr - s.params.hcBase = 0x010 := hoff
                  unfold writeCtrl
                  split
                  · next hv1 =>
                    refine absurd (.inr ⟨v, rest, ⟨by simpa using hr, by decide, by decide, ?_⟩, hv1⟩) reset
                    obtain ⟨addr, bytes, write⟩ := a
                    simp only at hsel hword hoff hv
                    rw [he]
                    simp only [List.cons.injEq, Event.access.injEq, Access.mk.injEq, and_true]
                    exact ⟨by omega, hword.1, hv⟩
                  · split
                    · next hc => simp [busy] at hc
                    · constructor <;> first | rfl | exact id
                · unfold writeStatus
                  simp only [busy, Bool.not_true, Bool.and_false, Bool.false_eq_true, if_false]
                  constructor <;> first | rfl | exact busy.symm | exact id
                · constructor <;> first | rfl | exact id
                · constructor <;> first | rfl | exact id
                · constructor <;> first | rfl | exact id | exact fun h => (Bool.and_eq_true_iff.1 h).1
                · constructor <;> first | rfl | exact id
                · constructor <;> first | rfl | exact id
        · exact ⟨_, by constructor <;> first | rfl | exact id, h⟩
      · exact ⟨_, by constructor <;> first | rfl | exact id, h⟩
    · next level =>
      refine ⟨_, ?_, h⟩
      unfold hcRst
      split
      · next hl => exact absurd (.inl ⟨rest, by rw [he, hl]⟩) reset
      · constructor <;> first | rfl | exact fun h => Bool.noConfusion h | exact id
    · exact ⟨_, by constructor <;> first | rfl | exact id, h⟩
    · unfold sourceAnswers at h
      split at h
      · split at h
        · exact ⟨_, by constructor <;> first | rfl | exact id, h⟩
        · cases h
      · exact ⟨_, by constructor <;> first | rfl | exact id, h⟩
    · exact ⟨_, by constructor <;> first | rfl | exact id, h⟩
    · exact ⟨_, by constructor <;> first | rfl | exact id, h⟩

/-- An input leaves what is left of the command as it was. -/
theorem State.Hears.commandInv {s t : State} (h : s.Hears t) (c : s.commandInv) : t.commandInv := by
  have hl : t.latched = s.latched := by unfold State.latched; rw [h.seq]
  refine ⟨by rw [hl, h.seq]; exact c.steps, by rw [h.seq]; exact c.results, fun hc => ?_⟩
  obtain ⟨h1, h2, h3, h4⟩ := c.codec (hl ▸ hc)
  exact ⟨by rw [h.seq, h.trace]; exact h1, by rw [h.seq, h.wr]; exact h2, by rw [h.seq, h.rd]; exact h3,
    by rw [h.seq, h.nodes]; exact h4⟩

/-- What each command has to do when it is accepted is that command's, and names no error but by raising it later. -/
theorem exec_command (i : Instr) (s : State) :
    ∃ steps, exec i s = command i steps s ∧ (accept i steps s).commandInv ∧ ∀ m ∈ steps, m.namesError := by
  have names : ∀ steps : List Micro, (steps.all fun m => !(m matches .raise _ | .fail _ _ _)) = true → ∀ m ∈ steps, m.namesError := by
    intro steps h m hm
    have := List.all_eq_true.1 h m hm
    cases m <;> trivial
  cases i
  all_goals refine ⟨_, rfl, accept_command ?_ ?_ ?_, names _ ?_⟩
  all_goals first
    | exact fun h => Bool.noConfusion h
    | (simp only [Instr.opcode]; decide)
    | decide
    | (intro _; exact ⟨[], _, rfl, by decide, rfl, by decide⟩)
    | (intro _; exact ⟨readBits _, _, rfl, by decide, rfl, by decide⟩)

/-- Running a command, in one induction: `Q` holds as long as the command runs, `R` once it is over. -/
theorem settle_command {Q R : State → Prop} {op : Byte} {s t : State} (busy : s.busy = true) (opcode : s.latched.opcode = op)
    (belongs : ∀ m ∈ s.seq.todo, m.belongsTo op = true) (start : Q s)
    (go : ∀ u m rest v, Q u → m.belongsTo op = true → u.seq.todo = m :: rest → m.endsCommand = false →
      microStep m (u.next rest) = .go v → Q v)
    (raise : ∀ u m rest e v, Q u → m.belongsTo op = true → u.seq.todo = m :: rest → m.endsCommand = false →
      microStep m (u.next rest) = .raise e v → Q (raiseError e v))
    (ends : ∀ u m rest v, Q u → m.belongsTo op = true → u.seq.todo = m :: rest → m.endsCommand = true →
      microStep m (u.next rest) = .go v → R v) (e : settle s = .next t) :
    (t.busy = true ∧ t.latched.opcode = op ∧ Q t) ∨ (t.busy = false ∧ t.seq = .idle ∧ R t) := by
  suffices h : (t.busy = true ∧ (t.latched.opcode = op ∧ ∀ m ∈ t.seq.todo, m.belongsTo op = true) ∧ Q t) ∨
      (t.busy = false ∧ t.seq = .idle ∧ R t) from h.imp (fun h => ⟨h.1, h.2.1.1, h.2.2⟩) id
  refine settle_induction (P := fun u => (u.busy = true ∧ (u.latched.opcode = op ∧ ∀ m ∈ u.seq.todo, m.belongsTo op = true) ∧ Q u) ∨
      (u.busy = false ∧ u.seq = .idle ∧ R u)) ?_ ?_ (.inl ⟨busy, ⟨opcode, belongs⟩, start⟩) e
  · rintro u m rest v (⟨hb, hop, hq⟩ | ⟨-, hs, -⟩) todo step
    · have hm' := hop.2 m (by rw [todo]; exact List.mem_cons_self ..)
      cases hm : m.endsCommand with
      | true =>
        refine .inr ⟨?_, ?_, ends u m rest v hq hm' todo hm step⟩ <;>
          (cases m <;> first | exact Bool.noConfusion hm | (cases step; rfl))
      | false =>
        have same := (microStep_frame m (u.next rest) hm).of_go step
        exact .inl ⟨same.busy.trans hb, (microStep_steps hop.1 hop.2 todo hm).of_go step, go u m rest v hq hm' todo hm step⟩
    · rw [hs] at todo; cases todo
  · rintro u m rest e v (⟨hb, hop, hq⟩ | ⟨-, hs, -⟩) todo step
    · have hm : m.endsCommand = false := by
        cases hm : m.endsCommand with
        | false => rfl
        | true => cases m <;> first | exact Bool.noConfusion hm | cases step
      have same := (microStep_frame m (u.next rest) hm).of_raise step
      exact .inl ⟨same.busy.trans hb, (microStep_steps hop.1 hop.2 todo hm).of_raise step,
        raise u m rest e v hq (hop.2 m (by rw [todo]; exact List.mem_cons_self ..)) todo hm step⟩
    · rw [hs] at todo; cases todo

end Sys2Proof.Machine
end

