-- ==== Sys2Proof/Tests/Slice0.lean ====
section
/-! SUPPORT. Tests, and a witness for the hypotheses of each statement. Words and expected values are those of
`95_test_vectors.md` (the vector's name stands in each comment), or written out bit by bit from R90 to R95. -/

namespace Sys2Proof.Tests

open Sys2Proof Sys2Proof.Machine Sys2Proof.Artifact

/-! ## Building small states -/

/-- Does the outcome's next state pass? -/
def nextHas (o : Host.Outcome State Fault Refusal) (p : State → Bool) : Bool :=
  match o with
  | .next t => p t
  | .fault _ => false
  | .refused _ => false

/-- An open source stream on a state. -/
def withItems (items : List SrcItem) (ended : Bool) (s : State) : State :=
  { s with ports := { s.ports with src := { s.ports.src with current := some ⟨items, ended⟩ } } }

/-- A source stream of bytes, then End. -/
def withSource (bs : List Byte) (s : State) : State := withItems (bs.map .byte) true s

/-- A sink that answers IoErr to the next append. -/
def withBadSink (s : State) : State := { s with ports := { s.ports with snk := ⟨true, [.ioErr], true⟩ } }

/-- A host access as the next input. -/
def host (off : Nat) (v : Option Word) (s : State) : State :=
  { s with events := [.access ⟨s.params.hcBase + off, 4, v⟩] }

/-- A command running: COMPRESS whose source does not answer. -/
def scanning : State :=
  { State.reset with
    busy := true
    seq := ⟨.cScan, compressSteps.drop 1, [], 0#32, some ⟨0x31#8, 0#8, 0#32, ⟨0#8, 0#8⟩, .min⟩⟩ }

/-- A command waiting: RBIT, its source attached and silent (R9). -/
def reading : State :=
  { State.reset with
    busy := true
    seq := ⟨.prim, [.readBit, .resultValue, .done], [], 0#32, some ⟨0x11#8, 0#8, 0#32, ⟨0#8, 0#8⟩, .min⟩⟩
    ports := { State.reset.ports with src := ⟨true, none, [⟨[], false⟩]⟩ } }

/-- A command waiting: WBIT, its eighth bit shifted in, its sink silent (R9, R67). -/
def writing : State :=
  { State.reset with
    busy := true
    seq := ⟨.prim, [.append 0x7F#8 .raise, .done], [], 0#32, some ⟨0x01#8, 1#8, 0#32, ⟨0#8, 0#8⟩, .min⟩⟩
    ports := { State.reset.ports with snk := ⟨true, [], false⟩ } }

/-- The source's late answers as the next input. -/
def answered (items : List SrcItem) (ended : Bool) (s : State) : State := { s with events := [.sourceAnswers items ended] }

/-- A sink that answers IoErr after it has taken `k` bytes. -/
def withSinkOf (k : Nat) (s : State) : State :=
  { s with ports := { s.ports with snk := ⟨true, List.replicate k .ok ++ [.ioErr], true⟩ } }

/-- An error recorded. -/
def failed : State := { State.reset with err := true, errReg := ⟨.underflow, 0x22#8, .prim⟩, intError := true }

/-- The queue of V-Q1. -/
def queueQ1 : List Entry := [⟨2#32, 0#8, 3#8⟩, ⟨34#32, 0#8, 4#8⟩, ⟨23#32, 0#8, 2#8⟩, ⟨42#32, 0#8, 1#8⟩]

/-! ## WellFormed: the one check (R92), for each of its bits -/

theorem test_wbit_zero_and_one_are_well_formed :
    (Instr.wbit 0#8).wellFormed = true ∧ (Instr.wbit 1#8).wellFormed = true := by decide
theorem test_wbit_two_is_refused : (Instr.wbit 0b00000010#8).wellFormed = false := by decide
theorem test_wbit_high_bit_is_refused : (Instr.wbit 0b10000001#8).wellFormed = false := by decide
theorem test_wbyte_takes_every_immediate : (Instr.wbyte 0xFF#8).wellFormed = true := by decide

/-! ## Decoding: the words of R95, RSVD then IMM8 then OPCODE -/

theorem test_decode_wbit : decode 0b00000000_00000000_00000001_00000001#32 = .ok (.wbit 1#8) := by decide
theorem test_decode_wbyte : decode 0b00000000_00000000_01100001_00000010#32 = .ok (.wbyte 0x61#8) := by decide
theorem test_decode_wint32 : decode 0b00000000_00000000_00000000_00000011#32 = .ok .wint32 := by decide
theorem test_decode_wflush : decode 0b00000000_00000000_00000000_00000100#32 = .ok .wflush := by decide
theorem test_decode_wclose : decode 0b00000000_00000000_00000000_00000101#32 = .ok .wclose := by decide
theorem test_decode_rbit : decode 0b00000000_00000000_00000000_00010001#32 = .ok .rbit := by decide
theorem test_decode_rbyte : decode 0b00000000_00000000_00000000_00010010#32 = .ok .rbyte := by decide
theorem test_decode_rint32 : decode 0b00000000_00000000_00000000_00010011#32 = .ok .rint32 := by decide
theorem test_decode_rclose : decode 0b00000000_00000000_00000000_00010100#32 = .ok .rclose := by decide
theorem test_decode_pqPush : decode 0b00000000_00000000_00000000_00100001#32 = .ok .pqPush := by decide
theorem test_decode_pqPop : decode 0b00000000_00000000_00000000_00100010#32 = .ok .pqPop := by decide
theorem test_decode_pqTop : decode 0b00000000_00000000_00000000_00100011#32 = .ok .pqTop := by decide
theorem test_decode_pqSize : decode 0b00000000_00000000_00000000_00100100#32 = .ok .pqSize := by decide
theorem test_decode_pqClear : decode 0b00000000_00000000_00000000_00100101#32 = .ok .pqClear := by decide
theorem test_decode_compress : decode 0b00000000_00000000_00000000_00110001#32 = .ok .compress := by decide
theorem test_decode_decompress : decode 0b00000000_00000000_00000000_00110010#32 = .ok .decompress := by decide
theorem test_decode_refuses_opcode_zero : decode 0x00000000#32 = .error .unknownOpcode := by decide
theorem test_decode_refuses_rsvd : decode 0x00010003#32 = .error .reservedBits := by decide
theorem test_decode_refuses_rbit_immediate : decode 0x00000111#32 = .error .badImmediate := by decide
theorem test_decode_refuses_wbit_two : decode 0x00000201#32 = .error .badImmediate := by decide
theorem test_table_word : decodeTableWord 32 0x00006102 = some (.wbyte 0x61#8) := by decide

/-! ## One step of each command -/

/-- V-W1. -/
theorem test_wbit_first :
    nextHas (step (State.reset.withFetchWord 32 0x101)) (fun t => t.wr = ⟨1#8, 1#4⟩ && t.intDone) = true := by decide
/-- V-W11. -/
theorem test_wbit_io_error :
    nextHas (exec (.wbit 1#8) (withBadSink { State.reset with wr := ⟨0x7F#8, 7#4⟩ }))
      (fun t => t.errReg.toWord = 0x0001010A#32 && t.wr = .empty && t.snkCount = 0#32) = true := by decide
/-- V-W3. -/
theorem test_wbyte_crosses_a_byte :
    nextHas (exec (.wbyte 0xFF#8) { State.reset with wr := ⟨0b101#8, 3#4⟩ })
      (fun t => t.ports.sunk = [0xBF#8] && t.wr.toWord = 0x00000307#32) = true := by decide
/-- V-W5. -/
theorem test_wint32_negative :
    nextHas (exec .wint32 { State.reset with arg := 0xFFFFFFFE#32 })
      (fun t => t.ports.sunk = [0xFF#8, 0xFF#8, 0xFF#8, 0xFE#8]) = true := by decide
/-- X3. -/
theorem test_wflush_pads :
    nextHas (exec .wflush { State.reset with wr := ⟨0b101#8, 3#4⟩ })
      (fun t => t.ports.sunk = [0xA0#8] && t.wr = .empty) = true := by decide
/-- V-W9. -/
theorem test_wclose_flushes_first :
    nextHas (exec .wclose { State.reset with wr := ⟨0b101#8, 3#4⟩ })
      (fun t => t.ports.trace = [.snkClose, .snkOk 0xA0#8]) = true := by decide
/-- V-R1. -/
theorem test_rbit_fetches :
    nextHas (exec .rbit (withSource [0x62#8] .reset))
      (fun t => t.result = 0#32 && t.rd.toWord = 0x00000762#32 && t.srcCount = 1#32) = true := by decide
/-- V-R8. -/
theorem test_rbit_end : nextHas (exec .rbit (withSource [] .reset)) (fun t => t.errReg.toWord = 0x00011102#32) = true := by decide
/-- V-R3. -/
theorem test_rbyte_crosses_a_byte :
    nextHas (exec .rbyte (withSource [0x3C#8] { State.reset with rd := ⟨0xA5#8, 5#4⟩ }))
      (fun t => t.result = 0x29#32 && t.rd.toWord = 0x0000053C#32) = true := by decide
/-- V-R5. -/
theorem test_rint32_bytes :
    nextHas (exec .rint32 (withSource [0x58#8, 0x90#8, 0xAB#8, 0x08#8] .reset))
      (fun t => t.result = 0x5890AB08#32 && t.rd.toWord = 0x00000008#32) = true := by decide
/-- V-R7. -/
theorem test_rint32_truncated :
    nextHas (exec .rint32 (withSource [0x12#8, 0x34#8, 0x56#8] .reset))
      (fun t => t.result = 0#32 && t.errReg.toWord = 0x00011302#32 && t.rd.toWord = 0x00000056#32) = true := by decide
/-- V-R10. -/
theorem test_rclose :
    nextHas (exec .rclose { State.reset with rd := ⟨0xA5#8, 5#4⟩ })
      (fun t => t.rd = .empty && t.ports.trace = [.srcClose]) = true := by decide
/-- V-Q1, its last push. -/
theorem test_pqPush :
    nextHas (exec .pqPush
        { State.reset with
          heap := [⟨2#32, 0#8, 3#8⟩, ⟨42#32, 0#8, 1#8⟩, ⟨23#32, 0#8, 2#8⟩], arg := 34#32, arg2 := ⟨0#8, 4#8⟩ })
      (fun t => t.heap = queueQ1) = true := by decide
/-- V-Q2: the right child comes before the left one. -/
theorem test_pqPop :
    nextHas (exec .pqPop { State.reset with heap := queueQ1 })
      (fun t => t.heap = [⟨23#32, 0#8, 2#8⟩, ⟨34#32, 0#8, 4#8⟩, ⟨42#32, 0#8, 1#8⟩] && t.result = 2#32 &&
        t.result2.toWord = 0x00000300#32) = true := by decide
/-- V-Q6: in MAX the larger tie comes first. -/
theorem test_pqTop_max :
    nextHas (exec .pqTop { State.reset with pqMode := .max, heap := heapPush .max ⟨5#32, 2#8, 2#8⟩ [⟨5#32, 1#8, 1#8⟩] })
      (fun t => t.result = 5#32 && t.result2.toWord = 0x00000202#32) = true := by decide
/-- V-Q4. -/
theorem test_pqSize :
    nextHas (exec .pqSize { State.reset with heap := queueQ1.drop 1 }) (fun t => t.result = 3#32) = true := by decide
/-- V-Q13. -/
theorem test_pqClear : nextHas (exec .pqClear { State.reset with heap := queueQ1 }) (fun t => t.heap = []) = true := by decide
/-- V-C2. -/
theorem test_compress_aaab :
    nextHas (exec .compress (withSource [0x61#8, 0x61#8, 0x61#8, 0x62#8] .reset))
      (fun t => t.ports.sunk = [0x58#8, 0xAC#8, 0x20#8, 0x00#8, 0x00#8, 0x00#8, 0x9C#8] && t.treeNodes = 3#32) = true :=
  by decide +kernel
/-- V-C8. -/
theorem test_compress_symbol :
    nextHas (exec .compress (withSource [0x61#8, 0x80#8, 0x62#8] .reset))
      (fun t => t.errReg.toWord = 0x00023105#32 && t.srcCount = 2#32 && t.tables.freqAt 0x61#8 = 1#32) = true := by decide +kernel
/-- V-D1, with what follows left unread (V-D2). -/
theorem test_decompress_aaab :
    nextHas (exec .decompress (withSource [0x58#8, 0xAC#8, 0x20#8, 0x00#8, 0x00#8, 0x00#8, 0x9C#8, 0xFF#8] .reset))
      (fun t => t.ports.sunk = [0x61#8, 0x61#8, 0x61#8, 0x62#8] && t.srcCount = 7#32) = true := by decide +kernel
/-- V-D4. -/
theorem test_decompress_negative_count :
    nextHas (exec .decompress (withSource [0xB0#8, 0xFF#8, 0xFF#8, 0xFF#8, 0xFF#8, 0x80#8] .reset))
      (fun t => t.errReg.toWord = 0x000A3208#32 && t.symcount = 0xFFFFFFFF#32) = true := by decide +kernel

/-! ## The host's side -/

/-- V-E1: an illegal word. -/
theorem test_illegal_word :
    nextHas (step (State.reset.withFetchWord 32 0)) (fun t => t.errReg.toWord = 0x00000001#32 && t.statusWord = 2#32) = true :=
  by decide
/-- V-E11. -/
theorem test_read_id : nextHas (step (host 0 none .reset)) (fun t => t.reply = .data 0x48554646#32) = true := by decide
/-- V-Q12. -/
theorem test_mode_write_ignored :
    nextHas (step (host 0x010 (some 1#32) { State.reset with heap := queueQ1 })) (fun t => t.pqMode = .min) = true := by decide
/-- R261: INBUF keeps its canonical form from reset on. -/
theorem test_reset_inbuf : State.reset.inbuf.wf := .nil

/-- R9, R66, R280: the first answer on a stream that was attached and silent ends the wait. -/
theorem test_late_first_answer :
    nextHas (step (answered [.byte 0x80#8] false reading))
      (fun t => !t.busy && t.intDone && t.result = 1#32 && t.srcCount = 1#32) = true := by decide
/-- R9, R67, R280: the sink's late answer ends the wait. -/
theorem test_late_sink_answer :
    nextHas (step { writing with events := [.sinkAnswers [.ok] false] })
      (fun t => !t.busy && t.intDone && t.ports.sunk = [0x7F#8] && t.snkCount = 1#32) = true := by decide
/-- U12: after End nothing else comes before the next SrcClose. -/
theorem test_answer_after_end :
    step (answered [.byte 0x80#8] false
      (withItems [] true { State.reset with ports := { State.reset.ports with trace := [.srcEnd] } })) = .refused .sourceDuty := rfl

/-! ## Witnesses -/

theorem ready_reset : State.reset.ready := ⟨rfl, rfl⟩

theorem witness_DecodeInvertsEncode : (Instr.wbit 1#8).wellFormed = true := by decide
theorem witness_EncodeInvertsDecode : decode 0x0000FF02#32 = .ok (.wbyte 0xFF#8) := by decide

theorem witness_StepRunsDecodedCommand :
    (host 0x01C (some 0x24#32) .reset).writesCmd 0x24#32 [] ∧ decode 0x24#32 = .ok .pqSize := ⟨⟨rfl, rfl⟩, by decide⟩

theorem witness_IllegalWordRaisesAtOnce :
    (host 0x01C (some 0xFF#32) .reset).writesCmd 0xFF#32 [] ∧ (host 0x01C (some 0xFF#32) .reset).ready ∧
      decode 0xFF#32 = .error .unknownOpcode := ⟨⟨rfl, rfl⟩, ⟨rfl, rfl⟩, by decide⟩

theorem witness_BusyOrErrDropsTheWord :
    ((host 0x01C (some 0x24#32) scanning).writesCmd 0x24#32 [] ∧ (host 0x01C (some 0x24#32) scanning).busy = true) ∧
      ((host 0x01C (some 0x24#32) failed).writesCmd 0x24#32 [] ∧ (host 0x01C (some 0x24#32) failed).err = true) ∧
      State.reset.busy = false := ⟨⟨⟨rfl, rfl⟩, rfl⟩, ⟨⟨rfl, rfl⟩, rfl⟩, rfl⟩

theorem witness_IdleBlockHoldsItsState : State.reset.events = [] ∧ State.reset.busy = false := ⟨rfl, rfl⟩

theorem witness_ResetLeavesTheTableOfValues :
    isTableWord 0x400 = true ∧ isTableWord 0x7FC = true ∧ isTableWord 0x800 = true ∧ isTableWord 0xFFC = true := by decide

/-- A read of any word of the window. -/
theorem host_reads (s : State) {off : Nat} (h : off % 4 = 0) (h' : off < 4096) : (host off none s).reads off [] := ⟨h, h', rfl⟩

/-- A write of any word of the window. -/
theorem host_writes (s : State) (v : Word) {off : Nat} (hr : s.inReset = false) (h : off % 4 = 0) (h' : off < 4096) :
    (host off (some v) s).writes off v [] := ⟨hr, h, h', rfl⟩

theorem witness_ReadsChangeNoState :
    (host 0x000 none .reset).reads 0x000 [] ∧ (host 0xFFC none scanning).reads 0xFFC [] :=
  ⟨host_reads _ (by decide) (by decide), host_reads _ (by decide) (by decide)⟩

theorem witness_RegistersReadTheirFields :
    ∀ off ∈ [0x000, 0x004, 0x008, 0x00C, 0x010, 0x014, 0x018, 0x01C, 0x020, 0x024, 0x028, 0x02C, 0x030, 0x034, 0x038, 0x03C, 0x040,
      0x044, 0x048, 0x04C, 0x050],
      ((host off none .reset).busy = false ∧ (host off none .reset).reads off []) ∧
        ((host off none scanning).busy = true ∧ (host off none scanning).reads off []) := by
  intro off h
  refine ⟨⟨rfl, host_reads _ ?_ ?_⟩, rfl, host_reads _ ?_ ?_⟩ <;> revert off <;> decide

theorem witness_WindowsReadTheTables :
    (host (0x400 + 4 * 0) none .reset).reads (0x400 + 4 * 0) [] ∧
      (host (0x400 + 4 * 127) none .reset).reads (0x400 + 4 * 127) [] ∧
      (host (0x600 + 4 * 127) none .reset).reads (0x600 + 4 * 127) [] ∧
      (host (0x800 + 16 * 0 + 4 * 0) none .reset).reads (0x800 + 16 * 0 + 4 * 0) [] ∧
      (host (0x800 + 16 * 127 + 4 * 3) none .reset).reads (0x800 + 16 * 127 + 4 * 3) [] ∧ 127 < 128 ∧ 3 < 4 ∧
      State.reset.busy = false := by
  refine ⟨?_, ?_, ?_, ?_, ?_, by decide, by decide, rfl⟩ <;> exact host_reads _ (by decide) (by decide)

theorem witness_ReservedOffsetsAreRazWi :
    (host 0x054 none .reset).reads 0x054 [] ∧ (host 0x3FC none scanning).reads 0x3FC [] ∧
      (host 0x054 (some 7#32) .reset).writes 0x054 7#32 [] ∧ (host 0x3FC (some 7#32) scanning).writes 0x3FC 7#32 [] :=
  ⟨host_reads _ (by decide) (by decide), host_reads _ (by decide) (by decide), host_writes _ _ rfl (by decide) (by decide),
    host_writes _ _ rfl (by decide) (by decide)⟩

theorem witness_ReadOnlyRegistersIgnoreWrites :
    ∀ off ∈ [0x000, 0x004, 0x008, 0x00C, 0x018, 0x028, 0x02C, 0x030, 0x034, 0x038, 0x03C, 0x040, 0x044, 0x048, 0x400, 0xFFC],
      (host off (some 7#32) .reset).writes off 7#32 [] := by
  intro off h
  refine host_writes _ _ rfl ?_ ?_ <;> revert off <;> decide

theorem witness_BadAccessAnswersBusError :
    let s : State := { State.reset with events := [.access ⟨4095, 1, none⟩] }
    let s' : State := { State.reset with events := [.access ⟨2, 4, some 0#32⟩] }
    s.events = [.access ⟨4095, 1, none⟩] ∧ s.params.hcBase ≤ 4095 ∧ 4095 < s.params.hcBase + 4096 ∧ 1 ≠ 4 ∧
      s'.events = [.access ⟨2, 4, some 0#32⟩] ∧ s'.params.hcBase ≤ 2 ∧ 2 < s'.params.hcBase + 4096 ∧
      (2 - s'.params.hcBase) % 4 ≠ 0 := by decide

theorem witness_ModeChangesOnlyWhenIdleAndEmpty :
    let s := host 0x010 (some 1#32)
    (s .reset).writes 0x010 1#32 [] ∧ (1#32).getLsbD 1 = false ∧ (s .reset).busy = false ∧ (s .reset).heap = [] ∧
      (s scanning).writes 0x010 1#32 [] ∧ (s scanning).busy = true ∧
      (s { State.reset with heap := queueQ1 }).writes 0x010 1#32 [] ∧ (s { State.reset with heap := queueQ1 }).heap ≠ [] :=
  ⟨host_writes _ _ rfl (by decide) (by decide), by decide, rfl, rfl, host_writes _ _ rfl (by decide) (by decide), rfl,
    host_writes _ _ rfl (by decide) (by decide), List.cons_ne_nil _ _⟩

theorem witness_SoftResetReachesTheResetState :
    (host 0x010 (some 3#32) scanning).writes 0x010 3#32 [] ∧ (host 0x010 (some 2#32) failed).writes 0x010 2#32 [] ∧
      (3#32).getLsbD 1 = true ∧ (2#32).getLsbD 1 = true :=
  ⟨host_writes _ _ rfl (by decide) (by decide), host_writes _ _ rfl (by decide) (by decide), by decide, by decide⟩

theorem witness_HardwareResetHoldsTheResetState :
    let s : State := { State.reset with inReset := true }
    ({ scanning with events := [.hcRst true] } : State).events = [.hcRst scanning.params.hcRstActiveHigh] ∧
      (s.inReset = true ∧ s.busy = false ∧
        (host 0xFFC (some 1#32) s).events = [.access ⟨s.params.hcBase + 0xFFC, 4, some 1#32⟩]) ∧
      ({ s with events := [.hcRst false] } : State).events = [.hcRst (!s.params.hcRstActiveHigh)] := by decide

theorem witness_StatusWriteReturnsFromError :
    (host 0x014 (some 6#32) failed).writes 0x014 6#32 [] ∧ (host 0x014 (some 6#32) failed).busy = false ∧
      (host 0x014 (some 6#32) scanning).writes 0x014 6#32 [] ∧ (host 0x014 (some 6#32) scanning).busy = true :=
  ⟨host_writes _ _ rfl (by decide) (by decide), rfl, host_writes _ _ rfl (by decide) (by decide), rfl⟩

theorem witness_PendingBitsClearOnWriteOne :
    ((host 0x04C (some 2#32) failed).writes 0x04C 2#32 [] ∧ (host 0x04C (some 2#32) failed).busy = false) ∧
      ((host 0x04C (some 3#32) scanning).writes 0x04C 3#32 [] ∧ (host 0x04C (some 3#32) scanning).busy = true) :=
  ⟨⟨host_writes _ _ rfl (by decide) (by decide), rfl⟩, host_writes _ _ rfl (by decide) (by decide), rfl⟩

theorem witness_OperandRegistersHoldTheWrite :
    (host 0x020 (some 7#32) .reset).writes 0x020 7#32 [] ∧ (host 0x024 (some 7#32) scanning).writes 0x024 7#32 [] ∧
      (host 0x050 (some 3#32) .reset).writes 0x050 3#32 [] :=
  ⟨host_writes _ _ rfl (by decide) (by decide), host_writes _ _ rfl (by decide) (by decide),
    host_writes _ _ rfl (by decide) (by decide)⟩

/-- The sink of the reset state accepts any number of bytes. -/
theorem reset_accepts (n : Nat) : State.reset.ports.snk.accepts n :=
  ⟨rfl, fun a ha => by simp [State.reset, State.resetOf, Ports.reset] at ha, .inr rfl⟩

theorem bad_sink_refuses (s : State) : (withBadSink s).ports.snk.refuses := ⟨rfl, rfl⟩

/-- The source of a state with an open stream. -/
theorem items_hold (items : List SrcItem) (ended : Bool) : (withItems items ended .reset).ports.src.holds items ended :=
  ⟨rfl, rfl⟩

/-- A ready state with `cnt` bits pending in the writer, and an accepting or a refusing sink: the cases of the bit writer's
statements. -/
theorem witness_WbitWritesOneBit :
    let s (cnt : BitVec 4) : State := { State.reset with wr := ⟨0x3F#8, cnt⟩ }
    ((s 0#4).ready ∧ (s 0#4).wr.cnt.toNat < 7) ∧ ((s 6#4).ready ∧ (s 6#4).wr.cnt.toNat < 7) ∧
      ((s 7#4).ready ∧ (s 7#4).wr.cnt.toNat = 7 ∧ (s 7#4).ports.snk.accepts 1) ∧
      ((withBadSink (s 7#4)).ready ∧ (withBadSink (s 7#4)).wr.cnt.toNat = 7 ∧ (withBadSink (s 7#4)).ports.snk.refuses) :=
  ⟨⟨⟨rfl, rfl⟩, by decide⟩, ⟨⟨rfl, rfl⟩, by decide⟩, ⟨⟨rfl, rfl⟩, rfl, reset_accepts 1⟩, ⟨⟨rfl, rfl⟩, rfl, bad_sink_refuses _⟩⟩

theorem witness_WbyteWritesEightBits :
    let s (cnt : BitVec 4) : State := { State.reset with wr := ⟨0x3F#8, cnt⟩ }
    ((s 0#4).ready ∧ (s 0#4).wr.cnt.toNat ≤ 7 ∧ (s 0#4).ports.snk.accepts 1) ∧
      ((withBadSink (s 7#4)).ready ∧ (withBadSink (s 7#4)).wr.cnt.toNat ≤ 7 ∧ (withBadSink (s 7#4)).ports.snk.refuses) :=
  ⟨⟨⟨rfl, rfl⟩, by decide, reset_accepts 1⟩, ⟨⟨rfl, rfl⟩, by decide, bad_sink_refuses _⟩⟩

theorem witness_Wint32WritesArg :
    let s : State := { State.reset with wr := ⟨0x3F#8, 7#4⟩, arg := 0xFFFFFFFE#32 }
    let bad (answers : List SnkAnswer) : State := { s with ports := { s.ports with snk := ⟨true, answers, true⟩ } }
    (s.ready ∧ s.wr.cnt.toNat ≤ 7 ∧ s.ports.snk.accepts 4) ∧
      ((bad [.ioErr]).ready ∧ (bad [.ioErr]).ports.snk.accepts 0 ∧ ((bad [.ioErr]).ports.taking []).snk.refuses) ∧
      ((bad [.ok, .ok, .ok, .ioErr]).ready ∧ (bad [.ok, .ok, .ok, .ioErr]).ports.snk.accepts 3 ∧
        ((bad [.ok, .ok, .ok, .ioErr]).ports.taking [1#8, 2#8, 3#8]).snk.refuses) :=
  ⟨⟨⟨rfl, rfl⟩, by decide, reset_accepts 4⟩, ⟨⟨rfl, rfl⟩, ⟨rfl, by simp, .inr rfl⟩, rfl, rfl⟩,
    ⟨⟨rfl, rfl⟩, ⟨rfl, by simp, .inr rfl⟩, rfl, rfl⟩⟩

theorem witness_WflushPadsThePartialByte :
    let s (cnt : BitVec 4) : State := { State.reset with wr := ⟨0x3F#8, cnt⟩ }
    ((s 0#4).ready ∧ (s 0#4).wr.cnt = 0#4) ∧
      ((s 1#4).ready ∧ 1 ≤ (s 1#4).wr.cnt.toNat ∧ (s 1#4).wr.cnt.toNat ≤ 7 ∧ (s 1#4).ports.snk.accepts 1) ∧
      ((withBadSink (s 7#4)).ready ∧ 1 ≤ (withBadSink (s 7#4)).wr.cnt.toNat ∧ (withBadSink (s 7#4)).wr.cnt.toNat ≤ 7 ∧
        (withBadSink (s 7#4)).ports.snk.refuses) :=
  ⟨⟨⟨rfl, rfl⟩, rfl⟩, ⟨⟨rfl, rfl⟩, by decide, by decide, reset_accepts 1⟩,
    ⟨⟨rfl, rfl⟩, by decide, by decide, bad_sink_refuses _⟩⟩

theorem witness_WcloseFlushesThenCloses :
    let s (cnt : BitVec 4) : State := { State.reset with wr := ⟨0x3F#8, cnt⟩ }
    ((s 0#4).ready ∧ (s 0#4).wr.cnt = 0#4) ∧
      ((s 7#4).ready ∧ 1 ≤ (s 7#4).wr.cnt.toNat ∧ (s 7#4).wr.cnt.toNat ≤ 7 ∧ (s 7#4).ports.snk.accepts 1) ∧
      ((withBadSink (s 1#4)).ready ∧ 1 ≤ (withBadSink (s 1#4)).wr.cnt.toNat ∧ (withBadSink (s 1#4)).wr.cnt.toNat ≤ 7 ∧
        (withBadSink (s 1#4)).ports.snk.refuses) :=
  ⟨⟨⟨rfl, rfl⟩, rfl⟩, ⟨⟨rfl, rfl⟩, by decide, by decide, reset_accepts 1⟩,
    ⟨⟨rfl, rfl⟩, by decide, by decide, bad_sink_refuses _⟩⟩

theorem witness_RbitReadsOneBit :
    (({ State.reset with rd := ⟨0x62#8, 7#4⟩ } : State).ready ∧ 1 ≤ (7#4).toNat ∧ (7#4).toNat ≤ 7 ∧ 1 ≤ (1#4).toNat) ∧
      ((withItems [.byte 0x62#8] true .reset).ready ∧ (withItems [.byte 0x62#8] true .reset).rd.cnt = 0#4 ∧
        (withItems [.byte 0x62#8] true .reset).ports.src.holds [.byte 0x62#8] true) ∧
      ((withItems [] true .reset).ready ∧ (withItems [] true .reset).rd.cnt = 0#4 ∧
        (withItems [] true .reset).ports.src.holds [] true) ∧
      ((withItems [.ioErr] false .reset).ready ∧ (withItems [.ioErr] false .reset).rd.cnt = 0#4 ∧
        (withItems [.ioErr] false .reset).ports.src.holds [.ioErr] false) :=
  ⟨⟨⟨rfl, rfl⟩, by decide, by decide, by decide⟩, ⟨⟨rfl, rfl⟩, rfl, items_hold ..⟩, ⟨⟨rfl, rfl⟩, rfl, items_hold ..⟩,
    ⟨⟨rfl, rfl⟩, rfl, items_hold ..⟩⟩

theorem witness_RbyteReadsEightBits :
    let s (items : List SrcItem) (cnt : BitVec 4) : State := { withItems items true .reset with rd := ⟨0x3C#8, cnt⟩ }
    ((s [.byte 0x62#8] 0#4).ready ∧ (s [.byte 0x62#8] 0#4).rd.cnt.toNat ≤ 7 ∧
        (s [.byte 0x62#8] 0#4).ports.src.holds [.byte 0x62#8] true) ∧
      ((s [] 7#4).ready ∧ (s [] 7#4).rd.cnt.toNat ≤ 7 ∧ (s [] 7#4).ports.src.holds [] true) ∧
      ((s [.ioErr] 7#4).ready ∧ (s [.ioErr] 7#4).rd.cnt.toNat ≤ 7 ∧ (s [.ioErr] 7#4).ports.src.holds [.ioErr] true) :=
  ⟨⟨⟨rfl, rfl⟩, by decide, items_hold ..⟩, ⟨⟨rfl, rfl⟩, by decide, items_hold ..⟩, ⟨⟨rfl, rfl⟩, by decide, items_hold ..⟩⟩

theorem witness_Rint32ReadsThirtyTwoBits :
    let items : List SrcItem := [.byte 0x58#8, .byte 0x90#8, .byte 0xAB#8, .byte 0x08#8]
    let s : State := { withItems items true .reset with rd := ⟨0x3C#8, 7#4⟩ }
    s.ready ∧ s.rd.cnt.toNat ≤ 7 ∧ s.ports.src.holds items true := ⟨⟨rfl, rfl⟩, by decide, items_hold ..⟩

theorem witness_Rint32ConsumesATruncatedStream :
    let s (items : List SrcItem) (cnt : BitVec 4) : State := { withItems items true .reset with rd := ⟨0x3C#8, cnt⟩ }
    let bs : List Byte := [1#8, 2#8, 3#8]
    ((s [] 0#4).ready ∧ (s [] 0#4).rd.cnt.toNat ≤ 7 ∧ (s [] 0#4).rd.cnt.toNat + 8 * ([] : List Byte).length < 32 ∧
        (s [] 0#4).ports.src.holds [] true) ∧
      ((s (bs.map .byte ++ [.ioErr]) 7#4).ready ∧ (s (bs.map .byte ++ [.ioErr]) 7#4).rd.cnt.toNat ≤ 7 ∧
        (s (bs.map .byte ++ [.ioErr]) 7#4).rd.cnt.toNat + 8 * bs.length < 32 ∧
        (s (bs.map .byte ++ [.ioErr]) 7#4).ports.src.holds (bs.map .byte ++ .ioErr :: []) true) :=
  ⟨⟨⟨rfl, rfl⟩, by decide, by decide, items_hold ..⟩, ⟨⟨rfl, rfl⟩, by decide, by decide, items_hold ..⟩⟩

theorem witness_RcloseEmptiesTheReader : State.reset.ready := ready_reset
theorem witness_PqSizeAndPqClear : State.reset.ready := ready_reset

/-- A queue of one entry is ordered. -/
theorem one_ordered (m : Mode) (e : Entry) : heapOrdered m [e] := by
  intro i hi
  exact heapBefore_big (by simpa using Nat.succ_le_of_lt hi)

theorem witness_PqPushInsertsTheEntry :
    (State.reset.ready ∧ State.reset.heap.length < State.reset.params.pqCap ∧ heapOrdered State.reset.pqMode State.reset.heap) ∧
      (({ State.reset with heap := List.replicate 128 ⟨1#32, 0#8, 0#8⟩ } : State).ready ∧
        (List.replicate 128 (⟨1#32, 0#8, 0#8⟩ : Entry)).length = State.reset.params.pqCap) :=
  ⟨⟨ready_reset, by decide, fun i _ => by simp [heapBefore, State.reset, State.resetOf]⟩, ⟨rfl, rfl⟩, rfl⟩

theorem witness_PqPopRemovesTheRoot :
    (({ State.reset with heap := [⟨5#32, 1#8, 2#8⟩] } : State).ready ∧
        ({ State.reset with heap := [⟨5#32, 1#8, 2#8⟩] } : State).heap = ⟨5#32, 1#8, 2#8⟩ :: [] ∧
        heapOrdered .min ({ State.reset with heap := [⟨5#32, 1#8, 2#8⟩] } : State).heap) ∧
      (State.reset.ready ∧ State.reset.heap = []) := ⟨⟨⟨rfl, rfl⟩, rfl, one_ordered _ _⟩, ready_reset, rfl⟩

theorem witness_PqTopReadsTheRoot :
    (({ State.reset with heap := queueQ1 } : State).ready ∧
        ({ State.reset with heap := queueQ1 } : State).heap = ⟨2#32, 0#8, 3#8⟩ :: queueQ1.drop 1) ∧
      (State.reset.ready ∧ State.reset.heap = []) := ⟨⟨⟨rfl, rfl⟩, rfl⟩, ready_reset, rfl⟩

theorem witness_EntryOrderIsStrictAndTotal :
    let a : Entry := ⟨1#32, 0#8, 0#8⟩
    let b : Entry := ⟨1#32, 1#8, 0#8⟩
    let c : Entry := ⟨2#32, 0#8, 0#8⟩
    (entryBefore .min a b = true ∧ entryBefore .min b c = true) ∧ (entryBefore .max c b = true ∧ entryBefore .max b a = true) ∧
      (a.key, a.tie) ≠ (b.key, b.tie) := by decide

theorem witness_CompressStartsFresh :
    (withItems [] false .reset).ready ∧ (withItems [] false .reset).ports.src.holds [] false := ⟨⟨rfl, rfl⟩, items_hold ..⟩
theorem witness_DecompressStartsFresh :
    (withItems [] false .reset).ready ∧ (withItems [] false .reset).ports.src.holds [] false := ⟨⟨rfl, rfl⟩, items_hold ..⟩

theorem reset_legal : State.reset.params.legal := by decide

/-- The input of V-C2, and the empty input of V-C1. -/
theorem witness_CompressAppendsTheArtifact :
    let ok (xs : List Byte) : Prop :=
      (withSource xs .reset).ready ∧ (withSource xs .reset).params.legal ∧
        (withSource xs .reset).ports.src.holds (xs.map .byte) true ∧
        (withSource xs .reset).ports.snk.accepts (artifact xs).length ∧
        (∀ x ∈ xs, x.toNat < 128) ∧ xs.length ≤ (withSource xs .reset).params.inbufCap
    ok [] ∧ ok [0x00#8, 0x7F#8] :=
  ⟨⟨⟨rfl, rfl⟩, reset_legal, items_hold .., reset_accepts _, by decide, by decide⟩,
    ⟨⟨rfl, rfl⟩, reset_legal, items_hold .., reset_accepts _, by decide, by decide⟩⟩

theorem witness_CodesArePrefixFree :
    (∀ x ∈ [0x00#8, 0x7F#8], x.toNat < 128) ∧ 0x00#8 ∈ [0x00#8, 0x7F#8] ∧ 0x7F#8 ∈ [0x00#8, 0x7F#8] ∧ 0x00#8 ≠ 0x7F#8 := by decide

theorem witness_CompressScanErrors :
    let s (cap : Nat) (items : List SrcItem) : State :=
      withItems items true { State.reset with params := { Params.default with inbufCap := cap } }
    let xs : List Byte := [0x61#8]
    ((s 4 [.byte 0x61#8, .ioErr]).ready ∧ (s 4 [.byte 0x61#8, .ioErr]).params.legal ∧ (∀ x ∈ xs, x.toNat < 128) ∧ xs.length ≤ 4 ∧
        (s 4 [.byte 0x61#8, .ioErr]).ports.src.holds (xs.map .byte ++ .ioErr :: []) true) ∧
      (128 ≤ (0x80#8).toNat ∧ (s 1 [.byte 0x61#8, .byte 0x80#8]).params.legal ∧
        (s 1 [.byte 0x61#8, .byte 0x80#8]).ports.src.holds (xs.map .byte ++ .byte 0x80#8 :: []) true) ∧
      ((0x7F#8).toNat < 128 ∧ xs.length = (s 1 []).params.inbufCap ∧ (s 1 []).params.legal ∧
        (s 1 [.byte 0x61#8, .byte 0x7F#8]).ports.src.holds (xs.map .byte ++ .byte 0x7F#8 :: []) true) :=
  ⟨⟨⟨rfl, rfl⟩, by decide, by decide, by decide, rfl, rfl⟩, ⟨by decide, by decide, rfl, rfl⟩,
    ⟨by decide, by decide, by decide, rfl, rfl⟩⟩

/-- A sink that takes `k` bytes and refuses the next. -/
theorem sinkOf_takes (k : Nat) (s : State) :
    (withSinkOf k s).ports.snk.accepts k ∧ ((withSinkOf k s).ports.snk.after k).refuses := by
  refine ⟨⟨rfl, fun a ha => ?_, .inl (by simp [withSinkOf])⟩, rfl, by simp [withSinkOf, Sink.after]⟩
  simp only [withSinkOf, List.take_left' (List.length_replicate ..)] at ha
  exact (List.mem_replicate.1 ha).2

/-- V-C12, k = 2, in C_COUNT; and the first byte, in C_SERIAL; for the input of V-C13 byte 7, in C_PAYLOAD, and the padded last byte, in
C_CLOSE. -/
theorem witness_CompressReportsASinkFailure :
    let ok (xs : List Byte) (k : Nat) : Prop :=
      let s := withSinkOf k (withSource xs .reset)
      s.ready ∧ s.params.legal ∧ s.ports.src.holds (xs.map .byte) true ∧ s.ports.snk.accepts k ∧ (s.ports.snk.after k).refuses ∧
        k < (artifact xs).length ∧ (∀ x ∈ xs, x.toNat < 128) ∧ xs.length ≤ s.params.inbufCap
    ok [0x61#8, 0x62#8] 0 ∧ ok [0x61#8, 0x62#8] 2 ∧ ok [0x61#8, 0x62#8, 0x63#8] 7 ∧ ok [0x61#8, 0x62#8, 0x63#8] 8 :=
  ⟨⟨⟨rfl, rfl⟩, reset_legal, ⟨rfl, rfl⟩, (sinkOf_takes ..).1, (sinkOf_takes ..).2, by decide +kernel, by decide, by decide⟩,
    ⟨⟨rfl, rfl⟩, reset_legal, ⟨rfl, rfl⟩, (sinkOf_takes ..).1, (sinkOf_takes ..).2, by decide +kernel, by decide, by decide⟩,
    ⟨⟨rfl, rfl⟩, reset_legal, ⟨rfl, rfl⟩, (sinkOf_takes ..).1, (sinkOf_takes ..).2, by decide +kernel, by decide, by decide⟩,
    ⟨⟨rfl, rfl⟩, reset_legal, ⟨rfl, rfl⟩, (sinkOf_takes ..).1, (sinkOf_takes ..).2, by decide +kernel, by decide, by decide⟩⟩

/-- The tree of V-C2: b on 0, a on 1. -/
def treeC2 : Tree := .node (.leaf 0x62#8) (.leaf 0x61#8)

/-- The artifact of V-C2, with one more byte after it. -/
theorem witness_DecompressFollowsThePaths :
    let ps : List (List Bool × Byte) := [([true], 0x61#8), ([true], 0x61#8), ([true], 0x61#8), ([false], 0x62#8)]
    let bs : List Byte := [0x58#8, 0xAC#8, 0x20#8, 0x00#8, 0x00#8, 0x00#8, 0x9C#8]
    let s := withItems (bs.map .byte ++ [.byte 0xFF#8]) true .reset
    s.ready ∧ treeC2.size ≤ 255 ∧ (∀ p ∈ ps, treeC2.walk p.1 = some p.2) ∧ ps.length < 2147483648 ∧
      bs.length = bytesFor (streamBits treeC2 ps).length ∧ streamBits treeC2 ps <+: unpack bs ∧
      s.ports.src.holds (bs.map .byte ++ [.byte 0xFF#8]) true ∧ s.ports.snk.accepts ps.length :=
  ⟨⟨rfl, rfl⟩, by decide, by decide, by decide, by decide, by decide, items_hold .., reset_accepts _⟩

theorem witness_DecompressInvertsCompress :
    let xs : List Byte := [0x61#8]
    (withSource xs .reset).ready ∧ (withSource xs .reset).params.legal ∧
      (withSource xs .reset).ports.src.holds (xs.map .byte) true ∧
      (withSource xs .reset).ports.snk.accepts (artifact xs).length ∧ (∀ x ∈ xs, x.toNat < 128) ∧
      xs.length ≤ (withSource xs .reset).params.inbufCap ∧ (withSource (artifact xs) .reset).ready ∧
      (withSource (artifact xs) .reset).ports.src.holds ((artifact xs).map .byte) true ∧
      (withSource (artifact xs) .reset).ports.snk.accepts xs.length :=
  ⟨⟨rfl, rfl⟩, reset_legal, items_hold .., reset_accepts _, by decide, by decide, ⟨rfl, rfl⟩, items_hold .., reset_accepts _⟩

/-- V-D5: 255 internal tokens, then one more. -/
theorem witness_DecompressBoundsTheArena :
    let tokens : List Token := List.replicate 255 none
    let bs : List Byte := List.replicate 32 0x00#8
    (withSource bs .reset).ready ∧ tokens.length = 255 ∧ openAfter 1 tokens = some (255 + 1) ∧
      tokens.flatMap Token.bits ++ [false] <+: unpack bs ∧ (withSource bs .reset).ports.src.holds (bs.map .byte) true :=
  ⟨⟨rfl, rfl⟩, List.length_replicate, by decide +kernel, by decide +kernel, items_hold ..⟩

/-- V-D4. -/
theorem witness_DecompressRefusesANegativeCount :
    let bs : List Byte := [0xB0#8, 0xFF#8, 0xFF#8, 0xFF#8, 0xFF#8, 0x80#8]
    (withSource bs .reset).ready ∧ (Tree.leaf 0x61#8).size ≤ 255 ∧ (0xFFFFFFFF#32).msb = true ∧
      (Tree.leaf 0x61#8).bits ++ msbFirst 0xFFFFFFFF#32 <+: unpack bs ∧
      (withSource bs .reset).ports.src.holds (bs.map .byte) true :=
  ⟨⟨rfl, rfl⟩, by decide, by decide, by decide, items_hold ..⟩

/-- Eight times the symbol a with the tree of V-C2, cut to no byte (in the tree), to 3 and to 6 (in the count), and to 7 (in the
payload, five symbols on); the cut is an End or an IoErr. -/
theorem witness_DecompressReportsTruncation :
    let ps : List (List Bool × Byte) := List.replicate 8 ([true], 0x61#8)
    let ok (n : Nat) : Prop :=
      let bs := (pack (streamBits treeC2 ps)).take n
      let s := withSource bs .reset
      let bad := withItems (bs.map .byte ++ .ioErr :: []) false .reset
      s.ready ∧ bad.ready ∧ treeC2.size ≤ 255 ∧ (∀ p ∈ ps, treeC2.walk p.1 = some p.2) ∧ ps.length < 2147483648 ∧
        unpack bs <+: streamBits treeC2 ps ∧ (unpack bs).length < (streamBits treeC2 ps).length ∧ s.ports.snk.accepts ps.length ∧
        s.ports.src.holds (bs.map .byte) true ∧ bad.ports.src.holds (bs.map .byte ++ .ioErr :: []) false
    ok 0 ∧ ok 3 ∧ ok 6 ∧ ok 7 :=
  ⟨⟨⟨rfl, rfl⟩, ⟨rfl, rfl⟩, by decide, by decide, by decide, by decide +kernel, by decide +kernel, reset_accepts _, ⟨rfl, rfl⟩, rfl, rfl⟩,
    ⟨⟨rfl, rfl⟩, ⟨rfl, rfl⟩, by decide, by decide, by decide, by decide +kernel, by decide +kernel, reset_accepts _, ⟨rfl, rfl⟩, rfl, rfl⟩,
    ⟨⟨rfl, rfl⟩, ⟨rfl, rfl⟩, by decide, by decide, by decide, by decide +kernel, by decide +kernel, reset_accepts _, ⟨rfl, rfl⟩, rfl, rfl⟩,
    ⟨⟨rfl, rfl⟩, ⟨rfl, rfl⟩, by decide, by decide, by decide, by decide +kernel, by decide +kernel, reset_accepts _, ⟨rfl, rfl⟩, rfl, rfl⟩⟩

/-- The artifact of V-C2, to a sink that refuses the first or the last symbol. -/
theorem witness_DecompressReportsASinkFailure :
    let ps : List (List Bool × Byte) := [([true], 0x61#8), ([true], 0x61#8), ([true], 0x61#8), ([false], 0x62#8)]
    let bs : List Byte := [0x58#8, 0xAC#8, 0x20#8, 0x00#8, 0x00#8, 0x00#8, 0x9C#8]
    let ok (k : Nat) : Prop :=
      let s := withSinkOf k (withItems (bs.map .byte ++ []) true .reset)
      let read := treeC2.bits ++ msbFirst (BitVec.ofNat 32 ps.length) ++ (ps.take (k + 1)).flatMap Prod.fst
      s.ready ∧ treeC2.size ≤ 255 ∧ (∀ p ∈ ps, treeC2.walk p.1 = some p.2) ∧ ps.length < 2147483648 ∧ k < ps.length ∧
        bs.length = bytesFor read.length ∧ read <+: unpack bs ∧ s.ports.src.holds (bs.map .byte ++ []) true ∧
        s.ports.snk.accepts k ∧ (s.ports.snk.after k).refuses
    ok 0 ∧ ok 3 :=
  ⟨⟨⟨rfl, rfl⟩, by decide, by decide, by decide, by decide, by decide, by decide, ⟨rfl, rfl⟩, sinkOf_takes ..⟩,
    ⟨⟨rfl, rfl⟩, by decide, by decide, by decide, by decide, by decide, by decide, ⟨rfl, rfl⟩, sinkOf_takes ..⟩⟩

theorem witness_InvariantHoldsAtReset : Params.default.legal := by decide

/-- The reset state meets both invariants. -/
theorem reset_inv : State.reset.Inv ∧ State.reset.ArenaInv := by
  have none : ∀ m : Micro, m ∉ State.reset.seq.todo := fun m hm => nomatch hm
  constructor
  · exact
      { params := reset_legal
        idle := fun _ => rfl
        running := fun h => nomatch h
        writer := ⟨by decide, by decide⟩
        reader := by decide
        queueSize := by decide
        queueOrder := by unfold State.queueInv; exact fun _ _ => rfl
        errors := ⟨fun _ => rfl, fun _ => rfl⟩
        pending := fun m hm => absurd hm (none m)
        arena := by decide
        inputLength := by decide
        input := ⟨.nil, (fun c hc => nomatch hc), fun i hi => absurd hi (Nat.not_lt_zero i)⟩
        held := fun h => nomatch h
        command := fun h => nomatch h }
  · exact
      { children := fun x hx => nomatch hx
        start := ⟨fun h => absurd h (none _), fun h => absurd h (none _)⟩
        order := .nil
        named := fun m hm => absurd hm (none m)
        frames := fun ⟨m, hm, _⟩ => absurd hm (none m)
        rootBuilt := fun h => absurd h (none _)
        rootRead := fun ⟨m, hm, _⟩ => absurd hm (none m)
        tags := fun h => absurd h (none _) }

theorem witness_StepKeepsTheInvariant : State.reset.Inv ∧ step .reset = .next .reset := ⟨reset_inv.1, rfl⟩
theorem witness_StepKeepsTheArenaInvariant :
    State.reset.Inv ∧ State.reset.ArenaInv ∧ step .reset = .next .reset := ⟨reset_inv.1, reset_inv.2, rfl⟩
theorem witness_UnspecifiedMemoryIsNeverRead : State.reset.Inv ∧ State.reset.ArenaInv := reset_inv

theorem witness_FirstErrorWins :
    failed.Inv ∧ failed.err = true ∧ step failed = .next failed ∧ failed.events = [] := by
  refine ⟨?_, rfl, rfl, rfl⟩
  exact { reset_inv.1 with
    running := fun h => nomatch h
    errors := ⟨(fun h => nomatch h), (fun h => nomatch h)⟩
    command := fun h => nomatch h }

/-- A COMPRESS under way meets the invariant: the hypotheses of the statements about a command that has waited. -/
theorem scanning_inv : scanning.Inv := by
  have quiet : ∀ m ∈ scanning.seq.todo, m.givesResult = false := by decide
  exact
    { reset_inv.1 with
      idle := fun h => nomatch h
      running := fun _ => rfl
      queueOrder := ⟨_, rfl, by decide, .inr (.inl ⟨.inl rfl, rfl, rfl, rfl⟩)⟩
      pending := fun m hm => by
        simp only [scanning, compressSteps, List.drop_succ_cons, List.drop_zero, List.mem_cons, List.not_mem_nil, or_false] at hm
        rcases hm with h | h | h | h | h | h | h | h | h | h | h | h | h | h | h | h | h <;> (subst h; trivial)
      held := fun h => nomatch h
      command := fun _ =>
        { steps := by decide
          results := fun m hm h => by rw [quiet m hm] at h; cases h
          codec := fun _ => ⟨by decide, by decide, by decide, by decide⟩ } }

/-- So does an RBIT that waits, also where the next input is a late answer. -/
theorem reading_inv (items : List SrcItem) (ended : Bool) : (answered items ended reading).Inv :=
  { reset_inv.1 with
    idle := fun h => nomatch h
    running := fun _ => rfl
    queueOrder := ⟨_, rfl, (by decide : ∀ m ∈ reading.seq.todo, m.isTreeBuilding = false), rfl, reset_inv.1.queueOrder⟩
    pending := fun m hm => by
      simp only [answered, reading, List.mem_cons, List.not_mem_nil, or_false] at hm
      rcases hm with h | h | h <;> (subst h; trivial)
    held := fun h => nomatch h
    command := fun _ =>
      { steps := (by decide : ∀ m ∈ reading.seq.todo, m.belongsTo 0x11#8 = true)
        results := fun m hm h => by
          refine ⟨[.readBit], ?_, by decide, by decide⟩
          simp only [answered, reading, List.mem_cons, List.not_mem_nil, or_false] at hm
          rcases hm with rfl | rfl | rfl
          · cases h
          · rfl
          · cases h
        codec := fun h => absurd (show isCodec 0x11#8 = true from h) (by decide) } }

theorem no_reset {s : State} (h : ∀ e ∈ s.events.head?, (∀ l, e ≠ .hcRst l) ∧ ∀ a, e ≠ .access a) : ¬ s.resets := by
  rintro (⟨rest, e⟩ | ⟨v, rest, hw, _⟩)
  · exact (h (.hcRst s.params.hcRstActiveHigh) (by simp [e])).1 _ rfl
  · exact (h _ (by rw [hw.2.2.2]; rfl)).2 _ rfl

/-- An RBIT that waited and ends with its result, and a COMPRESS under way that ends: the hypotheses of the clauses about a later
step. -/
theorem witness_laterSteps :
    ((answered [.byte 0x80#8] false reading).Inv ∧ (answered [.byte 0x80#8] false reading).busy = true ∧
        ¬ (answered [.byte 0x80#8] false reading).resets ∧
        nextHas (step (answered [.byte 0x80#8] false reading)) (fun t => !t.busy && t.result != 0#32) = true) ∧
      (scanning.Inv ∧ scanning.busy = true ∧ ¬ scanning.resets ∧
        nextHas (step scanning) (fun t => !t.busy && t.ports.trace.length != 0) = true) :=
  ⟨⟨reading_inv .., rfl, no_reset (by simp [answered]), by decide⟩,
    scanning_inv, rfl, no_reset (by simp [scanning, State.reset, State.resetOf]), by decide +kernel⟩

/-- One command of each kind, run to its end: the hypotheses of the frame statements. -/
theorem witness_CommandsNeverWriteHostRegisters :
    State.reset.ready ∧ State.reset.errReg = .clear ∧ Instr.pqSize.wellFormed = true ∧
      nextHas (exec .pqSize .reset) (fun t => !t.busy && t.intDone) = true ∧
      nextHas (settle scanning) (fun t => !t.busy) = true := ⟨ready_reset, rfl, rfl, by decide, by decide +kernel⟩
theorem witness_OnlyCompressWritesTheTables :
    (State.reset.busy = false ∧ Instr.pqClear ≠ .compress ∧ nextHas (exec .pqClear .reset) (fun t => !t.busy) = true) ∧
      ((answered [] true reading).Inv ∧ (answered [] true reading).busy = true ∧ ¬ (answered [] true reading).resets ∧
        (answered [] true reading).latched.opcode ≠ 0x31#8 ∧
        nextHas (step (answered [] true reading)) (fun t => !t.busy && t.err) = true) :=
  ⟨⟨rfl, by decide, by decide⟩, reading_inv .., rfl, no_reset (by simp [answered]), by decide, by decide⟩
theorem witness_ResultIsWrittenOnlyOnSuccess :
    ({ State.reset with heap := [⟨5#32, 1#8, 2#8⟩] } : State).busy = false ∧
      nextHas (exec .pqPop { State.reset with heap := [⟨5#32, 1#8, 2#8⟩] })
        (fun t => t.result != 0#32 && t.result2 != ⟨0#8, 0#8⟩) = true := ⟨rfl, by decide⟩
theorem witness_QueueAndStreamsAreSeparate :
    State.reset.busy = false ∧ Instr.wflush ∉ [.pqPush, .pqPop, .pqClear, .compress] ∧
      Instr.pqTop ∈ [.pqPush, .pqPop, .pqTop, .pqSize, .pqClear] ∧
      nextHas (exec .wflush .reset) (fun t => !t.busy) = true ∧ nextHas (exec .pqTop .reset) (fun t => !t.busy) = true :=
  ⟨rfl, by decide, by decide, by decide, by decide⟩
theorem witness_CodecClosesBothStreams :
    (State.reset.ready ∧ nextHas (exec .decompress .reset) (fun t => !t.busy && t.err) = true) ∧
      (scanning.Inv ∧ scanning.busy = true ∧ ¬ scanning.resets ∧ scanning.latched.opcode = 0x31#8 ∧
        nextHas (step scanning) (fun t => !t.busy) = true) :=
  ⟨⟨ready_reset, by decide +kernel⟩, scanning_inv, rfl, no_reset (by simp [scanning, State.reset, State.resetOf]), rfl,
    by decide +kernel⟩
theorem witness_EveryEndSetsItsInterrupt :
    State.reset.ready ∧ State.reset.errReg = .clear ∧
      nextHas (exec .pqSize .reset) (fun t => !t.busy && !t.err) = true ∧
      nextHas (exec .pqPop .reset) (fun t => !t.busy && t.err) = true := ⟨ready_reset, rfl, by decide, by decide⟩

/-- A stream attached and not begun, and one begun and silent; and a WBIT whose eighth bit waits for the sink. -/
theorem witness_LateAnswersEndAWait :
    let begun := answered [.byte 1#8] true (withItems [] false reading)
    ((answered [.byte 1#8] false reading).events = [.sourceAnswers [.byte 1#8] false] ∧
        (answered [.byte 1#8] false reading).ports.src.holds [] false ∧
        (answered [.byte 1#8] false reading).ports.endAnswered = false) ∧
      (begun.events = [.sourceAnswers [.byte 1#8] true] ∧ begun.ports.src.holds [] false ∧ begun.ports.endAnswered = false) ∧
      ({ writing with events := [.sinkAnswers [.ok] false] } : State).events = [.sinkAnswers [.ok] false] :=
  ⟨⟨rfl, ⟨rfl, rfl⟩, rfl⟩, ⟨rfl, ⟨rfl, rfl⟩, rfl⟩, rfl⟩

end Sys2Proof.Tests
end

section
/-! PROOFS. The scope family (R7, R9): the invariants at reset, every step keeps the invariant of R58, where late answers go, and
the start of DECOMPRESS. -/

namespace Sys2Proof.Machine

/-! ## Reset -/

/-- The reset state meets the invariant whatever the devices, the inputs, the answers and HC_RST are: no command runs, and nothing
is held. -/
theorem resetState_inv {p : Params} (legal : p.legal) (ports : Ports) (inReset : Bool) (reply : BusReply) (events : List Event)
    (draws : Nat) :
    State.Inv { State.resetOf p with
      ports := ports, inReset := inReset, reply := reply, events := events, draws := draws } where
  params := legal
  idle := fun _ => rfl
  running := fun h => Bool.noConfusion h
  writer := ⟨Nat.zero_le _, Nat.zero_lt_one⟩
  reader := Nat.zero_le _
  queueSize := Nat.zero_le _
  queueOrder := heapOrdered_nil _
  errors := ⟨fun _ => rfl, fun _ => rfl⟩
  pending := fun _ hm => nomatch hm
  arena := Nat.zero_le _
  inputLength := Nat.zero_le _
  input := ⟨reset_inbuf_wf p, (fun _ hc => nomatch hc), fun i hi => absurd hi (Nat.not_lt_zero i)⟩
  held := fun _ => rfl
  command := fun h => Bool.noConfusion h

/-- With no node allocated and no step left to use one, the arena invariant says nothing. -/
theorem State.arenaInv_of_empty {s : State} (nodes : s.nodes = []) (todo : s.seq.todo = []) : s.ArenaInv := by
  have none : ∀ m : Micro, m ∉ s.seq.todo := by rw [todo]; exact fun _ => List.not_mem_nil
  exact
    { children := by rw [nodes]; exact fun _ hx => nomatch hx
      start := ⟨fun h => absurd h (none _), fun h => absurd h (none _)⟩
      order := by rw [todo]; exact .nil
      named := fun m hm => absurd hm (none m)
      frames := fun ⟨m, hm, _⟩ => absurd hm (none m)
      rootBuilt := fun h => absurd h (none _)
      rootRead := fun ⟨m, hm, _⟩ => absurd hm (none m)
      tags := fun h => absurd h (none _) }

/-- Settles O49: the reset state holds nothing that either invariant restricts. -/
theorem invariantHoldsAtReset : Obligations.InvariantHoldsAtReset := fun p legal =>
  ⟨resetState_inv legal (State.resetOf p).ports false .none [] 0, State.arenaInv_of_empty rfl rfl⟩

/-! ## Inputs that leave the block alone -/

/-- The invariant speaks of nothing that such an input changes. -/
theorem State.Hears.inv {s t : State} (h : s.Hears t) (inv : s.Inv) : t.Inv where
  params := by rw [h.params]; exact inv.params
  idle := by rw [h.busy, h.seq]; exact inv.idle
  running := by rw [h.busy, h.err]; exact inv.running
  writer := by rw [h.wr]; exact inv.writer
  reader := by rw [h.rd]; exact inv.reader
  queueSize := by rw [h.heap, h.params]; exact inv.queueSize
  queueOrder := by
    have order := inv.queueOrder
    unfold State.queueInv at order ⊢
    rw [h.busy, h.seq, h.pqMode, h.heap, h.nodes]
    exact order
  errors := by rw [h.err, h.errReg]; exact inv.errors
  pending := by rw [h.seq]; exact inv.pending
  arena := by rw [h.nodes]; exact inv.arena
  inputLength := by rw [h.inlen, h.params]; exact inv.inputLength
  input := by rw [h.inbuf, h.inlen, h.params]; exact inv.input
  held := fun hr => h.busy.trans (inv.held (h.inReset hr))
  command := fun hb => h.commandInv (inv.command (h.busy.symm.trans hb))

/-- The devices, the inputs and the answers are not the block's. -/
theorem State.Inv.outside {s : State} (inv : s.Inv) {ports : Ports} (trace : ports.trace = s.ports.trace) (reply : BusReply)
    (events : List Event) (draws : Nat) :
    State.Inv { s with ports := ports, reply := reply, events := events, draws := draws } :=
  State.Hears.inv (s := s) (by constructor <;> first | rfl | exact trace | exact id) inv

/-- The registers that the host alone writes, and OVR. -/
theorem State.Inv.registers {s : State} (inv : s.Inv) (ovr : Bool) (arg : Word) (arg2 : TieTag) (doneIe errorIe : Bool) :
    State.Inv { s with ovr := ovr, arg := arg, arg2 := arg2, doneIe := doneIe, errorIe := errorIe } :=
  State.Hears.inv (s := s) (by constructor <;> first | rfl | exact id) inv

theorem writeIntPending_inv {s : State} (inv : s.Inv) (v : Word) : (writeIntPending v s).Inv :=
  State.Hears.inv (s := s) (by constructor <;> first | rfl | exact fun h => (Bool.and_eq_true_iff.1 h).1 | exact id) inv

/-- HC_RST released (R260): an idle block stays idle, and a running one goes on. -/
theorem State.Inv.released {s : State} (inv : s.Inv) : State.Inv { s with inReset := false } :=
  State.Hears.inv (s := s) (by constructor <;> first | rfl | exact id | exact fun h => Bool.noConfusion h) inv

/-! ## Inputs that change an idle block -/

theorem resetBlock_inv {s : State} (inv : s.Inv) (inReset : Bool) : State.Inv { resetBlock s with inReset := inReset } :=
  resetState_inv inv.params _ inReset s.reply s.events s.draws

/-- R28: an empty queue is ordered under either mode. -/
theorem State.Inv.withMode {s : State} (inv : s.Inv) (busy : s.busy = false) (heap : s.heap = []) (mode : Mode) :
    State.Inv { s with pqMode := mode } :=
  { inv with
    queueOrder := by
      unfold State.queueInv
      rw [if_neg (by simp [busy])]
      show heapOrdered mode s.heap
      rw [heap]
      exact heapOrdered_nil mode
    command := fun hb => absurd hb (by simp [busy]) }

/-- R58 (e): STATUS.ERR and ERR change together. -/
theorem State.Inv.withError {s : State} (inv : s.Inv) (busy : s.busy = false) {err : Bool} {errReg : ErrReg}
    (agree : err = false ↔ errReg = .clear) (intError : Bool) :
    State.Inv { s with err := err, errReg := errReg, intError := intError } :=
  { inv with
    running := fun hb => absurd hb (by simp [busy])
    errors := agree
    command := fun hb => absurd hb (by simp [busy]) }

theorem illegalWord_inv {s : State} (inv : s.Inv) (busy : s.busy = false) (opcode : Byte) : (illegalWord opcode s).Inv :=
  inv.withError busy ⟨fun h => Bool.noConfusion h, fun h => ErrCode.noConfusion (congrArg ErrReg.code h)⟩ true

theorem returnFromError_inv {s : State} (inv : s.Inv) (busy : s.busy = false) : (returnFromError s).Inv :=
  inv.withError busy ⟨fun _ => rfl, fun _ => rfl⟩ s.intError

/-! ## Acceptance -/

/-- No command but COMPRESS has a step that builds a tree from the queue. -/
theorem not_isTreeBuilding_of_belongsTo {m : Micro} {op : Byte} (h : m.belongsTo op = true) (hop : op ≠ 0x31#8) :
    m.isTreeBuilding = false := by
  cases hm : m.isTreeBuilding with
  | false => rfl
  | true =>
    cases m with
    | cInit | makeLeaves | build => exact absurd (beq_iff_eq.1 h) hop
    | _ => cases hm

/-- What each command has to do when it is accepted: as `exec_command`, and COMPRESS has all its steps to run. -/
theorem exec_accepts (i : Instr) (s : State) :
    ∃ steps, exec i s = command i steps s ∧ (accept i steps s).commandInv ∧ (∀ m ∈ steps, m.namesError) ∧
      (i.opcode = 0x31#8 → steps = compressSteps) := by
  by_cases hi : i = .compress
  · subst hi
    exact ⟨compressSteps, rfl, accept_command (by decide) (fun h => absurd h (by decide)) (fun _ => by decide),
      by simp [compressSteps, Micro.namesError], fun _ => rfl⟩
  · obtain ⟨steps, run, cmd, names⟩ := exec_command i s
    refine ⟨steps, run, cmd, names, fun hop => ?_⟩
    cases i with
    | compress => exact absurd rfl hi
    | _ => exact absurd hop (by simp [Instr.opcode])

/-- R58 (d) at acceptance: the queue is ordered under CTRL.PQ_MODE, which is latched, and COMPRESS has not begun. -/
theorem accept_queue {i : Instr} {steps : List Micro} {s : State} (order : heapOrdered s.pqMode s.heap)
    (belongs : ∀ m ∈ steps, m.belongsTo i.opcode = true) (compress : i.opcode = 0x31#8 → steps = compressSteps) :
    (accept i steps s).queueInv := by
  refine (State.queueInv_busy rfl).2 ⟨_, rfl, ?_⟩
  unfold State.queueWhile
  dsimp only [accept]
  split
  · next hop =>
    obtain rfl := compress hop
    exact ⟨by decide, .inl ⟨rfl, order⟩⟩
  · next hop => exact ⟨fun m hm => not_isTreeBuilding_of_belongsTo (belongs m hm) hop, rfl, order⟩

theorem State.Inv.queue_idle {s : State} (inv : s.Inv) (busy : s.busy = false) : heapOrdered s.pqMode s.heap := by
  have order := inv.queueOrder
  unfold State.queueInv at order
  rwa [if_neg (by simp [busy])] at order

/-- An accepted command leaves the rest of the block as it is. -/
theorem accept_inv {i : Instr} {steps : List Micro} {s : State} (inv : s.Inv) (ready : s.ready) (released : s.inReset = false)
    (cmd : (accept i steps s).commandInv) (names : ∀ m ∈ steps, m.namesError)
    (compress : i.opcode = 0x31#8 → steps = compressSteps) : (accept i steps s).Inv :=
  { inv with
    idle := fun hb => Bool.noConfusion hb
    running := fun _ => ready.2
    queueOrder := accept_queue (inv.queue_idle ready.1) cmd.steps compress
    pending := names
    held := fun hr => absurd (released.symm.trans hr) (by decide)
    command := fun _ => cmd }

/-! ## Every step -/

/-- The SEQUENCER keeps the invariant, to the end of the command or to a port that does not answer. -/
theorem settle_inv {s t : State} (inv : s.Inv) (h : settle s = .next t) : t.Inv :=
  settle_induction (P := State.Inv) (fun _ _ _ _ inv todo step => (microStep_inv inv todo).of_go step)
    (fun _ _ _ _ _ inv todo step => (microStep_inv inv todo).of_raise step) inv h

theorem dropCommand_inv {s : State} (inv : s.Inv) : (dropCommand s).Inv :=
  inv.registers true s.arg s.arg2 s.doneIe s.errorIe

theorem exec_inv {i : Instr} {s t : State} (inv : s.Inv) (released : s.inReset = false) (h : exec i s = .next t) : t.Inv := by
  obtain ⟨steps, run, cmd, names, compress⟩ := exec_accepts i s
  rw [run] at h
  unfold command at h
  split at h
  · exact settle_inv (dropCommand_inv inv) h
  · next ready =>
    have ready : s.ready := by simpa [State.ready] using ready
    split at h
    · exact settle_inv (accept_inv inv ready released cmd names compress) h
    · exact settle_inv (illegalWord_inv inv ready.1 _) h

theorem illegalCommand_inv {opcode : Byte} {s t : State} (inv : s.Inv) (h : illegalCommand opcode s = .next t) : t.Inv := by
  unfold illegalCommand at h
  split at h
  · exact settle_inv (dropCommand_inv inv) h
  · next ready =>
    have ready : s.ready := by simpa [State.ready] using ready
    exact settle_inv (illegalWord_inv inv ready.1 _) h

theorem writeCmd_inv {w : Word} {s t : State} (inv : s.Inv) (released : s.inReset = false) (h : writeCmd w s = .next t) :
    t.Inv := by
  unfold writeCmd at h
  split at h
  · exact exec_inv inv released h
  · exact illegalCommand_inv inv h

theorem hostRead_inv {s : State} (inv : s.Inv) (off : Nat) : (hostRead off s).Inv := by
  unfold hostRead
  split
  · split <;> exact inv.outside rfl _ _ _
  · exact inv.outside rfl _ _ _

theorem writeCtrl_inv {s : State} (inv : s.Inv) (v : Word) : (writeCtrl v s).Inv := by
  unfold writeCtrl
  split
  · exact resetBlock_inv inv false
  · split
    · next h =>
      obtain ⟨busy, heap⟩ := Bool.and_eq_true_iff.1 h
      exact inv.withMode (by simpa using busy) (List.isEmpty_iff.1 heap) _
    · exact inv

theorem writeStatus_inv {s : State} (inv : s.Inv) (v : Word) : (writeStatus v s).Inv := by
  unfold writeStatus
  dsimp only
  split
  · next h =>
    have busy : s.busy = false := by simpa using (Bool.and_eq_true_iff.1 h).2
    exact (returnFromError_inv inv busy).registers _ s.arg s.arg2 s.doneIe s.errorIe
  · exact inv.registers _ s.arg s.arg2 s.doneIe s.errorIe

theorem writeRegister_inv {s : State} (inv : s.Inv) (off : Nat) (v : Word) : (writeRegister off v s).Inv := by
  unfold writeRegister
  split
  · exact writeCtrl_inv inv v
  · exact writeStatus_inv inv v
  · exact inv.registers s.ovr v s.arg2 s.doneIe s.errorIe
  · exact inv.registers s.ovr s.arg (.ofWord v) s.doneIe s.errorIe
  · exact writeIntPending_inv inv v
  · exact inv.registers s.ovr s.arg s.arg2 _ _
  · exact inv

theorem hostAccess_inv {a : Access} {s t : State} (inv : s.Inv) (h : hostAccess a s = .next t) : t.Inv := by
  have answered : ∀ r : BusReply, State.Inv { s with reply := r } := fun r => inv.outside rfl r s.events s.draws
  unfold hostAccess at h
  dsimp only at h
  split at h
  · split at h
    · split at h
      · exact settle_inv (hostRead_inv inv _) h
      · split at h
        · exact settle_inv (answered .ack) h
        · next released =>
          split at h
          · exact writeCmd_inv (answered .ack) (by simpa using released) h
          · exact settle_inv (writeRegister_inv (answered .ack) _ _) h
    · exact settle_inv (answered .busError) h
  · exact settle_inv inv h

theorem hcRst_inv {s : State} (inv : s.Inv) (level : Bool) : (hcRst level s).Inv := by
  unfold hcRst
  split
  · exact resetBlock_inv inv true
  · exact inv.released

theorem handleEvent_inv {e : Event} {s t : State} (inv : s.Inv) (h : handleEvent e s = .next t) : t.Inv := by
  have devices : ∀ (src : Source) (snk : Sink), State.Inv { s with ports := ⟨src, snk, s.ports.trace⟩ } :=
    fun src snk => inv.outside (ports := ⟨src, snk, s.ports.trace⟩) rfl s.reply s.events s.draws
  cases e with
  | access a => exact hostAccess_inv inv h
  | hcRst level => exact settle_inv (hcRst_inv inv level) h
  | attachSource st => exact settle_inv (devices _ _) h
  | sourceAnswers items ended =>
    replace h : sourceAnswers items ended s = .next t := h
    unfold sourceAnswers at h
    split at h
    · split at h
      · exact settle_inv inv h
      · cases h
    · exact settle_inv (devices _ _) h
  | attachSink answers thenOk => exact settle_inv (devices _ _) h
  | sinkAnswers answers thenOk => exact settle_inv (devices _ _) h

/-- Settles O50: an input leaves the block in the invariant, whichever it is, and then every primitive step of the SEQUENCER
keeps it (`microStep_inv`). -/
theorem stepKeepsTheInvariant : Obligations.StepKeepsTheInvariant := by
  intro s t inv h
  unfold step at h
  split at h
  · exact settle_inv inv h
  · exact handleEvent_inv (inv.outside rfl s.reply _ s.draws) h

/-! ## The start of DECOMPRESS -/

/-- A read that needs a byte waits for a source that does not answer (R9, R66). -/
theorem readBit_waits {s : State} (empty : s.rd.cnt = 0#4) (h : s.ports.src.holds [] false) : readBit s = .wait := by
  unfold readBit
  rw [if_pos empty, srcRead_waits h]
  rfl

/-- Settles O38: DInit and the clearing of the value run, and the read of the first tag bit waits. -/
theorem decompressStartsFresh : Obligations.DecompressStartsFresh := by
  intro s ready silent
  have start : Reaches 2 (accept .decompress decompressSteps s) _ :=
    .go (m := .dInit) (rest := decompressSteps.drop 1) rfl rfl
      (.one (m := .clearValue) (rest := decompressSteps.drop 2) rfl rfl)
  refine (command_ready ready rfl).trans (settle_of_waits rfl start (by decide) rfl (m := .readBit) ?_)
  exact readBit_waits rfl silent

/-! ## Late answers -/

/-- Settles O60: the source's late answers extend the stream that the next transaction meets (`Source.holds_extend`), the sink's
its list of answers. -/
theorem lateAnswersEndAWait : Obligations.LateAnswersEndAWait := by
  refine ⟨fun s held more now ended rest events holds notEnded => ?_, fun s more thenOk rest events => ?_⟩
  · refine ⟨s.ports.src.extend more ended, Source.holds_extend ended holds, ?_⟩
    unfold step
    rw [events]
    exact if_neg (by rw [notEnded]; decide)
  · unfold step
    rw [events]
    rfl

end Sys2Proof.Machine
end

section
/-! PROOFS. What the next input makes of the block (R8, R9), said once for every step. -/

namespace Sys2Proof.Machine

/-! ## Host accesses -/

/-- An aligned word access inside the window, for a read (R60, R61). -/
theorem hostAccess_read {s : State} {off : Nat} (aligned : off % 4 = 0) (inside : off < Config.windowBytes) :
    hostAccess ⟨s.params.hcBase + off, 4, none⟩ s = settle (hostRead off s) := by
  simp [hostAccess, selected, isWordAccess, aligned, inside]

/-- The same for a write with HC_RST released. -/
theorem hostAccess_write {s : State} {off : Nat} {v : Word} (released : s.inReset = false) (aligned : off % 4 = 0)
    (inside : off < Config.windowBytes) :
    hostAccess ⟨s.params.hcBase + off, 4, some v⟩ s =
      if off = cmdOffset then writeCmd v { s with reply := .ack } else settle (writeRegister off v { s with reply := .ack }) := by
  simp [hostAccess, selected, isWordAccess, aligned, inside, released]

/-- A step whose input is a host read of a word of the window. -/
theorem step_reads {s : State} {off : Nat} {rest : List Event} (h : s.reads off rest) :
    step s = settle (hostRead off { s with events := rest }) := by
  obtain ⟨aligned, inside, events⟩ := h
  unfold step
  rw [events]
  exact hostAccess_read (s := { s with events := rest }) aligned inside

/-- A step whose input is a host write to a register other than CMD. -/
theorem step_writes {s : State} {off : Nat} {v : Word} {rest : List Event} (h : s.writes off v rest) (cmd : off ≠ cmdOffset) :
    step s = settle (writeRegister off v { s with events := rest, reply := .ack }) := by
  obtain ⟨released, aligned, inside, events⟩ := h
  unfold step
  rw [events]
  exact (hostAccess_write (s := { s with events := rest }) released aligned inside).trans (if_neg cmd)

/-- A step whose input is a host write of a word to CMD. -/
theorem step_writesCmd {s : State} {w : Word} {rest : List Event} (h : s.writesCmd w rest) :
    step s = writeCmd w { s with events := rest, reply := .ack } := by
  obtain ⟨released, events⟩ := h
  unfold step
  rw [events]
  exact (hostAccess_write (s := { s with events := rest }) (off := cmdOffset) released (by decide) (by decide)).trans (if_pos rfl)

/-! ## What a write to CMD comes to -/

/-- What a command has to do when it is accepted (R232). -/
structure Starts (i : Instr) (steps : List Micro) (s : State) : Prop where
  command : (accept i steps s).commandInv
  names : ∀ m ∈ steps, m.namesError
  compress : i.opcode = 0x31#8 → steps = compressSteps
  decompress : i.opcode = 0x32#8 → steps = decompressSteps

theorem exec_starts (i : Instr) (s : State) : ∃ steps, exec i s = command i steps s ∧ Starts i steps s := by
  by_cases hi : i = .decompress
  · subst hi
    exact ⟨decompressSteps, rfl, accept_command (by decide) (fun h => absurd h (by decide)) (fun _ => by decide),
      by simp [decompressSteps, readToken, readBits, Micro.namesError], fun h => absurd h (by decide), fun _ => rfl⟩
  · obtain ⟨steps, run, cmd, names, compress⟩ := exec_accepts i s
    refine ⟨steps, run, cmd, names, compress, fun hop => ?_⟩
    cases i with
    | decompress => exact absurd rfl hi
    | _ => exact absurd hop (by simp [Instr.opcode])

/-- The three things that a command's word does at CMD (R232, R233): it is dropped, accepted, or illegal. -/
theorem exec_settles (i : Instr) (s : State) :
    ∃ steps, Starts i steps s ∧
      ((¬ s.ready ∧ exec i s = settle (dropCommand s)) ∨
        (s.ready ∧ i.wellFormed = true ∧ exec i s = settle (accept i steps s)) ∨
        (s.ready ∧ i.wellFormed = false ∧ exec i s = settle (illegalWord i.opcode s))) := by
  obtain ⟨steps, run, starts⟩ := exec_starts i s
  refine ⟨steps, starts, ?_⟩
  rw [run]
  unfold command
  split
  · next busy => exact .inl ⟨fun ready => by simp [ready.1, ready.2] at busy, rfl⟩
  · next ready =>
    have ready : s.ready := by simpa [State.ready] using ready
    split
    · next wf => exact .inr (.inl ⟨ready, wf, rfl⟩)
    · next bad => exact .inr (.inr ⟨ready, Bool.eq_false_iff.2 bad, rfl⟩)

/-! ## The input of a step -/

/-- The devices, the inputs and the answers are not the block's. -/
theorem State.hears_outside (s : State) {ports : Ports} (trace : ports.trace = s.ports.trace) (reply : BusReply)
    (events : List Event) (draws : Nat) :
    s.Hears { s with ports := ports, reply := reply, events := events, draws := draws } := by
  constructor <;> first | rfl | exact trace | exact id

/-- The registers that the host alone writes, and OVR. -/
theorem State.Hears.registers {s u : State} (h : s.Hears u) (ovr : Bool) (arg : Word) (arg2 : TieTag) (doneIe errorIe : Bool) :
    s.Hears { u with ovr := ovr, arg := arg, arg2 := arg2, doneIe := doneIe, errorIe := errorIe } := { h with }

/-- What the next input makes of the block before the SEQUENCER goes on: most inputs leave all but the host's registers, the
devices and the answers as they were (`State.Hears`); the others reset the block (R260, R263), set the mode of an empty queue (R28),
return from an error (R243), raise E_ILLEGAL (R233), or start a command (R232). -/
inductive State.Takes (s : State) : State → Prop where
  | hears {u : State} (h : s.Hears u) : s.Takes u
  | resets {u : State} (h : s.Hears u) (reset : s.resets) (inReset : Bool) : s.Takes { resetBlock u with inReset := inReset }
  | mode {u : State} (h : s.Hears u) (busy : s.busy = false) (heap : s.heap = []) (mode : Mode) : s.Takes { u with pqMode := mode }
  | returns {u : State} (h : s.Hears u) (busy : s.busy = false)
      (input : ∃ v rest, s.writes 0x014 v rest ∧ v.getLsbD 1 = true) : s.Takes (returnFromError u)
  | illegal {u : State} (h : s.Hears u) (ready : s.ready) (opcode : Byte) : s.Takes (illegalWord opcode u)
  | accepts {u : State} {i : Instr} {steps : List Micro} (h : s.Hears u) (ready : s.ready) (released : u.inReset = false)
      (starts : Starts i steps u) : s.Takes (accept i steps u)

theorem State.Hears.ready {s u : State} (h : s.Hears u) (ready : u.ready) : s.ready :=
  ⟨h.busy.symm.trans ready.1, h.err.symm.trans ready.2⟩

theorem State.Hears.drop {s u : State} (h : s.Hears u) : s.Hears (dropCommand u) :=
  h.registers true u.arg u.arg2 u.doneIe u.errorIe

theorem writeCmd_takes {s u : State} {w : Word} (h : s.Hears u) (released : u.inReset = false) :
    ∃ t, s.Takes t ∧ writeCmd w u = settle t := by
  unfold writeCmd
  split
  · next i _ =>
    obtain ⟨steps, starts, ⟨-, run⟩ | ⟨ready, -, run⟩ | ⟨ready, -, run⟩⟩ := exec_settles i u
    · exact ⟨_, .hears h.drop, run⟩
    · exact ⟨_, .accepts h (h.ready ready) released starts, run⟩
    · exact ⟨_, .illegal h (h.ready ready) _, run⟩
  · unfold illegalCommand
    split
    · exact ⟨_, .hears h.drop, rfl⟩
    · next ready => exact ⟨_, .illegal h (h.ready (by simpa [State.ready] using ready)) _, rfl⟩

theorem writeRegister_takes {s u : State} {off : Nat} {v : Word} {rest : List Event} (h : s.Hears u)
    (input : s.writes off v rest) : s.Takes (writeRegister off v u) := by
  unfold writeRegister
  split
  · unfold writeCtrl
    split
    · next reset => exact .resets h (.inr ⟨v, rest, input, reset⟩) false
    · split
      · next idle =>
        obtain ⟨busy, heap⟩ := Bool.and_eq_true_iff.1 idle
        exact .mode h (h.busy.symm.trans (by simpa using busy)) (h.heap.symm.trans (List.isEmpty_iff.1 heap)) _
      · exact .hears h
  · have ovr := h.registers (u.ovr && !v.getLsbD 2) u.arg u.arg2 u.doneIe u.errorIe
    unfold writeStatus
    dsimp only
    split
    · next clears =>
      obtain ⟨one, busy⟩ := Bool.and_eq_true_iff.1 clears
      exact .returns ovr (h.busy.symm.trans (by simpa using busy)) ⟨v, rest, input, one⟩
    · exact .hears ovr
  · exact .hears (h.registers u.ovr v u.arg2 u.doneIe u.errorIe)
  · exact .hears (h.registers u.ovr u.arg (.ofWord v) u.doneIe u.errorIe)
  · exact .hears { h with
      intDone := fun hd => h.intDone (Bool.and_eq_true_iff.1 hd).1
      intError := fun he => h.intError (Bool.and_eq_true_iff.1 he).1 }
  · exact .hears (h.registers u.ovr u.arg u.arg2 _ _)
  · exact .hears h

theorem hostRead_hears (s : State) (rest : List Event) (off : Nat) : s.Hears (hostRead off { s with events := rest }) := by
  unfold hostRead
  split
  · split <;> exact s.hears_outside rfl _ _ _
  · exact s.hears_outside rfl _ _ _

/-- An access that the block selects, of an aligned word, is one at an offset of the window (R60, R61). -/
theorem access_at_offset {p : Params} {a : Access} (sel : selected p a.addr = true)
    (word : isWordAccess (a.addr - p.hcBase) a.bytes = true) :
    a = ⟨p.hcBase + (a.addr - p.hcBase), 4, a.write⟩ ∧ (a.addr - p.hcBase) % 4 = 0 ∧ a.addr - p.hcBase < Config.windowBytes := by
  obtain ⟨low, high⟩ : p.hcBase ≤ a.addr ∧ a.addr < p.hcBase + Config.windowBytes := by simpa [selected] using sel
  obtain ⟨bytes, aligned⟩ : a.bytes = 4 ∧ (a.addr - p.hcBase) % 4 = 0 := by simpa [isWordAccess] using word
  refine ⟨?_, aligned, by omega⟩
  rw [Nat.add_sub_cancel' low, ← bytes]

theorem hostAccess_takes {s : State} {a : Access} {rest : List Event} (input : s.events = .access a :: rest) :
    ∃ t, s.Takes t ∧ hostAccess a { s with events := rest } = settle t := by
  have answered : ∀ r : BusReply, s.Hears { s with events := rest, reply := r } := fun r => s.hears_outside rfl r rest s.draws
  unfold hostAccess
  dsimp only
  split
  · next sel =>
    split
    · next word =>
      obtain ⟨place, aligned, inside⟩ := access_at_offset sel word
      split
      · exact ⟨_, .hears (hostRead_hears s rest _), rfl⟩
      · next v write =>
        split
        · exact ⟨_, .hears (answered .ack), rfl⟩
        · next released =>
          have released : s.inReset = false := by simpa using released
          split
          · exact writeCmd_takes (answered .ack) released
          · exact ⟨_, writeRegister_takes (answered .ack) ⟨released, aligned, inside, by rw [input, ← write, ← place]⟩, rfl⟩
    · exact ⟨_, .hears (answered .busError), rfl⟩
  · exact ⟨_, .hears (answered s.reply), rfl⟩

/-- Every step takes one input, and then the SEQUENCER runs as far as it can (R9); or the source breaks its duty (U12). -/
theorem step_takes (s : State) : (∃ r, step s = .refused r) ∨ ∃ t, s.Takes t ∧ step s = settle t := by
  unfold step
  split
  · exact .inr ⟨s, .hears (s.hears_outside rfl s.reply s.events s.draws), rfl⟩
  · next e rest input =>
    have devices : ∀ (src : Source) (snk : Sink), s.Takes { s with events := rest, ports := ⟨src, snk, s.ports.trace⟩ } :=
      fun src snk => .hears (s.hears_outside (ports := ⟨src, snk, s.ports.trace⟩) rfl s.reply rest s.draws)
    cases e with
    | access a => exact .inr (hostAccess_takes input)
    | hcRst level =>
      have taken : s.Hears { s with events := rest } := s.hears_outside rfl s.reply rest s.draws
      refine .inr ⟨_, ?_, rfl⟩
      unfold hcRst
      split
      · next asserted => exact .resets taken (.inl ⟨rest, by rw [input, asserted]⟩) true
      · exact .hears { taken with inReset := fun h => Bool.noConfusion h }
    | attachSource st => exact .inr ⟨_, devices _ _, rfl⟩
    | sourceAnswers items ended =>
      show (∃ r, sourceAnswers items ended _ = .refused r) ∨ ∃ t, s.Takes t ∧ sourceAnswers items ended _ = settle t
      unfold sourceAnswers
      split
      · split
        · exact .inr ⟨_, devices s.ports.src s.ports.snk, rfl⟩
        · exact .inl ⟨_, rfl⟩
      · exact .inr ⟨_, devices _ _, rfl⟩
    | attachSink answers thenOk => exact .inr ⟨_, devices _ _, rfl⟩
    | sinkAnswers answers thenOk => exact .inr ⟨_, devices _ _, rfl⟩

/-- The same of a step that goes on. -/
theorem step_next {s t : State} (h : step s = .next t) : ∃ u, s.Takes u ∧ settle u = .next t := by
  obtain ⟨r, refused⟩ | ⟨u, takes, run⟩ := step_takes s
  · rw [refused] at h; cases h
  · exact ⟨u, takes, run.symm.trans h⟩

/-! ## The arena invariant (R51, R53, R261) -/

/-- Every input keeps the invariant of R58. -/
theorem State.Takes.inv {s t : State} (h : s.Takes t) (inv : s.Inv) : t.Inv := by
  cases h with
  | hears h => exact h.inv inv
  | resets h _ inReset => exact resetBlock_inv (h.inv inv) inReset
  | mode h busy heap mode => exact (h.inv inv).withMode (h.busy.trans busy) (h.heap.trans heap) mode
  | returns h busy _ => exact returnFromError_inv (h.inv inv) (h.busy.trans busy)
  | illegal h ready opcode => exact illegalWord_inv (h.inv inv) (h.busy.trans ready.1) opcode
  | accepts h ready released starts =>
    exact accept_inv (h.inv inv) ⟨h.busy.trans ready.1, h.err.trans ready.2⟩ released starts.command starts.names starts.compress

/-- The arena invariant speaks of nothing that an input to a running command changes. -/
theorem State.Hears.arenaInv {s t : State} (h : s.Hears t) (arena : s.ArenaInv) : t.ArenaInv where
  children := by rw [h.nodes]; exact arena.children
  start := by rw [h.seq]; exact arena.start
  order := by rw [h.seq]; exact arena.order
  named := by rw [h.seq]; exact fun m hm => Micro.namesNode_grows (arena.named m hm) (.same h.nodes)
  frames := by rw [h.seq]; exact fun hu f hf => (State.Grows.same h.nodes).internal _ (arena.frames hu f hf)
  rootBuilt := by rw [h.seq, h.root, h.nodes]; exact arena.rootBuilt
  rootRead := by rw [h.seq, h.root, h.nodes]; exact arena.rootRead
  tags := by rw [h.seq, h.heap, h.nodes]; exact arena.tags

/-- Only the codec commands have steps that use the arena, name a node of it or start it afresh. -/
theorem codec_of_usesArena {m : Micro} {op : Byte} (belongs : m.belongsTo op = true)
    (uses : m.usesArena = true ∨ m = .cInit ∨ m = .dInit ∨ m.namesNone = false) : op = 0x31#8 ∨ op = 0x32#8 := by
  cases m with
  | makeLeaves | build | cInit | serialize | serNode | serReturn => exact .inl (beq_iff_eq.1 belongs)
  | dInit | treeToken | treeLeaf | treeReturn | takeCount | decode | walk | branch => exact .inr (beq_iff_eq.1 belongs)
  | _ => rcases uses with h | h | h | h <;> cases h

theorem Micro.usesArena_of_isTreeWalking {m : Micro} (h : m.isTreeWalking = true) : m.usesArena = true := by
  simp [Micro.usesArena, h]

/-- A command that has just been accepted has used no node yet: its list of steps is all that the invariant speaks of. -/
theorem arenaInv_of_start {s : State} {steps : List Micro} (children : ∀ x ∈ s.nodes, x.below s.nodes.length)
    (todo : s.seq.todo = steps) (stack : s.seq.stack = [])
    (start : (.cInit ∈ steps → steps = compressSteps) ∧ (.dInit ∈ steps → steps = decompressSteps))
    (order : steps.Pairwise fun a b =>
      (a = .release → b.usesArena = false) ∧ (a.isTreeWalking = true → b.isTreeReading = false))
    (closed : ∀ m ∈ steps, m.namesNone = true) (built : .serialize ∈ steps → .build ∈ steps)
    (read : ∀ m ∈ steps, m.isTreeWalking = true → ∃ x ∈ steps, x.isTreeReading = true)
    (queue : .build ∈ steps → .makeLeaves ∈ steps) : s.ArenaInv := by
  subst todo
  exact
    { children := children
      start := ⟨fun h => ⟨start.1 h, stack⟩, fun h => ⟨start.2 h, stack⟩⟩
      order := order
      named := names_closed _ (List.all_eq_true.2 closed)
      frames := fun _ f hf => by rw [stack] at hf; cases hf
      rootBuilt := fun hs hb => absurd (built hs) hb
      rootRead := fun ⟨m, hm, walks⟩ none => by
        obtain ⟨x, hx, reads⟩ := read m hm walks
        rw [none x hx] at reads; cases reads
      tags := fun hb hl => absurd (queue hb) hl }

theorem accept_arenaInv {i : Instr} {steps : List Micro} {s : State} (children : ∀ x ∈ s.nodes, x.below s.nodes.length)
    (starts : Starts i steps s) : (accept i steps s).ArenaInv := by
  by_cases hc : i.opcode = 0x31#8
  · obtain rfl := starts.compress hc
    exact arenaInv_of_start (steps := compressSteps) children rfl rfl (by decide) (by decide) (by decide) (by decide) (by decide)
      (by decide)
  by_cases hd : i.opcode = 0x32#8
  · obtain rfl := starts.decompress hd
    exact arenaInv_of_start (steps := decompressSteps) children rfl rfl (by decide) (by decide) (by decide) (by decide)
      (by decide) (by decide)
  have free : ∀ m ∈ steps, ¬ (m.usesArena = true ∨ m = .cInit ∨ m = .dInit ∨ m.namesNone = false) := fun m hm uses =>
    (codec_of_usesArena (starts.command.steps m hm) uses).elim hc hd
  have unused : ∀ m ∈ steps, m.usesArena = false := fun m hm => Bool.eq_false_iff.2 fun h => free m hm (.inl h)
  exact arenaInv_of_start children rfl rfl
    ⟨fun h => absurd (.inr (.inl rfl)) (free _ h), fun h => absurd (.inr (.inr (.inl rfl))) (free _ h)⟩
    (List.pairwise_of_forall_mem_list fun a ha b hb => ⟨fun _ => unused b hb, fun walks =>
      absurd (.inl (Micro.usesArena_of_isTreeWalking walks)) (free a ha)⟩)
    (fun m hm => eq_true_of_ne_false fun h => free m hm (.inr (.inr (.inr h))))
    (fun h => absurd (.inl rfl) (free _ h))
    (fun m hm walks => absurd (.inl (Micro.usesArena_of_isTreeWalking walks)) (free m hm))
    (fun h => absurd (.inl rfl) (free _ h))

theorem State.Takes.arenaInv {s t : State} (h : s.Takes t) (inv : s.Inv) (arena : s.ArenaInv) : t.ArenaInv := by
  cases h with
  | hears h => exact h.arenaInv arena
  | resets => exact State.arenaInv_of_empty rfl rfl
  | mode h busy =>
    exact arenaInv_of_idle (h.arenaInv arena).children (h.seq.trans (inv.idle busy))
  | returns h busy =>
    exact arenaInv_of_idle (h.arenaInv arena).children (h.seq.trans (inv.idle busy))
  | illegal h ready =>
    exact arenaInv_of_idle (h.arenaInv arena).children (h.seq.trans (inv.idle ready.1))
  | accepts h _ _ starts => exact accept_arenaInv (h.arenaInv arena).children starts

/-- Every primitive step keeps the two invariants. -/
theorem microStep_invariants {s : State} {m : Micro} {rest : List Micro} (h : s.Inv ∧ s.ArenaInv) (todo : s.seq.todo = m :: rest) :
    (microStep m (s.next rest)).Meets (fun t => t.Inv ∧ t.ArenaInv) (fun e t => (raiseError e t).Inv ∧ (raiseError e t).ArenaInv)
      True :=
  (microStep_inv h.1 todo).and ((microStep_arenaInv h.1.toBlockInv h.2 todo).mono (fun _ h => h) (fun _ _ h => h) False.elim)

/-- Settles O51: an input keeps the arena invariant (`State.Takes.arenaInv`), and then every primitive step of the SEQUENCER does
(`microStep_arenaInv`). -/
theorem stepKeepsTheArenaInvariant : Obligations.StepKeepsTheArenaInvariant := by
  intro s t inv arena h
  obtain ⟨u, takes, run⟩ := step_next h
  exact (settle_induction (P := fun s => s.Inv ∧ s.ArenaInv) (fun _ _ _ _ h todo step => (microStep_invariants h todo).of_go step)
    (fun _ _ _ _ _ h todo step => (microStep_invariants h todo).of_raise step)
    ⟨takes.inv inv, takes.arenaInv inv arena⟩ run).2

/-- Settles O52: the input keeps both invariants, and no primitive step from a state of theirs faults (`microStep_arenaInv`). -/
theorem unspecifiedMemoryIsNeverRead : Obligations.UnspecifiedMemoryIsNeverRead := by
  intro s f inv arena fault
  obtain ⟨r, refused⟩ | ⟨u, takes, run⟩ := step_takes s
  · rw [refused] at fault; cases fault
  rw [run] at fault
  unfold settle at fault
  split at fault
  · exact run_no_fault (P := fun s => s.Inv ∧ s.ArenaInv) (fun _ _ _ _ h todo step => (microStep_invariants h todo).of_go step)
      (fun _ _ _ _ _ h todo step => (microStep_invariants h todo).of_raise step)
      (fun _ _ _ _ h todo => (microStep_arenaInv h.1.toBlockInv h.2 todo).no_stop)
      ⟨takes.inv inv, takes.arenaInv inv arena⟩ f fault
  · cases fault

end Sys2Proof.Machine
end

section
/-! PROOFS. The state family: what the registers and windows read (R22 to R47, R63), and what a write to them does. -/

namespace Sys2Proof.Machine

/-! ## Reads -/

theorem isTableWord_eq_false {off : Nat} (below : off < 0x400) : isTableWord off = false := by simp [isTableWord, below]

/-- A read below the table windows answers the register's value as it stands before the SEQUENCER goes on (R63, R77). -/
theorem step_readsRegister {s : State} {off : Nat} {rest : List Event} {v : Word} (h : s.reads off rest) (below : off < 0x400)
    (value : registerValue s off = v) : step s = settle { s with events := rest, reply := .data v } := by
  subst value
  rw [step_reads h]
  unfold hostRead
  rw [if_neg (by rw [isTableWord_eq_false below]; decide)]
  rfl

/-- A read of a table window on an idle block answers the table's word (R45 to R47). -/
theorem step_readsTable {s : State} {off : Nat} {rest : List Event} {v : Word} (h : s.reads off rest) (window : 0x400 ≤ off)
    (busy : s.busy = false) (value : tableWord s.tables off = v) : step s = .next { s with events := rest, reply := .data v } := by
  subst value
  have inside : isTableWord off = true := by simpa [isTableWord, window] using h.2.1
  rw [step_reads h]
  unfold hostRead
  rw [if_pos inside, if_neg (by simp [busy])]
  exact settle_idle busy

/-! ## Fields as digits -/

/-- Two fields side by side are the digits of the word's value. -/
theorem toNat_append {n k : Nat} (hi : BitVec n) (lo : BitVec k) : (hi ++ lo).toNat = hi.toNat * 2 ^ k + lo.toNat := by
  rw [BitVec.toNat_append, ← Nat.shiftLeft_add_eq_or_of_lt lo.isLt, Nat.shiftLeft_eq]

theorem bitVal_toNat (b : Bool) : (bitVal 1 b).toNat = b.toNat := by cases b <;> rfl

theorem statusWord_eq (s : State) : s.statusWord =
    BitVec.ofNat 32 (s.busy.toNat + s.err.toNat * 2 + s.ovr.toNat * 4 + s.seq.phase.code.toNat * 256) := by
  apply BitVec.eq_of_toNat_eq
  simp only [State.statusWord, toNat_append, bitVal_toNat, BitVec.toNat_ofNat]
  have := s.busy.toNat_le; have := s.err.toNat_le; have := s.ovr.toNat_le; have := s.seq.phase.code.isLt
  omega

theorem ErrReg.toWord_eq (e : ErrReg) : e.toWord =
    BitVec.ofNat 32 (e.code.code.toNat + e.opcode.toNat * 256 + e.phase.code.toNat * 65536) := by
  apply BitVec.eq_of_toNat_eq
  simp only [ErrReg.toWord, toNat_append, BitVec.toNat_ofNat]
  have := e.code.code.isLt; have := e.opcode.isLt; have := e.phase.code.isLt
  omega

theorem TieTag.toWord_eq (x : TieTag) : x.toWord = BitVec.ofNat 32 (x.tie.toNat + x.tag.toNat * 256) := by
  apply BitVec.eq_of_toNat_eq
  simp only [TieTag.toWord, toNat_append, BitVec.toNat_ofNat]
  have := x.tie.isLt; have := x.tag.isLt
  omega

theorem Cursor.toWord_eq (c : Cursor) : c.toWord = BitVec.ofNat 32 (c.buf.toNat + c.cnt.toNat * 256) := by
  apply BitVec.eq_of_toNat_eq
  simp only [Cursor.toWord, toNat_append, BitVec.toNat_ofNat]
  have := c.buf.isLt; have := c.cnt.isLt
  omega

/-- A word of two bits, as INT_PENDING and INT_ENABLE are (R42, R43). -/
theorem twoBits_eq (low high : Bool) : 0#30 ++ bitVal 1 high ++ bitVal 1 low = BitVec.ofNat 32 (low.toNat + high.toNat * 2) := by
  cases low <;> cases high <;> decide

theorem modeBit_eq (m : Mode) : bitVal 32 m.toBit = BitVec.ofNat 32 (if m = .max then 1 else 0) := by cases m <;> decide

/-- Settles O11: the value of each register is the number its fields make. -/
theorem registersReadTheirFields : Obligations.RegistersReadTheirFields := by
  intro s rest answers
  have answered : ∀ {off v : Nat}, off < 0x400 → registerValue s off = BitVec.ofNat 32 v → answers off v :=
    fun below value h => ⟨step_readsRegister h below value, fun busy => (step_readsRegister h below value).trans (settle_idle busy)⟩
  have stored : ∀ {off : Nat} {v : Word}, off < 0x400 → registerValue s off = v → answers off v.toNat :=
    fun below value => answered below (value.trans (by simp))
  exact ⟨answered (by decide) rfl, answered (by decide) rfl, answered (by decide) rfl, answered (by decide) rfl,
    answered (by decide) (modeBit_eq _), answered (by decide) (statusWord_eq s), answered (by decide) (ErrReg.toWord_eq _),
    answered (by decide) rfl, stored (by decide) rfl, answered (by decide) (TieTag.toWord_eq _), stored (by decide) rfl,
    answered (by decide) (TieTag.toWord_eq _), answered (by decide) rfl, answered (by decide) (Cursor.toWord_eq _),
    answered (by decide) (Cursor.toWord_eq _), stored (by decide) rfl, stored (by decide) rfl, stored (by decide) rfl,
    stored (by decide) rfl, answered (by decide) (twoBits_eq _ _), answered (by decide) (twoBits_eq _ _)⟩

/-! ## The table windows -/

theorem tableWord_freq (t : Tables) {sym : Nat} (h : sym < 128) : tableWord t (0x400 + 4 * sym) = t.freq[sym] := by
  have index : (0x400 + 4 * sym - 0x400) / 4 = sym := by omega
  have small : sym % 256 = sym := by omega
  unfold tableWord
  rw [if_pos (by omega), index]
  simp [Tables.freqAt, small, h]

theorem tableWord_codeLen (t : Tables) {sym : Nat} (h : sym < 128) :
    tableWord t (0x600 + 4 * sym) = t.codeLen[sym].setWidth 32 := by
  have index : (0x600 + 4 * sym - 0x600) / 4 = sym := by omega
  have small : sym % 256 = sym := by omega
  unfold tableWord
  rw [if_neg (by omega), if_pos (by omega), index]
  simp [Tables.lenAt, small, h]

theorem tableWord_codeBits (t : Tables) {sym k : Nat} (h : sym < 128) (hk : k < 4) :
    tableWord t (0x800 + 16 * sym + 4 * k) = BitVec.ofNat 32 (t.codeBits[sym].toNat / 2 ^ (32 * k)) := by
  have index : (0x800 + 16 * sym + 4 * k - 0x800) / 16 = sym := by omega
  have word : (0x800 + 16 * sym + 4 * k - 0x800) % 16 / 4 = k := by omega
  have small : sym % 256 = sym := by omega
  unfold tableWord
  rw [if_neg (by omega), if_neg (by omega), index, word]
  apply BitVec.eq_of_toNat_eq
  simp [Tables.bitsAt, small, h, Nat.shiftRight_eq_div_pow]

/-- Settles O12: each window's offset gives the symbol back. -/
theorem windowsReadTheTables : Obligations.WindowsReadTheTables := fun s _ _ _ h hk busy =>
  ⟨fun read => step_readsTable read (by omega) busy (tableWord_freq s.tables h),
    fun read => step_readsTable read (by omega) busy (tableWord_codeLen s.tables h),
    fun read => step_readsTable read (by omega) busy (tableWord_codeBits s.tables h hk)⟩

theorem getD_replicate {α : Type} (n i : Nat) (x : α) : (Vector.replicate n x)[i]?.getD x = x := by
  rw [Vector.getElem?_replicate]; split <;> rfl

theorem tableWord_zero (off : Nat) : tableWord .zero off = 0#32 := by
  unfold tableWord
  split
  · exact Tables.freqAt_zero _
  · split
    · rw [Tables.lenAt, Tables.zero, getD_replicate]; rfl
    · rw [Tables.bitsAt, Tables.zero, getD_replicate, BitVec.extractLsb'_zero]

/-- Settles O9: every register, table and hidden field of the reset state, read off its definition. -/
theorem resetLeavesTheTableOfValues : Obligations.ResetLeavesTheTableOfValues := by
  intro p s
  have zeros : ∀ off ∈ [0x010, 0x014, 0x018, 0x01C, 0x020, 0x024, 0x028, 0x02C, 0x030, 0x034, 0x038, 0x03C, 0x040, 0x044, 0x048,
      0x04C, 0x050], registerValue s off = 0#32 := by
    simp [s, registerValue, State.resetOf, State.statusWord, State.intPendingWord, State.intEnableWord, Sequencer.idle, Phase.code,
      bitVal, Mode.toBit, ErrReg.toWord, ErrCode.code, TieTag.toWord, Cursor.toWord]
  exact ⟨zeros, rfl, rfl, rfl, rfl, fun off _ => tableWord_zero off, rfl, rfl, rfl, rfl, rfl, rfl, rfl, rfl, rfl⟩

/-! ## Writes -/

/-- The registers that a host write can change, CMD apart (R23). -/
def writable : List Nat := [0x010, 0x014, 0x020, 0x024, 0x04C, 0x050]

theorem writeRegister_ignored {off : Nat} (h : off ∉ writable) (v : Word) (s : State) : writeRegister off v s = s := by
  unfold writeRegister
  split
  iterate 6 exact absurd (by decide) h
  rfl

/-- A write to anything but CMD and the writable registers is acknowledged, and that is all (R23, R44, R62). -/
theorem step_writesIgnored {s : State} {off : Nat} {v : Word} {rest : List Event} (h : s.writes off v rest) (cmd : off ≠ cmdOffset)
    (ro : off ∉ writable) : step s = settle { s with events := rest, reply := .ack } := by
  rw [step_writes h cmd, writeRegister_ignored ro]

theorem registerValue_reserved (s : State) {off : Nat} (low : 0x054 ≤ off) : registerValue s off = 0#32 := by
  unfold registerValue
  split
  iterate 21 omega
  rfl

/-- Settles O13: no register stands at these offsets. -/
theorem reservedOffsetsAreRazWi : Obligations.ReservedOffsetsAreRazWi := fun s off v rest low high =>
  ⟨fun read => step_readsRegister read (by omega) (registerValue_reserved s low),
    fun write => step_writesIgnored write (by unfold cmdOffset; omega) (by simp [writable]; omega)⟩

/-- Settles O14: none of these offsets is CMD or a writable register. -/
theorem readOnlyRegistersIgnoreWrites : Obligations.ReadOnlyRegistersIgnoreWrites := by
  rintro s off v rest write (ro | window)
  · have fixed : ∀ off ∈ [0x000, 0x004, 0x008, 0x00C, 0x018, 0x028, 0x02C, 0x030, 0x034, 0x038, 0x03C, 0x040, 0x044, 0x048],
        off ≠ cmdOffset ∧ off ∉ writable := by decide
    exact step_writesIgnored write (fixed off ro).1 (fixed off ro).2
  · exact step_writesIgnored write (by unfold cmdOffset; omega) (by simp [writable]; omega)

theorem and_not_eq_ite (a b : Bool) : (a && !b) = if b then false else a := by cases b <;> simp

theorem writeStatus_idle {s : State} (busy : s.busy = false) (v : Word) : writeStatus v s =
    { s with
      err := if v.getLsbD 1 then false else s.err
      errReg := if v.getLsbD 1 then .clear else s.errReg
      ovr := if v.getLsbD 2 then false else s.ovr } := by
  unfold writeStatus
  cases one : v.getLsbD 1 <;> simp [busy, and_not_eq_ite, returnFromError]

theorem writeStatus_busy {s : State} (busy : s.busy = true) (v : Word) :
    writeStatus v s = { s with ovr := if v.getLsbD 2 then false else s.ovr } := by
  simp [writeStatus, busy, and_not_eq_ite]

/-- Settles O19: the return from an error needs BUSY = 0 (`writeStatus_idle`, `writeStatus_busy`). -/
theorem statusWriteReturnsFromError : Obligations.StatusWriteReturnsFromError := by
  intro s v rest write
  rw [step_writes write (by decide)]
  let u : State := { s with events := rest, reply := .ack }
  exact ⟨fun busy => (congrArg settle (writeStatus_idle (s := u) busy v)).trans (settle_idle busy),
    fun busy => congrArg settle (writeStatus_busy (s := u) busy v)⟩

/-- Settles O20: a 1 clears, a 0 leaves. -/
theorem pendingBitsClearOnWriteOne : Obligations.PendingBitsClearOnWriteOne := by
  intro s v rest write t
  have taken : step s = settle t := by
    rw [step_writes write (by decide)]
    show settle (writeIntPending v _) = _
    simp only [writeIntPending, and_not_eq_ite, t]
  refine ⟨taken, fun busy => taken.trans (settle_idle busy), ?_⟩
  show (((if v.getLsbD 0 then false else s.intDone) && s.doneIe) ||
    ((if v.getLsbD 1 then false else s.intError) && s.errorIe)) = true ↔ _
  cases v.getLsbD 0 <;> cases v.getLsbD 1 <;> simp

/-- Settles O21: each register takes its writable fields. -/
theorem operandRegistersHoldTheWrite : Obligations.OperandRegistersHoldTheWrite := by
  refine fun s v rest => ⟨fun write => step_writes write (by decide), fun write => ?_, fun write => step_writes write (by decide)⟩
  rw [step_writes write (by decide)]
  have fields : TieTag.ofWord v = ⟨BitVec.ofNat 8 v.toNat, BitVec.ofNat 8 (v.toNat / 256)⟩ := by
    unfold TieTag.ofWord
    congr 1
    exact BitVec.eq_of_toNat_eq (by simp [Nat.shiftRight_eq_div_pow])
  rw [← fields]
  rfl

/-! ## CMD -/

theorem writeCmd_of_decode {w : Word} {i : Instr} (h : decode w = .ok i) (s : State) : writeCmd w s = exec i s := by
  unfold writeCmd; rw [h]

/-- Settles O5: a write to CMD that decodes is the command. -/
theorem stepRunsDecodedCommand : Obligations.StepRunsDecodedCommand := by
  refine ⟨fun s w i rest write h => (step_writesCmd write).trans (writeCmd_of_decode h _), fun s w i h => ?_⟩
  have word : BitVec.ofNat 32 (w.toNat % 2 ^ 32) = w := by
    rw [Nat.mod_eq_of_lt w.isLt, BitVec.ofNat_toNat, BitVec.setWidth_eq]
  exact (step_writesCmd (s := s.withFetchWord 32 w.toNat) (rest := s.events) ⟨rfl, by rw [State.withFetchWord, word]⟩).trans
    (writeCmd_of_decode h _)

end Sys2Proof.Machine
end

section
/-! PROOFS. The state family: what commands leave alone, and what they leave behind when they are over (R31 to R34, R50, R237,
R240). -/

namespace Sys2Proof.Machine

/-! ## The error that is recorded -/

/-- Settles O53: with an error recorded the block is idle and accepts no command, so an input changes ERR only by resetting the
block or returning from the error. -/
theorem firstErrorWins : Obligations.FirstErrorWins := by
  intro s t inv err h status ctrl pin
  have busy : s.busy = false := Bool.eq_false_iff.2 fun hb => by rw [inv.running hb] at err; cases err
  have notReady : ¬ s.ready := fun ready => by rw [ready.2] at err; cases err
  obtain ⟨u, takes, run⟩ := step_next h
  cases takes with
  | hears hears =>
    cases (settle_idle (hears.busy.trans busy)).symm.trans run
    exact ⟨hears.err.trans err, hears.errReg⟩
  | @mode u hears _ _ mode =>
    cases (settle_idle (s := { u with pqMode := mode }) (hears.busy.trans busy)).symm.trans run
    exact ⟨hears.err.trans err, hears.errReg⟩
  | resets _ reset =>
    rcases reset with ⟨rest, input⟩ | ⟨v, rest, write, one⟩
    · exact absurd input (pin rest)
    · rw [ctrl v rest write] at one; cases one
  | returns _ _ input =>
    obtain ⟨v, rest, write, one⟩ := input
    rw [status v rest write] at one; cases one
  | illegal _ ready => exact absurd ready notReady
  | accepts _ ready => exact absurd ready notReady

/-! ## The host's registers -/

/-- Settles O54: no primitive step writes them (`settle_host`), and neither does dropping, accepting or refusing a command. -/
theorem commandsNeverWriteHostRegisters : Obligations.CommandsNeverWriteHostRegisters := by
  unfold Obligations.CommandsNeverWriteHostRegisters
  intro same
  have settled : ∀ s t : State, settle s = .next t → same s t := fun s t h =>
    have host := settle_host h
    ⟨host.arg, host.arg2, host.pqMode, host.doneIe, host.errorIe, host.params⟩
  refine ⟨fun i s t h => ?_, settled⟩
  obtain ⟨steps, -, ⟨-, run⟩ | ⟨-, -, run⟩ | ⟨-, -, run⟩⟩ := exec_settles i s
  · exact settled (dropCommand s) t (run.symm.trans h)
  · exact settled (accept i steps s) t (run.symm.trans h)
  · exact settled (illegalWord i.opcode s) t (run.symm.trans h)

/-! ## A command on an idle block -/

/-- A word to CMD of an idle block is dropped or refused at once, or its command runs. -/
theorem exec_idle {i : Instr} {s t : State} (busy : s.busy = false) (h : exec i s = .next t) :
    t = dropCommand s ∨ t = illegalWord i.opcode s ∨
      ∃ steps, s.ready ∧ Starts i steps s ∧ settle (accept i steps s) = .next t := by
  obtain ⟨steps, starts, ⟨-, run⟩ | ⟨ready, -, run⟩ | ⟨-, -, run⟩⟩ := exec_settles i s
  · cases (settle_idle (s := dropCommand s) busy).symm.trans (run.symm.trans h)
    exact .inl rfl
  · exact .inr (.inr ⟨steps, ready, starts, run.symm.trans h⟩)
  · cases (settle_idle (s := illegalWord i.opcode s) busy).symm.trans (run.symm.trans h)
    exact .inr (.inl rfl)

/-- The last step of a command: step 4 of R234, or completion (R240). -/
theorem microStep_ends {m : Micro} {s t : State} (ends : m.endsCommand = true) (h : microStep m s = .go t) :
    (m = .done ∧ t = completeCommand s) ∨ ∃ e opcode phase, m = .fail e opcode phase ∧ t = failCommand e opcode phase s := by
  cases m with
  | done => cases h; exact .inl ⟨rfl, rfl⟩
  | fail e opcode phase => cases h; exact .inr ⟨e, opcode, phase, rfl, rfl⟩
  | _ => cases ends

/-- A later step of a command that waits: the input leaves what is left of the command as it was, and the command goes on. -/
theorem step_command {s t : State} (inv : s.Inv) (busy : s.busy = true) (reset : ¬ s.resets) (h : step s = .next t) :
    ∃ u, s.Hears u ∧ u.busy = true ∧ u.commandInv ∧ u.latched.opcode = s.latched.opcode ∧ settle u = .next t := by
  obtain ⟨u, hears, run⟩ := step_busy busy reset h
  exact ⟨u, hears, hears.busy.trans busy, hears.commandInv (inv.command busy), by unfold State.latched; rw [hears.seq], run⟩

/-! ## The tables and INBUF -/

theorem Micro.keeps_tables {m : Micro} {op : Byte} (belongs : m.belongsTo op = true) (other : op ≠ 0x31#8) :
    m.touches.contains .tables = false ∧ m.touches.contains .inbuf = false := by
  cases m with
  | cInit | scan | recordCode => exact absurd (beq_iff_eq.1 belongs) other
  | _ => exact ⟨rfl, rfl⟩

/-- FREQ, the code table, INBUF and INLEN are as they were. -/
def State.sameTables (s t : State) : Prop := t.tables = s.tables ∧ t.inbuf = s.inbuf ∧ t.inlen = s.inlen

theorem State.Same.sameTables {s u v : State} {m : Micro} {op : Byte} (same : u.Same m.touches v) (h : s.sameTables u)
    (belongs : m.belongsTo op = true) (other : op ≠ 0x31#8) : s.sameTables v := by
  obtain ⟨tables, inbuf, inlen⟩ := h
  have keeps := Micro.keeps_tables belongs other
  have input := same.inbuf keeps.2
  exact ⟨(same.tables keeps.1).trans tables, input.1.trans inbuf, input.2.trans inlen⟩

/-- Running a command other than COMPRESS leaves them alone. -/
theorem settle_tables {s t : State} (busy : s.busy = true) (cmd : s.commandInv) (other : s.latched.opcode ≠ 0x31#8)
    (h : settle s = .next t) : s.sameTables t := by
  refine (settle_command (Q := s.sameTables) (R := s.sameTables) busy rfl cmd.steps ⟨rfl, rfl, rfl⟩ ?_ ?_ ?_ h).elim (·.2.2) (·.2.2)
  · exact fun u m rest v hu belongs _ he step =>
      ((microStep_frame m (u.next rest) he).of_go step).sameTables hu belongs other
  · exact fun u m rest e v hu belongs _ he step =>
      ((microStep_frame m (u.next rest) he).of_raise step).sameTables hu belongs other
  · intro u m rest v hu _ _ he step
    obtain ⟨-, rfl⟩ | ⟨_, _, _, -, rfl⟩ := microStep_ends he step <;> exact hu

theorem opcode_ne_compress {i : Instr} (h : i ≠ .compress) : i.opcode ≠ 0x31#8 := by
  cases i with
  | compress => exact absurd rfl h
  | _ => simp [Instr.opcode]

/-- Settles O55: only the steps CInit, Scan and RecordCode write them, and they are COMPRESS's (`Micro.keeps_tables`). -/
theorem onlyCompressWritesTheTables : Obligations.OnlyCompressWritesTheTables := by
  refine ⟨fun i s t busy other h => ?_, fun s t inv busy reset other h => ?_⟩
  · obtain rfl | rfl | ⟨steps, -, starts, run⟩ := exec_idle busy h
    · exact ⟨rfl, rfl, rfl⟩
    · exact ⟨rfl, rfl, rfl⟩
    · exact settle_tables (s := accept i steps s) rfl starts.command (opcode_ne_compress other) run
  · obtain ⟨u, hears, running, cmd, opcode, run⟩ := step_command inv busy reset h
    obtain ⟨tables, inbuf, inlen⟩ := settle_tables running cmd (opcode ▸ other) run
    exact ⟨tables.trans hears.tables, inbuf.trans hears.inbuf, inlen.trans hears.inlen⟩

/-! ## The results -/

/-- RESULT and RESULT2 are as they were. -/
def State.sameResults (s t : State) : Prop := t.result = s.result ∧ t.result2 = s.result2

theorem State.sameResults.trans {s t u : State} (h : s.sameResults t) (h' : t.sameResults u) : s.sameResults u :=
  ⟨h'.1.trans h.1, h'.2.trans h.2⟩

/-- No step still to run writes a result. -/
def State.noResult (s : State) : Prop := ∀ m ∈ s.seq.todo, m.givesResult = false

theorem Micro.keeps_results {m : Micro} (h : m.givesResult = false) :
    m.touches.contains .result = false ∧ m.touches.contains .result2 = false := by
  cases m with
  | resultValue | pqPop | pqTop | pqSize => cases h
  | _ => exact ⟨rfl, rfl⟩

theorem Micro.givesResult_of_isInner {m : Micro} (h : m.isInner = true) : m.givesResult = false := by
  cases m with
  | resultValue | pqPop | pqTop | pqSize => cases h
  | _ => rfl

theorem microStep_sameResults {m : Micro} (s : State) (h : m.givesResult = false) :
    (microStep m s).Meets s.sameResults (fun _ => s.sameResults) True := by
  cases he : m.endsCommand with
  | false =>
    have keeps := Micro.keeps_results h
    exact (microStep_frame m s he).mono (fun _ same => ⟨same.result keeps.1, same.result2 keeps.2⟩)
      (fun _ _ same => ⟨same.result keeps.1, same.result2 keeps.2⟩) id
  | true =>
    cases m with
    | done | fail => exact ⟨rfl, rfl⟩
    | _ => cases he

/-- A step that writes a result does so only where it raises nothing, and leads to no other step. -/
theorem microStep_result {m : Micro} (s : State) (h : m.givesResult = true) :
    (microStep m s).Meets (fun t => t.seq = s.seq ∧ t.err = s.err ∧ (t.result2 ≠ s.result2 → m = .pqPop ∨ m = .pqTop))
      (fun _ => s.sameResults) True := by
  cases m with
  | resultValue | pqSize => exact ⟨rfl, rfl, fun changed => absurd rfl changed⟩
  | pqPop =>
    rw [microStep, withPop_meets]
    exact ⟨fun _ => ⟨rfl, rfl⟩, fun _ _ _ => ⟨rfl, rfl, fun _ => .inl rfl⟩⟩
  | pqTop =>
    rw [microStep, withTop_meets]
    exact ⟨fun _ => ⟨rfl, rfl⟩, fun _ _ _ => ⟨rfl, rfl, fun _ => .inr rfl⟩⟩
  | _ => cases h

/-- A step of a multi-bit read leads to no other step and writes no result (R124 to R126). -/
theorem microStep_reading {m : Micro} (s : State) (h : m = .clearValue ∨ m = .readBit) :
    (microStep m s).Meets (fun t => t.seq.todo = s.seq.todo ∧ t.err = s.err ∧ s.sameResults t) (fun _ => s.sameResults) True := by
  have quiet : m.givesResult = false ∧ m.endsCommand = false := by rcases h with rfl | rfl <;> exact ⟨rfl, rfl⟩
  refine (((microStep_spawns m s quiet.2).and (microStep_frame m s quiet.2)).and (microStep_sameResults s quiet.1)).mono
    ?_ (fun _ _ h => h.2) id
  rintro t ⟨⟨⟨new, left, spawned⟩ | ⟨⟨b, rfl⟩, -⟩, frame⟩, same⟩
  · have : new = [] := List.eq_nil_iff_forall_not_mem.2 fun y hy => by
      have := spawned y hy
      rcases h with rfl | rfl <;> cases this
    exact ⟨by rw [left, this]; rfl, frame.err, same⟩
  · rcases h with h | h <;> cases h

theorem raiseError_noResult (e : ErrCode) (s : State) : (raiseError e s).noResult := by
  intro m hm
  rcases raiseError_todo e s hm with hm | rfl
  · simp only [cleanup, List.mem_cons, List.not_mem_nil, or_false] at hm
    rcases hm with rfl | rfl | rfl | rfl | rfl <;> rfl
  · rfl

theorem microStep_noResult {m : Micro} {rest : List Micro} {s t : State} (h : s.noResult) (todo : s.seq.todo = m :: rest)
    (step : microStep m (s.next rest) = .go t) : t.noResult := by
  cases he : m.endsCommand with
  | true =>
    obtain ⟨-, rfl⟩ | ⟨_, _, _, -, rfl⟩ := microStep_ends he step <;> exact nofun
  | false =>
    intro x hx
    rcases mem_todo ((microStep_todo m _ he).of_go step) hx with inner | left | rfl | rfl
    · exact Micro.givesResult_of_isInner inner
    · exact h x (by rw [todo]; exact List.mem_cons_of_mem _ left)
    · rfl
    · rfl

/-- With no step left that writes a result, none is written. -/
theorem run_noResult {n : Nat} {s t : State} (h : s.noResult) (e : run n s = .next t) : s.sameResults t := by
  refine (run_induction (P := fun u => u.noResult ∧ s.sameResults u) ?_ ?_ ⟨h, rfl, rfl⟩ e).2
  · rintro u m rest v ⟨none, same⟩ todo step
    have quiet := none m (by rw [todo]; exact List.mem_cons_self)
    exact ⟨microStep_noResult none todo step, same.trans ((microStep_sameResults (u.next rest) quiet).of_go step)⟩
  · rintro u m rest e v ⟨none, same⟩ todo step
    have quiet := none m (by rw [todo]; exact List.mem_cons_self)
    exact ⟨raiseError_noResult e v, same.trans (u := v) ((microStep_sameResults (u.next rest) quiet).of_raise step)⟩

/-- After a raise no result is written (R234, R235). -/
theorem run_raised {n : Nat} {e : ErrCode} {s t : State} (h : run n (raiseError e s) = .next t) : s.sameResults t :=
  run_noResult (s := raiseError e s) (raiseError_noResult e s) h

/-- The first of some turns: the step goes on, raises, or waits. -/
theorem run_cons {n : Nat} {s t : State} {m : Micro} {rest : List Micro} (todo : s.seq.todo = m :: rest)
    (h : run (n + 1) s = .next t) :
    (∃ v, microStep m (s.next rest) = .go v ∧ run n v = .next t) ∨
      (∃ e v, microStep m (s.next rest) = .raise e v ∧ run n (raiseError e v) = .next t) ∨ t = s := by
  rw [run, todo] at h
  dsimp only at h
  split at h
  · next v step => exact .inl ⟨v, step, h⟩
  · next e v step => exact .inr (.inl ⟨e, v, step, h⟩)
  · cases h; exact .inr (.inr rfl)
  · cases h
  · cases h

/-- A command that has written its result completes in the next turn (R240). -/
theorem run_done {n : Nat} {s t : State} (todo : s.seq.todo = [.done]) (h : run (n + 1) s = .next t) : t = completeCommand s := by
  rw [run, todo] at h
  cases n <;> exact (Host.Outcome.next.inj h).symm

/-- A command that reads bits and then gives a result, with turns enough for both: it waits, fails or completes, and only in the
last case is a result written. -/
theorem run_result {m : Micro} (gives : m.givesResult = true) (reading : List Micro) :
    ∀ {n : Nat} {s t : State}, (∀ x ∈ reading, x = .clearValue ∨ x = .readBit) → s.seq.todo = reading ++ [m, .done] →
      reading.length + 2 ≤ n → run n s = .next t →
      s.sameResults t ∨
        (t.busy = false ∧ t.err = s.err ∧ t.intDone = true ∧ (t.result2 ≠ s.result2 → m = .pqPop ∨ m = .pqTop)) := by
  induction reading with
  | nil =>
    intro n s t _ todo turns h
    obtain ⟨n, rfl⟩ := Nat.exists_eq_add_of_le' turns
    rcases run_cons todo h with ⟨v, step, h⟩ | ⟨e, v, step, h⟩ | rfl
    · obtain ⟨seq, err, second⟩ := (microStep_result (s.next [.done]) gives).of_go step
      obtain rfl := run_done (congrArg Sequencer.todo seq) h
      exact .inr ⟨rfl, err, rfl, second⟩
    · exact .inl (((microStep_result (s.next [.done]) gives).of_raise step).trans (run_raised h))
    · exact .inl ⟨rfl, rfl⟩
  | cons x reading ih =>
    intro n s t only todo turns h
    obtain ⟨n, rfl⟩ := Nat.exists_eq_add_of_le' turns
    have bit := only x List.mem_cons_self
    rcases run_cons todo h with ⟨v, step, h⟩ | ⟨e, v, step, h⟩ | rfl
    · obtain ⟨left, err, same⟩ := (microStep_reading (s.next (reading ++ [m, .done])) bit).of_go step
      rcases ih (fun y hy => only y (List.mem_cons_of_mem _ hy)) left (by simp) h with same' | ⟨ended, err', done, second⟩
      · exact .inl (same.trans same')
      · exact .inr ⟨ended, err'.trans err, done, fun changed => second fun eq => changed (eq.trans same.2)⟩
    · exact .inl (((microStep_reading (s.next (reading ++ [m, .done])) bit).of_raise step).trans (run_raised h))
    · exact .inl ⟨rfl, rfl⟩

/-- The commands that have a step that writes RESULT, or RESULT2 (R33, R34). -/
theorem opcode_of_givesResult {m : Micro} {op : Byte} (belongs : m.belongsTo op = true) (gives : m.givesResult = true) :
    op ∈ [0x11#8, 0x12#8, 0x13#8, 0x22#8, 0x23#8, 0x24#8] ∧ (m = .pqPop ∨ m = .pqTop → op ∈ [0x22#8, 0x23#8]) := by
  cases m with
  | resultValue =>
    simp only [Micro.belongsTo, Bool.or_eq_true, beq_iff_eq] at belongs
    rcases belongs with (rfl | rfl) | rfl <;> simp
  | pqPop | pqTop | pqSize =>
    obtain rfl := beq_iff_eq.1 belongs
    simp
  | _ => cases gives

/-- A command that runs writes a result only by completing, and only where it is one that returns a value. -/
theorem settle_results {s t : State} (cmd : s.commandInv) (h : settle s = .next t) :
    s.sameResults t ∨ (t.busy = false ∧ t.err = s.err ∧ t.intDone = true ∧
      s.latched.opcode ∈ [0x11#8, 0x12#8, 0x13#8, 0x22#8, 0x23#8, 0x24#8] ∧
      (t.result2 ≠ s.result2 → s.latched.opcode ∈ [0x22#8, 0x23#8])) := by
  unfold settle at h
  split at h
  · by_cases some : ∃ m ∈ s.seq.todo, m.givesResult = true
    · obtain ⟨m, hm, gives⟩ := some
      obtain ⟨reading, todo, short, only⟩ := cmd.results m hm gives
      have bound : reading.length + 2 ≤ seqTurns := by unfold seqTurns; omega
      have opcode := opcode_of_givesResult (cmd.steps m hm) gives
      exact (run_result gives reading only todo bound h).imp_right fun ⟨ended, err, done, second⟩ =>
        ⟨ended, err, done, opcode.1, fun changed => opcode.2 (second changed)⟩
    · exact .inl (run_noResult (fun m hm => Bool.eq_false_iff.2 fun gives => some ⟨m, hm, gives⟩) h)
  · cases h; exact .inl ⟨rfl, rfl⟩

/-- Settles O56: a result is written by the last step before completion or not at all (`settle_results`). -/
theorem resultIsWrittenOnlyOnSuccess : Obligations.ResultIsWrittenOnlyOnSuccess := by
  unfold Obligations.ResultIsWrittenOnlyOnSuccess
  intro written
  have unchanged : ∀ {opcode : Byte} {s t : State}, s.sameResults t → written opcode s t := fun same =>
    ⟨fun changed => absurd same.1 changed, fun changed => absurd same.2 changed⟩
  have settled : ∀ {s t : State}, s.err = false → s.commandInv → settle s = .next t → written s.latched.opcode s t :=
    fun err cmd h => (settle_results cmd h).elim unchanged fun ⟨ended, same, done, first, second⟩ =>
      ⟨fun _ => ⟨ended, same.trans err, done, first⟩, fun changed => ⟨ended, same.trans err, done, second changed⟩⟩
  refine ⟨fun i s t busy h => ?_, fun s t inv busy reset h => ?_⟩
  · obtain rfl | rfl | ⟨steps, ready, starts, run⟩ := exec_idle busy h
    · exact unchanged ⟨rfl, rfl⟩
    · exact unchanged ⟨rfl, rfl⟩
    · exact settled (s := accept i steps s) ready.2 starts.command run
  · obtain ⟨u, hears, -, cmd, opcode, run⟩ := step_command inv busy reset h
    have := settled (hears.err.trans (inv.running busy)) cmd run
    simpa only [written, opcode, hears.result, hears.result2] using this

/-! ## The end of a command -/

theorem microStep_names {m : Micro} {rest : List Micro} {s : State} (names : ∀ x ∈ s.seq.todo, x.namesError)
    (todo : s.seq.todo = m :: rest) (he : m.endsCommand = false) :
    (microStep m (s.next rest)).Meets (fun t => ∀ x ∈ t.seq.todo, x.namesError)
      (fun e t => ∀ x ∈ (raiseError e t).seq.todo, x.namesError) True := by
  have named : m.namesError := names m (by rw [todo]; exact List.mem_cons_self)
  refine ((microStep_todo m (s.next rest) he).and (microStep_errors m (s.next rest) he named)).mono ?_ ?_ id
  · rintro t ⟨left, -⟩ x hx
    rcases mem_todo left hx with inner | left | rfl | rfl
    · exact (queue_free_of_inner inner).2.2
    · exact names x (by rw [todo]; exact List.mem_cons_of_mem _ left)
    · trivial
    · exact ErrCode.noConfusion
  · rintro e t ⟨-, code⟩ x hx
    rcases raiseError_todo e t hx with hx | rfl
    · exact (cleanup_free hx).2.2
    · exact code

/-- How a command ends: completed, with DONE set and no error (R240), or failed, with ERROR set and ERR holding a code and the
opcode (R234). -/
def State.outcome (s t : State) (opcode : Byte) : Prop :=
  (t.err = false ∧ t.errReg = .clear ∧ t.intDone = true ∧ t.intError = s.intError) ∨
    (t.err = true ∧ t.errReg.code ≠ .none ∧ t.errReg.opcode = opcode ∧ t.intError = true ∧ t.intDone = s.intDone)

/-- Neither outcome is set yet, and no error. -/
def State.undecided (s t : State) : Prop :=
  t.err = false ∧ t.errReg = .clear ∧ t.intDone = s.intDone ∧ t.intError = s.intError

theorem State.Same.undecided {ps : List Part} {s u v : State} (same : u.Same ps v) (h : s.undecided u) : s.undecided v :=
  let ⟨err, clear, done, error⟩ := h
  ⟨same.err.trans err, same.errReg.trans clear, same.intDone.trans done, same.intError.trans error⟩

/-- A command that runs to its end has set exactly one of its outcomes. -/
theorem settle_ends {s t : State} (busy : s.busy = true) (cmd : s.commandInv) (names : ∀ m ∈ s.seq.todo, m.namesError)
    (err : s.err = false) (clear : s.errReg = .clear) (h : settle s = .next t) (ended : t.busy = false) :
    t.seq = .idle ∧ s.outcome t s.latched.opcode := by
  refine (settle_command (Q := fun u => (∀ m ∈ u.seq.todo, m.namesError) ∧ s.undecided u) (R := fun t => s.outcome t s.latched.opcode)
    busy rfl cmd.steps ⟨names, err, clear, rfl, rfl⟩ ?_ ?_ ?_ h).elim (fun still => ?_) (·.2)
  · exact fun u m rest v hu _ todo he step => ⟨(microStep_names hu.1 todo he).of_go step,
      ((microStep_frame m (u.next rest) he).of_go step).undecided hu.2⟩
  · exact fun u m rest e v hu _ todo he step => ⟨(microStep_names hu.1 todo he).of_raise step,
      ((microStep_frame m (u.next rest) he).of_raise step).undecided hu.2⟩
  · rintro u m rest v ⟨names, err, clear, done, error⟩ belongs todo he step
    obtain ⟨-, rfl⟩ | ⟨e, opcode, phase, rfl, rfl⟩ := microStep_ends he step
    · exact .inl ⟨err, clear, rfl, error⟩
    · exact .inr ⟨rfl, names (.fail e opcode phase) (by rw [todo]; exact List.mem_cons_self), beq_iff_eq.1 belongs, rfl, done⟩
  · rw [still.1] at ended; cases ended

/-- Settles O59: a command that is over has ended by completing or by failing (`settle_ends`). -/
theorem everyEndSetsItsInterrupt : Obligations.EveryEndSetsItsInterrupt := by
  refine ⟨fun i s t ready clear wf h ended => ?_, fun s t inv busy reset h ended => ?_⟩
  · obtain ⟨steps, starts, ⟨not, -⟩ | ⟨-, -, run⟩ | ⟨-, bad, -⟩⟩ := exec_settles i s
    · exact absurd ready not
    · exact settle_ends (s := accept i steps s) rfl starts.command starts.names ready.2 clear (run.symm.trans h) ended
    · rw [wf] at bad; cases bad
  · obtain ⟨u, hears, running, cmd, opcode, run⟩ := step_command inv busy reset h
    have err := inv.running busy
    obtain ⟨idle, outcome⟩ := settle_ends running cmd (by rw [hears.seq]; exact inv.pending) (hears.err.trans err)
      (hears.errReg.trans (inv.errors.1 err)) run ended
    refine ⟨idle, outcome.imp ?_ ?_⟩
    · rintro ⟨err, clear, done, error⟩
      exact ⟨err, clear, done, fun set => hears.intError (error.symm.trans set)⟩
    · rintro ⟨err, code, named, error, done⟩
      exact ⟨err, code, named.trans opcode, error, fun set => hears.intDone (done.symm.trans set)⟩

end Sys2Proof.Machine
end

section
/-! PROOFS. The state family: COMPRESS to its end (R195). -/

namespace Sys2Proof.Machine

open Sys2Proof.Artifact

/-- Settles O39: the chain of steps from acceptance to the close (`goes_compress`), the tables it leaves (`freq_counted`,
`table_recorded`), and INBUF as the bytes stored one after the other (`Memory.read_store`). -/
theorem compressAppendsTheArtifact : Obligations.CompressAppendsTheArtifact := by
  intro s xs ready legal source sink alphabet fits
  let w : Wire := ⟨xs.map .byte, true, 0, false, []⟩
  obtain ⟨nodes, root, size, chain⟩ := goes_compress (s := s) (w := w) (sunk := s.ports.sunk) alphabet legal fits ⟨rfl, rfl⟩ le_rfl
  have offers : (w.gave (artifact xs).length s.ports.sunk).of s.ports := ⟨source, fun _ => sink, nofun, rfl⟩
  have bound : 2000 * xs.length + 10000 + 5 ≤ seqTurns := by
    have := legal.2.2.2
    unfold seqTurns
    omega
  obtain ⟨p, taken, run⟩ := command_of_goes ready rfl offers chain (.inr ⟨rfl, rfl⟩) bound
  refine ⟨_, run, ?_, rfl, rfl, rfl, rfl, ?_, rfl, fun sym hs => ?_, rfl, fun a => ?_, ?_⟩
  · exact (Ports.sunk_closed p).trans taken.sunk
  · exact congrArg (BitVec.ofNat 32) size
  · have recorded := table_recorded alphabet hs
    refine ⟨?_, code_length alphabet sym, recorded.1, recorded.2⟩
    show (recordAll _ _ _).freqAt sym = _
    rw [Tables.freqAt, recordAll_freq]
    exact freq_counted alphabet hs
  · show (s.inbuf.store 0 xs).read a = _
    rw [Memory.read_store]
    simp
  · exact ⟨rfl, rfl, ready.2, rfl, rfl, rfl, rfl, rfl, rfl, ⟨rfl, rfl, rfl, rfl, rfl, rfl, rfl, rfl, rfl, rfl, rfl, rfl, rfl⟩⟩

end Sys2Proof.Machine
end

section
/-! PROOFS. The memory family: accesses that change nothing (R61, R63), and the closing of the streams (R68, R132, R136, R194, R210,
R235). -/

namespace Sys2Proof.Machine

/-! ## Accesses that change nothing -/

/-- All that a host read changes: the bus answer, and the model's own counter of unspecified values (log 6). -/
theorem hostRead_eq (off : Nat) (s : State) : ∃ v draws, hostRead off s = { s with reply := .data v, draws := draws } := by
  unfold hostRead
  split
  · split
    · exact ⟨_, _, rfl⟩
    · exact ⟨_, s.draws, rfl⟩
  · exact ⟨_, s.draws, rfl⟩

/-- Settles O10: whichever word is read, `hostRead` changes the answer and the counter alone. -/
theorem readsChangeNoState : Obligations.ReadsChangeNoState := by
  intro s off rest reads
  obtain ⟨v, draws, read⟩ := hostRead_eq off { s with events := rest }
  exact ⟨v, draws, (step_reads reads).trans (congrArg settle read)⟩

theorem isWordAccess_eq_false {off bytes : Nat} (bad : bytes ≠ 4 ∨ off % 4 ≠ 0) : isWordAccess off bytes = false := by
  unfold isWordAccess
  rcases bad with width | place
  · simp [width]
  · simp [place]

/-- An access to the window that is not one aligned word (R61). -/
theorem hostAccess_bad {a : Access} {s : State} (sel : selected s.params a.addr = true)
    (bad : isWordAccess (a.addr - s.params.hcBase) a.bytes = false) :
    hostAccess a s = settle { s with reply := .busError } := by
  unfold hostAccess
  rw [if_pos sel, if_neg (by rw [bad]; decide)]

/-- Settles O15: the access is selected and is no word access. -/
theorem badAccessAnswersBusError : Obligations.BadAccessAnswersBusError := by
  intro s a rest input low high bad
  have sel : selected s.params a.addr = true := by simp [selected, Config.windowBytes, low, high]
  unfold step
  rw [input]
  exact hostAccess_bad (s := { s with events := rest }) sel (isWordAccess_eq_false bad)

/-! ## Host commands followed to their end -/

/-- An accepted command that is followed up to its last step completes (R240); BUSY is again as it was. -/
theorem command_completes {n : Nat} {i : Instr} {steps : List Micro} {s t : State} (ready : s.ready) (wf : i.wellFormed = true)
    (chain : Reaches n (accept i steps s) t) (todo : t.seq.todo = [.done]) (bound : n + 1 ≤ seqTurns) :
    command i steps s = .next { t with busy := s.busy, intDone := true, seq := .idle } := by
  rw [command_ready ready wf, ready.1]
  exact settle_of_reaches rfl (chain.trans (.one todo rfl)) bound rfl

/-- An accepted host command that is followed up to step 4 of R234 fails; BUSY is again as it was. -/
theorem command_fails {n : Nat} {i : Instr} {steps : List Micro} {s t : State} {e : ErrCode} {opcode : Byte} {phase : Phase}
    (ready : s.ready) (wf : i.wellFormed = true) (chain : Reaches n (accept i steps s) t)
    (todo : t.seq.todo = [.fail e opcode phase]) (bound : n + 1 ≤ seqTurns) :
    command i steps s = .next
      { t with busy := s.busy, errReg := ⟨e, opcode, phase⟩, err := true, intError := true, seq := .idle } := by
  rw [command_ready ready wf, ready.1]
  exact settle_of_reaches rfl (chain.trans (.one todo rfl)) bound rfl

/-- Settles O31: the reader is dropped, the source closed, and the command completes. -/
theorem rcloseEmptiesTheReader : Obligations.RcloseEmptiesTheReader := fun _ ready =>
  command_completes ready rfl
    (.go (m := .dropReader) (rest := [.srcClose, .done]) rfl rfl (.one (m := .srcClose) (rest := [.done]) rfl rfl)) rfl (by decide)

/-! ## The flush of WCLOSE -/

/-- With no pending bit a flush does nothing (R123). -/
theorem flush_none {s : State} (onFail : SinkFail) (none : s.wr.cnt = 0#4) : flush onFail s = s := by
  unfold flush
  rw [if_neg (by rw [none]; decide)]

/-- With 1 to 7 pending bits a flush leaves the padded byte to be appended (R123). -/
theorem flush_some {s : State} (onFail : SinkFail) (low : 1 ≤ s.wr.cnt.toNat) (high : s.wr.cnt.toNat ≤ 7) :
    flush onFail s = State.before { s with wr := .empty } [.append (s.wr.buf <<< (8 - s.wr.cnt.toNat)) onFail] :=
  if_pos ⟨low, high⟩

/-- WCLOSE's append where the sink refuses: the close event comes before the error (R132). -/
theorem appendByte_afterClose {b : Byte} {s : State} (refuses : s.ports.snk.refuses) :
    ∃ snk : Sink, appendByte b .afterClose s = .go { s with
      ports := ⟨s.ports.src, snk, .snkIoErr b :: s.ports.trace⟩, seq := { s.seq with todo := [.snkClose, .raise .ioSnk] } } := by
  obtain ⟨snk, write⟩ := snkWrite_refuses (b := b) refuses
  exact ⟨snk, by unfold appendByte; rw [write]; rfl⟩

/-- A host command that raises has nothing left to do but step 4 of R234. -/
theorem raiseError_host {e : ErrCode} {s : State} (host : isCodec s.latched.opcode = false) :
    (raiseError e s).seq.todo = [.fail e s.latched.opcode s.seq.phase] := if_neg (by rw [host]; decide)

/-- The first step of WCLOSE is its flush. -/
theorem reaches_wcloseFlush {s t : State} {rest : List Micro} (flushed : flush .afterClose ((accept .wclose [] s).next rest) = t) :
    Reaches 1 (accept .wclose (.flush .afterClose :: rest) s) t :=
  .one (m := .flush .afterClose) (rest := rest) rfl (congrArg Move.go flushed)

/-- Settles O26: WCLOSE followed through each of the three ways its flush can go. -/
theorem wcloseFlushesThenCloses : Obligations.WcloseFlushesThenCloses := by
  intro s ready byte
  refine ⟨fun none => ?_, fun low high accepts => ?_, fun low high refuses => ?_⟩
  · exact command_completes ready rfl ((reaches_wcloseFlush (flush_none _ none)).trans <|
      .one (m := .snkClose) (rest := [.done]) rfl rfl) rfl (by decide)
  · exact command_completes ready rfl ((reaches_wcloseFlush (flush_some _ low high)).trans <|
      .go (m := .append byte .afterClose) (rest := [.snkClose, .done]) rfl (appendByte_accepts (n := 0) accepts) <|
      .one (m := .snkClose) (rest := [.done]) rfl rfl) rfl (by decide)
  · let emptied : State := State.next { accept .wclose [] s with wr := .empty } [.snkClose, .done]
    obtain ⟨snk, appended⟩ := appendByte_afterClose (b := byte) (s := emptied) refuses
    refine ⟨⟨s.ports.src, snk, .snkClose :: .snkIoErr byte :: s.ports.trace⟩, rfl, rfl, ?_⟩
    exact command_fails ready rfl ((reaches_wcloseFlush (flush_some _ low high)).trans <|
      .go (m := .append byte .afterClose) (rest := [.snkClose, .done]) rfl appended <|
      .go (m := .snkClose) (rest := [.raise .ioSnk]) rfl rfl <| .oneRaise (m := .raise .ioSnk) (rest := []) rfl rfl)
      (raiseError_host (show isCodec 0x05#8 = false from rfl)) (by decide)

/-! ## The close of a codec command -/

/-- Both streams are closed, the source first, the arena is released, and both cursors are empty. -/
def State.wound (t : State) : Prop :=
  t.ports.trace.take 2 = [.snkClose, .srcClose] ∧ t.nodes = [] ∧ t.wr = .empty ∧ t.rd = .empty

theorem take_of_closing {trace : List PortEvent} (h : closing trace = 2) : trace.take 2 = [.snkClose, .srcClose] := by
  unfold closing at h
  split at h
  · rfl
  · cases h
  · cases h

/-- What is on its way to its close has closed when its last step comes. -/
theorem State.winding.wound {s : State} {m : Micro} {rest : List Micro} (h : s.winding) (todo : s.seq.todo = m :: rest)
    (ends : m.endsCommand = true) : s.wound := by
  obtain ⟨closes, writer, reader, arena⟩ := h
  rw [todo, endsClosing, if_pos ends] at closes
  rw [todo, endsEmpty, if_pos ends] at writer reader arena
  exact ⟨take_of_closing closes, List.isEmpty_iff.1 arena, beq_iff_eq.1 writer, beq_iff_eq.1 reader⟩

/-- The command of this opcode runs and is on its way to its close, R58 (b) holding of the writer cursor. -/
def State.windsUp (op : Byte) (u : State) : Prop := u.latched.opcode = op ∧ u.wr.writes ∧ u.winding

/-- Every step but the last keeps a codec command on its way, and so does a raise (R234, R235). -/
theorem microStep_windsUp {op : Byte} {u : State} {m : Micro} {rest : List Micro} (codec : isCodec op = true) (h : u.windsUp op)
    (belongs : m.belongsTo op = true) (todo : u.seq.todo = m :: rest) (he : m.endsCommand = false) :
    (microStep m (u.next rest)).Meets (State.windsUp op) (fun e v => (raiseError e v).windsUp op) True := by
  obtain ⟨rfl, wr, winding⟩ := h
  exact (((microStep_opcode m (u.next rest) he).and (microStep_writer m (u.next rest) he wr)).and
    (microStep_winding wr codec belongs winding todo he)).mono
    (fun _ hv => ⟨hv.1.1, hv.1.2, hv.2⟩) (fun _ _ hv => ⟨hv.1.1, hv.1.2, hv.2⟩) id

/-- A codec command that runs to its end closes both streams, whether it completes or fails. -/
theorem settle_wound {s t : State} (busy : s.busy = true) (wr : s.wr.writes) (cmd : s.commandInv)
    (codec : isCodec s.latched.opcode = true) (h : settle s = .next t) (ended : t.busy = false) : t.wound := by
  refine (settle_command (Q := State.windsUp s.latched.opcode) (R := State.wound) busy rfl cmd.steps ⟨rfl, wr, cmd.codec codec⟩
    (fun u m rest v hu belongs todo he step => (microStep_windsUp codec hu belongs todo he).of_go step)
    (fun u m rest e v hu belongs todo he step => (microStep_windsUp codec hu belongs todo he).of_raise step)
    ?_ h).elim (fun still => ?_) (·.2.2)
  · rintro u m rest v ⟨-, -, winding⟩ - todo he step
    have wound : (u.next rest).wound := winding.wound todo he
    obtain ⟨-, rfl⟩ | ⟨_, _, _, -, rfl⟩ := microStep_ends he step <;> exact wound
  · rw [still.1] at ended; cases ended

/-! ### From any ready state -/

/-- A command comes to the same from two ready states that its first step leads to the same state. -/
theorem command_eq_of_step {i : Instr} {m : Micro} {rest : List Micro} {s s' u : State} (ready : s.ready) (ready' : s'.ready)
    (wf : i.wellFormed = true) (step : microStep m ((accept i (m :: rest) s).next rest) = .go u)
    (step' : microStep m ((accept i (m :: rest) s').next rest) = .go u) : command i (m :: rest) s = command i (m :: rest) s' := by
  obtain ⟨k, turns⟩ := Nat.exists_eq_add_of_le (show 1 ≤ seqTurns by decide)
  have first : ∀ {v : State}, microStep m ((accept i (m :: rest) v).next rest) = .go u →
      settle (accept i (m :: rest) v) = run k u := fun step => by
    rw [settle, if_pos (accept_busy ..), turns, run_of_reaches (.one rfl step)]
  rw [command_ready ready wf, command_ready ready' wf, first step, first step']

/-- CInit and DInit empty the writer cursor (R182, R201), so what it held at acceptance makes no difference. -/
theorem exec_codec_writer {i : Instr} {s : State} (ready : s.ready) (codec : i = .compress ∨ i = .decompress) (wr : Cursor) :
    exec i s = exec i { s with wr := wr } := by
  have ready' : State.ready { s with wr := wr } := ready
  rcases codec with rfl | rfl
  · exact command_eq_of_step (m := .cInit) (rest := compressSteps.drop 1) ready ready' rfl rfl rfl
  · exact command_eq_of_step (m := .dInit) (rest := decompressSteps.drop 1) ready ready' rfl rfl rfl

/-- Settles O58: what is left of a codec command is on its way to its close from acceptance on (`State.winding`), and has come there
when the command is over (`settle_wound`). -/
theorem codecClosesBothStreams : Obligations.CodecClosesBothStreams := by
  refine ⟨fun i s t ready codec h ended => ?_, fun s t inv busy reset codec h ended => ?_⟩
  · rw [exec_codec_writer ready codec .empty] at h
    have family : isCodec i.opcode = true ∧ i.wellFormed = true := by rcases codec with rfl | rfl <;> decide
    obtain ⟨steps, starts, ⟨not, -⟩ | ⟨-, -, run⟩ | ⟨-, bad, -⟩⟩ := exec_settles i { s with wr := .empty }
    · exact absurd ready not
    · exact settle_wound (s := accept i steps { s with wr := .empty }) rfl Cursor.empty_writes starts.command family.1
        (run.symm.trans h) ended
    · rw [family.2] at bad; cases bad
  · obtain ⟨u, hears, running, cmd, opcode, run⟩ := step_command inv busy reset h
    have family : isCodec u.latched.opcode = true := by rw [opcode]; rcases codec with codec | codec <;> rw [codec] <;> rfl
    exact settle_wound running (by rw [hears.wr]; exact inv.writer) cmd family run ended

end Sys2Proof.Machine
end

section
/-! PROOFS. The encoding family: the decoder and the encoder are inverse to each other, and the words the decoder refuses (R90 to
R98). -/

namespace Sys2Proof.Machine

/-! ## The fields of a word and the opcode table -/

theorem fields_of_encode (i : Instr) : Laws.EncodedFields.Statement i := Laws.EncodedFields.fields_of_layout ..

/-- The three fields are the whole word (R90). -/
theorem word_of_fields (w : Word) : rsvdField w ++ imm8Field w ++ opcodeField w = w := by
  apply BitVec.eq_of_getLsbD_eq
  intro k hk
  simp only [rsvdField, imm8Field, opcodeField, BitVec.getLsbD_append, BitVec.getLsbD_extractLsb']
  split
  case isTrue low => simp [low]
  case isFalse high =>
    split
    case isTrue mid => simp [mid, show 8 + (k - 8) = k by omega]
    case isFalse top => simp [show k - 8 - 8 < 16 by omega, show 16 + (k - 8 - 8) = k by omega]

theorem opcodeField_toNat (w : Word) : (opcodeField w).toNat = w.toNat % 256 := by simp [opcodeField]

theorem imm8Field_toNat (w : Word) : (imm8Field w).toNat = w.toNat / 256 % 256 := by
  simp [imm8Field, Nat.shiftRight_eq_div_pow]

theorem rsvdField_eq_zero_iff (w : Word) : rsvdField w = 0#16 ↔ w.toNat / 65536 = 0 := by
  rw [← BitVec.toNat_inj, rsvdField, BitVec.extractLsb'_toNat, Nat.shiftRight_eq_div_pow, BitVec.toNat_ofNat]
  have := w.isLt
  omega

/-- The row of a command's OPCODE is the command. -/
theorem ofOpcode_opcode (i : Instr) : ofOpcode i.opcode i.imm8 = some i := by cases i <;> rfl

/-- The row of an OPCODE is a command of that OPCODE. -/
theorem opcode_of_ofOpcode {opcode imm8 : Byte} {i : Instr} (row : ofOpcode opcode imm8 = some i) : i.opcode = opcode := by
  apply BitVec.eq_of_toNat_eq
  unfold ofOpcode at row
  split at row <;> cases row <;> exact Eq.symm ‹_›

/-- Test (a) of R96: the OPCODEs without a row. -/
theorem ofOpcode_eq_none_iff (opcode imm8 : Byte) : ofOpcode opcode imm8 = none ↔
    opcode.toNat ∉ [0x01, 0x02, 0x03, 0x04, 0x05, 0x11, 0x12, 0x13, 0x14, 0x21, 0x22, 0x23, 0x24, 0x25, 0x31, 0x32] := by
  unfold ofOpcode
  split <;> simp_all

theorem wellFormed_wbit_iff (imm8 : Byte) : (Instr.wbit imm8).wellFormed = true ↔ imm8.toNat < 2 := by
  rw [Instr.wellFormed, beq_iff_eq, ← BitVec.toNat_inj, BitVec.extractLsb'_toNat, Nat.shiftRight_eq_div_pow, BitVec.toNat_ofNat]
  have := imm8.isLt
  omega

/-- Test (c) of R96, on the row that test (a) finds: IMM8 breaks R92. -/
theorem badImmediate_iff {opcode imm8 : Byte} {i : Instr} (row : ofOpcode opcode imm8 = some i) :
    ¬ (i.imm8 = imm8 ∧ i.wellFormed = true) ↔
      (opcode.toNat = 0x01 ∧ 2 ≤ imm8.toNat) ∨ (opcode.toNat ≠ 0x01 ∧ opcode.toNat ≠ 0x02 ∧ imm8.toNat ≠ 0) := by
  obtain rfl := opcode_of_ofOpcode row
  cases i
  case wbit operand =>
    cases row
    simp [wellFormed_wbit_iff, Instr.imm8, Instr.opcode, Nat.lt_iff_add_one_le]
  case wbyte operand =>
    cases row
    simp [Instr.wellFormed, Instr.imm8, Instr.opcode]
  all_goals simp [Instr.wellFormed, Instr.imm8, Instr.opcode, ← BitVec.toNat_inj, eq_comm]

/-! ## The decoder -/

/-- The decoder answers the row of the word's OPCODE, when the word passes tests (b) and (c). -/
theorem decode_eq_ok_iff {w : Word} {i : Instr} : decode w = .ok i ↔
    ofOpcode (opcodeField w) (imm8Field w) = some i ∧ rsvdField w = 0#16 ∧ i.imm8 = imm8Field w ∧ i.wellFormed = true := by
  unfold decode
  split
  case h_1 row => simp [row]
  case h_2 j row =>
    rw [row, Option.some_inj]
    split_ifs with rsvd imm
    · simp only [Except.ok.injEq, rsvd, true_and]
      exact ⟨fun same => ⟨same, same ▸ imm⟩, And.left⟩
    · simp only [rsvd, true_and, false_iff]
      exact fun ⟨same, fits⟩ => imm (same ▸ fits)
    · simp [rsvd]

/-- The decoder is total: it refuses exactly the words it gives no command for. -/
theorem decode_refuses_iff (w : Word) : (∃ e, decode w = .error e) ↔ ¬ ∃ i, decode w = .ok i := by
  cases decode w <;> simp

/-! ## The round trips -/

/-- Settles O2: the decoder finds the fields the encoder wrote (`fields_of_encode`), and their row is the command. -/
theorem decodeInvertsEncode : Obligations.DecodeInvertsEncode := by
  intro i wf
  obtain ⟨opcode, imm8, rsvd⟩ := fields_of_encode i
  rw [decode_eq_ok_iff, opcode, imm8]
  exact ⟨ofOpcode_opcode i, rsvd, rfl, wf⟩

/-- Settles O3: the fields of a word that decodes are its command's, and they are the whole word (`word_of_fields`). -/
theorem encodeInvertsDecode : Obligations.EncodeInvertsDecode := by
  intro w i h
  obtain ⟨row, rsvd, imm8, wf⟩ := decode_eq_ok_iff.1 h
  refine ⟨wf, ?_⟩
  rw [encode, ← rsvd, imm8, opcode_of_ofOpcode row, word_of_fields]

/-! ## The legal words -/

/-- Settles O4: each test reads its own bits of the word. Without a row, test (a) fails; with one, test (b) or (c) is left to fail
(`decode_eq_ok_iff`), and test (c) is R92 (`badImmediate_iff`). -/
theorem illegalWordsFailATest : Obligations.IllegalWordsFailATest := by
  intro w
  rw [decode_refuses_iff, ← opcodeField_toNat, ← imm8Field_toNat, ← ofOpcode_eq_none_iff _ (imm8Field w), ne_eq,
    ← rsvdField_eq_zero_iff]
  simp only [decode_eq_ok_iff]
  cases row : ofOpcode (opcodeField w) (imm8Field w)
  case none => simp
  case some i =>
    rw [← badImmediate_iff row]
    simp only [Option.some_inj, exists_eq_left', not_and_or, reduceCtorEq, false_or]

/-- Settles O1: on seventeen given words the decoder runs. -/
theorem tableWordsDecode : Obligations.TableWordsDecode := by
  unfold Obligations.TableWordsDecode
  decide

end Sys2Proof.Machine
end

section
/-! PROOFS. The bit stream family: bytes that cross the byte boundaries of a stream (R121, R122, R125, R126). -/

namespace Sys2Proof.Machine

open Sys2Proof.Artifact

/-! ## A byte across a boundary -/

/-- The value that the last `w` bits of a byte and the first bits of what comes next make. -/
def carry {n : Nat} (w : Nat) (a : Byte) (next : BitVec n) : BitVec n := (a.setWidth n <<< (n - w)) ||| (next >>> w)

theorem carry_byte (w : Nat) (a b : Byte) : carry w a b = (a <<< (8 - w)) ||| (b >>> w) := by rw [carry, BitVec.setWidth_eq]

/-- The last `w` bits of a byte. -/
def lowBits (w : Nat) (b : Byte) : Byte := BitVec.ofNat 8 (b.toNat % 2 ^ w)

theorem carry_getLsbD {n w i : Nat} (a : Byte) (next : BitVec n) (hi : i < n) :
    (carry w a next).getLsbD i = if i < n - w then next.getLsbD (w + i) else a.getLsbD (i - (n - w)) := by
  unfold carry
  rw [BitVec.getLsbD_or, BitVec.getLsbD_shiftLeft, BitVec.getLsbD_ushiftRight, BitVec.getLsbD_setWidth]
  by_cases low : i < n - w
  · simp [low]
  · simp [low, hi, show i - (n - w) < n by omega, BitVec.getLsbD_of_ge next (w + i) (by omega)]

theorem lowBits_getLsbD {w i : Nat} (b : Byte) (hi : i < 8) : (lowBits w b).getLsbD i = (decide (i < w) && b.getLsbD i) := by
  rw [lowBits, BitVec.getLsbD_ofNat, Nat.testBit_mod_two_pow, BitVec.testBit_toNat, decide_eq_true hi, Bool.true_and]

/-- Only the last `w` bits are carried. -/
theorem carry_lowBits {w : Nat} (hw : w ≤ 8) (a b : Byte) : carry w (lowBits w a) b = carry w a b := by
  apply BitVec.eq_of_getLsbD_eq
  intro i hi
  rw [carry_getLsbD _ _ hi, carry_getLsbD _ _ hi]
  split
  · rfl
  · rw [lowBits_getLsbD a (by omega), decide_eq_true (by omega), Bool.true_and]

/-- Shifting in the first bits of a byte completes the byte before it (R121). -/
theorem foldl_shiftIn_first {w : Nat} (hw : w ≤ 8) (a b : Byte) : ((msbFirst b).take (8 - w)).foldl shiftIn a = carry w a b := by
  apply BitVec.eq_of_getLsbD_eq
  intro i hi
  have len : ((msbFirst b).take (8 - w)).length = 8 - w := by rw [List.length_take, msbFirst_length]; omega
  rw [foldl_shiftIn_getLsbD _ _ hi, carry_getLsbD _ _ hi, len]
  split
  · rw [List.getElem?_take_of_lt (by omega), msbFirst_get b (by omega), Option.getD_some]
    congr 1
    omega
  · rfl

/-- Shifting in the last bits of a byte leaves them (R121). -/
theorem foldl_shiftIn_last {w : Nat} (hw : w ≤ 8) (b : Byte) : ((msbFirst b).drop (8 - w)).foldl shiftIn 0#8 = lowBits w b := by
  apply BitVec.eq_of_getLsbD_eq
  intro i hi
  have len : ((msbFirst b).drop (8 - w)).length = w := by rw [List.length_drop, msbFirst_length]; omega
  rw [foldl_shiftIn_getLsbD _ _ hi, lowBits_getLsbD _ hi, len]
  split
  · next low =>
    rw [List.getElem?_drop, msbFirst_get b (by omega), Option.getD_some, decide_eq_true low, Bool.true_and]
    congr 1
    omega
  · next high => simp [high]

/-- The bits across a boundary: the last ones of the byte, then the first ones of what comes next. -/
theorem msbFirst_carry {n w : Nat} (hw : w ≤ 8) (hn : 8 ≤ n) (a : Byte) (next : BitVec n) :
    msbFirst (carry w a next) = (msbFirst a).drop (8 - w) ++ (msbFirst next).take (n - w) := by
  have len : ((msbFirst a).drop (8 - w)).length = w := by rw [List.length_drop, msbFirst_length]; omega
  apply List.ext_getElem?
  intro i
  by_cases hi : i < n
  · rw [msbFirst_get _ hi, carry_getLsbD _ _ (by omega)]
    by_cases low : i < w
    · rw [List.getElem?_append_left (by omega), List.getElem?_drop, msbFirst_get _ (by omega), if_neg (by omega)]
      congr 2
      omega
    · rw [List.getElem?_append_right (by omega), len, List.getElem?_take_of_lt (by omega), msbFirst_get _ (by omega),
        if_pos (by omega)]
      congr 2
      omega
  · rw [List.getElem?_eq_none (by rw [msbFirst_length]; omega),
      List.getElem?_eq_none (by rw [List.length_append, len, List.length_take, msbFirst_length]; omega)]

theorem msbFirst_append {n k : Nat} (hi : BitVec n) (lo : BitVec k) : msbFirst (hi ++ lo) = msbFirst hi ++ msbFirst lo := by
  apply List.ext_getElem?
  intro i
  by_cases all : i < n + k
  · rw [msbFirst_get _ all, BitVec.getLsbD_append]
    by_cases high : i < n
    · rw [List.getElem?_append_left (by rw [msbFirst_length]; exact high), msbFirst_get _ high, if_neg (by omega),
        show n + k - 1 - i - k = n - 1 - i by omega]
    · rw [List.getElem?_append_right (by rw [msbFirst_length]; omega), msbFirst_length, msbFirst_get _ (by omega),
        if_pos (by omega), show n + k - 1 - i = k - 1 - (i - n) by omega]
  · rw [List.getElem?_eq_none (by rw [msbFirst_length]; omega),
      List.getElem?_eq_none (by rw [List.length_append, msbFirst_length, msbFirst_length]; omega)]

theorem msbFirst_inj {n : Nat} {a b : BitVec n} (h : msbFirst a = msbFirst b) : a = b := by
  have value : ∀ v : BitVec n, (msbFirst v).foldl shiftIn (0#n) = v := fun v => by
    rw [foldl_shiftIn_msbFirst, BitVec.setWidth_eq]
  rw [← value a, h, value b]

/-- Four bytes across their boundaries are a word across a boundary. -/
theorem carry_word {w : Nat} (hw : w ≤ 8) (a b₀ b₁ b₂ b₃ : Byte) :
    carry w a (b₀ ++ b₁ ++ b₂ ++ b₃) = carry w a b₀ ++ carry w b₀ b₁ ++ carry w b₁ b₂ ++ carry w b₂ b₃ := by
  have count : 8 + 8 + 8 + 8 - w =
      (msbFirst b₀).length + ((msbFirst b₁).length + ((msbFirst b₂).length + (8 - w))) := by
    simp only [msbFirst_length]
    omega
  have halves : ∀ b : Byte, msbFirst b = (msbFirst b).take (8 - w) ++ (msbFirst b).drop (8 - w) := fun b =>
    (List.take_append_drop ..).symm
  apply msbFirst_inj
  rw [msbFirst_carry hw (by decide), count]
  simp only [msbFirst_append, msbFirst_carry hw le_rfl, List.append_assoc, List.take_length_add_append]
  conv_lhs => rw [halves b₀, halves b₁, halves b₂]
  simp only [List.append_assoc]

end Sys2Proof.Machine
end

section
/-! PROOFS. The bit stream family: the bit writer's commands (R120 to R123, R128 to R131). -/

namespace Sys2Proof.Machine

open Sys2Proof.Artifact

/-! ## Bits into the cursor -/

/-- Bits that do not fill the byte (R120). -/
theorem reaches_fill (bits : List Bool) : ∀ {s : State} {rest : List Micro}, s.seq.todo = bits.map Micro.writeBit ++ rest →
    s.wr.cnt.toNat + bits.length ≤ 7 → Reaches bits.length s
      { s.next rest with wr := ⟨bits.foldl shiftIn s.wr.buf, s.wr.cnt + BitVec.ofNat 4 bits.length⟩ } := by
  induction bits with
  | nil =>
    intro s rest todo _
    have same : { s.next rest with wr := ⟨s.wr.buf, s.wr.cnt + 0#4⟩ } = s := by
      rw [BitVec.add_zero, ← show s.seq.todo = rest from todo]
      rfl
    exact same.symm ▸ .refl s
  | cons b bits ih =>
    intro s rest todo room
    rw [List.length_cons] at room
    have pending : s.wr.cnt + 1#4 ≠ 8#4 := by bv_omega
    have count : s.wr.cnt + BitVec.ofNat 4 (bits.length + 1) = s.wr.cnt + 1#4 + BitVec.ofNat 4 bits.length := by bv_omega
    rw [List.length_cons, count]
    exact .go (m := .writeBit b) todo (congrArg Move.go (writeBit_pending pending)) (ih (rest := rest) rfl (by
      show (s.wr.cnt + 1#4).toNat + bits.length ≤ 7
      bv_omega))

/-- Bits that fill the byte leave it to be appended, and the cursor empty (R120). -/
theorem reaches_fillByte (bits : List Bool) : ∀ {s : State} {rest : List Micro}, s.seq.todo = bits.map Micro.writeBit ++ rest →
    s.wr.cnt.toNat ≤ 7 → s.wr.cnt.toNat + bits.length = 8 → Reaches bits.length s
      { s.next (.append (bits.foldl shiftIn s.wr.buf) .raise :: rest) with wr := .empty } := by
  induction bits with
  | nil => intro s rest _ high full; exact absurd full (by rw [List.length_nil]; omega)
  | cons b bits ih =>
    intro s rest todo high full
    rw [List.length_cons] at full
    cases bits with
    | nil =>
      have last : s.wr.cnt + 1#4 = 8#4 := by rw [List.length_nil] at full; bv_omega
      exact .one (m := .writeBit b) todo (congrArg Move.go (writeBit_full last))
    | cons c bits =>
      rw [List.length_cons] at full
      have pending : s.wr.cnt + 1#4 ≠ 8#4 := by bv_omega
      have count : (s.wr.cnt + 1#4).toNat = s.wr.cnt.toNat + 1 := by bv_omega
      refine .go (m := .writeBit b) todo (congrArg Move.go (writeBit_pending pending)) (ih (rest := rest) rfl ?_ ?_)
      · show (s.wr.cnt + 1#4).toNat ≤ 7
        omega
      · show (s.wr.cnt + 1#4).toNat + (bits.length + 1) = 8
        omega

/-! ## Bytes behind the pending bits -/

/-- A byte's bits up to the byte boundary leave the byte across it to be appended. -/
theorem reaches_boundary {s : State} {v : Byte} {rest : List Micro} (todo : s.seq.todo = (msbFirst v).map Micro.writeBit ++ rest)
    (high : s.wr.cnt.toNat ≤ 7) : Reaches (8 - s.wr.cnt.toNat) s
      { s.next (.append (carry s.wr.cnt.toNat s.wr.buf v) .raise ::
          (((msbFirst v).drop (8 - s.wr.cnt.toNat)).map Micro.writeBit ++ rest)) with wr := .empty } := by
  have len : ((msbFirst v).take (8 - s.wr.cnt.toNat)).length = 8 - s.wr.cnt.toNat := by
    rw [List.length_take, msbFirst_length]
    omega
  have split : s.seq.todo = ((msbFirst v).take (8 - s.wr.cnt.toNat)).map Micro.writeBit ++
      (((msbFirst v).drop (8 - s.wr.cnt.toNat)).map Micro.writeBit ++ rest) := by
    rw [todo, ← List.append_assoc, ← List.map_append, List.take_append_drop]
  have chain := reaches_fillByte _ split high (by rw [len]; omega)
  rwa [len, foldl_shiftIn_first (by omega)] at chain

/-- The state with these steps to run, this cursor and these ports, the sink having taken `k` bytes more. -/
def State.sent (s : State) (todo : List Micro) (wr : Cursor) (k : Nat) (ports : Ports) : State :=
  { s.next todo with wr := wr, snkCount := s.snkCount + BitVec.ofNat 32 k, ports := ports }

theorem State.sent_sent (s : State) (todo todo' : List Micro) (wr wr' : Cursor) (k k' : Nat) (ports ports' : Ports) :
    (s.sent todo wr k ports).sent todo' wr' k' ports' = s.sent todo' wr' (k + k') ports' := by
  simp only [State.sent, State.next, BitVec.ofNat_add, BitVec.add_assoc]

/-- No byte more. -/
theorem State.sent_zero (s : State) (todo : List Micro) (wr : Cursor) (ports : Ports) :
    s.sent todo wr 0 ports = { s.next todo with wr := wr, ports := ports } := by
  rw [State.sent, BitVec.add_zero]
  rfl

/-- The ports once the sink has refused a byte and is left as `snk`. -/
def Ports.refused (p : Ports) (b : Byte) (snk : Sink) : Ports := ⟨p.src, snk, .snkIoErr b :: p.trace⟩

/-- A byte that the sink accepts: one byte is appended, and as many bits as before stay pending (R121). -/
theorem reaches_writeByte {s : State} {v : Byte} {rest : List Micro} (todo : s.seq.todo = (msbFirst v).map Micro.writeBit ++ rest)
    (high : s.wr.cnt.toNat ≤ 7) (accepts : s.ports.snk.accepts 1) : Reaches 9 s
      (s.sent rest ⟨lowBits s.wr.cnt.toNat v, s.wr.cnt⟩ 1 (s.ports.taking [carry s.wr.cnt.toNat s.wr.buf v])) := by
  have len : ((msbFirst v).drop (8 - s.wr.cnt.toNat)).length = s.wr.cnt.toNat := by
    rw [List.length_drop, msbFirst_length]
    omega
  let appended : State := s.sent (((msbFirst v).drop (8 - s.wr.cnt.toNat)).map Micro.writeBit ++ rest) .empty 1
    (s.ports.taking [carry s.wr.cnt.toNat s.wr.buf v])
  have fill := reaches_fill _ (s := appended) (rest := rest) rfl (by rw [len]; exact (Nat.zero_add _).trans_le high)
  rw [len, show appended.wr.cnt + _ = s.wr.cnt from (BitVec.zero_add _).trans (by simp), show appended.wr.buf = 0#8 from rfl,
    foldl_shiftIn_last (by omega)] at fill
  have chain := (reaches_boundary todo high).trans
    (.go (m := .append (carry s.wr.cnt.toNat s.wr.buf v) .raise) rfl (appendByte_accepts (n := 0) accepts) fill)
  rwa [show 8 - s.wr.cnt.toNat + (s.wr.cnt.toNat + 1) = 9 by omega] at chain

/-- An append raises where the sink refuses it (R120). -/
theorem appendByte_raises {b : Byte} {s : State} (refuses : s.ports.snk.refuses) : ∃ snk : Sink,
    appendByte b .raise s = .raise .ioSnk { s with ports := s.ports.refused b snk } := by
  obtain ⟨snk, write⟩ := snkWrite_refuses (b := b) refuses
  exact ⟨snk, by unfold appendByte; rw [write]; rfl⟩

/-- A byte that the sink refuses raises E_IO_SNK, with the cursor empty and the bits after the byte boundary not written
(R120). -/
theorem reaches_refusedByte {s : State} {v : Byte} {rest : List Micro} (todo : s.seq.todo = (msbFirst v).map Micro.writeBit ++ rest)
    (high : s.wr.cnt.toNat ≤ 7) (refuses : s.ports.snk.refuses) : ∃ (left : List Micro) (snk : Sink),
      Reaches (8 - s.wr.cnt.toNat + 1) s
        (raiseError .ioSnk (s.sent left .empty 0 (s.ports.refused (carry s.wr.cnt.toNat s.wr.buf v) snk))) := by
  have chain := reaches_boundary todo high
  obtain ⟨snk, appended⟩ := appendByte_raises (b := carry s.wr.cnt.toNat s.wr.buf v)
    (s := { s.next (((msbFirst v).drop (8 - s.wr.cnt.toNat)).map Micro.writeBit ++ rest) with wr := .empty }) refuses
  refine ⟨((msbFirst v).drop (8 - s.wr.cnt.toNat)).map Micro.writeBit ++ rest, snk, ?_⟩
  rw [State.sent_zero]
  exact chain.trans (.oneRaise (m := .append _ .raise) rfl appended)

/-! ## Several bytes -/

/-- The bytes that come of these ones across the byte boundaries of the stream. -/
def carried (w : Nat) : Byte → List Byte → List Byte
  | _, [] => []
  | a, b :: bs => carry w a b :: carried w (lowBits w b) bs

theorem Ports.taking_cons (p : Ports) (b : Byte) (bs : List Byte) : p.taking (b :: bs) = (p.taking [b]).taking bs :=
  (p.taking_taking [b] bs).symm

theorem todo_unpack_cons {s : State} {b : Byte} {bs : List Byte} {rest : List Micro}
    (todo : s.seq.todo = (unpack (b :: bs)).map Micro.writeBit ++ rest) :
    s.seq.todo = (msbFirst b).map Micro.writeBit ++ ((unpack bs).map Micro.writeBit ++ rest) := by
  rw [todo, unpack, List.flatMap_cons, List.map_append, List.append_assoc]
  rfl

/-- Bytes that the sink accepts. -/
theorem reaches_writeBytes (bs : List Byte) : ∀ {s : State} {rest : List Micro},
    s.seq.todo = (unpack bs).map Micro.writeBit ++ rest → s.wr.cnt.toNat ≤ 7 → s.ports.snk.accepts bs.length →
    Reaches (9 * bs.length) s
      (s.sent rest ⟨(bs.map (lowBits s.wr.cnt.toNat)).getLastD s.wr.buf, s.wr.cnt⟩ bs.length
        (s.ports.taking (carried s.wr.cnt.toNat s.wr.buf bs))) := by
  induction bs with
  | nil =>
    intro s rest todo _ _
    have same : s.next rest = s := by
      rw [← show s.seq.todo = rest from todo]
      rfl
    rw [carried, Ports.taking_nil, List.length_nil, State.sent_zero, same]
    exact .refl s
  | cons b bs ih =>
    intro s rest todo high accepts
    rw [List.length_cons] at accepts ⊢
    have one := reaches_writeByte (todo_unpack_cons todo) high (Sink.accepts_mono accepts (by omega))
    have more := ih (s := s.sent _ ⟨lowBits s.wr.cnt.toNat b, s.wr.cnt⟩ 1
      (s.ports.taking [carry s.wr.cnt.toNat s.wr.buf b])) (rest := rest) rfl high
      (accepts_taking [_] (by rwa [List.length_singleton, Nat.add_comm]))
    rw [State.sent_sent, Nat.add_comm 1] at more
    rw [Nat.mul_succ, Nat.add_comm, List.map_cons, List.getLastD_cons, carried, Ports.taking_cons]
    exact one.trans more

/-- Bytes of which the sink accepts `k` and refuses the next. -/
theorem reaches_refusedBytes (bs : List Byte) : ∀ {s : State} {rest : List Micro} {k : Nat} {byte : Byte},
    s.seq.todo = (unpack bs).map Micro.writeBit ++ rest → s.wr.cnt.toNat ≤ 7 →
    (carried s.wr.cnt.toNat s.wr.buf bs)[k]? = some byte → s.ports.snk.accepts k →
    (s.ports.taking ((carried s.wr.cnt.toNat s.wr.buf bs).take k)).snk.refuses →
    ∃ (n : Nat) (left : List Micro) (snk : Sink), n ≤ 9 * bs.length ∧ Reaches n s (raiseError .ioSnk
      (s.sent left .empty k ((s.ports.taking ((carried s.wr.cnt.toNat s.wr.buf bs).take k)).refused byte snk))) := by
  induction bs with
  | nil => intro s rest k byte _ _ found; simp [carried] at found
  | cons b bs ih =>
    intro s rest k byte todo high found accepts refuses
    cases k with
    | zero =>
      obtain rfl : carry s.wr.cnt.toNat s.wr.buf b = byte := by simpa [carried] using found
      rw [List.take_zero, Ports.taking_nil] at refuses ⊢
      obtain ⟨left, snk, chain⟩ := reaches_refusedByte (todo_unpack_cons todo) high refuses
      exact ⟨_, left, snk, by rw [List.length_cons]; omega, chain⟩
    | succ k =>
      have one := reaches_writeByte (todo_unpack_cons todo) high (Sink.accepts_mono accepts (by omega))
      rw [carried, List.getElem?_cons_succ] at found
      rw [carried, List.take_succ_cons, Ports.taking_cons] at refuses ⊢
      obtain ⟨n, left, snk, short, more⟩ := ih (s := s.sent _ ⟨lowBits s.wr.cnt.toNat b, s.wr.cnt⟩ 1
        (s.ports.taking [carry s.wr.cnt.toNat s.wr.buf b])) (rest := rest) rfl high found
        (accepts_taking [_] (by rwa [List.length_singleton, Nat.add_comm])) refuses
      rw [State.sent_sent, Nat.add_comm 1] at more
      exact ⟨9 + n, left, snk, by rw [List.length_cons]; omega, one.trans more⟩

/-! ## Commands that fail -/

/-- An accepted host command that is followed up to a step that raises fails (R234). -/
theorem command_raises {n : Nat} {i : Instr} {steps : List Micro} {s t : State} {e : ErrCode} (ready : s.ready)
    (wf : i.wellFormed = true) (host : isCodec i.opcode = false) (chain : Reaches n (accept i steps s) (raiseError e t))
    (opcode : t.latched.opcode = i.opcode) (phase : t.seq.phase = (accept i steps s).seq.phase) (bound : n + 1 ≤ seqTurns) :
    command i steps s = .next
      { t with busy := s.busy, errReg := ⟨e, i.opcode, .prim⟩, err := true, intError := true, seq := .idle } := by
  have prim : t.seq.phase = .prim := phase.trans (if_neg (by rw [host]; decide))
  refine command_fails (t := raiseError e t) ready wf chain ?_ bound
  rw [raiseError_host (opcode ▸ host), opcode, prim]

/-! ## The commands -/

/-- A host command that writes bytes to a sink that accepts them. -/
theorem command_writesBytes {i : Instr} {m : Micro} {bs : List Byte} {s : State} (ready : s.ready) (wf : i.wellFormed = true)
    (start : Reaches 1 (accept i [m, .done] s) (accept i ((unpack bs).map Micro.writeBit ++ [Micro.done]) s))
    (high : s.wr.cnt.toNat ≤ 7) (accepts : s.ports.snk.accepts bs.length) (short : bs.length ≤ 4) :
    command i [m, .done] s = .next
      { s with
        wr := ⟨(bs.map (lowBits s.wr.cnt.toNat)).getLastD s.wr.buf, s.wr.cnt⟩
        snkCount := s.snkCount + BitVec.ofNat 32 bs.length
        ports := s.ports.taking (carried s.wr.cnt.toNat s.wr.buf bs), intDone := true, seq := .idle } :=
  command_completes ready wf (start.trans (reaches_writeBytes bs (rest := [.done]) rfl high accepts)) rfl
    (by unfold seqTurns; omega)

/-- A host command that writes bytes to a sink that accepts `k` of them and refuses the next. -/
theorem command_refusedBytes {i : Instr} {m : Micro} {bs : List Byte} {s : State} {k : Nat} {byte : Byte} (ready : s.ready)
    (wf : i.wellFormed = true) (host : isCodec i.opcode = false)
    (start : Reaches 1 (accept i [m, .done] s) (accept i ((unpack bs).map Micro.writeBit ++ [Micro.done]) s))
    (high : s.wr.cnt.toNat ≤ 7) (found : (carried s.wr.cnt.toNat s.wr.buf bs)[k]? = some byte) (accepts : s.ports.snk.accepts k)
    (refuses : (s.ports.taking ((carried s.wr.cnt.toNat s.wr.buf bs).take k)).snk.refuses) (short : bs.length ≤ 4) :
    ∃ ports : Ports,
      ports.trace = .snkIoErr byte :: (s.ports.taking ((carried s.wr.cnt.toNat s.wr.buf bs).take k)).trace ∧
        ports.src = s.ports.src ∧
        command i [m, .done] s = .next
          { s with
            wr := ⟨0#8, 0#4⟩, snkCount := s.snkCount + BitVec.ofNat 32 k, ports := ports
            errReg := ⟨.ioSnk, i.opcode, .prim⟩, err := true, intError := true, seq := .idle } := by
  obtain ⟨n, left, snk, turns, chain⟩ := reaches_refusedBytes bs
    (s := accept i ((unpack bs).map Micro.writeBit ++ [Micro.done]) s) (rest := [.done]) rfl high found accepts refuses
  exact ⟨(s.ports.taking ((carried s.wr.cnt.toNat s.wr.buf bs).take k)).refused byte snk, rfl, rfl,
    command_raises ready wf host (start.trans chain) rfl rfl (by unfold seqTurns; omega)⟩

/-- WBIT's first step (R128). -/
theorem reaches_wbit (b : Bool) (s : State) : Reaches 1 (accept (.wbit (if b then 1#8 else 0#8)) [.writeImmBit, .done] s)
    (accept (.wbit (if b then 1#8 else 0#8)) [.writeBit b, .done] s) := by
  have bit : (if b then 1#8 else 0#8).getLsbD 0 = b := by cases b <;> decide
  exact .one (m := .writeImmBit) (rest := [.done]) rfl
    (congrArg (fun x => Move.go (accept (.wbit (if b then 1#8 else 0#8)) [.writeBit x, .done] s)) bit)

/-- Settles O22: the bit is shifted in (`reaches_fill`) or completes the byte (`reaches_fillByte`), which the sink then accepts or
refuses. -/
theorem wbitWritesOneBit : Obligations.WbitWritesOneBit := by
  intro s b ready high buf i
  have wf : i.wellFormed = true := by cases b <;> decide
  have start := reaches_wbit b s
  have full (seven : s.wr.cnt.toNat = 7) := start.trans
    (reaches_fillByte [b] (s := accept i [.writeBit b, .done] s) (rest := [.done]) rfl high (by
      show s.wr.cnt.toNat + 1 = 8
      omega))
  refine ⟨fun low => ?_, fun seven accepts => ?_, fun seven refuses => ?_⟩
  · exact command_completes ready wf (start.trans
      (reaches_fill [b] (s := accept i [.writeBit b, .done] s) (rest := [.done]) rfl low)) rfl
      (show 1 + 1 + 1 ≤ seqTurns by decide)
  · exact command_completes ready wf ((full seven).trans
      (.one (m := .append buf .raise) (rest := [.done]) rfl (appendByte_accepts (n := 0) accepts))) rfl
      (show 1 + 1 + 1 + 1 ≤ seqTurns by decide)
  · let emptied : State := State.next { accept i [.writeBit b, .done] s with wr := .empty } [.done]
    obtain ⟨snk, appended⟩ := appendByte_raises (b := buf) (s := emptied) refuses
    exact ⟨s.ports.refused buf snk, rfl, rfl, command_raises ready wf (show isCodec 0x01#8 = false from rfl) ((full seven).trans
      (.oneRaise (m := .append buf .raise) (rest := [.done]) rfl appended)) rfl rfl (show 1 + 1 + 1 + 1 ≤ seqTurns by decide)⟩

/-- WBYTE's first step (R129). -/
theorem reaches_wbyte (v : Byte) (s : State) : Reaches 1 (accept (.wbyte v) [.writeImmByte, .done] s)
    (accept (.wbyte v) ((unpack [v]).map Micro.writeBit ++ [Micro.done]) s) := by
  rw [unpack, List.flatMap_singleton]
  exact .one (m := .writeImmByte) (rest := [.done]) rfl rfl

/-- Settles O23: one byte is written (`command_writesBytes`, `command_refusedBytes`). -/
theorem wbyteWritesEightBits : Obligations.WbyteWritesEightBits := by
  intro s v ready high w byte
  have across : carry w s.wr.buf v = byte := carry_byte ..
  refine ⟨fun accepts => ?_, fun refuses => ?_⟩
  · have run := command_writesBytes ready rfl (reaches_wbyte v s) high accepts (show 1 ≤ 4 by decide)
    rw [carried, carried, across] at run
    exact run
  · have run := command_refusedBytes (i := .wbyte v) (k := 0) ready rfl (show isCodec 0x02#8 = false from rfl)
      (reaches_wbyte v s) high (congrArg some across) ⟨refuses.1, nofun, .inl (Nat.zero_le _)⟩ refuses (show 1 ≤ 4 by decide)
    rw [BitVec.add_zero] at run
    exact run

/-! ### WINT32 -/

/-- A word's bytes, most-significant first (R70). -/
def wordBytes (x : Word) : List Byte := [x.extractLsb' 24 8, x.extractLsb' 16 8, x.extractLsb' 8 8, x.extractLsb' 0 8]

theorem wordBytes_append (b₀ b₁ b₂ b₃ : Byte) : wordBytes (b₀ ++ b₁ ++ b₂ ++ b₃) = [b₀, b₁, b₂, b₃] := by
  have := b₁.isLt; have := b₂.isLt; have := b₃.isLt
  simp only [wordBytes, List.cons.injEq, and_true, ← BitVec.toNat_inj, BitVec.extractLsb'_toNat, toNat_append,
    Nat.shiftRight_eq_div_pow]
  omega

theorem word_of_bytes (x : Word) : ∃ b₀ b₁ b₂ b₃ : Byte, x = b₀ ++ b₁ ++ b₂ ++ b₃ := by
  refine ⟨x.extractLsb' 24 8, x.extractLsb' 16 8, x.extractLsb' 8 8, x.extractLsb' 0 8, BitVec.eq_of_toNat_eq ?_⟩
  have := x.isLt
  simp only [BitVec.extractLsb'_toNat, toNat_append, Nat.shiftRight_eq_div_pow]
  omega

theorem carried_word {w : Nat} (hw : w ≤ 8) (a b₀ b₁ b₂ b₃ : Byte) :
    carried w a [b₀, b₁, b₂, b₃] = wordBytes (carry w a (b₀ ++ b₁ ++ b₂ ++ b₃)) := by
  rw [carry_word hw, wordBytes_append]
  simp only [carried, carry_lowBits hw]

theorem unpack_word (b₀ b₁ b₂ b₃ : Byte) : unpack [b₀, b₁, b₂, b₃] = msbFirst (b₀ ++ b₁ ++ b₂ ++ b₃) := by
  simp only [unpack, List.flatMap_cons, List.flatMap_nil, msbFirst_append, List.append_assoc, List.append_nil]

theorem lowBits_append {w n : Nat} (hw : w ≤ 8) (hi : BitVec n) (b : Byte) :
    lowBits w b = BitVec.ofNat 8 ((hi ++ b).toNat % 2 ^ w) := by
  have low : (hi ++ b).toNat % 2 ^ 8 = b.toNat := by
    rw [toNat_append, Nat.mul_add_mod_self_right, Nat.mod_eq_of_lt b.isLt]
  rw [lowBits, ← low, Nat.mod_mod_of_dvd _ (Nat.pow_dvd_pow 2 hw)]

/-- WINT32's first step (R130). -/
theorem reaches_wint32 {s : State} {b₀ b₁ b₂ b₃ : Byte} (arg : s.arg = b₀ ++ b₁ ++ b₂ ++ b₃) :
    Reaches 1 (accept .wint32 [.writeArg, .done] s)
      (accept .wint32 ((unpack [b₀, b₁, b₂, b₃]).map Micro.writeBit ++ [Micro.done]) s) := by
  rw [unpack_word, ← arg]
  exact .one (m := .writeArg) (rest := [.done]) rfl rfl

/-- Settles O24: ARG is four bytes (`word_of_bytes`), and what they become across the byte boundaries are the bytes of a word across
a boundary (`carried_word`). -/
theorem wint32WritesArg : Obligations.Wint32WritesArg := by
  intro s ready high w x bytes
  have hw : w ≤ 8 := high.trans (by decide)
  obtain ⟨b₀, b₁, b₂, b₃, arg⟩ := word_of_bytes s.arg
  have across : carried w s.wr.buf [b₀, b₁, b₂, b₃] = bytes := by
    rw [carried_word hw, ← arg]
    rfl
  have pending : BitVec.ofNat 8 (s.arg.toNat % 2 ^ w) = lowBits w b₃ := by rw [arg, ← lowBits_append hw]
  refine ⟨fun accepts => ?_, fun k byte found accepts refuses => ?_⟩
  · have run := command_writesBytes ready rfl (reaches_wint32 arg) high accepts (show 4 ≤ 4 from le_rfl)
    rw [across] at run
    rw [pending]
    exact run
  · rw [← across] at found refuses ⊢
    exact command_refusedBytes (i := .wint32) ready rfl (show isCodec 0x03#8 = false from rfl)
      (reaches_wint32 arg) high found accepts refuses (show 4 ≤ 4 from le_rfl)

/-! ### WFLUSH -/

/-- WFLUSH's first step (R131). -/
theorem reaches_wflush {s t : State} (flushed : flush .raise ((accept .wflush [] s).next [.done]) = t) :
    Reaches 1 (accept .wflush [.flush .raise, .done] s) t :=
  .one (m := .flush .raise) (rest := [.done]) rfl (congrArg Move.go flushed)

/-- Settles O25: WFLUSH followed through each of the ways its flush can go. -/
theorem wflushPadsThePartialByte : Obligations.WflushPadsThePartialByte := by
  intro s ready byte
  refine ⟨fun none => ?_, fun low high accepts => ?_, fun low high refuses => ?_⟩
  · let flushed : State := (accept .wflush [] s).next [.done]
    exact command_completes (t := flushed) ready rfl (reaches_wflush (flush_none (s := flushed) _ none)) rfl (by decide)
  · exact command_completes ready rfl ((reaches_wflush (flush_some _ low high)).trans
      (.one (m := .append byte .raise) (rest := [.done]) rfl (appendByte_accepts (n := 0) accepts))) rfl (by decide)
  · let emptied : State := State.next { accept .wflush [] s with wr := .empty } [.done]
    obtain ⟨snk, appended⟩ := appendByte_raises (b := byte) (s := emptied) refuses
    exact ⟨s.ports.refused byte snk, rfl, rfl, command_raises (i := .wflush) ready rfl (show isCodec 0x04#8 = false from rfl)
      ((reaches_wflush (flush_some _ low high)).trans
        (.oneRaise (m := .append byte .raise) (rest := [.done]) rfl appended)) rfl rfl (by decide)⟩

end Sys2Proof.Machine
end

section
/-! PROOFS. The bit stream family: the bit reader's commands (R124 to R126, R133 to R135). -/

namespace Sys2Proof.Machine

open Sys2Proof.Artifact

/-! ## Bits from the cursor -/

/-- The state with these steps to run, this value, this cursor and these ports, the source having given `k` bytes more. -/
def State.received (s : State) (todo : List Micro) (value : Word) (rd : Cursor) (k : Nat) (ports : Ports) : State :=
  { s.reads' value todo with rd := rd, srcCount := s.srcCount + BitVec.ofNat 32 k, ports := ports }

theorem State.received_received (s : State) (todo todo' : List Micro) (value value' : Word) (rd rd' : Cursor) (k k' : Nat)
    (ports ports' : Ports) :
    (s.received todo value rd k ports).received todo' value' rd' k' ports' = s.received todo' value' rd' (k + k') ports' := by
  simp only [State.received, State.reads', BitVec.ofNat_add, BitVec.add_assoc]

/-- No byte more. -/
theorem State.received_zero (s : State) (todo : List Micro) (value : Word) (rd : Cursor) (ports : Ports) :
    s.received todo value rd 0 ports = { s.reads' value todo with rd := rd, ports := ports } := by
  rw [State.received, BitVec.add_zero]
  rfl

/-- The buffered bits of a cursor, the next one first (R69). -/
def Cursor.buffered (c : Cursor) : List Bool := (msbFirst c.buf).drop (8 - c.cnt.toNat)

theorem Cursor.buffered_cons {c : Cursor} (some : c.cnt ≠ 0#4) (high : c.cnt.toNat ≤ 8) :
    c.buffered = c.buf.getLsbD (c.cnt - 1#4).toNat :: Cursor.buffered ⟨c.buf, c.cnt - 1#4⟩ := by
  have count : (c.cnt - 1#4).toNat = c.cnt.toNat - 1 := by bv_omega
  have positive : 0 < c.cnt.toNat := by bv_omega
  have len : 8 - c.cnt.toNat < (msbFirst c.buf).length := by rw [msbFirst_length]; omega
  have bit := (List.getElem?_eq_getElem len).symm.trans (msbFirst_get c.buf (by omega))
  rw [Cursor.buffered, Cursor.buffered, List.drop_eq_getElem_cons len, Option.some.inj bit]
  dsimp only
  rw [count, show 8 - 1 - (8 - c.cnt.toNat) = c.cnt.toNat - 1 by omega,
    show 8 - c.cnt.toNat + 1 = 8 - (c.cnt.toNat - 1) by omega]

/-- Bits that are buffered (R124). -/
theorem reaches_buffered (n : Nat) : ∀ {s : State} {rest : List Micro},
    s.seq.todo = List.replicate n Micro.readBit ++ rest → n ≤ s.rd.cnt.toNat → s.rd.cnt.toNat ≤ 8 → Reaches n s
      (s.received rest ((s.rd.buffered.take n).foldl shiftIn s.seq.value) ⟨s.rd.buf, s.rd.cnt - BitVec.ofNat 4 n⟩ 0
        s.ports) := by
  induction n with
  | zero =>
    intro s rest todo _ _
    have same : s.received rest s.seq.value ⟨s.rd.buf, s.rd.cnt - 0#4⟩ 0 s.ports = s := by
      rw [State.received_zero, BitVec.sub_zero, ← show s.seq.todo = rest from todo]
      rfl
    rw [List.take_zero, List.foldl_nil]
    exact same.symm ▸ .refl s
  | succ n ih =>
    intro s rest todo enough high
    have some : s.rd.cnt ≠ 0#4 := by bv_omega
    have count : (s.rd.cnt - 1#4).toNat = s.rd.cnt.toNat - 1 := by bv_omega
    have down : s.rd.cnt - BitVec.ofNat 4 (n + 1) = s.rd.cnt - 1#4 - BitVec.ofNat 4 n := by bv_omega
    have more := ih (s := takeBit (s.next (List.replicate n Micro.readBit ++ rest))) (rest := rest) rfl
      (show n ≤ (s.rd.cnt - 1#4).toNat by omega) (show (s.rd.cnt - 1#4).toNat ≤ 8 by omega)
    rw [Cursor.buffered_cons some high, List.take_succ_cons, List.foldl_cons, down]
    have first : s.seq.todo = .readBit :: (List.replicate n Micro.readBit ++ rest) := todo
    exact .go first (readBit_buffered some) more

/-- The state once the source has given a byte to an empty cursor. -/
def State.refilled (s : State) (b : Byte) (items : List SrcItem) (ended : Bool) : State :=
  s.received s.seq.todo s.seq.value ⟨b, 8#4⟩ 1 (s.ports.giving [b] items ended)

/-- To read a bit from an empty cursor is to refill it and read one from there (R124). -/
theorem reaches_refill {s t : State} {b : Byte} {items : List SrcItem} {ended : Bool} {rest : List Micro} {n : Nat}
    (todo : s.seq.todo = .readBit :: rest) (empty : s.rd.cnt = 0#4) (holds : s.ports.src.holds (.byte b :: items) ended)
    (more : Reaches (n + 1) (s.refilled b items ended) t) : Reaches (n + 1) s t := by
  have same : microStep .readBit ((s.refilled b items ended).next rest) = microStep .readBit (s.next rest) :=
    (readBit_buffered (show (8#4 : BitVec 4) ≠ 0#4 by decide)).trans (readBit_fetch (s := s.next rest) empty holds).symm
  cases more with
  | go todo' step more =>
    obtain ⟨rfl, rfl⟩ := List.cons.inj (todo'.symm.trans todo)
    exact .go todo (same.symm.trans step) more
  | raise todo' step more =>
    obtain ⟨rfl, rfl⟩ := List.cons.inj (todo'.symm.trans todo)
    exact .raise todo (same.symm.trans step) more

/-! ## Bytes -/

theorem Cursor.buffered_length {c : Cursor} (high : c.cnt.toNat ≤ 8) : c.buffered.length = c.cnt.toNat := by
  rw [Cursor.buffered, List.length_drop, msbFirst_length]
  omega

/-- All the bits that are buffered. -/
theorem reaches_drained {s : State} {rest : List Micro} (todo : s.seq.todo = List.replicate s.rd.cnt.toNat Micro.readBit ++ rest)
    (high : s.rd.cnt.toNat ≤ 8) : Reaches s.rd.cnt.toNat s
      (s.received rest (s.rd.buffered.foldl shiftIn s.seq.value) ⟨s.rd.buf, 0#4⟩ 0 s.ports) := by
  have chain := reaches_buffered _ todo le_rfl high
  rwa [List.take_of_length_le (Cursor.buffered_length high).le, BitVec.ofNat_toNat, BitVec.setWidth_eq, BitVec.sub_self] at chain

/-- Eight bits that need one byte: the buffered ones, then the byte's first ones (R125). -/
theorem reaches_readByte {s : State} {b : Byte} {items : List SrcItem} {ended : Bool} {rest : List Micro}
    (todo : s.seq.todo = List.replicate 8 Micro.readBit ++ rest) (high : s.rd.cnt.toNat ≤ 7)
    (holds : s.ports.src.holds (.byte b :: items) ended) : Reaches 8 s
      (s.received rest ((msbFirst (carry s.rd.cnt.toNat s.rd.buf b)).foldl shiftIn s.seq.value) ⟨b, s.rd.cnt⟩ 1
        (s.ports.giving [b] items ended)) := by
  obtain ⟨n, count⟩ : ∃ n, 8 - s.rd.cnt.toNat = n + 1 := ⟨7 - s.rd.cnt.toNat, by omega⟩
  have split : s.seq.todo = List.replicate s.rd.cnt.toNat Micro.readBit ++ (List.replicate (n + 1) Micro.readBit ++ rest) := by
    rw [todo, ← List.append_assoc, List.replicate_append_replicate, show s.rd.cnt.toNat + (n + 1) = 8 by omega]
  let drained : State := s.received (List.replicate (n + 1) Micro.readBit ++ rest) (s.rd.buffered.foldl shiftIn s.seq.value)
    ⟨s.rd.buf, 0#4⟩ 0 s.ports
  have fresh := reaches_buffered (n + 1) (s := drained.refilled b items ended) (rest := rest) rfl
    (show n + 1 ≤ 8 by omega) (show 8 ≤ 8 from le_rfl)
  have left : (8#4 : BitVec 4) - BitVec.ofNat 4 (n + 1) = s.rd.cnt := by bv_omega
  have chain := (reaches_drained split (by omega)).trans (reaches_refill (s := drained) rfl rfl holds fresh)
  rw [State.refilled, State.received_received, State.received_received] at chain
  have chain : Reaches (s.rd.cnt.toNat + (n + 1)) s
      (s.received rest (((msbFirst b).take (n + 1)).foldl shiftIn (s.rd.buffered.foldl shiftIn s.seq.value))
        ⟨b, 8#4 - BitVec.ofNat 4 (n + 1)⟩ 1 (s.ports.giving [b] items ended)) := chain
  rw [left, show s.rd.cnt.toNat + (n + 1) = 8 by omega, ← count] at chain
  rw [msbFirst_carry (by omega) le_rfl, List.foldl_append]
  exact chain

/-- Further bytes of a stream that has begun. -/
theorem giving_cons (p : Ports) (b : Byte) (bs : List Byte) (items items' : List SrcItem) (ended : Bool) :
    (p.giving [b] items' ended).giving bs items ended = p.giving (b :: bs) items ended := giving_giving

theorem carried_lowBits {w : Nat} (hw : w ≤ 8) (a : Byte) (bs : List Byte) : carried w (lowBits w a) bs = carried w a bs := by
  cases bs with
  | nil => rfl
  | cons b bs => rw [carried, carried, carry_lowBits hw]

/-- The bits of one byte and more that need as many bytes (R126). -/
theorem reaches_readBytes (bs : List Byte) : ∀ {s : State} {b : Byte} {items : List SrcItem} {ended : Bool} {rest : List Micro},
    s.seq.todo = List.replicate (8 * (b :: bs).length) Micro.readBit ++ rest → s.rd.cnt.toNat ≤ 7 →
    s.ports.src.holds ((b :: bs).map .byte ++ items) ended → Reaches (8 * (b :: bs).length) s
      (s.received rest ((unpack (carried s.rd.cnt.toNat s.rd.buf (b :: bs))).foldl shiftIn s.seq.value)
        ⟨(b :: bs).getLastD s.rd.buf, s.rd.cnt⟩ (b :: bs).length (s.ports.giving (b :: bs) items ended)) := by
  induction bs with
  | nil =>
    intro s b items ended rest todo high holds
    have chain := reaches_readByte todo high holds
    rwa [← List.append_nil (msbFirst _)] at chain
  | cons c bs ih =>
    intro s b items ended rest todo high holds
    have split : s.seq.todo = List.replicate 8 Micro.readBit ++ (List.replicate (8 * (c :: bs).length) Micro.readBit ++ rest) := by
      rw [todo, ← List.append_assoc, List.replicate_append_replicate, List.length_cons, Nat.mul_succ, Nat.add_comm]
    have one := reaches_readByte split high holds
    have more := ih (s := s.received _ ((msbFirst (carry s.rd.cnt.toNat s.rd.buf b)).foldl shiftIn s.seq.value) ⟨b, s.rd.cnt⟩ 1
      (s.ports.giving [b] ((c :: bs).map SrcItem.byte ++ items) ended)) (b := c) (items := items) (ended := ended) (rest := rest)
      rfl high (holds_giving holds)
    rw [State.received_received, Nat.add_comm 1] at more
    rw [carried, unpack, List.flatMap_cons, List.foldl_append, carried_lowBits (by omega), List.length_cons, Nat.mul_succ,
      Nat.add_comm, List.getLastD_cons, ← giving_cons]
    exact one.trans more

/-! ## Streams that stop -/

/-- What a source that has no byte to give answers, the error that follows, and what is left of its stream (R124). -/
inductive Stops : List SrcItem → Bool → ErrCode → PortEvent → List SrcItem → Prop
  | ended : Stops [] true .eos .srcEnd []
  | ioErr (items : List SrcItem) (ended : Bool) : Stops (.ioErr :: items) ended .ioSrc .srcIoErr items

section
variable {items left : List SrcItem} {ended : Bool} {e : ErrCode} {last : PortEvent}

theorem readBit_stops {s : State} (stops : Stops items ended e last left) (empty : s.rd.cnt = 0#4)
    (holds : s.ports.src.holds items ended) : readBit s = .raise e { s with ports := s.ports.givingThen [] last left ended } := by
  unfold readBit
  rw [if_pos empty]
  cases stops with
  | ended => rw [srcRead_ended holds]; rfl
  | ioErr => rw [srcRead_ioErr holds]; rfl

theorem givingThen_cons (p : Ports) (b : Byte) (bs : List Byte) (items' : List SrcItem) :
    (p.giving [b] items' ended).givingThen bs last left ended = p.givingThen (b :: bs) last left ended := by
  rw [Ports.givingThen, giving_cons, Ports.givingThen]

/-- More bits than are left before the stream stops: all of those are consumed (R125, R126). -/
theorem reaches_truncated (stops : Stops items ended e last left) (bs : List Byte) : ∀ {s : State} {n : Nat} {rest : List Micro},
    s.seq.todo = List.replicate n Micro.readBit ++ rest → s.rd.cnt.toNat ≤ 7 → s.rd.cnt.toNat + 8 * bs.length < n →
    s.ports.src.holds (bs.map .byte ++ items) ended → ∃ (todo : List Micro) (value : Word),
      Reaches (s.rd.cnt.toNat + 8 * bs.length + 1) s (raiseError e
        (s.received todo value ⟨bs.getLastD s.rd.buf, 0#4⟩ bs.length (s.ports.givingThen bs last left ended))) := by
  induction bs with
  | nil =>
    intro s n rest todo high few holds
    obtain ⟨m, rfl⟩ : ∃ m, n = s.rd.cnt.toNat + (m + 1) := ⟨n - s.rd.cnt.toNat - 1, by rw [List.length_nil] at few; omega⟩
    rw [← List.replicate_append_replicate, List.append_assoc] at todo
    let drained : State := s.received (List.replicate (m + 1) Micro.readBit ++ rest) (s.rd.buffered.foldl shiftIn s.seq.value)
      ⟨s.rd.buf, 0#4⟩ 0 s.ports
    have fails := readBit_stops (s := drained.next (List.replicate m Micro.readBit ++ rest)) stops rfl holds
    exact ⟨List.replicate m Micro.readBit ++ rest, s.rd.buffered.foldl shiftIn s.seq.value,
      (reaches_drained todo (by omega)).trans (.oneRaise (s := drained) (m := .readBit) rfl fails)⟩
  | cons b bs ih =>
    intro s n rest todo high few holds
    rw [List.length_cons] at few
    obtain ⟨m, rfl⟩ : ∃ m, n = 8 + m := ⟨n - 8, by omega⟩
    rw [← List.replicate_append_replicate, List.append_assoc] at todo
    have one := reaches_readByte todo high holds
    obtain ⟨left', value, more⟩ := ih (s := s.received (List.replicate m Micro.readBit ++ rest)
      ((msbFirst (carry s.rd.cnt.toNat s.rd.buf b)).foldl shiftIn s.seq.value) ⟨b, s.rd.cnt⟩ 1
      (s.ports.giving [b] (bs.map SrcItem.byte ++ items) ended)) (rest := rest) rfl high
      (show s.rd.cnt.toNat + 8 * bs.length < m by omega) (holds_giving holds)
    rw [State.received_received, Nat.add_comm 1] at more
    have turns : s.rd.cnt.toNat + 8 * (bs.length + 1) + 1 = 8 + (s.rd.cnt.toNat + 8 * bs.length + 1) := by omega
    refine ⟨left', value, ?_⟩
    rw [List.length_cons, turns, List.getLastD_cons, ← givingThen_cons]
    exact one.trans more

/-! ## The commands -/

/-- The first step of a command that reads bits: the value is 0 at acceptance already (R125, R126). -/
theorem reaches_clearValue (i : Instr) (n : Nat) (s : State) :
    Reaches 1 (accept i (readBits n ++ [Micro.resultValue, .done]) s)
      (accept i (List.replicate n Micro.readBit ++ [Micro.resultValue, .done]) s) :=
  .one (m := .clearValue) (rest := List.replicate n Micro.readBit ++ [Micro.resultValue, .done]) rfl rfl

/-- A host command that has read its bits puts their value in RESULT and completes (R133 to R135). -/
theorem command_reads {i : Instr} {n k : Nat} {s t : State} (ready : s.ready) (wf : i.wellFormed = true)
    (chain : Reaches k (accept i (List.replicate n Micro.readBit ++ [Micro.resultValue, .done]) s) t)
    (todo : t.seq.todo = [Micro.resultValue, .done]) (bound : k ≤ 32) :
    command i (readBits n ++ [Micro.resultValue, .done]) s = .next
      { t with result := t.seq.value, busy := s.busy, intDone := true, seq := .idle } :=
  command_completes ready wf (((reaches_clearValue i n s).trans chain).trans
    (.one (m := .resultValue) (rest := [.done]) todo rfl)) rfl (by unfold seqTurns; omega)

/-- A host command that asks for more bits than are left before the stream stops fails, with those consumed (R133 to R135). -/
theorem command_truncated {i : Instr} {n : Nat} {s : State} {bs : List Byte} (stops : Stops items ended e last left)
    (ready : s.ready) (wf : i.wellFormed = true) (host : isCodec i.opcode = false) (high : s.rd.cnt.toNat ≤ 7)
    (few : s.rd.cnt.toNat + 8 * bs.length < n) (short : n ≤ 32) (holds : s.ports.src.holds (bs.map .byte ++ items) ended) :
    command i (readBits n ++ [Micro.resultValue, .done]) s = .next
      { s with
        rd := ⟨bs.getLastD s.rd.buf, 0#4⟩, srcCount := s.srcCount + BitVec.ofNat 32 bs.length
        ports := s.ports.givingThen bs last left ended
        errReg := ⟨e, i.opcode, .prim⟩, err := true, intError := true, seq := .idle } := by
  obtain ⟨todo, value, chain⟩ := reaches_truncated stops bs
    (s := accept i (List.replicate n Micro.readBit ++ [Micro.resultValue, .done]) s) rfl high few holds
  exact command_raises ready wf host ((reaches_clearValue i n s).trans chain) rfl rfl (by unfold seqTurns; omega)

theorem shiftIn_zero (b : Bool) : shiftIn 0#32 b = if b then 1#32 else 0#32 := by cases b <;> decide

/-- A bit that is buffered (R124). -/
theorem reaches_nextBit {s : State} {rest : List Micro} (todo : s.seq.todo = .readBit :: rest) (low : 1 ≤ s.rd.cnt.toNat)
    (high : s.rd.cnt.toNat ≤ 8) : Reaches 1 s
      (s.received rest (shiftIn s.seq.value (s.rd.buf.getLsbD (s.rd.cnt.toNat - 1))) ⟨s.rd.buf, s.rd.cnt - 1#4⟩ 0 s.ports) := by
  have count : (s.rd.cnt - 1#4).toNat = s.rd.cnt.toNat - 1 := by bv_omega
  have chain := reaches_buffered 1 todo low high
  rwa [Cursor.buffered_cons (by bv_omega) high, List.take_succ_cons, List.take_zero, List.foldl_cons, List.foldl_nil, count]
    at chain

/-- A bit that needs a byte (R124). -/
theorem reaches_fetchedBit {s : State} {b : Byte} {rest : List Micro} (todo : s.seq.todo = .readBit :: rest)
    (empty : s.rd.cnt = 0#4) (holds : s.ports.src.holds (.byte b :: items) ended) : Reaches 1 s
      (s.received rest (shiftIn s.seq.value (b.getLsbD 7)) ⟨b, 7#4⟩ 1 (s.ports.giving [b] items ended)) := by
  have seven : (8#4 : BitVec 4) - 1#4 = 7#4 := by decide
  have chain := reaches_refill todo empty holds
    (reaches_nextBit (rest := rest) todo (show 1 ≤ 8 by decide) (show 8 ≤ 8 from le_rfl))
  rw [State.refilled, State.received_received] at chain
  rw [← seven]
  exact chain

/-- RBIT on a stream that stops, with no bit buffered (R124). -/
theorem rbit_stops {s : State} (stops : Stops items ended e last left) (ready : s.ready) (empty : s.rd.cnt = 0#4)
    (holds : s.ports.src.holds items ended) : exec .rbit s = .next
      { s with
        ports := s.ports.givingThen [] last left ended
        errReg := ⟨e, 0x11#8, .prim⟩, err := true, intError := true, seq := .idle } := by
  have run := command_truncated (i := .rbit) (n := 1) (bs := []) stops ready rfl (show isCodec 0x11#8 = false from rfl)
    (by rw [empty]; decide) (by rw [empty]; decide) (by decide) holds
  have same : (⟨List.getLastD [] s.rd.buf, 0#4⟩ : Cursor) = s.rd := by rw [← empty]; rfl
  rw [same, List.length_nil, BitVec.add_zero] at run
  exact run

/-- A host command that reads bytes returns them across the byte boundaries of the stream (R125, R126). -/
theorem command_readsBytes {i : Instr} {b : Byte} {bs : List Byte} {s : State} (ready : s.ready) (wf : i.wellFormed = true)
    (high : s.rd.cnt.toNat ≤ 7) (holds : s.ports.src.holds ((b :: bs).map .byte ++ items) ended)
    (short : 8 * (b :: bs).length ≤ 32) :
    command i (readBits (8 * (b :: bs).length) ++ [Micro.resultValue, .done]) s = .next
      { s with
        result := valOf (unpack (carried s.rd.cnt.toNat s.rd.buf (b :: bs))), rd := ⟨(b :: bs).getLastD s.rd.buf, s.rd.cnt⟩
        srcCount := s.srcCount + BitVec.ofNat 32 (b :: bs).length
        ports := s.ports.giving (b :: bs) items ended, intDone := true, seq := .idle } :=
  command_reads ready wf (reaches_readBytes bs
    (s := accept i (List.replicate (8 * (b :: bs).length) Micro.readBit ++ [.resultValue, .done]) s) rfl high holds) rfl short

theorem valOf_unpack_byte (b : Byte) : valOf (unpack [b]) = b.setWidth 32 := by
  rw [unpack, List.flatMap_singleton, valOf, foldl_shiftIn_msbFirst]

theorem valOf_wordBytes (x : Word) : valOf (unpack (wordBytes x)) = x := by
  obtain ⟨b₀, b₁, b₂, b₃, rfl⟩ := word_of_bytes x
  rw [wordBytes_append, unpack_word, valOf_word]

end

/-! ## The statements -/

/-- Settles O27: the bit is buffered (`reaches_nextBit`) or fetched (`reaches_fetchedBit`), or the stream stops. -/
theorem rbitReadsOneBit : Obligations.RbitReadsOneBit := by
  intro s ready
  let start : State := accept .rbit (List.replicate 1 Micro.readBit ++ [.resultValue, .done]) s
  refine ⟨fun low high => ?_, fun empty b items ended holds => ?_, fun empty holds => ?_, fun empty items ended holds => ?_⟩
  · have run := command_reads ready rfl (reaches_nextBit (s := start) rfl low (high.trans (by decide))) rfl (by decide)
    rw [State.received_zero] at run
    rw [← shiftIn_zero]
    exact run
  · rw [← shiftIn_zero]
    exact command_reads ready rfl (reaches_fetchedBit (s := start) rfl empty holds) rfl (by decide)
  · exact rbit_stops .ended ready empty holds
  · exact rbit_stops (.ioErr items ended) ready empty holds

/-- Settles O28: one byte is read (`command_readsBytes`), or the stream stops (`command_truncated`). -/
theorem rbyteReadsEightBits : Obligations.RbyteReadsEightBits := by
  intro s ready high r
  have host : isCodec (Instr.opcode .rbyte) = false := rfl
  refine ⟨fun b items ended holds => ?_, fun holds => ?_, fun items ended holds => ?_⟩
  · have run := command_readsBytes (i := .rbyte) (bs := []) ready rfl high holds (show 8 ≤ 32 by decide)
    rw [carried, carried, valOf_unpack_byte, carry_byte] at run
    exact run
  · have run := command_truncated (bs := []) .ended ready rfl host high (show r + 0 < 8 by omega) (by decide) holds
    rw [List.length_nil, BitVec.add_zero] at run
    exact run
  · have run := command_truncated (bs := []) (.ioErr items ended) ready rfl host high (show r + 0 < 8 by omega) (by decide) holds
    rw [List.length_nil, BitVec.add_zero] at run
    exact run

/-- Settles O29: four bytes are read (`command_readsBytes`), and what they become across the byte boundaries are the bytes of a word
across a boundary (`carried_word`). -/
theorem rint32ReadsThirtyTwoBits : Obligations.Rint32ReadsThirtyTwoBits := by
  intro s b₀ b₁ b₂ b₃ items ended ready high holds r x
  have run := command_readsBytes (i := .rint32) (bs := [b₁, b₂, b₃]) ready rfl high holds (show 32 ≤ 32 from le_rfl)
  rw [carried_word (high.trans (by decide)), valOf_wordBytes] at run
  exact run

/-- Settles O30: the two ways a stream stops (`command_truncated`). -/
theorem rint32ConsumesATruncatedStream : Obligations.Rint32ConsumesATruncatedStream := by
  intro s bs ready high few
  have host : isCodec (Instr.opcode .rint32) = false := rfl
  refine ⟨fun holds => ?_, fun items ended holds => ?_⟩
  · exact command_truncated .ended ready rfl host high few le_rfl (by rwa [List.append_nil])
  · exact command_truncated (.ioErr items ended) ready rfl host high few le_rfl holds

end Sys2Proof.Machine
end

section
/-! PROOFS. The bit stream family: COMPRESS to a sink that refuses a byte (R181, V-C12), and the queue apart from the streams
(R137, R275). -/

namespace Sys2Proof.Machine

open Sys2Proof.Artifact

/-- A codec command that has failed and cleaned up is over, as R234 to R236 say. -/
theorem failedCodec_failed {s u : State} {e : ErrCode} {opcode : Byte} {phase : Phase} (host : s.keepsHostSide u)
    (wr : u.wr = .empty) (intDone : u.intDone = s.intDone) : s.failedCodec (u.failed e opcode phase) e opcode phase where
  busy := rfl
  seq := rfl
  err := rfl
  errReg := rfl
  intDone := intDone
  intError := rfl
  wr := wr
  rd := rfl
  nodes := rfl
  host := { host with }

/-- COMPRESS under way leaves the host's side alone. -/
theorem keepsHostSide_at' (s : State) (phase : Phase) (todo : List Micro) (x : Progress) : s.keepsHostSide (s.at' phase todo x) :=
  ⟨rfl, rfl, rfl, rfl, rfl, rfl, rfl, rfl, rfl, rfl, rfl, rfl, rfl⟩

/-- Settles O42: the chain of steps from acceptance to the append that the sink refuses (`goes_choked`), and the cleanup after
it. -/
theorem compressReportsASinkFailure : Obligations.CompressReportsASinkFailure := by
  intro s xs k ready legal source sink refuses less alphabet fits last phase
  let w : Wire := ⟨xs.map .byte, true, 0, true, []⟩
  obtain ⟨tables, stack, nodes, root, b, rest, freq, recorded, size, chain⟩ :=
    goes_choked (s := s) (w := w) (sunk := s.ports.sunk) alphabet legal fits ⟨rfl, rfl⟩ less
  have offers : (w.gave k s.ports.sunk).of s.ports := ⟨source, fun _ => sink, fun _ => refuses, rfl⟩
  have bound : 2000 * xs.length + 10000 + 7 ≤ seqTurns := by
    have := legal.2.2.2
    unfold seqTurns
    omega
  obtain ⟨p, sunk, run⟩ := command_of_refused ready rfl offers chain rfl rfl rfl (show isCodec 0x31#8 = true from rfl) rfl bound
  refine ⟨_, run, ?_, ?_, rfl, rfl, rfl, rfl, ?_, rfl, fun sym hs => ⟨?_, fun late => ?_⟩⟩
  · let x : Progress :=
      ⟨BitVec.ofNat 32 xs.length, s.inbuf.store 0 xs, tables, xs.length, nodes, [], root, []⟩
    exact failedCodec_failed { keepsHostSide_at' s (chokedPhase xs k) [] x with } rfl rfl
  · exact (Ports.sunk_closed p).trans sunk
  · exact congrArg (BitVec.ofNat 32) size
  · show tables.freqAt sym = _
    rw [Tables.freqAt, freq]
    exact freq_counted alphabet hs
  · obtain rfl := recorded late
    exact table_recorded alphabet hs

/-! ## The queue -/

/-- The steps that change the queue are those of PQ_PUSH, PQ_POP, PQ_CLEAR and COMPRESS. -/
theorem Micro.keeps_heap {m : Micro} {op : Byte} (belongs : m.belongsTo op = true)
    (other : op ∉ [0x21#8, 0x22#8, 0x25#8, 0x31#8]) : m.touches.contains .heap = false := by
  cases m with
  | pqPush | pqPop | pqClear | cInit | makeLeaves | build =>
    obtain rfl := beq_iff_eq.1 belongs
    exact absurd (by decide) other
  | _ => rfl

/-- A queue command has no steps but the queue's and its last one (R158 to R162). -/
theorem Micro.isHostQueue_of_belongsTo {m : Micro} {op : Byte} (belongs : m.belongsTo op = true)
    (queue : op ∈ [0x21#8, 0x22#8, 0x23#8, 0x24#8, 0x25#8]) (he : m.endsCommand = false) : m.isHostQueue = true := by
  simp only [List.mem_cons, List.not_mem_nil, or_false] at queue
  cases m with
  | pqPush | pqPop | pqTop | pqSize | pqClear => rfl
  | fail | done => cases he
  | append b onFail | flush onFail => cases onFail <;> rcases queue with rfl | rfl | rfl | rfl | rfl <;> cases belongs
  | _ => rcases queue with rfl | rfl | rfl | rfl | rfl <;> cases belongs

/-- What the queue commands leave alone: the cursors, the ports, the counters and the tables. -/
def State.streams (s : State) : Cursor × Cursor × Ports × Word × Word × Word × Word × Tables :=
  (s.wr, s.rd, s.ports, s.srcCount, s.snkCount, s.symcount, s.treeNodes, s.tables)

theorem State.streams_eq_iff {s t : State} : t.streams = s.streams ↔
    t.wr = s.wr ∧ t.rd = s.rd ∧ t.ports = s.ports ∧ t.srcCount = s.srcCount ∧ t.snkCount = s.snkCount ∧
      t.symcount = s.symcount ∧ t.treeNodes = s.treeNodes ∧ t.tables = s.tables := by
  simp only [State.streams, Prod.mk.injEq]

/-- A step of a queue command leaves the streams alone. -/
theorem State.Same.streams {m : Micro} {s t : State} (same : s.Same m.touches t) (queue : m.isHostQueue = true) :
    t.streams = s.streams := by
  have keeps : ∀ part ∈ [Part.wr, .rd, .ports, .srcCount, .snkCount, .symcount, .treeNodes, .tables],
      m.touches.contains part = false := by
    cases m with
    | pqPush | pqPop | pqTop | pqSize | pqClear => decide
    | _ => cases queue
  exact State.streams_eq_iff.2 ⟨same.wr (keeps _ (by decide)), same.rd (keeps _ (by decide)), same.ports (keeps _ (by decide)),
    same.srcCount (keeps _ (by decide)), same.snkCount (keeps _ (by decide)), same.symcount (keeps _ (by decide)),
    same.treeNodes (keeps _ (by decide)), same.tables (keeps _ (by decide))⟩

/-- What a command of this opcode leaves alone, of the queue and of the streams (R137, R275). -/
def State.apart (op : Byte) (s t : State) : Prop :=
  (op ∉ [0x21#8, 0x22#8, 0x25#8, 0x31#8] → t.heap = s.heap) ∧
    (op ∈ [0x21#8, 0x22#8, 0x23#8, 0x24#8, 0x25#8] → t.streams = s.streams)

theorem State.apart_self (op : Byte) (s : State) : s.apart op s := ⟨fun _ => rfl, fun _ => rfl⟩

theorem State.Same.apart {s u v : State} {m : Micro} {op : Byte} (same : u.Same m.touches v) (h : s.apart op u)
    (belongs : m.belongsTo op = true) (he : m.endsCommand = false) : s.apart op v :=
  ⟨fun other => (same.heap (Micro.keeps_heap belongs other)).trans (h.1 other),
    fun queue => (same.streams (Micro.isHostQueue_of_belongsTo belongs queue he)).trans (h.2 queue)⟩

/-- Running a command leaves them alone. -/
theorem settle_apart {s t : State} (busy : s.busy = true) (cmd : s.commandInv) (h : settle s = .next t) :
    s.apart s.latched.opcode t := by
  refine (settle_command (Q := s.apart s.latched.opcode) (R := s.apart s.latched.opcode) busy rfl cmd.steps (s.apart_self _)
    ?_ ?_ ?_ h).elim (·.2.2) (·.2.2)
  · exact fun u m rest v hu belongs _ he step => ((microStep_frame m (u.next rest) he).of_go step).apart hu belongs he
  · exact fun u m rest e v hu belongs _ he step => ((microStep_frame m (u.next rest) he).of_raise step).apart hu belongs he
  · intro u m rest v hu _ _ he step
    obtain ⟨-, rfl⟩ | ⟨_, _, _, -, rfl⟩ := microStep_ends he step <;> exact hu

theorem opcode_of_queueInstr : ∀ i ∈ [Instr.pqPush, .pqPop, .pqTop, .pqSize, .pqClear],
    i.opcode ∈ [0x21#8, 0x22#8, 0x23#8, 0x24#8, 0x25#8] := by decide

/-- Settles O57: a step that changes the queue belongs to one of these four commands (`Micro.keeps_heap`), and no step of a queue
command touches a stream (`State.Same.streams`). -/
theorem queueAndStreamsAreSeparate : Obligations.QueueAndStreamsAreSeparate := by
  refine ⟨fun i s t busy h => ?_, fun s t inv busy reset h => ?_⟩
  · have apart : s.apart i.opcode t := by
      obtain rfl | rfl | ⟨steps, -, starts, run⟩ := exec_idle busy h
      · exact s.apart_self _
      · exact s.apart_self _
      · exact settle_apart (s := accept i steps s) rfl starts.command run
    refine ⟨⟨apart.1, fun queue => ?_⟩, fun queue => ?_⟩
    · obtain ⟨wr, rd, ports, counters⟩ := State.streams_eq_iff.1 (apart.2 queue)
      exact ⟨wr, rd, congrArg Ports.trace ports, counters⟩
    · obtain ⟨-, -, ports, -⟩ := State.streams_eq_iff.1 (apart.2 (opcode_of_queueInstr i queue))
      exact ports
  · obtain ⟨u, hears, running, cmd, opcode, run⟩ := step_command inv busy reset h
    have apart := opcode ▸ settle_apart running cmd run
    refine ⟨fun other => (apart.1 other).trans hears.heap, fun queue => ?_⟩
    obtain ⟨wr, rd, ports, srcCount, snkCount, symcount, treeNodes, tables⟩ := State.streams_eq_iff.1 (apart.2 queue)
    exact ⟨wr.trans hears.wr, rd.trans hears.rd, (congrArg Ports.trace ports).trans hears.trace, srcCount.trans hears.srcCount,
      snkCount.trans hears.snkCount, symcount.trans hears.symcount, treeNodes.trans hears.treeNodes, tables.trans hears.tables⟩

end Sys2Proof.Machine
end

section
/-! PROOFS. The queue family: the ordering relation (R151), the queue commands (R155 to R162) and the mode of the queue (R163). -/

namespace Sys2Proof.Machine

/-! ## The ordering relation -/

theorem entryBefore_min_iff (a b : Entry) : entryBefore .min a b = true ↔
    a.key.toNat < b.key.toNat ∨ (a.key = b.key ∧ a.tie.toNat < b.tie.toNat) := by
  simp [entryBefore, BitVec.ult]

/-- MAX mode is the mirror of MIN mode. -/
theorem entryBefore_max (a b : Entry) : entryBefore .max a b = entryBefore .min b a :=
  congrArg (fun same => b.key.ult a.key || (same && b.tie.ult a.tie)) BEq.comm

theorem entryBefore_max_iff (a b : Entry) : entryBefore .max a b = true ↔
    b.key.toNat < a.key.toNat ∨ (a.key = b.key ∧ b.tie.toNat < a.tie.toNat) := by
  rw [entryBefore_max, entryBefore_min_iff, eq_comm (a := b.key)]

theorem entryBefore_irrefl (m : Mode) (a : Entry) : entryBefore m a a = false :=
  Bool.eq_false_iff.2 fun h => absurd (entryBefore_asymm h) (by simp [h])

theorem entryBefore_min_total {a b : Entry} (h : (a.key, a.tie) ≠ (b.key, b.tie)) :
    entryBefore .min a b = true ∨ entryBefore .min b a = true := by
  simp only [entryBefore_min_iff]
  by_cases keys : a.key = b.key
  · have ties : a.tie.toNat ≠ b.tie.toNat := fun same => h (by rw [keys, BitVec.eq_of_toNat_eq same])
    exact (Nat.lt_or_gt_of_ne ties).imp (fun lt => .inr ⟨keys, lt⟩) (fun gt => .inr ⟨keys.symm, gt⟩)
  · exact (Nat.lt_or_gt_of_ne fun same => keys (BitVec.eq_of_toNat_eq same)).imp .inl .inl

theorem entryBefore_total (m : Mode) {a b : Entry} (h : (a.key, a.tie) ≠ (b.key, b.tie)) :
    entryBefore m a b = true ∨ entryBefore m b a = true := by
  cases m with
  | min => exact entryBefore_min_total h
  | max => rw [entryBefore_max, entryBefore_max]; exact (entryBefore_min_total h).symm

/-- Settles O36: each law of the order is a lemma above, or stands with the relation. -/
theorem entryOrderIsStrictAndTotal : Obligations.EntryOrderIsStrictAndTotal := fun m a b _ =>
  ⟨entryBefore_min_iff a b, entryBefore_max_iff a b, entryBefore_irrefl m a, entryBefore_asymm, entryBefore_trans,
    entryBefore_total m⟩

/-- R164: no entry of the queue comes before its root. -/
theorem entryBefore_root {m : Mode} {root : Entry} {others : List Entry} (ordered : heapOrdered m (root :: others)) :
    ∀ e ∈ root :: others, entryBefore m e root = false := by
  intro e he
  obtain ⟨i, hi⟩ := List.mem_iff_getElem?.1 he
  exact (heapBefore_of_get hi rfl).symm.trans (root_first ordered i)

/-! ## Commands of one step -/

/-- A command whose one step goes on completes after it (R240). -/
theorem command_oneStep {i : Instr} (m : Micro) {s t : State} (ready : s.ready) (wf : i.wellFormed = true)
    (step : microStep m (accept i [.done] s) = .go t) (todo : t.seq.todo = [.done]) :
    command i [m, .done] s = .next { t with busy := s.busy, intDone := true, seq := .idle } :=
  command_completes ready wf (.one (m := m) (rest := [.done]) rfl step) todo (by decide)

/-- A host command whose one step raises an error, with nothing done, records it and changes nothing else (R234). -/
theorem command_oneRaise {i : Instr} (m : Micro) {s : State} {e : ErrCode} (ready : s.ready) (wf : i.wellFormed = true)
    (host : isCodec i.opcode = false) (step : microStep m (accept i [.done] s) = .raise e (accept i [.done] s)) :
    command i [m, .done] s = .next
      { s with errReg := ⟨e, i.opcode, .prim⟩, err := true, intError := true, seq := .idle } :=
  command_raises (t := accept i [.done] s) ready wf host (.oneRaise (m := m) (rest := [.done]) rfl step) rfl rfl (by decide)

/-! ## The steps of the queue commands -/

theorem microStep_pqPush_room {s : State} (room : s.heap.length < s.params.pqCap) :
    microStep .pqPush s = .go { s with heap := heapPush s.latched.mode s.latched.entry s.heap } := push_room room

theorem microStep_pqPush_full {s : State} (full : s.params.pqCap ≤ s.heap.length) :
    microStep .pqPush s = .raise .overflow s := if_pos full

theorem withTop_nil {s : State} (empty : s.heap = []) (f : Entry → State → Move) : withTop s f = .raise .underflow s := by
  unfold withTop; rw [empty]

theorem withPop_nil {s : State} (empty : s.heap = []) (f : Entry → State → Move) : withPop s f = .raise .underflow s :=
  withTop_nil empty _

theorem microStep_pqPop_empty {s : State} (empty : s.heap = []) : microStep .pqPop s = .raise .underflow s :=
  withPop_nil empty fun e s => .go (returnEntry e s)

theorem microStep_pqPop_root {s : State} {root : Entry} {others : List Entry} (heap : s.heap = root :: others) :
    microStep .pqPop s = .go (returnEntry root { s with heap := heapPop s.latched.mode s.heap }) :=
  withPop_cons heap fun e s => .go (returnEntry e s)

theorem microStep_pqTop_empty {s : State} (empty : s.heap = []) : microStep .pqTop s = .raise .underflow s :=
  withTop_nil empty fun e s => .go (returnEntry e s)

theorem microStep_pqTop_root {s : State} {root : Entry} {others : List Entry} (heap : s.heap = root :: others) :
    microStep .pqTop s = .go (returnEntry root s) :=
  withTop_cons heap fun e s => .go (returnEntry e s)

/-! ## The commands -/

/-- Settles O32: the entry pushed is the one latched from ARG and ARG2, and `heapPush` keeps the entries and their order. -/
theorem pqPushInsertsTheEntry : Obligations.PqPushInsertsTheEntry := by
  refine fun s ready => ⟨fun room ordered => ?_, fun full => ?_⟩
  · exact ⟨heapPush s.pqMode ⟨s.arg, s.arg2.tie, s.arg2.tag⟩ s.heap,
      command_oneStep .pqPush ready rfl (microStep_pqPush_room room) rfl, heapPush_perm .., heapPush_ordered ordered _⟩
  · exact command_oneRaise .pqPush ready rfl rfl (microStep_pqPush_full full.ge)

/-- Settles O33: `heapPop` keeps the other entries and their order, and the root of an ordered queue is first
(`entryBefore_root`). -/
theorem pqPopRemovesTheRoot : Obligations.PqPopRemovesTheRoot := by
  refine fun s ready => ⟨fun root others heap ordered => ?_, fun empty => ?_⟩
  · exact ⟨heapPop s.pqMode s.heap, command_oneStep .pqPop ready rfl (microStep_pqPop_root heap) rfl,
      heap ▸ heapPop_perm s.pqMode root others, heapPop_ordered ordered, heap ▸ entryBefore_root (heap ▸ ordered)⟩
  · exact command_oneRaise .pqPop ready rfl rfl (microStep_pqPop_empty empty)

/-- Settles O34: the root is returned and the queue left alone. -/
theorem pqTopReadsTheRoot : Obligations.PqTopReadsTheRoot := fun _ ready =>
  ⟨fun _ _ heap => command_oneStep .pqTop ready rfl (microStep_pqTop_root heap) rfl,
    fun empty => command_oneRaise .pqTop ready rfl rfl (microStep_pqTop_empty empty)⟩

/-- Settles O35: each of the two commands is one step, which goes on in every state. -/
theorem pqSizeAndPqClear : Obligations.PqSizeAndPqClear := fun _ ready =>
  ⟨command_oneStep .pqSize ready rfl rfl rfl, command_oneStep .pqClear ready rfl rfl rfl⟩

/-! ## The mode -/

/-- A write to CTRL without SOFT_RESET (R163). -/
theorem writeCtrl_noReset {v : Word} (noReset : v.getLsbD 1 = false) (s : State) :
    writeCtrl v s = if !s.busy && s.heap.isEmpty then { s with pqMode := .ofBit (v.getLsbD 0) } else s :=
  if_neg (by rw [noReset]; decide)

theorem writeCtrl_setsMode {s : State} {v : Word} (noReset : v.getLsbD 1 = false) (busy : s.busy = false) (empty : s.heap = []) :
    writeCtrl v s = { s with pqMode := .ofBit (v.getLsbD 0) } := by
  rw [writeCtrl_noReset noReset]
  exact if_pos (by simp [busy, empty])

theorem writeCtrl_keepsMode {s : State} {v : Word} (noReset : v.getLsbD 1 = false) (held : s.busy = true ∨ s.heap ≠ []) :
    writeCtrl v s = s := by
  rw [writeCtrl_noReset noReset]
  refine if_neg ?_
  rcases held with busy | entries
  · simp [busy]
  · simp [entries]

/-- Settles O16: the write sets the mode of an idle block with an empty queue (`writeCtrl_setsMode`) and is else only acknowledged
(`writeCtrl_keepsMode`). -/
theorem modeChangesOnlyWhenIdleAndEmpty : Obligations.ModeChangesOnlyWhenIdleAndEmpty := by
  intro s v rest write noReset
  rw [step_writes write (by decide)]
  let u : State := { s with events := rest, reply := .ack }
  exact ⟨fun busy empty => (congrArg settle (writeCtrl_setsMode (s := u) noReset busy empty)).trans (settle_idle busy),
    fun held => congrArg settle (writeCtrl_keepsMode (s := u) noReset held)⟩

end Sys2Proof.Machine
end

section
/-! PROOFS. The codec family: the start and the scan of COMPRESS (R182, R183, R239), and its codes (R196). -/

namespace Sys2Proof.Machine

open Sys2Proof.Artifact

/-! ## The start -/

/-- The scan waits for a source that does not answer (R9, R66). -/
theorem scanStep_waits {s : State} (silent : s.ports.src.holds [] false) : scanStep s = .wait := by
  unfold scanStep
  rw [srcRead_waits silent]
  rfl

/-- Settles O37: CInit runs, and the scan waits for the first byte. -/
theorem compressStartsFresh : Obligations.CompressStartsFresh := by
  intro s ready silent
  have start : Reaches 1 (accept .compress compressSteps s) _ := .one (m := .cInit) (rest := compressSteps.drop 1) rfl rfl
  exact (command_ready ready rfl).trans (settle_of_waits rfl start (by decide) rfl (m := .scan) (scanStep_waits silent))

/-! ## The codes -/

theorem walk_leaf_iff {sym x : Byte} {p : List Bool} : (Artifact.Tree.leaf sym).walk p = some x ↔ p = [] ∧ sym = x := by
  cases p <;> simp [Artifact.Tree.walk]

/-- Two paths to leaves, one the beginning of the other, lead to the same leaf. -/
theorem walk_of_prefix {t : Artifact.Tree} {x y : Byte} : ∀ {p q : List Bool},
    p <+: q → t.walk p = some x → t.walk q = some y → x = y := by
  induction t with
  | leaf sym => exact fun _ hp hq => (walk_leaf_iff.1 hp).2.symm.trans (walk_leaf_iff.1 hq).2
  | node l r ihl ihr =>
    intro p q begins hp hq
    match p, q, begins with
    | [], _, _ => cases hp
    | b :: p, c :: q, begins =>
      obtain ⟨same, begins'⟩ := List.cons_prefix_cons.1 begins
      subst same
      cases b with
      | false => exact ihl begins' hp hq
      | true => exact ihr begins' hp hq

/-- Settles O40: a code is a path to its symbol's leaf, and a path that leads to a leaf does not go on (`walk_of_prefix`). -/
theorem codesArePrefixFree : Obligations.CodesArePrefixFree := by
  intro xs a b alphabet ha hb differ pre
  exact differ (walk_of_prefix pre (code_walk (treeOf_mem alphabet ha)) (code_walk (treeOf_mem alphabet hb)))

/-! ## The scan -/

/-- COMPRESS in the scan, with some bytes stored and `n` of them read. -/
def State.scanning (s : State) (xs : List Byte) (n : Nat) (todo : List Micro) : State :=
  { (s.blank.compressing .cScan todo).scanned (s.inbuf.store 0 xs) (Tables.zero.countAll xs) xs.length with
    srcCount := BitVec.ofNat 32 n }

/-- COMPRESS from its acceptance to the answer after the bytes (R182, R183). -/
theorem goes_scanned {s : State} {w : Wire} {xs : List Byte} {items : List SrcItem} (alphabet : ∀ x ∈ xs, x.toNat < 128)
    (legal : s.params.legal) (fits : xs.length ≤ s.params.inbufCap) :
    Goes (xs.length + 1) (accept .compress compressSteps s) { w with left := xs.map .byte ++ items }
      (s.scanning xs xs.length (compressSteps.drop 1)) { w with left := items } := by
  have big := legal.2.2.2
  have start := goes_cInit (s := s) (w := { w with left := xs.map .byte ++ items }) (steps := compressSteps.drop 1)
  have scan := goes_scan (s := s.blank) (w := w) (rest := compressSteps.drop 2) (items := items) xs (m := s.inbuf) (t := .zero)
    (n := 0) alphabet (by rw [Nat.zero_add]; exact fits) (by show s.params.inbufCap < _; omega)
  rw [Nat.zero_add] at scan
  exact (start.trans scan).mono (by omega)

/-- COMPRESS whose scan raises after the bytes, `n` bytes read by then (R234 to R236). -/
theorem compress_scanFails {s : State} {xs : List Byte} {items : List SrcItem} {ended : Bool} {e : ErrCode} {n : Nat}
    (ready : s.ready) (legal : s.params.legal) (alphabet : ∀ x ∈ xs, x.toNat < 128) (fits : xs.length ≤ s.params.inbufCap)
    (source : s.ports.src.holds (xs.map .byte ++ items) ended)
    (raises : ∀ p : Ports, p.src.holds items ended → ∃ p' : Ports, p'.sunk = p.sunk ∧
      scanStep ((s.scanning xs xs.length (compressSteps.drop 2)).on p) =
        .raise e ((s.scanning xs n (compressSteps.drop 2)).on p')) :
    ∃ t, exec .compress s = .next t ∧ s.failedCodec t e 0x31#8 .cScan ∧
      t.ports.sunk = s.ports.sunk ∧ t.ports.trace.take 2 = [.snkClose, .srcClose] ∧
      t.srcCount = BitVec.ofNat 32 n ∧ t.snkCount = 0#32 ∧ t.symcount = s.symcount ∧ t.treeNodes = 0#32 ∧ t.heap = [] ∧
      ∀ sym : Byte, sym.toNat < 128 → t.tables.freqAt sym = BitVec.ofNat 32 (occurrences xs sym) := by
  let w : Wire := ⟨[], ended, 0, false, s.ports.sunk⟩
  have chain := goes_scanned (w := w) (items := items) alphabet legal fits
  have offers : ({ w with left := xs.map .byte ++ items } : Wire).of s.ports := ⟨source, nofun, nofun, rfl⟩
  have bound : xs.length + 1 + 7 ≤ seqTurns := by
    have := legal.2.2.2
    unfold seqTurns
    omega
  obtain ⟨p, sunk, run⟩ := command_of_raise (t' := s.scanning xs n (compressSteps.drop 2)) ready rfl offers chain
    (m := .scan) rfl (fun p hp => raises p hp.src) (show isCodec 0x31#8 = true from rfl) rfl bound
  refine ⟨_, run, failedCodec_failed ?_ rfl rfl, (Ports.sunk_closed p).trans sunk, rfl, rfl, rfl, rfl, rfl, rfl,
    fun sym hs => freq_counted alphabet hs⟩
  exact ⟨rfl, rfl, rfl, rfl, rfl, rfl, rfl, rfl, rfl, rfl, rfl, rfl, rfl⟩

/-- The byte that raises has been read. -/
theorem scanning_reads (s : State) (xs : List Byte) (todo : List Micro) (p : Ports) :
    { (s.scanning xs xs.length todo) with srcCount := (s.scanning xs xs.length todo).srcCount + 1, ports := p } =
      (s.scanning xs (xs.length + 1) todo).on p := by
  simp only [State.scanning, State.on, BitVec.ofNat_add]
  rfl

/-- Settles O41: the scan reads the bytes (`goes_scanned`), and what it does with the answer after them is one of the raises of
`scanStep`. -/
theorem compressScanErrors : Obligations.CompressScanErrors := by
  intro s xs items ended ready legal alphabet fits stops
  refine ⟨fun source => ?_, fun b outside source => ?_, fun b inside full source => ?_⟩
  · refine compress_scanFails ready legal alphabet fits source fun p hp => ?_
    exact ⟨_, Ports.sunk_givingThen (by simp), scanStep_ioErr hp⟩
  · refine compress_scanFails ready legal alphabet fits source fun p hp => ⟨p.giving [b] items ended, Ports.sunk_giving, ?_⟩
    exact (scanStep_symbol hp outside).trans (congrArg (Move.raise _) (scanning_reads ..))
  · refine compress_scanFails ready legal alphabet fits source fun p hp => ⟨p.giving [b] items ended, Ports.sunk_giving, ?_⟩
    have full : s.params.inbufCap ≤ (BitVec.ofNat 32 xs.length).toNat := by
      have := legal.2.2.2
      rw [BitVec.toNat_ofNat]
      omega
    exact (scanStep_tooLong hp inside full).trans (congrArg (Move.raise _) (scanning_reads ..))

end Sys2Proof.Machine
end

section
/-! PROOFS. The codec family: DECOMPRESS to its end (R201 to R211), and of what COMPRESS appended (R212). -/

namespace Sys2Proof.Machine

open Sys2Proof.Artifact

/-! ## Completion -/

/-- Settles O43: the chain of steps from acceptance to the close (`goes_decompress`). -/
theorem decompressFollowsThePaths : Obligations.DecompressFollowsThePaths := by
  intro s tree ps bs items ended ready small walks count bytes begins source sink
  let w : Wire := ⟨[], ended, 0, false, []⟩
  obtain ⟨v, chain⟩ := goes_decompress (s := s) (w := w) (items := items) (sunk := s.ports.sunk) small walks count begins le_rfl
  have offers : ((w.readAt bs items 0).gave ps.length s.ports.sunk).of s.ports := ⟨source, fun _ => sink, nofun, rfl⟩
  obtain ⟨p, taken, run⟩ := command_of_goes ready rfl offers chain (.inl rfl) (by unfold seqTurns; omega)
  refine ⟨_, run, (Ports.sunk_closed p).trans taken.sunk, rfl, ?_, rfl, rfl, ?_, rfl, rfl, rfl, rfl, ?_⟩
  · exact congrArg (BitVec.ofNat 32) bytes.symm
  · exact congrArg (BitVec.ofNat 32) (nodesOf_length 0 tree)
  · exact ⟨rfl, rfl, ready.2, rfl, rfl, rfl, rfl, rfl, rfl, ⟨rfl, rfl, rfl, rfl, rfl, rfl, rfl, rfl, rfl, rfl, rfl, rfl, rfl⟩⟩

/-! ## The round trip -/

/-- The input's symbols with the paths that their codes are (R106, R206). -/
def pathsOf (xs : List Byte) : List (List Bool × Byte) := xs.map fun x => (code (treeOf xs) x, x)

/-- The paths lead to the symbols' leaves. -/
theorem walk_pathsOf {xs : List Byte} (alphabet : ∀ x ∈ xs, x.toNat < 128) :
    ∀ p ∈ pathsOf xs, (treeOf xs).walk p.1 = some p.2 :=
  List.forall_mem_map.2 fun _ hx => code_walk (treeOf_mem alphabet hx)

/-- The artifact's bits are a tree, a count and that many paths. -/
theorem artifactBits_eq_streamBits (xs : List Byte) : artifactBits xs = streamBits (treeOf xs) (pathsOf xs) := by
  simp [artifactBits, streamBits, pathsOf, List.flatMap_map]

/-- Settles O44: COMPRESS appends the artifact (`compressAppendsTheArtifact`), whose bits are its tree, its count and the paths to its
symbols (`artifactBits_eq_streamBits`), and DECOMPRESS follows them (`decompressFollowsThePaths`). -/
theorem decompressInvertsCompress : Obligations.DecompressInvertsCompress := by
  intro s xs ready legal source sink alphabet fits
  obtain ⟨t, run, sunk, -⟩ := compressAppendsTheArtifact s xs ready legal source sink alphabet fits
  refine ⟨t, artifact xs, run, sunk, fun s' ready' source' sink' => ?_⟩
  have bits := artifactBits_eq_streamBits xs
  have count : (pathsOf xs).length = xs.length := List.length_map ..
  have symbols : (pathsOf xs).map Prod.snd = xs := by simp [pathsOf, Function.comp_def]
  have whole : (artifact xs).length = bytesFor (streamBits (treeOf xs) (pathsOf xs)).length := bits ▸ pack_length _
  have begins : streamBits (treeOf xs) (pathsOf xs) <+: unpack (artifact xs) := bits ▸ prefix_unpack_pack _
  obtain ⟨t', run', sunk', -, -, -, -, -, -, -, -, -, completed⟩ :=
    decompressFollowsThePaths s' (treeOf xs) (pathsOf xs) (artifact xs) [] true ready' (treeOf_nodup alphabet).2.2
      (walk_pathsOf alphabet) (by have := legal.2.2.2; omega) whole begins (by rwa [List.append_nil]) (count ▸ sink')
  exact ⟨t', run', completed.err, completed.intDone, symbols ▸ sunk'⟩

end Sys2Proof.Machine
end

section
/-! PROOFS. The codec family: DECOMPRESS where it fails (R203, R205, R206, R209, R234 to R236). -/

namespace Sys2Proof.Machine

open Sys2Proof.Artifact

/-- DECOMPRESS with the steps still to run, after `p` bits of the bytes and `k` symbols. -/
def State.decompressingAt (s : State) (phase : Phase) (symcount : Word) (nodes : List Node) (stack : List Frame) (v : Word)
    (bs : List Byte) (p k : Nat) (todo : List Micro) : State :=
  ((s.decompressing phase 0#8 symcount).inTree nodes stack v todo bs p).counted k

/-- DECOMPRESS that is followed up to a step that raises fails in that phase, and cleans up (R234 to R236). -/
theorem decompress_raises {s : State} {phase : Phase} {count symcount v : Word} {nodes : List Node} {stack : List Frame}
    {bs : List Byte} {p k n : Nat} {m : Micro} {rest : List Micro} {e : ErrCode} {w w' : Wire} (ready : s.ready)
    (offers : w.of s.ports)
    (chain : Goes n (accept .decompress decompressSteps s) w (s.decompressingAt phase count nodes stack v bs p k (m :: rest)) w')
    (raises : ∀ q, w'.of q → ∃ q' : Ports, q'.sunk = q.sunk ∧
      microStep m ((s.decompressingAt phase count nodes stack v bs p k rest).on q) =
        .raise e ((s.decompressingAt phase symcount nodes stack v bs p k rest).on q'))
    (bound : n + 7 ≤ seqTurns) :
    ∃ q, let t := ((s.decompressingAt phase symcount nodes stack v bs p k rest).on q).failed e 0x32#8 phase
      exec .decompress s = .next t ∧ s.failedCodec t e 0x32#8 phase ∧ t.ports.sunk = w'.sunk := by
  obtain ⟨q, sunk, run⟩ := command_of_raise (t' := s.decompressingAt phase symcount nodes stack v bs p k rest) ready rfl offers
    chain rfl raises (show isCodec 0x32#8 = true from rfl) rfl bound
  exact ⟨q, run, failedCodec_failed ⟨rfl, rfl, rfl, rfl, rfl, rfl, rfl, rfl, rfl, rfl, rfl, rfl, rfl⟩ rfl rfl,
    (Ports.sunk_closed q).trans sunk⟩

/-! ## The arena bound -/

/-- Settles O45: 255 tokens are read and fill the arena (`goes_tokens`), one more tag bit is read, and the token is then refused. -/
theorem decompressBoundsTheArena : Obligations.DecompressBoundsTheArena := by
  intro s tokens need tag bs ended ready length opened begins source
  obtain ⟨hTokens, hTag⟩ := stream_append (p := 0) begins
  have inside := stream_bound hTokens (Nat.zero_le _)
  let w : Wire := ⟨[], ended, 0, false, s.ports.sunk⟩
  let s₀ := (s.decompressing .dTree 0#8 s.symcount).counted 0
  have start := goes_dInit (s := s) (w := w.readAt bs [] 0) bs
  obtain ⟨nodes, stack, v, read, size⟩ := goes_tokens (s := s₀) (w := w) (items := []) (rest := decompressSteps.drop 4) tokens
    (nodes := []) (stack := []) (v := 0#32) opened hTokens (Nat.zero_le _) (by rw [length]; rfl) le_rfl nofun
  have full : nodes.length = 255 := by rw [size, length]; rfl
  have tagged := goes_tag (s := s₀) (w := w) (items := []) (nodes := nodes) (stack := stack) (v := v)
    (rest := decompressSteps.drop 4) hTag inside
  have offers : (w.readAt bs [] 0).of s.ports := ⟨by simpa [Wire.readAt] using source, nofun, nofun, rfl⟩
  obtain ⟨q, run, failed, sunk⟩ := decompress_raises (phase := .dTree) (k := 0) (symcount := s.symcount) ready offers
    ((start.trans read).trans tagged) (fun q _ => ⟨q, rfl, treeToken_full full.ge⟩) (by rw [length]; decide)
  exact ⟨_, run, failed, congrArg (BitVec.ofNat 32) full, rfl, rfl, sunk, rfl⟩

/-! ## The count -/

theorem takeCount_negative {s : State} (negative : s.seq.value.msb = true) :
    takeCount s = .raise .badCount { s with symcount := s.seq.value } := if_pos negative

/-- Settles O46: the tree and the count are read (`goes_count`), and the count is written and then refused. -/
theorem decompressRefusesANegativeCount : Obligations.DecompressRefusesANegativeCount := by
  intro s tree count bs ended ready small negative begins source
  let w : Wire := ⟨[], ended, 0, false, s.ports.sunk⟩
  have start := goes_dInit (s := s) (w := w.readAt bs [] 0) bs
  have read := goes_count (s := s) (w := w) (items := []) (rest := .enterPhase .dClose :: closeSteps) begins small
  have offers : (w.readAt bs [] 0).of s.ports := ⟨by simpa [Wire.readAt] using source, nofun, nofun, rfl⟩
  obtain ⟨q, run, failed, sunk⟩ := decompress_raises (symcount := count) ready offers (start.trans read)
    (fun q _ => ⟨q, rfl, takeCount_negative negative⟩) (by unfold seqTurns; omega)
  exact ⟨_, run, failed, rfl, congrArg (BitVec.ofNat 32) (nodesOf_length 0 tree), sunk, rfl⟩

/-! ## Streams that stop -/

/-- A stream that stops gives the sink nothing. -/
theorem Stops.sunk {items left : List SrcItem} {ended : Bool} {e : ErrCode} {last : PortEvent}
    (stops : Stops items ended e last left) (p : Ports) : (p.givingThen [] last left ended).sunk = p.sunk :=
  Ports.sunk_givingThen (by cases stops <;> simp)

/-- The source after the last bit of the bytes. -/
theorem holds_at_end {w : Wire} {bs : List Byte} {items : List SrcItem} {room : Nat} {sunk : List Byte} {p : Ports}
    (offers : ((w.readAt bs items (8 * bs.length)).gave room sunk).of p) : p.src.holds items w.ended := by
  have consumed : (8 * bs.length + 7) / 8 = bs.length := by omega
  simpa [Wire.readAt, Wire.gave, consumed] using offers.src

/-- Settles O47: in whichever of the two ways the stream stops, DECOMPRESS comes to a bit that is no longer there
(`goes_truncated`), and its read raises. -/
theorem decompressReportsTruncation : Obligations.DecompressReportsTruncation := by
  intro s tree ps bs ready small walks count begins short sink given phase stops
  have hgiven : given = 8 * bs.length := unpack_length bs
  have hphase : phase = starvedPhase tree (8 * bs.length) := hgiven ▸ rfl
  suffices report : ∀ {items left ended e last}, Stops items ended e last left →
      s.ports.src.holds (bs.map .byte ++ items) ended → stops e from
    ⟨fun source => report .ended (by rwa [List.append_nil]), fun items ended source => report (.ioErr items ended) source⟩
  intro items left ended e last ends source
  let w : Wire := ⟨[], ended, 0, false, []⟩
  obtain ⟨k, nodes, stack, v, rest, cut, chain⟩ := goes_truncated (s := s) (w := w) (items := items) (sunk := s.ports.sunk) small
    walks count begins short le_rfl
  rw [← hphase] at cut chain
  have offers : ((w.readAt bs items 0).gave ps.length s.ports.sunk).of s.ports := ⟨source, fun _ => sink, nofun, rfl⟩
  have consumed : (8 * bs.length + 7) / 8 = bs.length := by omega
  obtain ⟨q, run, failed, sunk⟩ := decompress_raises
    (symcount := if phase = .dDecode then BitVec.ofNat 32 ps.length else s.symcount) ready offers chain
    (fun q hq => ⟨_, ends.sunk q, readBit_stops ends (cursorAt_end bs) (holds_at_end hq)⟩)
    (by unfold seqTurns; omega)
  exact ⟨_, k, run, failed, hgiven ▸ cut, sunk, rfl, congrArg (BitVec.ofNat 32) consumed, rfl, rfl⟩

/-! ## A sink that refuses -/

/-- Settles O48: the chain of steps from acceptance to the append that the sink refuses (`goes_symbol`). -/
theorem decompressReportsASinkFailure : Obligations.DecompressReportsASinkFailure := by
  intro s tree ps k bs items ended ready small walks count less read bytes begins source sink refuses
  let w : Wire := ⟨[], ended, 0, true, []⟩
  obtain ⟨v, rest, chain⟩ := goes_symbol (s := s) (w := w) (items := items) (sunk := s.ports.sunk) small walks count less begins
  have offers : ((w.readAt bs items 0).gave k s.ports.sunk).of s.ports := ⟨source, fun _ => sink, fun _ => refuses, rfl⟩
  obtain ⟨q, run, failed, sunk⟩ := decompress_raises (symcount := BitVec.ofNat 32 ps.length) ready offers chain
    (fun _ hq => let ⟨q', sunk, raise⟩ := appendByte_refuses (hq.full rfl); ⟨q', sunk, raise⟩) (by unfold seqTurns; omega)
  have consumed : bytesFor (tree.bits.length + 32 + ((ps.take (k + 1)).flatMap Prod.fst).length) = bs.length := by
    rw [bytes]
    simp only [read, List.length_append, msbFirst_length]
  exact ⟨_, run, failed, sunk, rfl, rfl, congrArg (BitVec.ofNat 32) consumed, rfl,
    congrArg (BitVec.ofNat 32) (nodesOf_length 0 tree), rfl, rfl⟩

end Sys2Proof.Machine
end

section
/-! PROOFS. The exceptions family: words that CMD drops or refuses (R232, R233), and the idle block (R252). -/

namespace Sys2Proof.Machine

/-! ## Dropped words -/

/-- BUSY or STATUS.ERR keeps the block from accepting a word (R232). -/
theorem not_ready_of_busy_or_err {s : State} (held : s.busy = true ∨ s.err = true) : ¬ s.ready := by
  rintro ⟨busy, err⟩
  simp [busy, err] at held

/-- A legal word: of the three things it can do at CMD (`exec_settles`), a block that is not ready leaves the first. -/
theorem exec_drops {s : State} (held : s.busy = true ∨ s.err = true) (i : Instr) : exec i s = settle (dropCommand s) := by
  have notReady := not_ready_of_busy_or_err held
  obtain ⟨-, -, ⟨-, run⟩ | ⟨ready, -, -⟩ | ⟨ready, -, -⟩⟩ := exec_settles i s
  · exact run
  · exact absurd ready notReady
  · exact absurd ready notReady

/-- An illegal word is dropped before it could raise E_ILLEGAL. -/
theorem illegalCommand_drops {s : State} (held : s.busy = true ∨ s.err = true) (opcode : Byte) :
    illegalCommand opcode s = settle (dropCommand s) :=
  if_pos (by simpa using held)

theorem writeCmd_of_refused {w : Word} {e : DecodeError} (h : decode w = .error e) (s : State) :
    writeCmd w s = illegalCommand (opcodeField w) s := by
  unfold writeCmd; rw [h]

/-- Any word written to CMD is dropped then, legal or not. -/
theorem writeCmd_drops {s : State} (held : s.busy = true ∨ s.err = true) (w : Word) :
    writeCmd w s = settle (dropCommand s) := by
  cases word : decode w with
  | ok i => exact (writeCmd_of_decode word s).trans (exec_drops held i)
  | error _ => exact (writeCmd_of_refused word s).trans (illegalCommand_drops held _)

/-- Settles O7: the word is dropped whether it decodes or not (`writeCmd_drops`), and so is a command (`exec_drops`). -/
theorem busyOrErrDropsTheWord : Obligations.BusyOrErrDropsTheWord :=
  ⟨fun s w rest write held => (step_writesCmd write).trans (writeCmd_drops (s := { s with events := rest, reply := .ack }) held w),
    fun _ i held => exec_drops held i,
    fun _ => settle_idle⟩

/-! ## Illegal words -/

/-- On a ready block an illegal word raises E_ILLEGAL, and there is nothing to run after it (R233). -/
theorem illegalCommand_ready {s : State} (ready : s.ready) (opcode : Byte) :
    illegalCommand opcode s = .next (illegalWord opcode s) := by
  obtain ⟨busy, err⟩ := ready
  unfold illegalCommand
  rw [if_neg (by simp [busy, err])]
  exact settle_idle busy

/-- ERR with code E_ILLEGAL and PHASE 0: only OPCODE is not fixed (R30). -/
theorem toWord_illegal (opcode : Byte) : ErrReg.toWord ⟨.illegal, opcode, .idle⟩ = 0#16 ++ opcode ++ 0x01#8 := by
  have high : 0#12 ++ Phase.idle.code = 0#16 := by decide
  unfold ErrReg.toWord
  rw [high]
  rfl

/-- Settles O6: a word that does not decode comes to `illegalCommand`, which raises the error at once (`illegalCommand_ready`). -/
theorem illegalWordRaisesAtOnce : Obligations.IllegalWordRaisesAtOnce := by
  intro s w e rest write ready refused
  refine ⟨?_, toWord_illegal _⟩
  let u : State := { s with events := rest, reply := .ack }
  calc step s
    _ = writeCmd w u := step_writesCmd write
    _ = illegalCommand (opcodeField w) u := writeCmd_of_refused refused u
    _ = .next (illegalWord (opcodeField w) u) := illegalCommand_ready (s := u) ready _

/-! ## The idle block -/

/-- Settles O8: without input a step only lets the SEQUENCER run, and an idle block has nothing to run. -/
theorem idleBlockHoldsItsState : Obligations.IdleBlockHoldsItsState := by
  intro s noInput idle
  unfold step
  rw [noInput]
  exact settle_idle idle

end Sys2Proof.Machine
end

section
/-! PROOFS. The reset family: SOFT_RESET (R263), and HC_RST asserted, held and released (R260). -/

namespace Sys2Proof.Machine

/-! ## The devices at a reset -/

/-- No close event is recorded (R262, R263), whether the streams are abandoned or not. -/
theorem resetBlock_trace (s : State) : (resetBlock s).ports.trace = s.ports.trace := by
  cases running : s.busy <;> simp [resetBlock, running, Ports.abandoned]

/-- The devices are not the block's: only a command abandoned in the middle gives up its streams (R278, log 23). -/
theorem resetBlock_ports_idle {s : State} (idle : s.busy = false) : (resetBlock s).ports = s.ports := by
  simp [resetBlock, idle]

/-! ## SOFT_RESET -/

theorem writeCtrl_reset {v : Word} (softReset : v.getLsbD 1 = true) (s : State) : writeCtrl v s = resetBlock s :=
  if_pos softReset

/-- Settles O17: the write resets the block (`writeCtrl_reset`), and no command is left to run. -/
theorem softResetReachesTheResetState : Obligations.SoftResetReachesTheResetState := by
  intro s v rest write softReset
  let u : State := { s with events := rest, reply := .ack }
  refine ⟨(resetBlock u).ports, resetBlock_trace u, resetBlock_ports_idle (s := u), ?_⟩
  calc step s
    _ = settle (writeCtrl v u) := step_writes write (by decide)
    _ = settle (resetBlock u) := congrArg settle (writeCtrl_reset softReset u)
    _ = .next (resetBlock u) := settle_idle rfl

/-! ## HC_RST -/

/-- A step whose input is a level of the HC_RST pin. -/
theorem step_hcRst {s : State} {level : Bool} {rest : List Event} (input : s.events = .hcRst level :: rest) :
    step s = settle (hcRst level { s with events := rest }) := by
  unfold step
  rw [input]
  rfl

theorem hcRst_asserted (s : State) : hcRst s.params.hcRstActiveHigh s = { resetBlock s with inReset := true } :=
  if_pos rfl

theorem hcRst_released (s : State) : hcRst (!s.params.hcRstActiveHigh) s = { s with inReset := false } :=
  if_neg (Bool.not_ne_self _)

/-- A write to any register, CMD too, while HC_RST is asserted (R260, log 9). -/
theorem hostAccess_writeHeld {s : State} {off : Nat} {v : Word} (held : s.inReset = true) (aligned : off % 4 = 0)
    (inside : off < Config.windowBytes) :
    hostAccess ⟨s.params.hcBase + off, 4, some v⟩ s = settle { s with reply := .ack } := by
  simp [hostAccess, selected, isWordAccess, aligned, inside, held]

/-- A step whose input is such a write. -/
theorem step_writesHeld {s : State} {off : Nat} {v : Word} {rest : List Event} (held : s.inReset = true)
    (aligned : off % 4 = 0) (inside : off < Config.windowBytes)
    (input : s.events = .access ⟨s.params.hcBase + off, 4, some v⟩ :: rest) :
    step s = settle { s with events := rest, reply := .ack } := by
  unfold step
  rw [input]
  exact hostAccess_writeHeld (s := { s with events := rest }) held aligned inside

/-- Settles O18: each of the three inputs leaves an idle block, which then has nothing to run: HC_RST asserted (`hcRst_asserted`), a
write meanwhile (`step_writesHeld`), and HC_RST released (`hcRst_released`). -/
theorem hardwareResetHoldsTheResetState : Obligations.HardwareResetHoldsTheResetState := by
  refine ⟨?asserted, ?held, ?released⟩
  case asserted =>
    intro s rest input
    let u : State := { s with events := rest }
    refine ⟨(resetBlock u).ports, resetBlock_trace u, ?_⟩
    calc step s
      _ = settle (hcRst u.params.hcRstActiveHigh u) := step_hcRst input
      _ = settle { resetBlock u with inReset := true } := congrArg settle (hcRst_asserted u)
      _ = .next { resetBlock u with inReset := true } := settle_idle rfl
  case held =>
    intro s off v rest held idle aligned inside input
    exact (step_writesHeld held aligned inside input).trans (settle_idle idle)
  case released =>
    intro s rest input idle
    let u : State := { s with events := rest }
    calc step s
      _ = settle (hcRst (!u.params.hcRstActiveHigh) u) := step_hcRst input
      _ = settle { u with inReset := false } := congrArg settle (hcRst_released u)
      _ = .next { u with inReset := false } := settle_idle idle

end Sys2Proof.Machine
end
